-- ==== Sys2Proof/Word.lean ====
section
/-! DEFINITION. The word types of dct2_transform_engine (00_scope.md R11, R12): 32-bit words, 64-bit Y elements, bytes,
and the 19-bit host byte address (20_memory.md R70), with the two widths of 00_scope.md R9 they are made of (its other
parameters stand in Config.lean). -/

namespace Sys2Proof

/-- DATA_W (R9): the width of a host bus data word. -/
abbrev Config.dataW : Nat := 32

/-- ADDR_W (R9): the width of the host byte address. -/
abbrev Config.addrW : Nat := 19

/-- A register, a host bus data word, a buffer word or a command word (R9 DATA_W, R11). -/
abbrev Word := BitVec Config.dataW

/-- A Y element, two data words (10_state.md R49). -/
abbrev DWord := BitVec 64

/-- One byte of buffer memory (20_memory.md R73). -/
abbrev Byte := BitVec 8

/-- A host byte address (R9 ADDR_W, 20_memory.md R70). -/
abbrev BusAddr := BitVec Config.addrW

end Sys2Proof
end

