-- ==== Sys2Proof/Config.lean ====
section
/-! DEFINITION. What the implementation fixes (00_scope.md R9, 10_state.md R26, R27) as named constants (R9's two widths,
`dataW` and `addrW`, stand in Word.lean beside the types made of them), and the values the spec leaves free, as constants
with no body. -/

namespace Sys2Proof.Config

/-- NMAX (R9): the capacity, in elements, of each sample, scaled, coefficient and symbol buffer. -/
abbrev nmax : Nat := 4096

/-- KMAX (R9): the largest legal block size. -/
abbrev kmax : Nat := 16

/-- RMAX (R9): the largest legal resolution. -/
abbrev rmax : Nat := 16

/-- NODEMAX (R9, C11): the largest number of tree nodes, 2·NMAX − 1. -/
abbrev nodemax : Nat := 8191

/-- CODEMAX (R9): the largest code length, in bits, that CTAB can hold. -/
abbrev codemax : Nat := 32

/-- BITMAX (R9): the capacity of BITS in bits. -/
abbrev bitmax : Nat := 131072

/-- SFRAC (R9): the fraction bits of a sample word. -/
abbrev sfrac : Nat := 16

/-- YFRAC (R9): the fraction bits of a Y element. -/
abbrev yfrac : Nat := 24

/-- ID (10_state.md R26), hardwired. -/
abbrev idValue : Word := 0x44435432#32

/-- CAPS (10_state.md R27), hardwired: CODEMAX, KMAX and NMAX from the most significant byte down. -/
abbrev capsValue : Word := (BitVec.ofNat 8 codemax ++ BitVec.ofNat 8 kmax ++ BitVec.ofNat 16 nmax : BitVec 32)

/-- The value a read finds in a byte of buffer memory that holds none (10_state.md R53, 70_reset_and_hazards.md R341:
"a draw, under no law"). FREE: nothing constrains it. Applied to the draw counter of the state and the byte's address,
so that two reads in different draws need not agree. Log entry 1. -/
opaque unspecByte (draw addr : Nat) : Byte

/-- How many further host accesses fall between an accepted CMD write and the command's execution step
(40_command_model.md R122, 20_memory.md R81: "a scheduling choice"). FREE. Applied to the draw counter. Log entry 3. -/
opaque freeDelay (draw : Nat) : Nat

end Sys2Proof.Config
end

