-- ==== Sys2Proof/Syntax.lean ====
section
/-! DEFINITION. Syntax: the commands (30_encoding.md R103), the buffers and registers by name (10_state.md R23, R40), the
accesses of the host bus (20_memory.md R70) and the host program statements (30_encoding.md R107, R108). -/

namespace Sys2Proof

/-- The commands of the opcode table (R103). No command has an operand field (R102). -/
inductive Instr where
  | nop | chkcfg
  | segment | scale | fdct | quant
  | hcount | hbuild | henc | hdec
  | dequant | idct | unscale
  | encode | decode
deriving DecidableEq, Repr

/-- The buffer memories (10_state.md R40). -/
inductive Buffer where
  | inp | scl | coef | sym | ftab | ctab | tree | bits | dsym | dcoef | y | out
deriving DecidableEq, Repr

/-- The registers of the register page (10_state.md R23). -/
inductive RegName where
  | id | caps | ctrl | cmd | status | errinfo
  | blockK | res | minv | maxv
  | nsamp | nblk | nsym | ndist | nbits | ndsym | nrblk
  | satcntFwd | satcntInv | root | maxlen
  | qv (i : Fin Config.kmax)
deriving DecidableEq, Repr

/-- What HOST can do next to the block. -/
inductive HostEvent where
  /-- `MemRead(addr, width)`; the block accepts only width 4 (20_memory.md R71). -/
  | read (addr : BusAddr) (width : Nat)
  /-- `MemWrite(addr, width, w)`; the block accepts only width 4 (R71). -/
  | write (addr : BusAddr) (width : Nat) (w : Word)
  /-- The WAIT loop of 30_encoding.md R108: read STATUS until bit 0 reads 0. -/
  | waitIdle
  /-- The reset input is pulsed (70_reset_and_hazards.md R340). -/
  | hardReset
deriving DecidableEq, Repr

/-- A `<target>` of the host program syntax (30_encoding.md R107). -/
inductive Target where
  | reg (r : RegName)
  /-- Word 0 of element i: `IN[i]`, `SCL[i]` and so on. -/
  | elem (b : Buffer) (i : Nat)
  | ftabSymbol (i : Nat) | ftabCount (i : Nat)
  | ctabLen (i : Nat) | ctabCode (i : Nat)
  | treeWeight (i : Nat) | treeLeft (i : Nat) | treeRight (i : Nat) | treePayload (i : Nat)
  | yLo (i : Nat) | yHi (i : Nat)
  | raw (a : BusAddr)
deriving DecidableEq, Repr

/-- A host program statement or pseudo-instruction (30_encoding.md R107, R108). -/
inductive Stmt where
  | wr (t : Target) (v : Word)
  | rd (t : Target)
  | cmd (i : Instr)
  | wait
  | run (i : Instr)
  | clr
  | fillBuf (b : Buffer) (i : Nat) (vs : List Word)
  | fillQv (i : Nat) (vs : List Word)
  | softReset
  | expect (t : Target) (v : Word)
deriving DecidableEq, Repr

end Sys2Proof
end

