-- ==== Sys2Proof/WellFormed.lean ====
section
/-! DEFINITION. Checks on the syntax: a command word (30_encoding.md R100, R103, R104), a host access (20_memory.md R71),
a host program target and a `q(x)` literal (30_encoding.md R107). An `Instr` has no operand field (R102), so nothing in
one can be ill-formed. -/

namespace Sys2Proof

/-- The opcodes of R103. -/
def assignedOpcodes : List Byte :=
  [0x00, 0x01, 0x10, 0x11, 0x12, 0x13, 0x20, 0x21, 0x22, 0x23, 0x30, 0x31, 0x32, 0x40, 0x41]

/-- R100: bits 31:8 of a command word must be zero. -/
def mbzIsZero (w : Word) : Bool := w.extractLsb' 8 24 == 0

/-- R103: bits 7:0 of a command word are an assigned opcode. -/
def opcodeIsAssigned (w : Word) : Bool := assignedOpcodes.contains (w.extractLsb' 0 8)

/-- A legal command word: the converse of R104. -/
def wordWellFormed (w : Word) : Bool := mbzIsZero w && opcodeIsAssigned w

/-- R71: the access is 4 bytes wide. -/
def widthOk (width : Nat) : Bool := width == 4

/-- R71: the address is 4-byte aligned. -/
def aligned (a : BusAddr) : Bool := a.extractLsb' 0 2 == 0

/-- R71 for a host event; WAIT and the reset input name no address. -/
def HostEvent.wellFormed : HostEvent → Bool
  | .read a w => widthOk w && aligned a
  | .write a w _ => widthOk w && aligned a
  | .waitIdle => true
  | .hardReset => true

/-- The number of elements of a buffer (10_state.md R40), for the index check of a target. -/
def Buffer.indexBound : Buffer → Nat
  | .tree => Config.nodemax + 1
  | _ => Config.nmax

/-- A target's element index lies inside its buffer (R107, 20_memory.md R75). -/
def Target.wellFormed : Target → Bool
  | .reg _ => true
  | .elem b i => i < b.indexBound
  | .ftabSymbol i | .ftabCount i => i < Buffer.indexBound .ftab
  | .ctabLen i | .ctabCode i => i < Buffer.indexBound .ctab
  | .treeWeight i | .treeLeft i | .treeRight i | .treePayload i => i < Buffer.indexBound .tree
  | .yLo i | .yHi i => i < Buffer.indexBound .y
  | .raw _ => true

/-- R107: `q(x)` is a value only for a rational x with x·2^16 an integer of 32 signed bits. -/
def qLegal (x : Rat) : Bool :=
  (x * (2 ^ Config.sfrac : Nat)).den == 1 && decide (-2147483648 ≤ (x * (2 ^ Config.sfrac : Nat)).num) && decide ((x * (2 ^ Config.sfrac : Nat)).num ≤ 2147483647)

/-- A statement is well formed when its targets are and its fills stay inside. -/
def Stmt.wellFormed : Stmt → Bool
  | .wr t _ => t.wellFormed
  | .rd t => t.wellFormed
  | .expect t _ => t.wellFormed
  | .fillBuf b i vs => decide (i + vs.length ≤ b.indexBound)
  | .fillQv i vs => decide (i + vs.length ≤ Config.kmax)
  | .cmd _ => true
  | .wait => true
  | .run _ => true
  | .clr => true
  | .softReset => true

end Sys2Proof
end

