-- ==== Sys2Proof/Decode.lean ====
section
/-! DEFINITION. Decoding of a command word (30_encoding.md R105), total on 32-bit words and rejecting by name, and the
encoder (R103). -/

namespace Sys2Proof

/-- Why a word is no command (30_encoding.md R104). -/
inductive DecodeError where
  /-- w[31:8] ≠ 0. -/
  | mbzNonzero
  /-- w[7:0] is not an opcode of R103. -/
  | unassignedOpcode
deriving DecidableEq, Repr

/-- What the decoder reads from a word (R105). -/
inductive Decoded where
  | command (i : Instr)
  | illegal (e : DecodeError)
deriving DecidableEq, Repr

/-- Field OPC, bits 7:0 (R100). -/
def opcField (w : Word) : Byte := w.extractLsb' 0 8

/-- Field MBZ, bits 31:8 (R100). -/
def mbzField (w : Word) : BitVec 24 := w.extractLsb' 8 24

/-- R105, the case list on w[7:0]. -/
def decodeOpcode (opc : Byte) : Option Instr :=
  match opc.toNat with
  | 0x00 => some .nop
  | 0x01 => some .chkcfg
  | 0x10 => some .segment
  | 0x11 => some .scale
  | 0x12 => some .fdct
  | 0x13 => some .quant
  | 0x20 => some .hcount
  | 0x21 => some .hbuild
  | 0x22 => some .henc
  | 0x23 => some .hdec
  | 0x30 => some .dequant
  | 0x31 => some .idct
  | 0x32 => some .unscale
  | 0x40 => some .encode
  | 0x41 => some .decode
  | _ => none

/-- R105. -/
def decode (w : Word) : Decoded :=
  if mbzField w = 0 then
    match decodeOpcode (opcField w) with
    | some i => .command i
    | none => .illegal .unassignedOpcode
  else .illegal .mbzNonzero

/-- The opcode of a command (R103). -/
def opcode : Instr → Byte
  | .nop => 0x00
  | .chkcfg => 0x01
  | .segment => 0x10
  | .scale => 0x11
  | .fdct => 0x12
  | .quant => 0x13
  | .hcount => 0x20
  | .hbuild => 0x21
  | .henc => 0x22
  | .hdec => 0x23
  | .dequant => 0x30
  | .idct => 0x31
  | .unscale => 0x32
  | .encode => 0x40
  | .decode => 0x41

/-- The command word of R103: MBZ zero, OPC the opcode. -/
def encode (i : Instr) : Word := (0#24 ++ opcode i : BitVec 32)

/-- The command that an opcode-table row's bits decode to; every bit above `nbits` is 0. -/
def decodeTableWord (nbits w : Nat) : Option Instr :=
  match decode (BitVec.ofNat Config.dataW (w % 2 ^ nbits)) with
  | .command i => some i
  | .illegal _ => none

end Sys2Proof
end

