-- ==== Sys2Proof/Machine/State.lean ====
section
/-! DEFINITION. The state of the block (10_state.md): the register page, the buffer memories, the ENGINE's run state, and
the model's own fields for the HOST agent and the free values. Plain data. -/

namespace Sys2Proof.Machine

/-- STATUS (10_state.md R30) without BUSY, which is the run state (R31, 40_command_model.md R121). -/
structure Status where
  done : Bool
  err : Bool
  satFwd : Bool
  satInv : Bool
  busErr : Bool
  cmdRejected : Bool
  treeValid : Bool
  errCode : Byte
  lastOp : Byte
  errOp : Byte
deriving DecidableEq, Repr

/-- The stored registers of the register page (10_state.md R23). ID, CAPS, CMD and the reserved offsets store nothing. -/
structure Regs where
  /-- CTRL bit 1 (R28). -/
  irqEn : Bool
  status : Status
  errInfo : Word
  blockK : Word
  res : Word
  minv : Word
  maxv : Word
  nsamp : Word
  nblk : Word
  nsym : Word
  ndist : Word
  nbits : Word
  ndsym : Word
  nrblk : Word
  satcntFwd : Word
  satcntInv : Word
  root : Word
  maxlen : Word
  qv : Vector Word Config.kmax
deriving DecidableEq, Repr

/-- The ENGINE's run state (10_state.md R21, 40_command_model.md R121). -/
inductive RunState where
  | idle
  /-- BUSY(w): command word w is pending. -/
  | busy (w : Word)
deriving DecidableEq, Repr

/-- Buffer memory: the bytes that hold a value, addresses strictly rising. A byte that is not listed holds no value
(10_state.md R53, 70_reset_and_hazards.md R341). -/
abbrev Memory := List Host.Cell

structure State where
  regs : Regs
  run : RunState
  mem : Memory
  /-- MODEL: the draw counter of the free values (log 2). -/
  draws : Nat
  /-- MODEL: the accesses HOST has yet to make, oldest first (log 4). -/
  host : List HostEvent
  /-- MODEL: the host accesses that still fall before the pending command's execution step (log 3). -/
  delay : Nat
  /-- MODEL: the words HOST's reads returned, newest first (log 4). -/
  replies : List Word
deriving DecidableEq, Repr

/-- The reasons a step can stop with a fault. None exists: "No item of this hardware needs stuck"
(93_implementation_defined.md); an error of a command is an ordinary completion (60_exceptions.md R303), and a host access
the block does not accept is recorded and dropped (20_memory.md R72). -/
inductive Fault where
deriving DecidableEq, Repr

/-- The reasons a step can be refused. -/
inductive Refusal where
  /-- Raised by an arm of `exec` whose command has no meaning yet; safe (no arm raises it). -/
  | notModelled (mnemonic : String)
deriving DecidableEq, Repr

/-- STATUS after reset (10_state.md R30, 70_reset_and_hazards.md R340). -/
def Status.reset : Status where
  done := false
  err := false
  satFwd := false
  satInv := false
  busErr := false
  cmdRejected := false
  treeValid := false
  errCode := 0x00
  lastOp := 0x00
  errOp := 0x00

/-- The register page after reset (10_state.md R23, 70_reset_and_hazards.md R340). -/
def Regs.reset : Regs where
  irqEn := false
  status := Status.reset
  errInfo := 0
  blockK := 0x00000010
  res := 0x00000007
  minv := 0
  maxv := 0
  nsamp := 0
  nblk := 0
  nsym := 0
  ndist := 0
  nbits := 0
  ndsym := 0
  nrblk := 0
  satcntFwd := 0
  satcntInv := 0
  root := 0
  maxlen := 0
  qv := Vector.replicate Config.kmax 0x00000001

/-- The block just after hardware reset (70_reset_and_hazards.md R340): registers at their reset values, ENGINE IDLE, every
buffer element without a value. The last four fields are the model's own (log 2, 3, 4). -/
def State.reset : State where
  regs := Regs.reset
  run := .idle
  mem := []
  draws := 0
  host := []
  delay := 0
  replies := []

end Sys2Proof.Machine
end

