-- ==== Sys2Proof/Machine/Operands.lean ====
section
/-! DEFINITION. How operands are read and formed: signed and unsigned readings of words, exact rounding (00_scope.md R12 to
R16), the geometry of the buffers (20_memory.md R75), and the reading of a buffer element (10_state.md R40, R53). -/

namespace Sys2Proof.Machine

/-- R12 `sval32`. -/
def sval32 (w : Word) : Int := w.toInt

/-- R12 `uval32`. -/
def uval32 (w : Word) : Nat := w.toNat

/-- R12 `sval64`. -/
def sval64 (w : DWord) : Int := w.toInt

/-- R12 `fits32`. -/
def fits32 (n : Int) : Bool := decide (-2147483648 ≤ n) && decide (n ≤ 2147483647)

/-- R12 `enc32`. -/
def enc32 (n : Int) : Word := BitVec.ofInt 32 n

/-- R12 `enc64`. -/
def enc64 (n : Int) : DWord := BitVec.ofInt 64 n

/-- A count stored in a register or record word. -/
def encCount (n : Nat) : Word := BitVec.ofNat Config.dataW n

/-- R16 `clamp`. -/
def clamp (x lo hi : Int) : Int := if x < lo then lo else if hi < x then hi else x

/-- R16 `ceil_div`, for b > 0. -/
def ceilDiv (a b : Nat) : Nat := (a + b - 1) / b

/-- R15 `round_haz` of the rational num/den, den > 0: sign · floor(|num/den| + 1/2). -/
def roundHazDiv (num : Int) (den : Nat) : Int :=
  num.sign * ((2 * num.natAbs + den) / (2 * den) : Nat)

/-! ### Geometry of the buffers (20_memory.md R75) -/

def bufBase : Buffer → Nat
  | .inp => 0x10000
  | .scl => 0x14000
  | .coef => 0x18000
  | .sym => 0x1C000
  | .ftab => 0x20000
  | .ctab => 0x28000
  | .tree => 0x30000
  | .bits => 0x50000
  | .dsym => 0x54000
  | .dcoef => 0x58000
  | .y => 0x5C000
  | .out => 0x64000

/-- Words of one element (element size / 4). -/
def bufElemWords : Buffer → Nat
  | .ftab => 2
  | .ctab => 2
  | .tree => 4
  | .y => 2
  | _ => 1

def bufElements : Buffer → Nat
  | .tree => Config.nodemax + 1
  | _ => Config.nmax

/-- One past the last byte of the window. -/
def bufLimit (b : Buffer) : Nat := bufBase b + 4 * bufElemWords b * bufElements b

/-- May the host write the window (10_state.md R40)? -/
def bufHostWritable : Buffer → Bool
  | .ctab => false
  | .tree => false
  | .out => false
  | _ => true

/-- The byte address of word `f` of element `i` (R75: "the word at B + s·i + f"; f counts words here). -/
def bufAddr (b : Buffer) (i f : Nat) : Nat := bufBase b + 4 * (bufElemWords b * i + f)

def allBuffers : List Buffer :=
  [.inp, .scl, .coef, .sym, .ftab, .ctab, .tree, .bits, .dsym, .dcoef, .y, .out]

/-! ### Reading memory -/

/-- The value the byte at an address holds, if it holds one. -/
def byteAt : Memory → Nat → Option Byte
  | [], _ => none
  | (a, b) :: m, k => if a = k then some b else byteAt m k

/-- The byte a read finds in draw `d`: the stored value, or a free one (10_state.md R53; log 1). -/
def readByte (m : Memory) (d a : Nat) : Byte := (byteAt m a).getD (Config.unspecByte d a)

/-- The little-endian word at byte address `a` (20_memory.md R73). -/
def readWord (m : Memory) (d a : Nat) : Word :=
  (readByte m d (a + 3) ++ readByte m d (a + 2) ++ readByte m d (a + 1) ++ readByte m d a : BitVec 32)

/-- Word `f` of element `i` of a buffer, as the ENGINE reads it. An index past the buffer, which R77 says no command makes,
finds no stored value (log 8). -/
def bufWord (s : State) (b : Buffer) (i f : Nat) : Word :=
  readWord (if i < bufElements b then s.mem else []) s.draws (bufAddr b i f)

/-- A 64-bit element (20_memory.md R73: the low word at the lower address). -/
def bufDWord (s : State) (b : Buffer) (i : Nat) : DWord := (bufWord s b i 1 ++ bufWord s b i 0 : BitVec 64)

/-- The first words of elements start .. start + n − 1. -/
def bufWords (s : State) (b : Buffer) (start n : Nat) : List Word :=
  (List.range n).map fun i => bufWord s b (start + i) 0

/-! ### Run parameters (00_scope.md R8) -/

/-- K as a count, used only after CK_K has passed. -/
def blockSize (s : State) : Nat := (sval32 s.regs.blockK).toNat

/-- R as a count, used only after CK_R has passed. -/
def resolution (s : State) : Nat := (sval32 s.regs.res).toNat

/-- Step size of frequency index i (10_state.md R42), i < 16. -/
def stepSize (s : State) (i : Nat) : Int := sval32 (s.regs.qv.toList.getD i 0)

end Sys2Proof.Machine
end

