-- ==== Sys2Proof/Machine/Flags.lean ====
section
/-! DEFINITION. STATUS and CTRL as words (10_state.md R28, R30), the write-1-to-clear rule, the flags a completion writes
(40_command_model.md R123), and the interrupt output (60_exceptions.md R310). -/

namespace Sys2Proof.Machine

/-- STATUS.BUSY (10_state.md R31): 1 exactly in BUSY(w). -/
def RunState.isBusy : RunState → Bool
  | .idle => false
  | .busy _ => true

/-- The STATUS word (10_state.md R30). -/
def statusWord (st : Status) (busy : Bool) : Word :=
  (st.errOp ++ st.lastOp ++ st.errCode ++ BitVec.ofBool st.treeValid ++ BitVec.ofBool st.cmdRejected
    ++ BitVec.ofBool st.busErr ++ BitVec.ofBool st.satInv ++ BitVec.ofBool st.satFwd ++ BitVec.ofBool st.err
    ++ BitVec.ofBool st.done ++ BitVec.ofBool busy : BitVec 32)

/-- The CTRL word (10_state.md R28): bit 0 and the reserved bits read 0. -/
def ctrlWord (irqEn : Bool) : Word := (0#30 ++ BitVec.ofBool irqEn ++ 0#1 : BitVec 32)

/-- A write of STATUS (10_state.md R24, R30): a 1 clears a W1C bit, every other field is kept. The host's acknowledgement of
a completion (60_exceptions.md R316). -/
def w1cStatus (w : Word) (st : Status) : Status :=
  { st with
    done := st.done && !w.getLsbD 1
    err := st.err && !w.getLsbD 2
    satFwd := st.satFwd && !w.getLsbD 3
    satInv := st.satInv && !w.getLsbD 4
    busErr := st.busErr && !w.getLsbD 5
    cmdRejected := st.cmdRejected && !w.getLsbD 6 }

/-- The STATUS fields a successful completion writes (40_command_model.md R123). -/
def okStatus (op : Byte) (st : Status) : Status :=
  { st with done := true, errCode := 0x00, lastOp := op, errOp := 0x00 }

/-- The STATUS fields a completion with a fatal error writes (40_command_model.md R123). -/
def errorStatus (op code errOp : Byte) (st : Status) : Status :=
  { st with done := true, err := true, errCode := code, lastOp := op, errOp := errOp }

/-- The interrupt output (60_exceptions.md R310): IRQ = STATUS.DONE AND CTRL.IRQ_EN. -/
def irq (s : State) : Bool := s.regs.status.done && s.regs.irqEn

end Sys2Proof.Machine
end

