-- ==== Sys2Proof/Machine/Ops.lean ====
section
/-! DEFINITION. The shared operations: writing and emptying memory, the error codes, completion (40_command_model.md R123,
the counterpart of taking an exception, 60_exceptions.md R315), the destination buffers (R133), the named pre-checks (R124)
with each command's list of them (R125), and the frame every command runs in (R122). -/

namespace Sys2Proof.Machine

/-! ### Writing memory -/

/-- The cells at addresses lo .. hi − 1 are replaced by `cells`. -/
def splice (m : Memory) (lo hi : Nat) (cells : List Host.Cell) : Memory :=
  m.filter (fun c => decide (c.1 < lo)) ++ (cells ++ m.filter (fun c => decide (hi ≤ c.1)))

/-- Bytes at consecutive addresses. -/
def cellsFrom : Nat → List Byte → List Host.Cell
  | _, [] => []
  | a, b :: bs => (a, b) :: cellsFrom (a + 1) bs

/-- Store consecutive bytes. -/
def storeBytes (m : Memory) (a : Nat) (bs : List Byte) : Memory := splice m a (a + bs.length) (cellsFrom a bs)

/-- The bytes of a word, lowest address first (20_memory.md R73). -/
def wordBytes (w : Word) : List Byte := [w.extractLsb' 0 8, w.extractLsb' 8 8, w.extractLsb' 16 8, w.extractLsb' 24 8]

/-- Store consecutive words. -/
def storeWords (m : Memory) (a : Nat) (ws : List Word) : Memory := storeBytes m a (ws.flatMap wordBytes)

/-- Store the words of elements `i`, `i + 1`, … of a buffer. What would pass the buffer's end is not stored: no command
stores there (20_memory.md R77; log 8). -/
def storeBuf (m : Memory) (b : Buffer) (i : Nat) (ws : List Word) : Memory :=
  storeWords m (bufAddr b i 0) (ws.take (bufElemWords b * (bufElements b - i)))

/-- Bytes lo .. hi − 1 become UNSPEC: they hold no value any more (10_state.md R53, 40_command_model.md R131). -/
def unspecRange (m : Memory) (lo hi : Nat) : Memory := splice m lo hi []

/-- Every element of a buffer becomes UNSPEC. -/
def unspecBuf (m : Memory) (b : Buffer) : Memory := unspecRange m (bufBase b) (bufLimit b)

/-- Every element of some buffers becomes UNSPEC. -/
def unspecBufs (m : Memory) (bs : List Buffer) : Memory := bs.foldl unspecBuf m

/-- Elements lo .. hi − 1 of a one-word buffer become UNSPEC. -/
def unspecElems (m : Memory) (b : Buffer) (lo hi : Nat) : Memory := unspecRange m (bufAddr b lo 0) (bufAddr b hi 0)

/-- The canonical form of memory: addresses strictly rising. An unlisted byte holds no value, which no listed byte equals. -/
abbrev Memory.wf (m : Memory) : Prop := m.Pairwise fun c d => c.1 < d.1

/-! ### Error codes (60_exceptions.md R300) -/

inductive ErrCode where
  | illegalCmd | cfgK | cfgR | cfgRange | cfgQv | cfgEmpty | capacity | shape | overflow
  | heapUnderflow | notree | nosym | desync | ftabInvalid
deriving DecidableEq, Repr

/-- The number of an error code (60_exceptions.md R300). -/
def errNumber : ErrCode → Byte
  | .illegalCmd => 0x01
  | .cfgK => 0x02
  | .cfgR => 0x03
  | .cfgRange => 0x04
  | .cfgQv => 0x05
  | .cfgEmpty => 0x06
  | .capacity => 0x07
  | .shape => 0x08
  | .overflow => 0x09
  | .heapUnderflow => 0x0A
  | .notree => 0x0B
  | .nosym => 0x0C
  | .desync => 0x0D
  | .ftabInvalid => 0x0E

/-- A fatal error: code, ERRINFO, and the opcode of the primitive command that raised it (40_command_model.md R123, R129). -/
structure CmdError where
  code : ErrCode
  info : Word
  op : Byte
deriving DecidableEq, Repr

/-- How a command's work ends, before completion. -/
inductive Result where
  | ok (s : State)
  | raised (s : State) (e : CmdError)
deriving DecidableEq, Repr

/-! ### Completion (40_command_model.md R123) -/

/-- `complete(w, OK, 0, 0)`, `op` = w[7:0]. -/
def completeOk (op : Byte) (s : State) : State :=
  { s with run := .idle, regs := { s.regs with status := okStatus op s.regs.status, errInfo := 0 } }

/-- `complete(w, code, info, op)` with a fatal error, `op` = w[7:0]. This is the one way a command takes an error
(60_exceptions.md R315): ERRCODE, ERRINFO, LASTOP and ERROP are recorded, ERR and DONE are set, the ENGINE is IDLE. -/
def completeError (op : Byte) (e : CmdError) (s : State) : State :=
  { s with
    run := .idle
    regs := { s.regs with status := errorStatus op (errNumber e.code) e.op s.regs.status, errInfo := e.info } }

/-- The end of execute(w) (R122 step 4). -/
def complete (op : Byte) : Result → State
  | .ok s => completeOk op s
  | .raised s e => completeError op e s

/-- An illegal command word (30_encoding.md R104): LASTOP = ERROP = w[7:0], ERRINFO 0, nothing else changes. -/
def completeIllegal (w : Word) (s : State) : State :=
  completeError (opcField w) { code := .illegalCmd, info := 0, op := opcField w } s

/-- An accepted error is followed by the next command only after the host's acknowledgement or without it; there is nothing
to restore (60_exceptions.md R316). The host's acknowledgement is a W1C write. -/
def acknowledge (w : Word) (s : State) : State :=
  { s with regs := { s.regs with status := w1cStatus w s.regs.status } }

/-! ### Destination buffers (40_command_model.md R133) -/

/-- The buffers of which a command makes every element UNSPEC when it ends in a data error or is aborted. SEGMENT's
destination is a part of IN: `unspecPadding`. -/
def destBuffers : Instr → List Buffer
  | .nop => []
  | .chkcfg => []
  | .segment => []
  | .scale => [.scl]
  | .fdct => [.coef]
  | .quant => [.sym]
  | .hcount => [.ftab]
  | .hbuild => [.tree, .ctab]
  | .henc => [.bits]
  | .hdec => [.dsym]
  | .dequant => [.dcoef]
  | .idct => [.y]
  | .unscale => [.out]
  | .encode => [.scl, .coef, .sym, .ftab, .tree, .ctab, .bits]
  | .decode => [.dsym, .dcoef, .y, .out]

/-- Does the command contain a SEGMENT step? -/
def padsInput : Instr → Bool
  | .segment => true
  | .encode => true
  | _ => false

/-- SEGMENT's destination (R133): IN elements NSAMP .. ceil_div(NSAMP, K)·K − 1, as far as IN reaches; none when K < 1
(log 9). -/
def unspecPadding (s : State) (m : Memory) : Memory :=
  if blockSize s = 0 then m
  else
    let n := uval32 s.regs.nsamp
    unspecElems m .inp (min n (bufElements .inp)) (min (ceilDiv n (blockSize s) * blockSize s) (bufElements .inp))

/-- Every element of every destination buffer of `i` becomes UNSPEC (70_reset_and_hazards.md R342 item 1). -/
def unspecDests (i : Instr) (s : State) : Memory :=
  unspecBufs (if padsInput i then unspecPadding s s.mem else s.mem) (destBuffers i)

/-! ### Pre-checks (40_command_model.md R124, R125) -/

inductive Check where
  | ckK | ckR | ckRange | ckQv | ckNsamp | ckNblk | ckNsymNz | ckNsym | ckTree | ckNdist | ckFtab | ckNbits | ckNdsym
  | ckNrblk
deriving DecidableEq, Repr

/-- An entry of the frequency table (10_state.md R46). -/
structure FtabEntry where
  symbol : Word
  count : Word
deriving DecidableEq, Repr

/-- FTAB[0..n−1] as the ENGINE reads it. -/
def readFtab (s : State) (n : Nat) : List FtabEntry :=
  (List.range n).map fun i => { symbol := bufWord s .ftab i 0, count := bufWord s .ftab i 1 }

/-- 45_entropy_coder.md R225, the scan of CK_FTAB: `seen` are the symbols of the entries before index `i`, `total` the sum
of their counts. The least index at which one of the three conditions holds. -/
def firstBadEntry : List FtabEntry → Nat → List Word → Nat → Option Nat
  | [], _, _, _ => none
  | e :: es, i, seen, total =>
    if uval32 e.count = 0 ∨ e.symbol ∈ seen ∨ 4294967295 < total + uval32 e.count then some i
    else firstBadEntry es (i + 1) (e.symbol :: seen) (total + uval32 e.count)

/-- The least i < K with QV[i] ≤ 0 (CK_QV). -/
def firstBadStep (s : State) : Option Nat :=
  (List.range (blockSize s)).find? fun i => decide (stepSize s i ≤ 0)

/-- One row of R124: the error code and ERRINFO if the check fails. -/
def runCheck (s : State) : Check → Option (ErrCode × Word)
  | .ckK => if sval32 s.regs.blockK < 1 ∨ (Config.kmax : Int) < sval32 s.regs.blockK then some (.cfgK, 0) else none
  | .ckR => if sval32 s.regs.res < 1 ∨ (Config.rmax : Int) < sval32 s.regs.res then some (.cfgR, 0) else none
  | .ckRange => if sval32 s.regs.maxv ≤ sval32 s.regs.minv then some (.cfgRange, 0) else none
  | .ckQv => (firstBadStep s).map fun i => (.cfgQv, encCount i)
  | .ckNsamp =>
    if uval32 s.regs.nsamp = 0 then some (.cfgEmpty, 0)
    else if Config.nmax < uval32 s.regs.nsamp
        ∨ Config.nmax < ceilDiv (uval32 s.regs.nsamp) (blockSize s) * blockSize s then some (.capacity, 0)
    else none
  | .ckNblk => if Config.nmax < uval32 s.regs.nblk * blockSize s then some (.capacity, 0) else none
  | .ckNsymNz =>
    if uval32 s.regs.nsym = 0 then some (.cfgEmpty, 0)
    else if Config.nmax < uval32 s.regs.nsym then some (.capacity, 0)
    else none
  | .ckNsym => if Config.nmax < uval32 s.regs.nsym then some (.capacity, 0) else none
  | .ckTree => if s.regs.status.treeValid then none else some (.notree, 0)
  | .ckNdist =>
    if uval32 s.regs.ndist = 0 then some (.heapUnderflow, 0)
    else if Config.nmax < uval32 s.regs.ndist then some (.capacity, 0)
    else none
  | .ckFtab => (firstBadEntry (readFtab s (uval32 s.regs.ndist)) 0 [] 0).map fun i => (.ftabInvalid, encCount i)
  | .ckNbits => if Config.bitmax < uval32 s.regs.nbits then some (.capacity, 0) else none
  | .ckNdsym =>
    if Config.nmax < uval32 s.regs.ndsym then some (.capacity, 0)
    else if uval32 s.regs.ndsym % blockSize s ≠ 0 then some (.shape, 0)
    else none
  | .ckNrblk => if Config.nmax < uval32 s.regs.nrblk * blockSize s then some (.capacity, 0) else none

/-- The pre-checks run in order and stop at the first that fails (R125, R126). -/
def firstFailure (s : State) : List Check → Option (ErrCode × Word)
  | [] => none
  | c :: cs =>
    match runCheck s c with
    | some e => some e
    | none => firstFailure s cs

/-- The pre-checks of each command, in order (R125). For ENCODE and DECODE these are the leading checks; each step then
runs its own (46_pipeline.md R260, R261). -/
def preChecks : Instr → List Check
  | .nop => []
  | .chkcfg => [.ckK, .ckR, .ckRange, .ckQv, .ckNsamp]
  | .segment => [.ckK, .ckNsamp]
  | .scale => [.ckK, .ckR, .ckRange, .ckNblk]
  | .fdct => [.ckK, .ckNblk]
  | .quant => [.ckK, .ckQv, .ckNblk]
  | .hcount => [.ckNsymNz]
  | .hbuild => [.ckNdist, .ckFtab]
  | .henc => [.ckTree, .ckNsym]
  | .hdec => [.ckTree, .ckNbits]
  | .dequant => [.ckK, .ckQv, .ckNdsym]
  | .idct => [.ckK, .ckNrblk]
  | .unscale => [.ckK, .ckR, .ckRange, .ckNrblk]
  | .encode => [.ckK, .ckR, .ckRange, .ckQv, .ckNsamp]
  | .decode => [.ckK, .ckR, .ckRange, .ckQv]

/-! ### The frame of a command -/

/-- The next draw of free values (log 2). -/
def nextDraw (s : State) : State := { s with draws := s.draws + 1 }

/-- A data error (40_command_model.md R131): the destination buffers of `i` become UNSPEC, no success-only output is
written. -/
def dataError (i : Instr) (code : ErrCode) (info : Nat) (s : State) : Result :=
  .raised (nextDraw { s with mem := unspecDests i s }) { code := code, info := encCount info, op := opcode i }

/-- A command's work is done without an error. -/
def done (s : State) : Result := .ok (nextDraw s)

/-- One primitive command without its completion: the pre-checks of `i` in order, then its work (40_command_model.md R122
steps 2 and 3). A failed pre-check changes no state (R130) but the draw counter of the model. -/
def runPrimitive (i : Instr) (work : State → Result) (s : State) : Result :=
  match firstFailure s (preChecks i) with
  | some (code, info) => .raised (nextDraw s) { code := code, info := info, op := opcode i }
  | none => work s

/-- A macro's next step: it runs only if the steps before it completed OK, on the state they left (46_pipeline.md R262). -/
def Result.andThen : Result → (State → Result) → Result
  | .ok s, f => f s
  | .raised s e, _ => .raised s e

/-- execute(w) of a command whose work is `f`: it always completes (40_command_model.md R122, R123). -/
def finish (i : Instr) (r : Result) : Host.Outcome State Fault Refusal := .next (complete (opcode i) r)

end Sys2Proof.Machine
end

