-- ==== Sys2Proof/Machine/Control.lean ====
section
/-! DEFINITION. The control commands NOP and CHKCFG (40_command_model.md R134, R135). -/

namespace Sys2Proof.Machine

/-- CHKCFG without its completion (R135): the checks, then nothing. -/
def runChkcfg (s : State) : Result := runPrimitive .chkcfg done s

/-- NOP (R134): it does nothing but complete. -/
def execNop (s : State) : Host.Outcome State Fault Refusal := finish .nop (runPrimitive .nop done s)

/-- CHKCFG (R135). -/
def execChkcfg (s : State) : Host.Outcome State Fault Refusal := finish .chkcfg (runChkcfg s)

end Sys2Proof.Machine
end

