-- ==== Sys2Proof/Machine/Entropy.lean ====
section
/-! DEFINITION. huffman_encoder_decoder: HCOUNT, HBUILD, HENC and HDEC (45_entropy_coder.md R220 to R248). -/

namespace Sys2Proof.Machine

/-! ### HCOUNT -/

/-- One more occurrence of a symbol, entries in order of first occurrence (R220, R221). -/
def countSymbol (s : Word) : List (Word × Nat) → List (Word × Nat)
  | [] => [(s, 1)]
  | (t, c) :: rest => if t = s then (t, c + 1) :: rest else (t, c) :: countSymbol s rest

/-- The frequency table of a symbol stream (R220, R221). -/
def countSymbols (syms : List Word) : List (Word × Nat) := syms.foldl (fun t s => countSymbol s t) []

/-- The words of FTAB entries (10_state.md R46). -/
def ftabWords (t : List (Word × Nat)) : List Word := t.flatMap fun e => [e.1, encCount e.2]

/-- The frequency table HCOUNT builds. -/
def hcountTable (s : State) : List (Word × Nat) := countSymbols (bufWords s .sym 0 (uval32 s.regs.nsym))

/-- The work of HCOUNT (R220): FTAB, NDIST, and TREE_VALID cleared (R221). -/
def hcountWork (s : State) : Result :=
  done { s with
    mem := storeBuf s.mem .ftab 0 (ftabWords (hcountTable s))
    regs := { s.regs with
      ndist := encCount (hcountTable s).length
      status := { s.regs.status with treeValid := false } } }

/-- HCOUNT without its completion. -/
def runHcount (s : State) : Result := runPrimitive .hcount hcountWork s

/-- HCOUNT (R220). -/
def execHcount (s : State) : Host.Outcome State Fault Refusal := finish .hcount (runHcount s)

/-! ### HBUILD -/

/-- A Huffman tree with the TREE index of every node (10_state.md R48). -/
inductive HTree where
  | leaf (index : Nat)
  | node (index : Nat) (left right : HTree)
deriving DecidableEq, Repr

/-- The TREE index of a tree's root node. -/
def HTree.index : HTree → Nat
  | .leaf i => i
  | .node i _ _ => i

/-- A member of the queue: a node with its weight. -/
structure QItem where
  weight : Nat
  tree : HTree
deriving DecidableEq, Repr

/-- The order of the keys (WEIGHT, index) (R229): smaller weight first, for equal weights the smaller index. -/
def keyLt (a b : QItem) : Bool :=
  decide (a.weight < b.weight) || (a.weight == b.weight && decide (a.tree.index < b.tree.index))

/-- insert(Q, x) (R228); the queue is held in ascending key order, so popmin takes its head. -/
def insertQ (x : QItem) : List QItem → List QItem
  | [] => [x]
  | y :: ys => if keyLt x y then x :: y :: ys else y :: insertQ x ys

/-- An element of TREE (10_state.md R48). -/
structure TreeNode where
  weight : Word
  left : Word
  right : Word
  payload : Word
deriving DecidableEq, Repr

/-- NONE, the absent child (10_state.md R48). -/
def absent : Word := 0xFFFFFFFF

/-- Leaf i, made from FTAB[i] (R227). -/
def leafNode (e : FtabEntry) : TreeNode := { weight := e.count, left := absent, right := absent, payload := e.symbol }

/-- The queue members of the leaves i, i + 1, … (R228). -/
def leafItems : Nat → List FtabEntry → List QItem
  | _, [] => []
  | i, e :: es => { weight := uval32 e.count, tree := .leaf i } :: leafItems (i + 1) es

/-- The queue of all leaves. -/
def initialQueue (ft : List FtabEntry) : List QItem := (leafItems 0 ft).foldr insertQ []

/-- The merge loop (R230): the two least members become the LEFT and RIGHT child of node `next`, until one member remains.
The internal nodes made, in creation order, and the queue left. One unit of fuel per merge. -/
def mergeLoop : Nat → Nat → List QItem → List TreeNode × List QItem
  | fuel + 1, next, a :: b :: q =>
    let joined : QItem := { weight := a.weight + b.weight, tree := .node next a.tree b.tree }
    let made : TreeNode :=
      { weight := encCount (a.weight + b.weight), left := encCount a.tree.index, right := encCount b.tree.index, payload := 0 }
    let rest := mergeLoop fuel (next + 1) (insertQ joined q)
    (made :: rest.1, rest.2)
  | _, _, q => ([], q)

/-- The path codes of the leaves of a tree, depth first: '1' for a step to a LEFT child, '0' for RIGHT (R232). -/
def pathCodes : HTree → List Bool → List (Nat × List Bool)
  | .leaf i, path => [(i, path)]
  | .node _ l r, path => pathCodes l (path ++ [true]) ++ pathCodes r (path ++ [false])

/-- The codes by leaf (R232); a tree that is one leaf has the code "0" (R233). -/
def treeCodes : HTree → List (Nat × List Bool)
  | .leaf i => [(i, [false])]
  | .node i l r => pathCodes (.node i l r) []

/-- The code of leaf i in a list of codes. -/
def codeOf (cs : List (Nat × List Bool)) (i : Nat) : List Bool := ((cs.find? fun c => c.1 == i).map Prod.snd).getD []

/-- What HBUILD builds from a frequency table (R225): the nodes of TREE, the codes by FTAB index, the root's index. -/
structure Built where
  nodes : List TreeNode
  codes : List (List Bool)
  root : Nat
deriving DecidableEq, Repr

/-- The build (R225, R227 to R233). -/
def buildTree (ft : List FtabEntry) : Built :=
  let merged := mergeLoop ft.length ft.length (initialQueue ft)
  let tree := (merged.2.map QItem.tree).headD (.leaf 0)
  let cs := treeCodes tree
  { nodes := ft.map leafNode ++ merged.1
    codes := (List.range ft.length).map (codeOf cs)
    root := tree.index }

/-- A bit string as a number, its first bit the most significant (10_state.md R47). -/
def bitsValue (bs : List Bool) : Nat := bs.foldl (fun v b => 2 * v + b.toNat) 0

/-- The words of TREE elements (10_state.md R48). -/
def treeWords (ns : List TreeNode) : List Word := ns.flatMap fun n => [n.weight, n.left, n.right, n.payload]

/-- The words of CTAB elements (10_state.md R47). -/
def ctabWords (cs : List (List Bool)) : List Word := cs.flatMap fun c => [encCount c.length, encCount (bitsValue c)]

/-- The greatest code length (10_state.md R45). -/
def maxLength (cs : List (List Bool)) : Nat := cs.foldl (fun m c => max m c.length) 0

/-- What HBUILD builds from the FTAB and NDIST of a state. -/
def hbuildResult (s : State) : Built := buildTree (readFtab s (uval32 s.regs.ndist))

/-- The work of HBUILD (R225): CAPACITY at the first code longer than CODEMAX (R235), which also clears TREE_VALID (R226);
otherwise TREE, CTAB, ROOT, MAXLEN and TREE_VALID (R236). -/
def hbuildWork (s : State) : Result :=
  match (hbuildResult s).codes.findIdx? (fun c => decide (Config.codemax < c.length)) with
  | some i =>
    dataError .hbuild .capacity i
      { s with regs := { s.regs with status := { s.regs.status with treeValid := false } } }
  | none => done { s with
      mem := storeBuf (storeBuf s.mem .tree 0 (treeWords (hbuildResult s).nodes)) .ctab 0 (ctabWords (hbuildResult s).codes)
      regs := { s.regs with
        root := encCount (hbuildResult s).root
        maxlen := encCount (maxLength (hbuildResult s).codes)
        status := { s.regs.status with treeValid := true } } }

/-- HBUILD without its completion. -/
def runHbuild (s : State) : Result := runPrimitive .hbuild hbuildWork s

/-- HBUILD (R225). -/
def execHbuild (s : State) : Host.Outcome State Fault Refusal := finish .hbuild (runHbuild s)

/-! ### HENC -/

/-- The bits of the code {LEN L, CODE C}, most significant code bit first (R240). -/
def codeBits (l : Nat) (c : Word) : List Bool := (List.range l).map fun t => c.getLsbD (l - 1 - t)

/-- The index of a symbol in FTAB[0..n−1] (R240). -/
def symbolIndex (ft : List FtabEntry) (sym : Word) : Option Nat := ft.findIdx? fun e => e.symbol == sym

/-- The code of a symbol, or none if the frequency table lacks it (R240). -/
def symbolCode (s : State) (ft : List FtabEntry) (sym : Word) : Option (List Bool) :=
  (symbolIndex ft sym).map fun i => codeBits (uval32 (bufWord s .ctab i 0)) (bufWord s .ctab i 1)

/-- The concatenated codes of the symbols j, j + 1, …, or the index of the first with no code (R240, R241). -/
def encodeSymbols (s : State) (ft : List FtabEntry) : Nat → List Word → Except Nat (List Bool)
  | _, [] => .ok []
  | j, sym :: syms =>
    match symbolCode s ft sym with
    | none => .error j
    | some code =>
      match encodeSymbols s ft (j + 1) syms with
      | .error k => .error k
      | .ok bs => .ok (code ++ bs)

/-- DATA_W = 32 stream bits as a word: bit p at 31 − p, absent bits 0 (10_state.md R50, R242). -/
def packWord (bs : List Bool) : Word := encCount (bitsValue (bs ++ List.replicate (Config.dataW - bs.length) false))

/-- The first n words of a bit stream (R242). -/
def packWords : Nat → List Bool → List Word
  | 0, _ => []
  | n + 1, bs => packWord (bs.take Config.dataW) :: packWords n (bs.drop Config.dataW)

/-- The stream HENC makes, or the index of the first symbol with no code. -/
def hencStream (s : State) : Except Nat (List Bool) :=
  encodeSymbols s (readFtab s (uval32 s.regs.ndist)) 0 (bufWords s .sym 0 (uval32 s.regs.nsym))

/-- The work of HENC (R240): NOSYM at the first symbol with no code; otherwise whole words of BITS (R242) and NBITS. -/
def hencWork (s : State) : Result :=
  match hencStream s with
  | .error j => dataError .henc .nosym j s
  | .ok bs => done { s with
      mem := storeBuf s.mem .bits 0 (packWords (ceilDiv bs.length Config.dataW) bs)
      regs := { s.regs with nbits := encCount bs.length } }

/-- HENC without its completion. -/
def runHenc (s : State) : Result := runPrimitive .henc hencWork s

/-- HENC (R240). -/
def execHenc (s : State) : Host.Outcome State Fault Refusal := finish .henc (runHenc s)

/-! ### HDEC -/

/-- The stream bits of a word, bit 31 first (10_state.md R50). -/
def wordStream (w : Word) : List Bool := (List.range Config.dataW).map fun t => w.getLsbD (Config.dataW - 1 - t)

/-- Stream bits 0 .. n − 1 of BITS. -/
def streamBits (s : State) (n : Nat) : List Bool :=
  ((bufWords s .bits 0 (ceilDiv n Config.dataW)).flatMap wordStream).take n

/-- How a decode walk ends: the symbols in order, or an error with its ERRINFO. -/
inductive Decoding where
  | symbols (out : List Word)
  | failed (code : ErrCode) (info : Nat)
deriving DecidableEq, Repr

/-- One more symbol before the rest of a decoding. -/
def Decoding.emit (sym : Word) : Decoding → Decoding
  | .symbols out => .symbols (sym :: out)
  | .failed c i => .failed c i

/-- Is node `i` of TREE a leaf (R245)? -/
def isLeaf (s : State) (i : Nat) : Bool := bufWord s .tree i 1 == absent

/-- The payload of node `i` of TREE. -/
def payload (s : State) (i : Nat) : Word := bufWord s .tree i 3

/-- The decode walk (R245 to R248): the bits still to read, their index p, the node the walk is at, the symbols emitted. -/
def hdecWalk (s : State) (root : Nat) : List Bool → Nat → Nat → Nat → Decoding
  | [], p, cur, _ => if !isLeaf s root && cur != root then .failed .desync p else .symbols []
  | bit :: bits, p, cur, d =>
    if isLeaf s root then
      if bit then .failed .desync p
      else if d = Config.nmax then .failed .capacity p
      else (hdecWalk s root bits (p + 1) cur (d + 1)).emit (payload s root)
    else
      let child := uval32 (bufWord s .tree cur (if bit then 1 else 2))
      if isLeaf s child then
        if d = Config.nmax then .failed .capacity p
        else (hdecWalk s root bits (p + 1) root (d + 1)).emit (payload s child)
      else hdecWalk s root bits (p + 1) child d

/-- The decoding of BITS[0 .. NBITS − 1] with TREE and ROOT. -/
def hdecResult (s : State) : Decoding :=
  hdecWalk s (uval32 s.regs.root) (streamBits s (uval32 s.regs.nbits)) 0 (uval32 s.regs.root) 0

/-- The work of HDEC (R245). -/
def hdecWork (s : State) : Result :=
  match hdecResult s with
  | .failed code info => dataError .hdec code info s
  | .symbols out => done { s with
      mem := storeBuf s.mem .dsym 0 out
      regs := { s.regs with ndsym := encCount out.length } }

/-- HDEC without its completion. -/
def runHdec (s : State) : Result := runPrimitive .hdec hdecWork s

/-- HDEC (R245). -/
def execHdec (s : State) : Host.Outcome State Fault Refusal := finish .hdec (runHdec s)

end Sys2Proof.Machine
end

