-- ==== Sys2Proof/Machine/Quantizer.lean ====
section
/-! DEFINITION. quantizer_dequantizer_array: QUANT and DEQUANT (44_quantizer.md R200 to R206). -/

namespace Sys2Proof.Machine

/-- One symbol (R200): round_haz(c / q). -/
def quantValue (c q : Int) : Int := roundHazDiv c q.toNat

/-- Element j of a buffer with its step size QV[j mod K] (10_state.md R40, R42), for j < n. -/
def withStep (s : State) (b : Buffer) (n : Nat) : List (Int × Int) :=
  (List.range n).map fun j => (sval32 (bufWord s b j 0), stepSize s (j % blockSize s))

/-- The number of coefficients QUANT reads, NBLK·K (R200). -/
def quantLength (s : State) : Nat := uval32 s.regs.nblk * blockSize s

/-- The work of QUANT (R200). -/
def quantWork (s : State) : Result :=
  done { s with
    mem := storeBuf s.mem .sym 0 ((withStep s .coef (quantLength s)).map fun p => enc32 (quantValue p.1 p.2))
    regs := { s.regs with nsym := encCount (quantLength s) } }

/-- QUANT without its completion. -/
def runQuant (s : State) : Result := runPrimitive .quant quantWork s

/-- QUANT (R200). -/
def execQuant (s : State) : Host.Outcome State Fault Refusal := finish .quant (runQuant s)

/-- The exact products DEQUANT computes (R205). -/
def dequantValues (s : State) : List Int := (withStep s .dsym (uval32 s.regs.ndsym)).map fun p => p.1 * p.2

/-- The work of DEQUANT (R205): OVERFLOW at the first product, in ascending order, that does not fit (R127, R207). -/
def dequantWork (s : State) : Result :=
  match (dequantValues s).findIdx? (fun p => !fits32 p) with
  | some j => dataError .dequant .overflow j s
  | none => done { s with
      mem := storeBuf s.mem .dcoef 0 ((dequantValues s).map enc32)
      regs := { s.regs with nrblk := encCount (uval32 s.regs.ndsym / blockSize s) } }

/-- DEQUANT without its completion. -/
def runDequant (s : State) : Result := runPrimitive .dequant dequantWork s

/-- DEQUANT (R205). -/
def execDequant (s : State) : Host.Outcome State Fault Refusal := finish .dequant (runDequant s)

end Sys2Proof.Machine
end

