-- ==== Sys2Proof/Machine/Scaler.lean ====
section
/-! DEFINITION. fixed_point_scaler_unscaler: SCALE and UNSCALE (42_scaler.md R160 to R168), in the exact integer forms
R163 and R168. -/

namespace Sys2Proof.Machine

/-- One scaled sample (R163): round_haz((2^R·(v_c − lo) − 2^(R−1)·(hi − lo)) / (hi − lo)), v_c = clamp(v, lo, hi). -/
def scaleValue (r : Nat) (lo hi v : Int) : Int :=
  roundHazDiv (2 ^ r * (clamp v lo hi - lo) - 2 ^ (r - 1) * (hi - lo)) (hi - lo).toNat

/-- An input saturates exactly when v < MIN or v > MAX (R161). -/
def saturates (lo hi v : Int) : Bool := decide (v < lo) || decide (hi < v)

/-- The samples SCALE reads: IN[0 .. NBLK·K − 1]. -/
def scaleInputs (s : State) : List Int := (bufWords s .inp 0 (uval32 s.regs.nblk * blockSize s)).map sval32

/-- The number of samples that saturate (R161). -/
def scaleCount (s : State) : Nat := (scaleInputs s).countP (saturates (sval32 s.regs.minv) (sval32 s.regs.maxv))

/-- The work of SCALE (R160). -/
def scaleWork (s : State) : Result :=
  done { s with
    mem := storeBuf s.mem .scl 0 ((scaleInputs s).map fun v =>
      enc32 (scaleValue (resolution s) (sval32 s.regs.minv) (sval32 s.regs.maxv) v))
    regs := { s.regs with
      satcntFwd := encCount (scaleCount s)
      status := { s.regs.status with satFwd := s.regs.status.satFwd || decide (0 < scaleCount s) } } }

/-- SCALE without its completion. -/
def runScale (s : State) : Result := runPrimitive .scale scaleWork s

/-- SCALE (R160). -/
def execScale (s : State) : Host.Outcome State Fault Refusal := finish .scale (runScale s)

/-- 2^(R+24) · scaled of R168 before clamping: Y + 2^(R−1+24). -/
def unscaleNumerator (r : Nat) (y : Int) : Int := y + 2 ^ (r - 1 + Config.yfrac)

/-- One output sample (R168): round_haz(lo + (hi − lo)·t_c), t_c = clamp((Y + 2^(R−1+24)) / 2^(R+24), 0, 1). -/
def unscaleValue (r : Nat) (lo hi y : Int) : Int :=
  roundHazDiv (lo * 2 ^ (r + Config.yfrac) + (hi - lo) * clamp (unscaleNumerator r y) 0 (2 ^ (r + Config.yfrac)))
    (2 ^ (r + Config.yfrac))

/-- The "extreme" condition (R166): scaled < 0 or scaled > 1. -/
def extreme (r : Nat) (y : Int) : Bool :=
  decide (unscaleNumerator r y < 0) || decide (2 ^ (r + Config.yfrac) < unscaleNumerator r y)

/-- The values UNSCALE reads: Y[0 .. NRBLK·K − 1]. -/
def unscaleInputs (s : State) : List Int :=
  (List.range (uval32 s.regs.nrblk * blockSize s)).map fun i => sval64 (bufDWord s .y i)

/-- The number of values that meet the "extreme" condition (R166). -/
def unscaleCount (s : State) : Nat := (unscaleInputs s).countP (extreme (resolution s))

/-- The work of UNSCALE (R165). -/
def unscaleWork (s : State) : Result :=
  done { s with
    mem := storeBuf s.mem .out 0 ((unscaleInputs s).map fun y =>
      enc32 (unscaleValue (resolution s) (sval32 s.regs.minv) (sval32 s.regs.maxv) y))
    regs := { s.regs with
      satcntInv := encCount (unscaleCount s)
      status := { s.regs.status with satInv := s.regs.status.satInv || decide (0 < unscaleCount s) } } }

/-- UNSCALE without its completion. -/
def runUnscale (s : State) : Result := runPrimitive .unscale unscaleWork s

/-- UNSCALE (R165). -/
def execUnscale (s : State) : Host.Outcome State Fault Refusal := finish .unscale (runUnscale s)

end Sys2Proof.Machine
end

