-- ==== Sys2Proof/Machine/Segmenter.lean ====
section
/-! DEFINITION. block_segmenter_pad: SEGMENT (41_segmenter.md R150 to R152). -/

namespace Sys2Proof.Machine

/-- ceil(N/K), the number of forward blocks (R150). -/
def segmentBlocks (s : State) : Nat := ceilDiv (uval32 s.regs.nsamp) (blockSize s)

/-- The padding (R150): P − N copies of the bit pattern of IN[N − 1]. -/
def segmentPadding (s : State) : List Word :=
  List.replicate (segmentBlocks s * blockSize s - uval32 s.regs.nsamp) (bufWord s .inp (uval32 s.regs.nsamp - 1) 0)

/-- The work of SEGMENT (R150): the slots N .. P − 1 of IN receive the padding, NBLK the number of blocks. -/
def segmentWork (s : State) : Result :=
  done { s with
    mem := storeBuf s.mem .inp (uval32 s.regs.nsamp) (segmentPadding s)
    regs := { s.regs with nblk := encCount (segmentBlocks s) } }

/-- SEGMENT without its completion. -/
def runSegment (s : State) : Result := runPrimitive .segment segmentWork s

/-- SEGMENT (R150). -/
def execSegment (s : State) : Host.Outcome State Fault Refusal := finish .segment (runSegment s)

end Sys2Proof.Machine
end

