-- ==== Sys2Proof/Machine/Cosine.lean ====
section
/-! DEFINITION. Cosines of multiples of π/(2K) as scaled integers, and the rounding that uses them (00_scope.md R14, R15,
R18). The spec's cosine is the exact real one and every sum is rounded once. Here a cosine is an integer near 2^2112·cos; the
slack in `roundHazNear` is far above the error of a sum and far below the least distance of a sum that is no tie from a tie
(the sum is an algebraic integer over a fixed denominator, in a field of degree at most 32), so the rounded value is that of
the exact sum (log 7; Laws/Cyclotomic.lean and Laws/Cosine.lean prove the bounds). -/

namespace Sys2Proof.Machine

/-- The fraction bits of the scaled cosines. -/
abbrev cosBits : Nat := 2112

/-- 2^2112·cos(π/(2K)) to the nearest integer, for K = 1 .. 16. -/
def cosUnit : Nat → Int
  | 1 => 0x0
  | 2 => 0xb504f333f9de6484597d89b3754abe9f1d6f60ba893ba84ced17ac85833399154afc83043ab8a2c3a8b1fe6fdc83db390f74a85e439c7b4a780487363dfa2768d2202e8742af1f4e53059c6011bc337bcab1bc911688458a460abc722f7c4e33c6d5a8a38bb7e9dccb2a634331f3c84df52f120f836e582eeaa4a0899040ca4a81394ab6d8fd0efdf4d3a02cebc93e0c4264dabcd528b651b8cf341b6f8236c70104dc01fe32352f332a5e9f7bda1ebff6a1be3fca221307dea06241f7aa81c2c1fcbddea2f7dc3318838a2eaff5f3b2d24f4a763facb882fdfe170fd3b1f780f9acce41797f2805c246785e929570235fcf8f7bca3ea33b4d7c60a5e633e3e1485f3b494d82bc61
  | 3 => 0xddb3d742c265539d92ba16b83c5c1dc492ec1a6629ed23cc639053243722d3712485e7ecaf78aeded4c98557091147c3e6267926d1d0f634686699d00d6cd1c1dcf0917309c61d736f2f6f1dea16db980db5faa9d7bd84feb75f799d4d4ff2bb94a1379872c4955ab940b6677e2c4c9aafbf88e1f1279bb452e3e5c86aa981282ef80a63856d8f60dd7ac7842219e06ab34b501cecb16c21a0ca5558b26b217bb71647bedf6b259ced697cfbb9363498624ea47fe6e1088a5361b5955b80c57b2e087c03547e7a0c4779bbe96adafe8ca1737ea0fce91db33c09efa105b46989d9c3d7006bd0eeea05534dda9a969a91294d3934d78d673164192e76868c61231aeb30e7da345f0e
  | 4 => 0xec835e79946a31457e610231ac1d6180f0a83d3cd0dae9b5db897c2384083746a6340cb65c4b11d5b1ec03e9739998c8d8c97a34ea8113245cf9e6da96d3995938730faff81d5fe2dee55e941c0d6fa1c888853506b2c5b332f6419be462b49df36faa56cb01b5a8f79363dc74471ab83ed86cf49be96af6a6999c3943ac60a587eca155758691c22001e01ef06bec1c23d45641f6d8439ead17dedfa1ff1858585b1c6c9309702db2a9c09a6f8b4df7448a5189a6d67ed440a01bc0149f334967e1030c24f03077b6a9694fd355d09d18ee7b0759db2c63ae5f9aae9d52f98a062025baa34761de8edc02884c29450a0fd943b8a1510aae4be6f049485d4451a584b9d794f02a4b
  | 5 => 0xf378709a22a7faf31bb70d186a75ffc9d43b291aa1f4f4340d18a1c939c0f419b773a24d7402f819d0bb631723bbb8acd5602d3fd5c60b47553cb42152d25747bb523c55212e61cd1aff3fefa2bbee7cc10f4e8954d2f3316bcf47081a998ee56e8eaff96eddfac427aa481d8e1f3c462e57c473b8456a4c2829bffc4011714e298445341200c57d1559bc5f0a7485e5ca783ded5cb2d0db0ef3626afa150a18c513f7eb9615be81c79eb267460fd6e47b48b340346c6bde679a8c87f796375dfa7f88971c65928d30dabd82bd8b21969741aaf76b8c706ce929ef9bf3134c696661f00ee63a88889cad9ea95279ebe584a0f8a13789e0b5629c6e764f4b71cdd7abd2c7fec57953
  | 6 => 0xf746ea3a45f8a62a45cb4ef2c7d011897c38c497c0780216f0ca9f26e5018e471cc9df350700cad1978d34c6b94e1caccf9d88092a8fa187d13bbef20135f18bbbc461ef23f2e7b3792293deeae6a5414816f80fdb3165d0495c127efab2be26558904c9070d227b3471b33cb77f38d1fdf356505a7eec0a581e8b906e7616cd4dc58f0b05768d2fb4a9fece6cd9cbc5dcc1640b2241e49bd473f7bfbca8cb50708bc6abe72b9140389752034ff92e3d30571989b32b08c8ce48ac875443482aac05782cac0fd62e21db2d389eb6b46ed39c02d91070d984b062ff875c1bb38775b91fce31f9446208904616658824afafe5551c67112f7b313faab358234d58121a1eee4234c5a6
  | 7 => 0xf994e02ac74b471caa5277a8eeae26afe4dd58dab8bcc583b9cf0d05b3779c81080dc9ef3b89941d0d3b97602509bbe84fd8d8385d2e14138227ad9b186684145046135bd36f4eb6bd18b23efcef55598ee42321f301250f544d7a1759380e1b5fea14530c693db55d408a4b2ea94ba6b17a1b50bd5b74f2e1f4dc0d7607aa50e7e326ab10245df335dabf4eed5aa399e8360aa2a380468054b04a4d36cd32cb5f090471e1e7f3e214fe5f8b53ef8daf99c405362b980f23b007220acff40df2c4702b04b3ebb389949e7ec3bfb017d15333713b4ffcb478cd4d214b6c0b590c4da3b42959fe16fb18ebd16908e8e660727d4bbc2ced7dafd7a8bc8d10e77c73dc0c5cea58b87ae4
  | 8 => 0xfb14be7fbae581562172a361fd2a722ec5f40e3fd8f18ae1b1997321b48e8b1b947a5373353c45a48d5b15eaa58368eeaad7ae31c0ebddc08255136ae6a20ffb50cf34c23ee6b537f0e552e0348caf4ae90dcdf649aa9074b92d9c4ff4145bc2a17f25ceccf6de405a711c29cd4363ae6bd8ab16bf6ffd410b50f3ece8e71373e6646658a564d1e4dc548a4c8f4c41728d566ba0a14dff2938f2f657e30a6cdde10e3b7b6abdf8751b75dd72e6971154404c25059b313d25bb688daab9ac0f1eef53f10b1e5a9be85ced59c99d741aecf7347fee0a3b52da16788da03643bcb6e41d1468c31b5336b65018cf136bca7dcf811bb087b4034fd6f24adbafe6a8085dac26fdf72ebad6
  | 9 => 0xfc1c5c6408e0bad05d8d7bcd3aaec09e1fb48d7d21a66ad9e58f1da0032450d47a28f40ca30910f6632a895c59128f2506f3f449b88071b44c1efb359f021b817df24791a230258ae243f6c4587f8ff58535f6c92b88f6d0b003ea292647dd19d1f85f35b4dafad3775fd4e12a3a971aeda0af9682aafaf2ebe914c4282b0cdaf86ee293ee52aa9b862a114b4a1f843a9fa4b5add210bfdfb85846238a97c8e9b0f6677fc3fdd477fa54399046825d3ade585785ced746f7a1caeae361fb28053d343f48d6c0d9ca65eb3206920997b76ce5dacc16d6df872b7f047fc1ac38327318b7991f1ab54f5f8a26b40bff9fc3946cb58d0e189ef404f16a1b3ef9f8ea784e34b92570089b
  | 10 => 0xfcd924a17f22dcd1637220733b253b2d40f463e3b6d97d2814b2deeb6229c03b0db216f27039a6f0127bed1f147caf3418f1fb4180a151dceaf09c1b59036dcad914d0975f9a552b0ac4930056d8b36d970b08b9ae70b972d0e0d31492217ef75564fe9c1f34f27a373628aa08a4842eecfd5b6f0d2f218ee474572b1ac76dddccd174e60bb69abfb5667d89b0fc9824931eef4afa618438b195a5972dff3916cf5f21f1de2b778ca20b5e1f56920dc2955022ca0852eda735f1c042162fff1766bf16c4b647bf7f74faaac1ba90abfd0c5ab6a8ad98803afbd3a3ff5e2c10fa2b1da8028c38b2888ebbe61cd3dc3923f726a7e968e1adc3fdd02937695cf0cf4c76617ef910ef87
  | 11 => 0xfd64f021c2177b784ef5b892285bc88db3116b080f283fb844c679e48955715974c45d1dae66500753d1fd4db102796cd2d1a0e6db2af74138a6cb3cd2720bf521dc9330f42716a63ae9680e0f1deac601f6cd32cf7a5163e7b3a2684513302c593f7ffc54d61eab9e4153bb812d94b7367a409b8a23b17f202ed3917df13c1af28938bb38d48332e1135afd042928f090d5042db6d31f89083165f221552e08634cefeb9252f1aabcc3e0e74719cf88e948d83f042a89a92d06b464ef8eb989ec312285e566c41ae2cce72b0c5f993cda11d5608849df062bce78186534644901fa3ea107f211820a1ba0fb1fbf7302f4326905395f3e9c7d628dc95b38c53c21895d42af73e76f
  | 12 => 0xfdcf54976344da16c4ed19ace87d38e80b3473fc2a29c5a01852c61d123c6cecb949cc0ade28b1d0bbce39c56d8d80c0dac02701b236481a5fc756b15599db6ad64ee4452cedc90f9689032d909e8c826bb3994c3de49cbea814f5db4014fc3728ec04cae92561e4e86110545993a740f456a9877755c9cc780950d949cb862489d5bd1107b049f7cd00a8b4bf422d0e6a9b2aac2022ffac4ee516c421ec73d4e4bc27e6add214d862b340c98278e29bb5bdcd3fc7a82aa8ef9a02722826fd06d984548d5ecfd2815fadf926fef18f02ca38380076888674d6e51829c95cf1931739eb780b5efc4b5bb03ce4d578618b6c5ab47294278fecbb3b70d46dbd1b5541587d9720d7b8ae
  | 13 => 0xfe222b34b33b49725d74e4e7675cfc0ecfd9dbe8870b0f0776a7fbf7f23f7a7c663911d6542309ea7999527032856f62e034868554d57acaea11eec73e41c83332c3d5b216bac9bb0ee424036efdfa657fbca4f12f4ed08341b3ed88d052d2a84a39903ebc47cbee5704eb1db9711dd7926860e9b242e371ee2c2d2239a9d187ac4b4c8b189f9d3cadf82e2b65866e1e99be03266cf46e975a5a61d2225c48538aefa73a4fff86f468b0292fa5ba822c638507ff988ea4ea0b9716b1fd0b02baa1daf79526a0148814b1fd2740841e1daad3f9043b926f3e9fdb05fddb588cbbc3ae00835cd6f03818e2a4a81440f9658245b8e2de2b83cb419f2077d10285ab79ad8c599546c6e3
  | 14 => 0xfe63ec63209af686e8f52ed103ea7fcb32fe2da2db87d1e5691a94d11b0e738a9141d05693917a188ea4fa9bf4607b02986edd520eca487c1b732c1c5bf0c2a5710f9bbdd2b66db59e8b131c20b82713181c038e7b1667c78d3ae5326e28884cc5dcbf2696ad83aa061e872e34fce87e55f7a86d5a0de0d2b89049e2ad58260342dba01f3882270ab9bbb25f2980d6a7207ca56e309dadd2e1ded506da78c8d312b3d058125e83bf5e56254432bb5119ac26a1618f3919ab82f9ed8bf2293ca7b7b63684bdde4546db0ac3f8215ec518cb0e7948a3e9df0a0d8e5c2ebf3612176b56cb4c746d8fdda55ec25ccc42cc19c6852c66ba6037ab510a24d6a0fb2ee5ff72f7779c18cd6a
  | 15 => 0xfe98fca7c33e336420e80f64df5e03c46d2748be74e006da5c3cdf057ebe99d1a8772f9f3ba67171f6244d905b2abdb4c7fb7277828556a10c69ea98c2d7c4bc075c1156fbdb716541f4bf7e06574cf3c8884d88df1b0a796cc62fa85a146d1031ba3d5964613cccea906cccf3606e327c1b98bcdc747e153ad7498ce873914511add11c152b6c8d22adafadf5401ca16e370e96daad8f7be63a52d35dd30f71fda0597705938e380a1de9eb22c525501c504f67c36ab4025d983a3d79b5b383d76249cc8dd0466c8699ac310a0f9981b2ff5413d9964060ae776c488ecfcbbd7d43b81ac00435b84b02a45bd4d3d6a407807c0f64846c30534fbb3b07abd81615e0d9720972bddf
  | 16 => 0xfec46d1e89292cf041390efdc726e9ef5a2c976d196a3567b2681b468efba361a0e9ee7a85258e45485224a982a7c85a0ef7017e9ab9f844f0e27784c3e9ee913ef097a23f9c7dd962a7bb7e84da0df58eddf32ab8405e46aeba6c9471ce2c5de8b3d194c2671ca65a15bc3dcdcf6b973e53ada6081d298cdf0c95dc174f55927fa083ae1d0101934355342b1a9f28da0005cb43513500eb84da0741b13ea49bd8c2448998b7fdc83040a971a1da74d65862ef7b71f06872df3f2f48d7a11b674dcad44ca65811ce34342261adbba3a7af30547433d50b6ed41d56b5a5d29f920692ba9cad4fd972d7bfd1487348e3a83b7512f9fbb4eae82a7ef35b0dc97dc92fe1ad5bba7ea8ea
  | _ => 0

/-- The scaled values c(j), c(j+1), …, n of them, from the first two, by cos((j+2)θ) = 2·cos θ·cos((j+1)θ) − cos(jθ). -/
def cosSequence (unit : Int) : Nat → Int → Int → List Int
  | 0, _, _ => []
  | n + 1, a, b => a :: cosSequence unit n b (2 * unit * b / 2 ^ cosBits - a)

/-- Scaled cos(j·π/(2K)) for j = 0 .. K. -/
def cosTable (k : Nat) : List Int := cosSequence (cosUnit k) (k + 1) (2 ^ cosBits) (cosUnit k)

/-- Scaled cos(t·π/(2K)) for any t, from the table of the first quadrant. -/
def cosAt (table : List Int) (k t : Nat) : Int :=
  let u := t % (4 * k)
  let v := if 2 * k < u then 4 * k - u else u
  if k < v then - table.getD (2 * k - v) 0 else table.getD v 0

/-- The slack of the rounding, in units of the scaled sums. -/
abbrev roundSlack : Nat := 2 ^ 100

/-- round_haz (R15) of the exact value near num/den: a value within the slack of a tie is the tie. -/
def roundHazNear (num : Int) (den : Nat) : Int :=
  num.sign * ((2 * num.natAbs + den + 2 * roundSlack) / (2 * den) : Nat)

end Sys2Proof.Machine
end

