-- ==== Sys2Proof/Machine/Transform.lean ====
section
/-! DEFINITION. dct2_transform_engine and dct3_inverse_transform: FDCT and IDCT (43_transform.md R180 to R191). -/

namespace Sys2Proof.Machine

/-- 2^cosBits · Σ_n x[n]·cos(π/K·(n + 0.5)·k), from n on (R180; π/K·(n + 0.5)·k = (2n + 1)·k·π/(2K)). -/
def dct2Sum (table : List Int) (bs k : Nat) : Nat → List Int → Int
  | _, [] => 0
  | n, x :: xs => x * cosAt table bs ((2 * n + 1) * k) + dct2Sum table bs k (n + 1) xs

/-- One forward coefficient (R180): round_haz of the exact sum. -/
def fdctValue (table : List Int) (bs : Nat) (xs : List Int) (k : Nat) : Int :=
  roundHazNear (dct2Sum table bs k 0 xs) (2 ^ cosBits)

/-- 2^cosBits · Σ_n 2·c[n]·cos(π/K·n·(k + 0.5)), from n on (R188; π/K·n·(k + 0.5) = n·(2k + 1)·π/(2K)). -/
def dct3Sum (table : List Int) (bs k : Nat) : Nat → List Int → Int
  | _, [] => 0
  | n, c :: cs => 2 * c * cosAt table bs (n * (2 * k + 1)) + dct3Sum table bs k (n + 1) cs

/-- One reconstructed value in Q39.24 (R188): round_haz of y·2^24 with y = (c[0] + Σ_{n ≥ 1} 2·c[n]·cos(…))/K. -/
def idctValue (table : List Int) (bs : Nat) (cs : List Int) (k : Nat) : Int :=
  roundHazNear (2 ^ Config.yfrac * (cs.headD 0 * 2 ^ cosBits + dct3Sum table bs k 1 cs.tail)) (bs * 2 ^ cosBits)

/-- Block b of a buffer (41_segmenter.md R151): K consecutive elements. -/
def readBlock (s : State) (b : Buffer) (k blk : Nat) : List Int := (bufWords s b (blk * k) k).map sval32

/-- Every block of a buffer transformed on its own (R181, R191), in ascending element order. -/
def transformBlocks (s : State) (b : Buffer) (k blocks : Nat) (f : List Int → Nat → Int) : List Int :=
  (List.range blocks).flatMap fun blk =>
    let xs := readBlock s b k blk
    (List.range k).map (f xs)

/-- The coefficients FDCT computes (R180). -/
def fdctCoefs (s : State) : List Int :=
  transformBlocks s .scl (blockSize s) (uval32 s.regs.nblk) (fdctValue (cosTable (blockSize s)) (blockSize s))

/-- The work of FDCT (R180): OVERFLOW at the first coefficient, in ascending order, that does not fit (R127, R182). -/
def fdctWork (s : State) : Result :=
  match (fdctCoefs s).findIdx? (fun c => !fits32 c) with
  | some i => dataError .fdct .overflow i s
  | none => done { s with mem := storeBuf s.mem .coef 0 ((fdctCoefs s).map enc32) }

/-- FDCT without its completion. -/
def runFdct (s : State) : Result := runPrimitive .fdct fdctWork s

/-- FDCT (R180). -/
def execFdct (s : State) : Host.Outcome State Fault Refusal := finish .fdct (runFdct s)

/-- The Q39.24 values IDCT computes (R188). -/
def idctValues (s : State) : List Int :=
  transformBlocks s .dcoef (blockSize s) (uval32 s.regs.nrblk) (idctValue (cosTable (blockSize s)) (blockSize s))

/-- The two words of a Y element, low word first (10_state.md R49). -/
def dwordWords (w : DWord) : List Word := [w.extractLsb' 0 32, w.extractLsb' 32 32]

/-- The work of IDCT (R188); every value fits (R189). -/
def idctWork (s : State) : Result :=
  done { s with mem := storeBuf s.mem .y 0 ((idctValues s).flatMap fun v => dwordWords (enc64 v)) }

/-- IDCT without its completion. -/
def runIdct (s : State) : Result := runPrimitive .idct idctWork s

/-- IDCT (R188). -/
def execIdct (s : State) : Host.Outcome State Fault Refusal := finish .idct (runIdct s)

end Sys2Proof.Machine
end

