-- ==== Sys2Proof/Machine/Pipeline.lean ====
section
/-! DEFINITION. The pipeline macros ENCODE and DECODE (46_pipeline.md R260 to R263). -/

namespace Sys2Proof.Machine

/-- ENCODE without its completion (R260): CHKCFG's checks, reported with op 0x01, then the forward steps. -/
def runEncode (s : State) : Result :=
  (((((((runChkcfg s).andThen runSegment).andThen runScale).andThen runFdct).andThen runQuant).andThen runHcount).andThen
    runHbuild).andThen runHenc

/-- ENCODE (R260). -/
def execEncode (s : State) : Host.Outcome State Fault Refusal := finish .encode (runEncode s)

/-- DECODE without its completion (R261): its leading checks, reported with op 0x41, then the reverse steps. -/
def runDecode (s : State) : Result :=
  ((((runPrimitive .decode done s).andThen runHdec).andThen runDequant).andThen runIdct).andThen runUnscale

/-- DECODE (R261). -/
def execDecode (s : State) : Host.Outcome State Fault Refusal := finish .decode (runDecode s)

end Sys2Proof.Machine
end

