-- ==== Sys2Proof/Machine/Dispatch.lean ====
section
/-! DEFINITION. The dispatch of a decoded command to its meaning (40_command_model.md R122). -/

namespace Sys2Proof.Machine

def exec (i : Instr) (s : State) : Host.Outcome State Fault Refusal :=
  match i with
  | .nop => Sys2Proof.Machine.execNop s
  | .chkcfg => Sys2Proof.Machine.execChkcfg s
  | .segment => Sys2Proof.Machine.execSegment s
  | .scale => Sys2Proof.Machine.execScale s
  | .fdct => Sys2Proof.Machine.execFdct s
  | .quant => Sys2Proof.Machine.execQuant s
  | .hcount => Sys2Proof.Machine.execHcount s
  | .hbuild => Sys2Proof.Machine.execHbuild s
  | .henc => Sys2Proof.Machine.execHenc s
  | .hdec => Sys2Proof.Machine.execHdec s
  | .dequant => Sys2Proof.Machine.execDequant s
  | .idct => Sys2Proof.Machine.execIdct s
  | .unscale => Sys2Proof.Machine.execUnscale s
  | .encode => Sys2Proof.Machine.execEncode s
  | .decode => Sys2Proof.Machine.execDecode s

end Sys2Proof.Machine
end

