-- ==== Sys2Proof/Machine/HostBus.lean ====
section
/-! DEFINITION. The host bus: the register page (10_state.md R22 to R30), the address map and the refused accesses
(20_memory.md R70 to R75, 70_reset_and_hazards.md R351, R352), command issue (40_command_model.md R120), soft and hardware
reset (70_reset_and_hazards.md R340, R342), and the host program statements (30_encoding.md R107, R108). -/

namespace Sys2Proof.Machine

/-! ### The register page -/

/-- The access types of 10_state.md R23. CTRL, CMD and STATUS have rules of their own (R28, R29, R30). -/
inductive Access where
  | ro | rw | ctrl | cmd | status
deriving DecidableEq, Repr

/-- The offset of a register (10_state.md R23). -/
def regOffset : RegName → Nat
  | .id => 0x000
  | .caps => 0x004
  | .ctrl => 0x008
  | .cmd => 0x00C
  | .status => 0x010
  | .errinfo => 0x014
  | .blockK => 0x018
  | .res => 0x01C
  | .minv => 0x020
  | .maxv => 0x024
  | .nsamp => 0x028
  | .nblk => 0x02C
  | .nsym => 0x030
  | .ndist => 0x034
  | .nbits => 0x038
  | .ndsym => 0x03C
  | .nrblk => 0x040
  | .satcntFwd => 0x044
  | .satcntInv => 0x048
  | .root => 0x04C
  | .maxlen => 0x050
  | .qv i => 0x080 + 4 * i.val

/-- Every register. -/
def allRegs : List RegName :=
  [.id, .caps, .ctrl, .cmd, .status, .errinfo, .blockK, .res, .minv, .maxv, .nsamp, .nblk, .nsym, .ndist, .nbits, .ndsym,
    .nrblk, .satcntFwd, .satcntInv, .root, .maxlen] ++ (List.finRange Config.kmax).map RegName.qv

/-- The register at an offset; none at a reserved one (10_state.md R23). -/
def regAt (off : Nat) : Option RegName := allRegs.find? fun r => regOffset r == off

/-- The access type of a register (10_state.md R23). -/
def regAccess : RegName → Access
  | .id | .caps | .errinfo | .satcntFwd | .satcntInv | .root | .maxlen => .ro
  | .ctrl => .ctrl
  | .cmd => .cmd
  | .status => .status
  | .blockK | .res | .minv | .maxv | .nsamp | .nblk | .nsym | .ndist | .nbits | .ndsym | .nrblk => .rw
  | .qv _ => .rw

/-- What a host read of a register returns (10_state.md R25); it has no side effect (20_memory.md R78). -/
def regRead (s : State) : RegName → Word
  | .id => Config.idValue
  | .caps => Config.capsValue
  | .ctrl => ctrlWord s.regs.irqEn
  | .cmd => 0
  | .status => statusWord s.regs.status s.run.isBusy
  | .errinfo => s.regs.errInfo
  | .blockK => s.regs.blockK
  | .res => s.regs.res
  | .minv => s.regs.minv
  | .maxv => s.regs.maxv
  | .nsamp => s.regs.nsamp
  | .nblk => s.regs.nblk
  | .nsym => s.regs.nsym
  | .ndist => s.regs.ndist
  | .nbits => s.regs.nbits
  | .ndsym => s.regs.ndsym
  | .nrblk => s.regs.nrblk
  | .satcntFwd => s.regs.satcntFwd
  | .satcntInv => s.regs.satcntInv
  | .root => s.regs.root
  | .maxlen => s.regs.maxlen
  | .qv i => s.regs.qv.get i

/-- TREE_VALID cleared (10_state.md R37). -/
def clearTreeValid (r : Regs) : Regs := { r with status := { r.status with treeValid := false } }

/-- A write of an RW register (10_state.md R24): all 32 bits, whatever the value; NDIST also clears TREE_VALID (R37). -/
def rwWrite (w : Word) (r : Regs) : RegName → Regs
  | .blockK => { r with blockK := w }
  | .res => { r with res := w }
  | .minv => { r with minv := w }
  | .maxv => { r with maxv := w }
  | .nsamp => { r with nsamp := w }
  | .nblk => { r with nblk := w }
  | .nsym => { r with nsym := w }
  | .ndist => { clearTreeValid r with ndist := w }
  | .nbits => { r with nbits := w }
  | .ndsym => { r with ndsym := w }
  | .nrblk => { r with nrblk := w }
  | .qv i => { r with qv := r.qv.set i w }
  | .id | .caps | .errinfo | .satcntFwd | .satcntInv | .root | .maxlen | .ctrl | .cmd | .status => r

/-! ### Reset -/

/-- Soft reset (70_reset_and_hazards.md R342): a pending command is aborted, its destination buffers becoming UNSPEC; every
register and STATUS field returns to its reset value; the ENGINE is IDLE. -/
def softReset (s : State) : State :=
  { s with
    regs := Regs.reset
    run := .idle
    mem :=
      match s.run with
      | .idle => s.mem
      | .busy w =>
        match decode w with
        | .command i => unspecDests i s
        | .illegal _ => s.mem }

/-- Hardware reset (70_reset_and_hazards.md R340): registers at their reset values, ENGINE IDLE, every buffer element
UNSPEC. What HOST still has to send and what it has read are HOST's (log 11). -/
def hardReset (s : State) : State := { s with regs := Regs.reset, run := .idle, mem := [] }

/-! ### Host accesses -/

/-- What an address names (20_memory.md R75). -/
inductive Location where
  | reg (r : RegName)
  | reserved
  | window (b : Buffer)
  | unmapped
deriving DecidableEq, Repr

/-- The buffer whose window holds an address. -/
def windowAt (a : Nat) : Option Buffer := allBuffers.find? fun b => decide (bufBase b ≤ a) && decide (a < bufLimit b)

/-- The address map (20_memory.md R75): the register page is 0x00000 to 0x00FFF. -/
def locate (a : Nat) : Location :=
  if a < 0x1000 then
    match regAt a with
    | some r => .reg r
    | none => .reserved
  else
    match windowAt a with
    | some b => .window b
    | none => .unmapped

/-- STATUS.BUSERR <- 1 (10_state.md R35). -/
def setBusErr (s : State) : State := { s with regs := { s.regs with status := { s.regs.status with busErr := true } } }

/-- STATUS.CMD_REJECTED <- 1 (10_state.md R36). -/
def setCmdRejected (s : State) : State :=
  { s with regs := { s.regs with status := { s.regs.status with cmdRejected := true } } }

/-- The bus returns a word to HOST. -/
def reply (w : Word) (s : State) : State := { s with replies := w :: s.replies }

/-- A refused read: 0 is returned and BUSERR set (20_memory.md R72). -/
def refusedRead (s : State) : State := reply 0 (setBusErr s)

/-- `MemRead(a, width)` (10_state.md R25; 20_memory.md R72; 70_reset_and_hazards.md R352). -/
def busRead (a : BusAddr) (width : Nat) (s : State) : State :=
  if widthOk width && aligned a then
    match locate a.toNat with
    | .reg r => reply (regRead s r) s
    | .reserved => reply 0 s
    | .window _ => if s.run.isBusy then refusedRead s else reply (readWord s.mem s.draws a.toNat) s
    | .unmapped => refusedRead s
  else refusedRead s

/-- Issue of a command (40_command_model.md R120) when IDLE; a CMD write while BUSY is rejected (70 R351). The host accesses
that will still fall before the execution step are a free number (R122; log 3). -/
def writeCmd (w : Word) (s : State) : State :=
  match s.run with
  | .idle => { s with run := .busy w, delay := Config.freeDelay s.draws }
  | .busy _ => setCmdRejected s

/-- A write of CTRL (10_state.md R28), accepted IDLE or BUSY. -/
def writeCtrl (w : Word) (s : State) : State :=
  if w.getLsbD 0 then softReset s else { s with regs := { s.regs with irqEn := w.getLsbD 1 } }

/-- A write of a register (10_state.md R24; while BUSY 70_reset_and_hazards.md R352). -/
def writeReg (r : RegName) (w : Word) (s : State) : State :=
  match regAccess r with
  | .ro => s
  | .ctrl => writeCtrl w s
  | .cmd => writeCmd w s
  | .status => acknowledge w s
  | .rw => if s.run.isBusy then setBusErr s else { s with regs := rwWrite w s.regs r }

/-- A write of a buffer word (20_memory.md R72, R74, R75): refused for a read-only window and while BUSY; a write to the
FTAB window also clears TREE_VALID (10_state.md R37). -/
def writeWindow (b : Buffer) (a : Nat) (w : Word) (s : State) : State :=
  if bufHostWritable b && !s.run.isBusy then
    { s with
      mem := storeWords s.mem a [w]
      regs := if b = .ftab then clearTreeValid s.regs else s.regs }
  else setBusErr s

/-- `MemWrite(a, width, w)` (10_state.md R24; 20_memory.md R72; 70_reset_and_hazards.md R351, R352). -/
def busWrite (a : BusAddr) (width : Nat) (w : Word) (s : State) : State :=
  if widthOk width && aligned a then
    match locate a.toNat with
    | .reg r => writeReg r w s
    | .reserved => s
    | .window b => writeWindow b a.toNat w s
    | .unmapped => setBusErr s
  else setBusErr s

/-- The address of STATUS on the bus. -/
def statusAddr : BusAddr := BitVec.ofNat Config.addrW (regOffset .status)

/-- What a host event does to the block, the event being already off the queue. WAIT (30_encoding.md R108) reads STATUS and
stays at the head of the queue while bit 0 reads 1. -/
def hostEvent (e : HostEvent) (s : State) : State :=
  match e with
  | .read a width => busRead a width s
  | .write a width w => busWrite a width w s
  | .waitIdle =>
    let t := busRead statusAddr 4 s
    if s.run.isBusy then { t with host := .waitIdle :: t.host } else t
  | .hardReset => hardReset s

/-! ### Host programs (30_encoding.md R107, R108) -/

/-- The bus address of a target (20_memory.md R75). -/
def targetAddr : Target → BusAddr
  | .reg r => BitVec.ofNat Config.addrW (regOffset r)
  | .elem b i => BitVec.ofNat Config.addrW (bufAddr b i 0)
  | .ftabSymbol i => BitVec.ofNat Config.addrW (bufAddr .ftab i 0)
  | .ftabCount i => BitVec.ofNat Config.addrW (bufAddr .ftab i 1)
  | .ctabLen i => BitVec.ofNat Config.addrW (bufAddr .ctab i 0)
  | .ctabCode i => BitVec.ofNat Config.addrW (bufAddr .ctab i 1)
  | .treeWeight i => BitVec.ofNat Config.addrW (bufAddr .tree i 0)
  | .treeLeft i => BitVec.ofNat Config.addrW (bufAddr .tree i 1)
  | .treeRight i => BitVec.ofNat Config.addrW (bufAddr .tree i 2)
  | .treePayload i => BitVec.ofNat Config.addrW (bufAddr .tree i 3)
  | .yLo i => BitVec.ofNat Config.addrW (bufAddr .y i 0)
  | .yHi i => BitVec.ofNat Config.addrW (bufAddr .y i 1)
  | .raw a => a

/-- `q(x)` (R107): enc32(x·2^16), for a legal literal (`qLegal`). -/
def qWord (x : Rat) : Word := enc32 (x * (2 ^ Config.sfrac : Nat)).num

/-- `WR target, v`. -/
def wr (t : Target) (v : Word) : HostEvent := .write (targetAddr t) 4 v

/-- `RD target`. -/
def rd (t : Target) : HostEvent := .read (targetAddr t) 4

/-- `CMD i`: a write of the command's word to CMD. -/
def issue (i : Instr) : HostEvent := wr (.reg .cmd) (encode i)

/-- Writes to consecutive elements. -/
def fill (b : Buffer) : Nat → List Word → List HostEvent
  | _, [] => []
  | i, v :: vs => wr (.elem b i) v :: fill b (i + 1) vs

/-- Writes to consecutive entries of QV; none past QV[15] (a fill that goes on is ill formed). -/
def fillQ : Nat → List Word → List HostEvent
  | _, [] => []
  | i, v :: vs => (if h : i < Config.kmax then [wr (.reg (.qv ⟨i, h⟩)) v] else []) ++ fillQ (i + 1) vs

/-- The bus accesses of a statement (R107) or pseudo-instruction (R108). EXPECT is its read; what it compares is a check on
the run, "not a bus effect beyond the read". -/
def expand : Stmt → List HostEvent
  | .wr t v => [wr t v]
  | .rd t => [rd t]
  | .cmd i => [issue i]
  | .wait => [.waitIdle]
  | .run i => [issue i, .waitIdle]
  | .clr => [wr (.reg .status) 0x0000007E]
  | .fillBuf b i vs => fill b i vs
  | .fillQv i vs => fillQ i vs
  | .softReset => [wr (.reg .ctrl) 0x00000001]
  | .expect t _ => [rd t]

/-- The accesses of a host program. -/
def expandProgram (p : List Stmt) : List HostEvent := p.flatMap expand

end Sys2Proof.Machine
end

