-- ==== Sys2Proof/Machine/Step.lean ====
section
/-! DEFINITION. One step of the machine: an event of the total order of 20_memory.md R81, either HOST's next access or the
ENGINE's execution step (40_command_model.md R121, R122). -/

namespace Sys2Proof.Machine

/-- execute(w) (40_command_model.md R122): decode, then the command; an illegal word completes with ILLEGAL_CMD
(30_encoding.md R104). -/
def execute (w : Word) (s : State) : Host.Outcome State Fault Refusal :=
  match decode w with
  | .command i => exec i s
  | .illegal _ => .next (completeIllegal w s)

/-- HOST's next access (20_memory.md R70); with none to come, nothing happens (60_exceptions.md R325). Each access is one
draw of the free values, and one fewer of those that fall before a pending execution step. -/
def hostTurn (s : State) : State :=
  match s.host with
  | [] => s
  | e :: es => nextDraw (hostEvent e { s with host := es, delay := s.delay - 1 })

/-- Is it the ENGINE's turn? In BUSY(w), once the host accesses that fall before execute(w) are made (R122; log 3). -/
def engineTurn (s : State) : Bool := s.run.isBusy && (s.delay == 0 || s.host.isEmpty)

/-- One event. In IDLE only HOST moves (R121). -/
def step (s : State) : Host.Outcome State Fault Refusal :=
  match s.run with
  | .idle => .next (hostTurn s)
  | .busy w => if engineTurn s then execute w s else .next (hostTurn s)

/-- The state in which the very next step is execute(w) for a table row's word: the word pending, no host access before it
(log 6). -/
def State.withFetchWord (s : State) (nbits w : Nat) : State :=
  { s with run := .busy (BitVec.ofNat Config.dataW (w % 2 ^ nbits)), delay := 0 }

end Sys2Proof.Machine
end

