-- ==== Sys2Proof/Safety.lean ====
section
/-! DEFINITION. The terms claims use: the spec's formulas over the real numbers (00_scope.md R13 to R18), what memory holds,
what a completion leaves (40_command_model.md R123), the Huffman build and decode as the spec tells them
(45_entropy_coder.md), and the invariants of the block. -/

namespace Sys2Proof.Machine

/-! ### Numbers (00_scope.md R13 to R18) -/

/-- R15: `round_haz(x) = sign(x) · floor(|x| + 1/2)`. -/
noncomputable def roundHaz (x : ℝ) : ℤ := (SignType.sign x : ℤ) * ⌊|x| + 1 / 2⌋

/-- R13 `val_S`: the real number a sample word stands for. -/
noncomputable def valS (w : Word) : ℝ := sval32 w / 2 ^ Config.sfrac

/-- R13 `val_Y`: the real number a Y element stands for. -/
noncomputable def valY (w : DWord) : ℝ := sval64 w / 2 ^ Config.yfrac

/-- R16 `clamp` on real numbers. -/
noncomputable def clampReal (x lo hi : ℝ) : ℝ := if x < lo then lo else if hi < x then hi else x

/-- R18 `DCT2_K(x)[k]`. -/
noncomputable def dct2 (K : ℕ) (x : ℕ → ℤ) (k : ℕ) : ℝ :=
  ∑ n ∈ Finset.range K, (x n : ℝ) * Real.cos (Real.pi / K * (n + 1 / 2) * k)

/-- R18 `DCT3_K(c)[k]`. -/
noncomputable def dct3 (K : ℕ) (c : ℕ → ℤ) (k : ℕ) : ℝ :=
  2 / K * (1 / 2 * c 0 + ∑ n ∈ Finset.Ico 1 K, (c n : ℝ) * Real.cos (Real.pi / K * n * (k + 1 / 2)))

/-- One sample scaled (42_scaler.md R160). -/
noncomputable def scaled (R : ℕ) (lo hi v : Word) : ℤ :=
  roundHaz (2 ^ R * clampReal ((valS v - valS lo) / (valS hi - valS lo)) 0 1 - 2 ^ (R - 1))

/-- `(s + 2^(R−1)) / 2^R` of R165, before clamping. -/
noncomputable def normalised (R : ℕ) (y : DWord) : ℝ := (valY y + 2 ^ (R - 1)) / 2 ^ R

/-- One value unscaled (R165): `round_haz(o · 2^SFRAC)`, `o = MAX · scaled + MIN · (1 − scaled)`. -/
noncomputable def unscaled (R : ℕ) (lo hi : Word) (y : DWord) : ℤ :=
  roundHaz ((valS hi * clampReal (normalised R y) 0 1 + valS lo * (1 - clampReal (normalised R y) 0 1)) * 2 ^ Config.sfrac)

/-! ### Memory -/

/-- The four bytes at an address hold a word, little-endian (20_memory.md R73). -/
def HoldsAt (m : Memory) (a : Nat) (w : Word) : Prop := ∀ j, j < 4 → byteAt m (a + j) = (wordBytes w)[j]?

/-- Word `f` of element `i` of a buffer holds a word. -/
def Holds (m : Memory) (b : Buffer) (i f : Nat) (w : Word) : Prop := HoldsAt m (bufAddr b i f) w

/-- Element `i` of a one-word buffer holds an integer (00_scope.md R12). -/
def HoldsInt (m : Memory) (b : Buffer) (i : Nat) (n : Int) : Prop := ∃ w, Holds m b i 0 w ∧ sval32 w = n

/-- Element `i` of Y holds an integer (10_state.md R49). -/
def HoldsY (m : Memory) (i : Nat) (n : Int) : Prop :=
  ∃ w : DWord, Holds m .y i 0 (w.extractLsb' 0 32) ∧ Holds m .y i 1 (w.extractLsb' 32 32) ∧ sval64 w = n

/-- Every byte outside addresses lo .. hi − 1 reads as before. -/
def SameOutside (lo hi : Nat) (m n : Memory) : Prop := ∀ a, ¬ (lo ≤ a ∧ a < hi) → byteAt n a = byteAt m a

/-- An address inside the window of one of the buffers. -/
def InWindows (bs : List Buffer) (k : Nat) : Prop := ∃ b ∈ bs, bufBase b ≤ k ∧ k < bufLimit b

/-- Memory after a data error or an abort (40_command_model.md R131): no byte of the buffers holds a value, and every other
byte reads as before. -/
structure Emptied (bs : List Buffer) (m n : Memory) : Prop where
  inside : ∀ a, InWindows bs a → byteAt n a = none
  outside : ∀ a, ¬ InWindows bs a → byteAt n a = byteAt m a

/-- The buffers a command writes (30_encoding.md R102), all of whose elements are its destination (40_command_model.md R133)
but for IN, of which SEGMENT writes the padding. -/
def outputs : Instr → List Buffer
  | .nop | .chkcfg => []
  | .segment => [.inp]
  | .scale => [.scl]
  | .fdct => [.coef]
  | .quant => [.sym]
  | .hcount => [.ftab]
  | .hbuild => [.tree, .ctab]
  | .henc => [.bits]
  | .hdec => [.dsym]
  | .dequant => [.dcoef]
  | .idct => [.y]
  | .unscale => [.out]
  | .encode => [.inp, .scl, .coef, .sym, .ftab, .tree, .ctab, .bits]
  | .decode => [.dsym, .dcoef, .y, .out]

/-- Stream bit p of BITS (10_state.md R50). -/
def streamBit (s : State) (p : Nat) : Bool := (bufWord s .bits (p / 32) 0).getLsbD (31 - p % 32)

/-! ### Completions (40_command_model.md R123) -/

/-- The register page after `complete(w, OK, 0, 0)`, from the page `r` with the command's own outputs in it. -/
def okRegs (op : Byte) (r : Regs) : Regs :=
  { r with
    errInfo := 0
    status := { r.status with done := true, errCode := 0x00, lastOp := op, errOp := 0x00 } }

/-- The register page after `complete(w, code, info, errOp)` with `code` ≠ OK. -/
def errRegs (op code errOp : Byte) (info : Word) (r : Regs) : Regs :=
  { r with
    errInfo := info
    status := { r.status with done := true, err := true, errCode := code, lastOp := op, errOp := errOp } }

/-- A command run has ended: the ENGINE is IDLE (R123 clears BUSY) and HOST's side is untouched. -/
structure Ended (s t : State) : Prop where
  idle : t.run = .idle
  host : t.host = s.host
  delay : t.delay = s.delay
  replies : t.replies = s.replies

/-- A legal block size K (00_scope.md R10). -/
structure LegalBlock (s : State) (K : Nat) : Prop where
  eq : sval32 s.regs.blockK = K
  pos : 1 ≤ K
  le : K ≤ 16

/-- A legal resolution (00_scope.md R10). -/
structure LegalRes (s : State) (R : Nat) : Prop where
  eq : sval32 s.regs.res = R
  pos : 1 ≤ R
  le : R ≤ 16

/-- A legal amplitude range (00_scope.md R10). -/
def LegalRange (s : State) : Prop := sval32 s.regs.minv < sval32 s.regs.maxv

/-- Legal step sizes (00_scope.md R10). -/
def LegalSteps (s : State) (K : Nat) : Prop := ∀ i : Fin 16, i.val < K → 0 < sval32 (s.regs.qv.get i)

/-- A legal sample count with B = ceil_div(NSAMP, K) blocks (40_command_model.md R124: CK_NSAMP passes). -/
structure LegalSamples (s : State) (K B : Nat) : Prop where
  pos : 1 ≤ uval32 s.regs.nsamp
  le : uval32 s.regs.nsamp ≤ 4096
  enough : uval32 s.regs.nsamp ≤ B * K
  least : B * K < uval32 s.regs.nsamp + K
  fits : B * K ≤ 4096

/-! ### The host bus (10_state.md R23, 20_memory.md R72, R75) -/

/-- A 4-byte-aligned address. -/
def WordAddr (a : BusAddr) : Prop := a.toNat % 4 = 0

/-- An address of the register page. -/
def InPage (a : BusAddr) : Prop := a.toNat < 0x1000

/-- The offsets of the RW registers of R23 (CTRL apart). -/
def RwOffset (a : BusAddr) : Prop :=
  (0x018 ≤ a.toNat ∧ a.toNat ≤ 0x040) ∨ (0x080 ≤ a.toNat ∧ a.toNat ≤ 0x0BF)

/-- The offsets of the RO registers of R23. -/
def RoOffset (a : BusAddr) : Prop :=
  a.toNat = 0x000 ∨ a.toNat = 0x004 ∨ a.toNat = 0x014 ∨ (0x044 ≤ a.toNat ∧ a.toNat ≤ 0x050)

/-- The reserved offsets of R23. -/
def ReservedOffset (a : BusAddr) : Prop :=
  (0x054 ≤ a.toNat ∧ a.toNat ≤ 0x07F) ∨ (0x0C0 ≤ a.toNat ∧ a.toNat ≤ 0xFFF)

/-- An address of the buffer windows (R75). -/
def InBuffers (a : BusAddr) : Prop := 0x10000 ≤ a.toNat ∧ a.toNat < 0x68000

/-- An address of a window the host may only read: CTAB, TREE or OUT (R75). -/
def InReadOnly (a : BusAddr) : Prop :=
  (0x28000 ≤ a.toNat ∧ a.toNat < 0x50000) ∨ (0x64000 ≤ a.toNat ∧ a.toNat < 0x68000)

/-- An address R75 maps to nothing. -/
def Unmapped (a : BusAddr) : Prop := (0x1000 ≤ a.toNat ∧ a.toNat < 0x10000) ∨ 0x68000 ≤ a.toNat

/-- The ENGINE is BUSY. -/
def IsBusy (s : State) : Prop := ∃ w, s.run = .busy w

/-- STATUS.BUSERR set, nothing else changed (R72). -/
def withBusErr (s : State) : State := { s with regs := { s.regs with status := { s.regs.status with busErr := true } } }

/-- The reset column of R23. -/
def resetValue (a : BusAddr) : Word :=
  if a = 0x00000#19 then 0x44435432
  else if a = 0x00004#19 then 0x20101000
  else if a = 0x00018#19 then 0x00000010
  else if a = 0x0001C#19 then 0x00000007
  else if 0x080 ≤ a.toNat ∧ a.toNat ≤ 0x0BC then 0x00000001
  else 0x00000000

/-! ### Sequences of commands -/

/-- The state after a list of commands, each run to its completion, if every one completes OK. -/
def runAll : List Instr → State → Option State
  | [], s => some s
  | i :: is, s =>
    match exec i s with
    | .next t => if t.regs.status.errCode = 0x00 then runAll is t else none
    | .fault _ => none
    | .refused _ => none

/-- The steps of ENCODE (46_pipeline.md R260), CHKCFG standing for its leading checks (R263). -/
def encodeSteps : List Instr := [.chkcfg, .segment, .scale, .fdct, .quant, .hcount, .hbuild, .henc]

/-- The steps of DECODE after its leading checks (46_pipeline.md R261). -/
def decodeSteps : List Instr := [.hdec, .dequant, .idct, .unscale]

/-- A state with another LASTOP. -/
def withLastOp (op : Byte) (s : State) : State :=
  { s with regs := { s.regs with status := { s.regs.status with lastOp := op } } }

/-- `n` steps of the machine. -/
def stepN : Nat → State → Option State
  | 0, s => some s
  | n + 1, s =>
    match step s with
    | .next t => stepN n t
    | .fault _ => none
    | .refused _ => none

/-- A host event that resets the block (70_reset_and_hazards.md R340, R342). -/
def Resets : HostEvent → Prop
  | .read _ _ => False
  | .write a width w => a = 0x00008#19 ∧ width = 4 ∧ w.getLsbD 0 = true
  | .waitIdle => False
  | .hardReset => True

/-! ### The Huffman build (45_entropy_coder.md R225 to R233) -/

/-- The conditions of CK_FTAB at index i (R225). -/
def BadEntry (ft : List FtabEntry) (i : Nat) : Prop :=
  ∃ e, ft[i]? = some e ∧
    (uval32 e.count = 0 ∨ (∃ j < i, ∃ d, ft[j]? = some d ∧ d.symbol = e.symbol) ∨
      4294967295 < ((ft.take (i + 1)).map fun d => uval32 d.count).sum)

/-- A frequency table that CK_NDIST and CK_FTAB accept. -/
structure ValidTable (ft : List FtabEntry) : Prop where
  pos : 1 ≤ ft.length
  le : ft.length ≤ 4096
  good : ∀ i, ¬ BadEntry ft i

/-- A node of the tree T of R225, its weight a number and an absent child `none`. -/
structure Node where
  weight : Nat
  left : Option Nat
  right : Option Nat
  payload : Word
deriving DecidableEq, Repr

/-- Leaf i is made from FTAB[i] (R227). -/
def leafOf (e : FtabEntry) : Node := { weight := uval32 e.count, left := none, right := none, payload := e.symbol }

/-- T[x].WEIGHT. -/
def weightOf (T : List Node) (x : Nat) : Nat := (T[x]?.map Node.weight).getD 0

/-- The key order of R229: (WEIGHT, index), lexicographic. -/
def KeyLe (T : List Node) (x y : Nat) : Prop :=
  weightOf T x < weightOf T y ∨ (weightOf T x = weightOf T y ∧ x ≤ y)

/-- `a` is what popmin(Q) returns (R228). -/
def IsLeast (T : List Node) (Q : List Nat) (a : Nat) : Prop := a ∈ Q ∧ ∀ x ∈ Q, KeyLe T a x

/-- The merge loop of R225 and R230: from nodes T and queue Q it ends with nodes T' and root r. -/
inductive MergeRun : List Node → List Nat → List Node → Nat → Prop where
  | stop (T : List Node) (r : Nat) : MergeRun T [r] T r
  | merge {T T' : List Node} {Q : List Nat} {a b r : Nat} (ha : IsLeast T Q a) (hb : IsLeast T (Q.erase a) b)
      (rest : MergeRun (T ++ [{ weight := weightOf T a + weightOf T b, left := some a, right := some b, payload := 0 }])
        (T.length :: (Q.erase a).erase b) T' r) : MergeRun T Q T' r

/-- The edge bits from node x down to node y (R232): '1' to LEFT, '0' to RIGHT. -/
inductive EdgePath (T : List Node) : Nat → List Bool → Nat → Prop where
  | here (x : Nat) : EdgePath T x [] x
  | left {x c y : Nat} {bs : List Bool} (h : T[x]?.bind Node.left = some c) (rest : EdgePath T c bs y) :
      EdgePath T x (true :: bs) y
  | right {x c y : Nat} {bs : List Bool} (h : T[x]?.bind Node.right = some c) (rest : EdgePath T c bs y) :
      EdgePath T x (false :: bs) y

/-- T, root and the codes are what R225 builds from a frequency table (R227, R230 to R233). -/
structure BuiltFrom (ft : List FtabEntry) (T : List Node) (root : Nat) (codes : Nat → List Bool) : Prop where
  run : MergeRun (ft.map leafOf) (List.range ft.length) T root
  code : ∀ i < ft.length, if ft.length = 1 then codes i = [false] else EdgePath T root (codes i) i

/-- CODE of a bit string (10_state.md R47): Σ_j b_j · 2^(LEN−j). -/
def codeValue : List Bool → Nat
  | [] => 0
  | b :: bs => b.toNat * 2 ^ bs.length + codeValue bs

/-- A child field of a TREE element (10_state.md R48). -/
def childWord : Option Nat → Word
  | none => 0xFFFFFFFF
  | some c => encCount c

/-- TREE and CTAB hold a tree and its codes (10_state.md R47, R48), and ROOT and MAXLEN are its root and its greatest code
length (R45). -/
structure HoldsBuild (m : Memory) (r : Regs) (T : List Node) (root n : Nat) (codes : Nat → List Bool) : Prop where
  weight : ∀ x nd, T[x]? = some nd → Holds m .tree x 0 (encCount nd.weight)
  left : ∀ x nd, T[x]? = some nd → Holds m .tree x 1 (childWord nd.left)
  right : ∀ x nd, T[x]? = some nd → Holds m .tree x 2 (childWord nd.right)
  payload : ∀ x nd, T[x]? = some nd → Holds m .tree x 3 nd.payload
  len : ∀ i < n, Holds m .ctab i 0 (encCount (codes i).length)
  code : ∀ i < n, Holds m .ctab i 1 (encCount (codeValue (codes i)))
  root : uval32 r.root = root
  maxlenLe : ∀ i < n, (codes i).length ≤ uval32 r.maxlen
  maxlenEq : ∃ i < n, (codes i).length = uval32 r.maxlen

/-! ### Decoding (45_entropy_coder.md R245 to R248) -/

/-- The walk from node x over bits to node y of TREE, every node left being internal (R246). -/
inductive TreeWalk (s : State) : Nat → List Bool → Nat → Prop where
  | here (x : Nat) : TreeWalk s x [] x
  | step {x y : Nat} {b : Bool} {bs : List Bool} (internal : bufWord s .tree x 1 ≠ 0xFFFFFFFF)
      (rest : TreeWalk s (uval32 (bufWord s .tree x (if b then 1 else 2))) bs y) : TreeWalk s x (b :: bs) y

/-- Bits that are whole leaf traversals from the root, with the payloads they emit (R246). -/
inductive Decodes (s : State) (root : Nat) : List Bool → List Word → Prop where
  | nil : Decodes s root [] []
  | symbol {code rest : List Bool} {leaf : Nat} {syms : List Word} (walk : TreeWalk s root code leaf) (ne : code ≠ [])
      (isLeaf : bufWord s .tree leaf 1 = 0xFFFFFFFF) (more : Decodes s root rest syms) :
      Decodes s root (code ++ rest) (bufWord s .tree leaf 3 :: syms)

/-! ### Invariants -/

/-- What every step keeps: memory is canonical and lists only bytes of the buffers (20_memory.md R75); ERRCODE is one of
R300, and OK comes with ERROP 0 and ERRINFO 0 (10_state.md R38, R39); the counts and sizes RO registers hold are ones a
command can produce (R44, R45). -/
structure Inv (s : State) : Prop where
  canonical : Memory.wf s.mem
  inWindows : ∀ c ∈ s.mem, InWindows allBuffers c.1
  errCode : s.regs.status.errCode.toNat ≤ 0x0E
  okClean : s.regs.status.errCode = 0x00 → s.regs.status.errOp = 0x00 ∧ s.regs.errInfo = 0
  satFwd : uval32 s.regs.satcntFwd ≤ 4096
  satInv : uval32 s.regs.satcntInv ≤ 4096
  root : uval32 s.regs.root ≤ 8190
  maxlen : uval32 s.regs.maxlen ≤ 32

/-- FTAB may be read as the table `ft`: no byte it holds says otherwise (a byte that holds none reads as anything). -/
def TableMayBe (m : Memory) (ft : List FtabEntry) : Prop :=
  ∀ i e, ft[i]? = some e → ∀ j < 4,
    (∀ b, byteAt m (bufAddr .ftab i 0 + j) = some b → (wordBytes e.symbol)[j]? = some b) ∧
    (∀ b, byteAt m (bufAddr .ftab i 1 + j) = some b → (wordBytes e.count)[j]? = some b)

/-- TREE and CTAB hold the build of FTAB[0..NDIST−1] (10_state.md R37). -/
def TreeMatches (s : State) : Prop :=
  ∃ ft T root codes, ft.length = uval32 s.regs.ndist ∧ ValidTable ft ∧ TableMayBe s.mem ft ∧ BuiltFrom ft T root codes ∧
    (∀ i < ft.length, (codes i).length ≤ 32) ∧ HoldsBuild s.mem s.regs T root ft.length codes

/-- STATUS.TREE_VALID says so truly (10_state.md R37). -/
def TreeSound (s : State) : Prop := s.regs.status.treeValid = true → TreeMatches s

end Sys2Proof.Machine
end

