-- ==== Sys2Proof/Certificates/Slice0/Obligations.lean ====
section
/-! DEFINITION. The statements for the provers. Every statement about a command holds whatever the bytes that hold no value
read as. The docstrings cite the rule of spec/ each formalises. The draw counter of a state is the model's own (log 2). -/

section

open Sys2Proof Sys2Proof.Machine

/-! ### Decoding and stepping -/

/-- 40_command_model.md R122: in BUSY(w), when no host access falls first, the step is the decoded command (log 3, 6). -/
def Obligations.StepRunsTheDecodedCommand : Prop :=
  ∀ (s : State) (w : Word) (i : Instr), s.run = .busy w → decode w = .command i → (s.delay = 0 ∨ s.host = []) →
    step s = exec i s

/-- 20_memory.md R81: otherwise the step is HOST's next access, or nothing when none is to come (log 3, 4). -/
def Obligations.StepTakesTheNextHostAccess : Prop :=
  ∀ s : State, (s.run = .idle ∨ (s.delay ≠ 0 ∧ s.host ≠ [])) →
    (s.host = [] → step s = .next s) ∧
    (∀ e es, s.host = e :: es →
      step s = .next (nextDraw (hostEvent e { s with host := es, delay := s.delay - 1 })))

/-- 30_encoding.md R103: the fifteen words. -/
def Obligations.SpecWordsDecode : Prop :=
  decode 0x00000000#32 = .command .nop ∧ decode 0x00000001#32 = .command .chkcfg ∧
  decode 0x00000010#32 = .command .segment ∧ decode 0x00000011#32 = .command .scale ∧
  decode 0x00000012#32 = .command .fdct ∧ decode 0x00000013#32 = .command .quant ∧
  decode 0x00000020#32 = .command .hcount ∧ decode 0x00000021#32 = .command .hbuild ∧
  decode 0x00000022#32 = .command .henc ∧ decode 0x00000023#32 = .command .hdec ∧
  decode 0x00000030#32 = .command .dequant ∧ decode 0x00000031#32 = .command .idct ∧
  decode 0x00000032#32 = .command .unscale ∧ decode 0x00000040#32 = .command .encode ∧
  decode 0x00000041#32 = .command .decode

/-- 30_encoding.md R100, R105: a word decodes to a command exactly when it is that command's encoding. -/
def Obligations.DecodeInvertsEncode : Prop := ∀ (w : Word) (i : Instr), decode w = .command i ↔ w = encode i

/-- 30_encoding.md R104: every other word is accepted, and completes with ILLEGAL_CMD changing nothing else. -/
def Obligations.IllegalWordsComplete : Prop :=
  ∀ w : Word, (w.extractLsb' 8 24 ≠ 0 ∨ w.extractLsb' 0 8 ∉
      ([0x00, 0x01, 0x10, 0x11, 0x12, 0x13, 0x20, 0x21, 0x22, 0x23, 0x30, 0x31, 0x32, 0x40, 0x41] : List Byte)) →
    (∀ s : State, s.run = .idle → (busWrite 0x0000C#19 4 w s).run = .busy w) ∧
    (∀ s : State, s.run = .busy w → (s.delay = 0 ∨ s.host = []) →
      ∃ t, step s = .next t ∧ Ended s t ∧ t.mem = s.mem ∧
        t.regs = errRegs (w.extractLsb' 0 8) 0x01 (w.extractLsb' 0 8) 0 s.regs)

/-! ### Completion and errors -/

/-- 40_command_model.md R123, 60_exceptions.md R315: every command ends, IDLE, with DONE set and its outcome recorded. -/
def Obligations.EveryCommandCompletes : Prop :=
  ∀ (i : Instr) (s : State), ∃ t, exec i s = .next t ∧ Ended s t ∧
    t.regs.status.done = true ∧ t.regs.status.lastOp = opcode i ∧
    ((t.regs.status.errCode = 0x00 ∧ t.regs.status.errOp = 0x00 ∧ t.regs.errInfo = 0 ∧
        t.regs.status.err = s.regs.status.err) ∨
      (0x01 ≤ t.regs.status.errCode.toNat ∧ t.regs.status.errCode.toNat ≤ 0x0E ∧ t.regs.status.err = true ∧
        ∃ j, t.regs.status.errOp = opcode j))

/-- 30_encoding.md R102: no command writes the configuration registers, NSAMP, CTRL, or the bits only the host access sets. -/
def Obligations.CommandsKeepConfiguration : Prop :=
  ∀ (i : Instr) (s t : State), exec i s = .next t →
    t.regs.irqEn = s.regs.irqEn ∧ t.regs.blockK = s.regs.blockK ∧ t.regs.res = s.regs.res ∧
    t.regs.minv = s.regs.minv ∧ t.regs.maxv = s.regs.maxv ∧ t.regs.nsamp = s.regs.nsamp ∧ t.regs.qv = s.regs.qv ∧
    t.regs.status.busErr = s.regs.status.busErr ∧ t.regs.status.cmdRejected = s.regs.status.cmdRejected

/-- 10_state.md R43 to R45, R37, 30_encoding.md R102: each output register, notice and TREE_VALID is changed only by the
commands that write it, alone or as a step of a macro. -/
def Obligations.OutputsBelongToTheirCommands : Prop :=
  ∀ (i : Instr) (s t : State), exec i s = .next t →
    (i ∉ [Instr.segment, .encode] → t.regs.nblk = s.regs.nblk) ∧
    (i ∉ [Instr.quant, .encode] → t.regs.nsym = s.regs.nsym) ∧
    (i ∉ [Instr.hcount, .encode] → t.regs.ndist = s.regs.ndist) ∧
    (i ∉ [Instr.henc, .encode] → t.regs.nbits = s.regs.nbits) ∧
    (i ∉ [Instr.hdec, .decode] → t.regs.ndsym = s.regs.ndsym) ∧
    (i ∉ [Instr.dequant, .decode] → t.regs.nrblk = s.regs.nrblk) ∧
    (i ∉ [Instr.scale, .encode] →
      t.regs.satcntFwd = s.regs.satcntFwd ∧ t.regs.status.satFwd = s.regs.status.satFwd) ∧
    (i ∉ [Instr.unscale, .decode] →
      t.regs.satcntInv = s.regs.satcntInv ∧ t.regs.status.satInv = s.regs.status.satInv) ∧
    (i ∉ [Instr.hbuild, .encode] → t.regs.root = s.regs.root ∧ t.regs.maxlen = s.regs.maxlen) ∧
    (i ∉ [Instr.hcount, .hbuild, .encode] → t.regs.status.treeValid = s.regs.status.treeValid)

/-- 30_encoding.md R102, 40_command_model.md R131: no command changes a byte outside the buffers it writes. -/
def Obligations.CommandsKeepOtherMemory : Prop :=
  ∀ (i : Instr) (s t : State), exec i s = .next t →
    ∀ a, ¬ InWindows (outputs i) a → byteAt t.mem a = byteAt s.mem a

/-- 40_command_model.md R125: the pre-checks of each command, in order. -/
def Obligations.PreChecksInOrder : Prop :=
  preChecks .nop = [] ∧
  preChecks .chkcfg = [.ckK, .ckR, .ckRange, .ckQv, .ckNsamp] ∧
  preChecks .segment = [.ckK, .ckNsamp] ∧
  preChecks .scale = [.ckK, .ckR, .ckRange, .ckNblk] ∧
  preChecks .fdct = [.ckK, .ckNblk] ∧
  preChecks .quant = [.ckK, .ckQv, .ckNblk] ∧
  preChecks .hcount = [.ckNsymNz] ∧
  preChecks .hbuild = [.ckNdist, .ckFtab] ∧
  preChecks .henc = [.ckTree, .ckNsym] ∧
  preChecks .hdec = [.ckTree, .ckNbits] ∧
  preChecks .dequant = [.ckK, .ckQv, .ckNdsym] ∧
  preChecks .idct = [.ckK, .ckNrblk] ∧
  preChecks .unscale = [.ckK, .ckR, .ckRange, .ckNrblk] ∧
  preChecks .encode = [.ckK, .ckR, .ckRange, .ckQv, .ckNsamp] ∧
  preChecks .decode = [.ckK, .ckR, .ckRange, .ckQv]

/-- 40_command_model.md R124: when each check fails, and with which code. CK_QV and CK_FTAB are `ChecksNameTheLeastBadIndex`.
60_exceptions.md R300: the number of every code. -/
def Obligations.CheckTable : Prop :=
  (errNumber .illegalCmd = 0x01 ∧ errNumber .cfgK = 0x02 ∧ errNumber .cfgR = 0x03 ∧ errNumber .cfgRange = 0x04 ∧
    errNumber .cfgQv = 0x05 ∧ errNumber .cfgEmpty = 0x06 ∧ errNumber .capacity = 0x07 ∧ errNumber .shape = 0x08 ∧
    errNumber .overflow = 0x09 ∧ errNumber .heapUnderflow = 0x0A ∧ errNumber .notree = 0x0B ∧ errNumber .nosym = 0x0C ∧
    errNumber .desync = 0x0D ∧ errNumber .ftabInvalid = 0x0E) ∧
  ∀ s : State,
    (runCheck s .ckK = some (.cfgK, 0) ↔ ¬ (1 ≤ sval32 s.regs.blockK ∧ sval32 s.regs.blockK ≤ 16)) ∧
    (runCheck s .ckR = some (.cfgR, 0) ↔ ¬ (1 ≤ sval32 s.regs.res ∧ sval32 s.regs.res ≤ 16)) ∧
    (runCheck s .ckRange = some (.cfgRange, 0) ↔ sval32 s.regs.minv ≥ sval32 s.regs.maxv) ∧
    (runCheck s .ckNsymNz = some (.cfgEmpty, 0) ↔ uval32 s.regs.nsym = 0) ∧
    (runCheck s .ckNsymNz = some (.capacity, 0) ↔ 4096 < uval32 s.regs.nsym) ∧
    (runCheck s .ckNsym = some (.capacity, 0) ↔ 4096 < uval32 s.regs.nsym) ∧
    (runCheck s .ckTree = some (.notree, 0) ↔ s.regs.status.treeValid = false) ∧
    (runCheck s .ckNdist = some (.heapUnderflow, 0) ↔ uval32 s.regs.ndist = 0) ∧
    (runCheck s .ckNdist = some (.capacity, 0) ↔ 4096 < uval32 s.regs.ndist) ∧
    (runCheck s .ckNbits = some (.capacity, 0) ↔ 131072 < uval32 s.regs.nbits) ∧
    (runCheck s .ckNsamp = some (.cfgEmpty, 0) ↔ uval32 s.regs.nsamp = 0) ∧
    (∀ K : Nat, LegalBlock s K →
      (runCheck s .ckNsamp = some (.capacity, 0) ↔ uval32 s.regs.nsamp ≠ 0 ∧
        (4096 < uval32 s.regs.nsamp ∨ ∀ B : Nat, uval32 s.regs.nsamp ≤ B * K → 4096 < B * K)) ∧
      (runCheck s .ckNblk = some (.capacity, 0) ↔ 4096 < uval32 s.regs.nblk * K) ∧
      (runCheck s .ckNdsym = some (.capacity, 0) ↔ 4096 < uval32 s.regs.ndsym) ∧
      (runCheck s .ckNdsym = some (.shape, 0) ↔ uval32 s.regs.ndsym ≤ 4096 ∧ uval32 s.regs.ndsym % K ≠ 0) ∧
      (runCheck s .ckNrblk = some (.capacity, 0) ↔ 4096 < uval32 s.regs.nrblk * K))

/-- 60_exceptions.md R301: CK_QV and CK_FTAB report the least bad index, and nothing when there is none. -/
def Obligations.ChecksNameTheLeastBadIndex : Prop :=
  ∀ s : State,
    (∀ K : Nat, LegalBlock s K →
      (LegalSteps s K → runCheck s .ckQv = none) ∧
      (∀ i : Fin 16, i.val < K → sval32 (s.regs.qv.get i) ≤ 0 →
        (∀ j : Fin 16, j.val < i.val → 0 < sval32 (s.regs.qv.get j)) →
        runCheck s .ckQv = some (.cfgQv, BitVec.ofNat 32 i.val))) ∧
    ((∀ i, ¬ BadEntry (readFtab s (uval32 s.regs.ndist)) i) → runCheck s .ckFtab = none) ∧
    (∀ i, BadEntry (readFtab s (uval32 s.regs.ndist)) i →
      (∀ j < i, ¬ BadEntry (readFtab s (uval32 s.regs.ndist)) j) →
      runCheck s .ckFtab = some (.ftabInvalid, BitVec.ofNat 32 i))

/-- 40_command_model.md R126, R130: the first pre-check that fails ends the command; nothing but the completion fields
changes. The opcode recorded is CHKCFG's for ENCODE's leading checks (46_pipeline.md R262). -/
def Obligations.PreCheckErrorsChangeNothingElse : Prop :=
  ∀ (i : Instr) (s : State) (before after : List Check) (c : Check) (code : ErrCode) (info : Word),
    preChecks i = before ++ c :: after → (∀ d ∈ before, runCheck s d = none) → runCheck s c = some (code, info) →
    ∃ t, exec i s = .next t ∧ Ended s t ∧ t.mem = s.mem ∧
      t.regs = errRegs (opcode i) (errNumber code) (if i = .encode then 0x01 else opcode i) info s.regs

/-- 40_command_model.md R131: the data errors, and what each leaves: the failing command's destination buffers emptied, no
success-only output written, TREE_VALID cleared for HBUILD, all else kept. -/
def Obligations.DataErrorsEmptyTheDestinations : Prop :=
  ∀ (i : Instr) (s t : State), i ∈ [Instr.fdct, .dequant, .hbuild, .henc, .hdec] →
    (∀ c ∈ preChecks i, runCheck s c = none) → exec i s = .next t → t.regs.status.errCode ≠ 0x00 →
    (i ∈ [Instr.fdct, .dequant] → t.regs.status.errCode = 0x09) ∧ (i = .hbuild → t.regs.status.errCode = 0x07) ∧
    (i = .henc → t.regs.status.errCode = 0x0C) ∧
    (i = .hdec → t.regs.status.errCode = 0x07 ∨ t.regs.status.errCode = 0x0D) ∧
    Emptied (outputs i) s.mem t.mem ∧
    t.regs = errRegs (opcode i) t.regs.status.errCode (opcode i) t.regs.errInfo
      (if i = .hbuild then { s.regs with status := { s.regs.status with treeValid := false } } else s.regs)

/-! ### The control commands -/

/-- 40_command_model.md R134: NOP does nothing but complete. -/
def Obligations.NopOnlyCompletes : Prop :=
  ∀ s : State, ∃ t, exec .nop s = .next t ∧ Ended s t ∧ t.regs = okRegs 0x00 s.regs ∧ t.mem = s.mem

/-- 40_command_model.md R135: CHKCFG completes OK on a legal configuration, else with the first error, and does nothing
more. -/
def Obligations.ChkcfgValidates : Prop :=
  ∀ s : State, ∃ t, exec .chkcfg s = .next t ∧ Ended s t ∧ t.mem = s.mem ∧
    (¬ (∃ K, LegalBlock s K) → t.regs = errRegs 0x01 0x02 0x01 0 s.regs) ∧
    (∀ K, LegalBlock s K →
      (¬ (∃ R, LegalRes s R) → t.regs = errRegs 0x01 0x03 0x01 0 s.regs) ∧
      (∀ R, LegalRes s R →
        (¬ LegalRange s → t.regs = errRegs 0x01 0x04 0x01 0 s.regs) ∧
        (LegalRange s →
          (∀ i : Fin 16, i.val < K → sval32 (s.regs.qv.get i) ≤ 0 →
            (∀ j : Fin 16, j.val < i.val → 0 < sval32 (s.regs.qv.get j)) →
            t.regs = errRegs 0x01 0x05 0x01 (BitVec.ofNat 32 i.val) s.regs) ∧
          (LegalSteps s K →
            (uval32 s.regs.nsamp = 0 → t.regs = errRegs 0x01 0x06 0x01 0 s.regs) ∧
            (uval32 s.regs.nsamp ≠ 0 → (∀ B, ¬ LegalSamples s K B) → t.regs = errRegs 0x01 0x07 0x01 0 s.regs) ∧
            (∀ B, LegalSamples s K B → t.regs = okRegs 0x01 s.regs)))))

/-! ### The forward path -/

/-- 41_segmenter.md R152: ceil(N/K) blocks, the padding equal to the last sample, everything else kept. -/
def Obligations.SegmentPadsTheLastBlock : Prop :=
  ∀ (s : State) (K B : Nat), LegalBlock s K → LegalSamples s K B →
    ∃ t, exec .segment s = .next t ∧ Ended s t ∧
      t.regs = okRegs 0x10 { s.regs with nblk := BitVec.ofNat 32 B } ∧
      (∀ i, uval32 s.regs.nsamp ≤ i → i < B * K →
        Holds t.mem .inp i 0 (bufWord s .inp (uval32 s.regs.nsamp - 1) 0)) ∧
      SameOutside (bufAddr .inp (uval32 s.regs.nsamp) 0) (bufAddr .inp (B * K) 0) s.mem t.mem

/-- 42_scaler.md R160, R161: every sample scaled by the exact formula and rounded once; the saturated ones counted. -/
def Obligations.ScaleRoundsTheExactFormula : Prop :=
  ∀ (s : State) (K R : Nat), LegalBlock s K → LegalRes s R → LegalRange s → uval32 s.regs.nblk * K ≤ 4096 →
    ∃ t, exec .scale s = .next t ∧ Ended s t ∧
      (∀ count : Nat, count = Set.ncard { i : ℕ | i < uval32 s.regs.nblk * K ∧
          (valS (bufWord s .inp i 0) < valS s.regs.minv ∨ valS s.regs.maxv < valS (bufWord s .inp i 0)) } →
        t.regs = okRegs 0x11 { s.regs with
          satcntFwd := BitVec.ofNat 32 count
          status := { s.regs.status with satFwd := s.regs.status.satFwd || decide (0 < count) } }) ∧
      (∀ i < uval32 s.regs.nblk * K,
        HoldsInt t.mem .scl i (scaled R s.regs.minv s.regs.maxv (bufWord s .inp i 0))) ∧
      SameOutside (bufAddr .scl 0 0) (bufAddr .scl (uval32 s.regs.nblk * K) 0) s.mem t.mem

/-- 42_scaler.md R162: what SCALE writes lies in [−2^(R−1), +2^(R−1)], both ends reached from the ends of the range. -/
def Obligations.ScaledSamplesStayInRange : Prop :=
  ∀ (s : State) (K R : Nat), LegalBlock s K → LegalRes s R → LegalRange s → uval32 s.regs.nblk * K ≤ 4096 →
    ∃ t, exec .scale s = .next t ∧ ∀ i < uval32 s.regs.nblk * K, ∃ n : Int, HoldsInt t.mem .scl i n ∧
      -2 ^ (R - 1) ≤ n ∧ n ≤ 2 ^ (R - 1) ∧
      (sval32 (bufWord s .inp i 0) ≤ sval32 s.regs.minv → n = -2 ^ (R - 1)) ∧
      (sval32 s.regs.maxv ≤ sval32 (bufWord s .inp i 0) → n = 2 ^ (R - 1))

/-- 43_transform.md R180: every coefficient is the exact real DCT-II sum rounded once; OVERFLOW at the first that does not
fit. -/
def Obligations.FdctRoundsTheExactSum : Prop :=
  ∀ (s : State) (K : Nat) (c : Nat → Nat → Int), LegalBlock s K → uval32 s.regs.nblk * K ≤ 4096 →
    (∀ b k, c b k = roundHaz (dct2 K (fun n => sval32 (bufWord s .scl (b * K + n) 0)) k)) →
    ((∀ b < uval32 s.regs.nblk, ∀ k < K, fits32 (c b k) = true) →
      ∃ t, exec .fdct s = .next t ∧ Ended s t ∧ t.regs = okRegs 0x12 s.regs ∧
        (∀ b < uval32 s.regs.nblk, ∀ k < K, HoldsInt t.mem .coef (b * K + k) (c b k)) ∧
        SameOutside (bufAddr .coef 0 0) (bufAddr .coef (uval32 s.regs.nblk * K) 0) s.mem t.mem) ∧
    (∀ b < uval32 s.regs.nblk, ∀ k < K, fits32 (c b k) = false →
      (∀ b' < uval32 s.regs.nblk, ∀ k' < K, b' * K + k' < b * K + k → fits32 (c b' k') = true) →
      ∃ t, exec .fdct s = .next t ∧ Ended s t ∧
        t.regs = errRegs 0x12 0x09 0x12 (BitVec.ofNat 32 (b * K + k)) s.regs ∧ Emptied [.coef] s.mem t.mem)

/-- 44_quantizer.md R200, R201: every symbol is the exact quotient rounded, and fits. -/
def Obligations.QuantRoundsTheExactQuotient : Prop :=
  ∀ (s : State) (K : Nat), LegalBlock s K → LegalSteps s K → uval32 s.regs.nblk * K ≤ 4096 →
    ∃ t, exec .quant s = .next t ∧ Ended s t ∧
      t.regs = okRegs 0x13 { s.regs with nsym := BitVec.ofNat 32 (uval32 s.regs.nblk * K) } ∧
      (∀ j < uval32 s.regs.nblk * K, ∀ q : Fin 16, q.val = j % K →
        HoldsInt t.mem .sym j
          (roundHaz ((sval32 (bufWord s .coef j 0) : ℝ) / (sval32 (s.regs.qv.get q) : ℝ)))) ∧
      SameOutside (bufAddr .sym 0 0) (bufAddr .sym (uval32 s.regs.nblk * K) 0) s.mem t.mem

/-! ### The entropy coder -/

/-- 45_entropy_coder.md R220, R221: the distinct symbols in order of first occurrence, each with its number of
occurrences. -/
def Obligations.HcountCountsInFirstOccurrenceOrder : Prop :=
  ∀ (s : State) (syms distinct : List Word), 1 ≤ uval32 s.regs.nsym → uval32 s.regs.nsym ≤ 4096 →
    syms = (List.range (uval32 s.regs.nsym)).map (fun j => bufWord s .sym j 0) →
    distinct.Nodup → (∀ x, x ∈ distinct ↔ x ∈ syms) →
    (∀ (i j : Nat) (x y : Word), i < j → distinct[i]? = some x → distinct[j]? = some y → syms.idxOf x < syms.idxOf y) →
    ∃ t, exec .hcount s = .next t ∧ Ended s t ∧
      t.regs = okRegs 0x20 { s.regs with
        ndist := BitVec.ofNat 32 distinct.length
        status := { s.regs.status with treeValid := false } } ∧
      (∀ (i : Nat) (x : Word), distinct[i]? = some x →
        Holds t.mem .ftab i 0 x ∧ Holds t.mem .ftab i 1 (BitVec.ofNat 32 (syms.count x))) ∧
      SameOutside (bufAddr .ftab 0 0) (bufAddr .ftab distinct.length 0) s.mem t.mem

/-- 45_entropy_coder.md R225, R236: TREE, CTAB, ROOT and MAXLEN receive the build of the spec's merge loop; CAPACITY at the
first code longer than 32 (R226, R235). -/
def Obligations.HbuildBuildsTheSpecTree : Prop :=
  ∀ (s : State) (ft : List FtabEntry) (T : List Node) (root : Nat) (codes : Nat → List Bool),
    ft = (List.range (uval32 s.regs.ndist)).map
      (fun i => { symbol := bufWord s .ftab i 0, count := bufWord s .ftab i 1 }) →
    ValidTable ft → BuiltFrom ft T root codes →
    ((∀ i < ft.length, (codes i).length ≤ 32) →
      ∃ t, exec .hbuild s = .next t ∧ Ended s t ∧
        t.regs = okRegs 0x21 { s.regs with
          root := t.regs.root
          maxlen := t.regs.maxlen
          status := { s.regs.status with treeValid := true } } ∧
        HoldsBuild t.mem t.regs T root ft.length codes ∧
        (∀ a, ¬ (bufAddr .tree 0 0 ≤ a ∧ a < bufAddr .tree (2 * ft.length - 1) 0) →
          ¬ (bufAddr .ctab 0 0 ≤ a ∧ a < bufAddr .ctab ft.length 0) → byteAt t.mem a = byteAt s.mem a)) ∧
    (∀ i < ft.length, 32 < (codes i).length → (∀ j < i, (codes j).length ≤ 32) →
      ∃ t, exec .hbuild s = .next t ∧ Ended s t ∧
        t.regs = errRegs 0x21 0x07 0x21 (BitVec.ofNat 32 i)
          { s.regs with status := { s.regs.status with treeValid := false } } ∧
        Emptied [.tree, .ctab] s.mem t.mem)

/-- 45_entropy_coder.md R230, R231: what a successful HBUILD leaves in TREE is a binary tree of 2n − 1 nodes with the
spec's root, in which each node but the root is the child of exactly one, with a lower index. -/
def Obligations.HbuildLeavesABinaryTree : Prop :=
  ∀ (s : State) (ft : List FtabEntry),
    ft = (List.range (uval32 s.regs.ndist)).map
      (fun i => { symbol := bufWord s .ftab i 0, count := bufWord s .ftab i 1 }) →
    ValidTable ft →
    ∃ t, exec .hbuild s = .next t ∧ (t.regs.status.errCode = 0x00 ∨ t.regs.status.errCode = 0x07) ∧
      (t.regs.status.errCode = 0x00 → ∃ (T : List Node) (root : Nat) (codes : Nat → List Bool),
        BuiltFrom ft T root codes ∧ HoldsBuild t.mem t.regs T root ft.length codes ∧
        T.length = 2 * ft.length - 1 ∧ root = 2 * ft.length - 2 ∧ (ft.map fun e => uval32 e.count).sum ≤ 4294967295 ∧
        (∀ (x : Nat) (nd : Node), T[x]? = some nd → nd.weight ≤ (ft.map fun e => uval32 e.count).sum ∧
          (x < ft.length → nd.left = none ∧ nd.right = none) ∧
          (ft.length ≤ x → ∃ a b, nd.left = some a ∧ nd.right = some b ∧ a < x ∧ b < x ∧ a ≠ b)) ∧
        (∀ y < root, ∃ (x : Nat) (nd : Node), T[x]? = some nd ∧ (nd.left = some y ∨ nd.right = some y) ∧
          ∀ (x' : Nat) (nd' : Node), T[x']? = some nd' → (nd'.left = some y ∨ nd'.right = some y) → x' = x))

/-- 45_entropy_coder.md R249 items 1 and 2: the codes in CTAB are prefix-free, and their Kraft sum is 1 (1/2 for one
code). -/
def Obligations.CodesArePrefixFreeAndComplete : Prop :=
  ∀ (s t : State) (ft : List FtabEntry),
    ft = (List.range (uval32 s.regs.ndist)).map
      (fun i => { symbol := bufWord s .ftab i 0, count := bufWord s .ftab i 1 }) →
    ValidTable ft → exec .hbuild s = .next t → t.regs.status.errCode = 0x00 →
    ∃ codes : Nat → List Bool,
      (∀ i < ft.length, Holds t.mem .ctab i 0 (BitVec.ofNat 32 (codes i).length) ∧
        Holds t.mem .ctab i 1 (BitVec.ofNat 32 (codeValue (codes i))) ∧ 1 ≤ (codes i).length ∧ (codes i).length ≤ 32) ∧
      (∀ i < ft.length, ∀ j < ft.length, i ≠ j → ¬ codes i <+: codes j) ∧
      (∑ i ∈ Finset.range ft.length, (1 / 2 : ℝ) ^ (codes i).length) = if ft.length = 1 then 1 / 2 else 1

/-- 45_entropy_coder.md R235: HBUILD never fails on the table HCOUNT made, whose codes are at most 16 bits long. -/
def Obligations.HbuildAfterHcountSucceeds : Prop :=
  ∀ (s t u : State), exec .hcount s = .next t → t.regs.status.errCode = 0x00 → exec .hbuild t = .next u →
    u.regs.status.errCode = 0x00 ∧ u.regs.status.treeValid = true ∧
      1 ≤ uval32 u.regs.maxlen ∧ uval32 u.regs.maxlen ≤ 16

/-- 45_entropy_coder.md R240 to R242: the codes of the symbols, concatenated and packed most significant bit first, zero
padded; NOSYM at the first symbol the table lacks. -/
def Obligations.HencConcatenatesTheCodes : Prop :=
  ∀ (s : State) (index : Nat → Nat) (stream : List Bool), s.regs.status.treeValid = true → uval32 s.regs.nsym ≤ 4096 →
    ((∀ j < uval32 s.regs.nsym, index j < uval32 s.regs.ndist ∧
        bufWord s .ftab (index j) 0 = bufWord s .sym j 0 ∧ uval32 (bufWord s .ctab (index j) 0) ≤ 32 ∧
        ∀ i < uval32 s.regs.ndist, bufWord s .ftab i 0 = bufWord s .sym j 0 → i = index j) →
      stream = (List.range (uval32 s.regs.nsym)).flatMap (fun j =>
        (List.range (uval32 (bufWord s .ctab (index j) 0))).map fun k =>
          (bufWord s .ctab (index j) 1).getLsbD (uval32 (bufWord s .ctab (index j) 0) - 1 - k)) →
      ∃ t, exec .henc s = .next t ∧ Ended s t ∧
        t.regs = okRegs 0x22 { s.regs with nbits := BitVec.ofNat 32 stream.length } ∧
        (∀ q, 32 * q < stream.length → ∃ w, Holds t.mem .bits q 0 w ∧
          ∀ j < 32, w.getLsbD (31 - j) = stream.getD (32 * q + j) false) ∧
        SameOutside (bufAddr .bits 0 0) (bufAddr .bits ((stream.length + 31) / 32) 0) s.mem t.mem) ∧
    (∀ j < uval32 s.regs.nsym,
      (∀ i < uval32 s.regs.ndist, bufWord s .ftab i 0 ≠ bufWord s .sym j 0) →
      (∀ j' < j, ∃ i < uval32 s.regs.ndist, bufWord s .ftab i 0 = bufWord s .sym j' 0) →
      ∃ t, exec .henc s = .next t ∧ Ended s t ∧
        t.regs = errRegs 0x22 0x0C 0x22 (BitVec.ofNat 32 j) s.regs ∧ Emptied [.bits] s.mem t.mem)

/-- 45_entropy_coder.md R245, R246: a stream that is whole leaf traversals decodes to the payloads. -/
def Obligations.HdecDecodesWholeTraversals : Prop :=
  ∀ (s : State) (syms : List Word), s.regs.status.treeValid = true → uval32 s.regs.nbits ≤ 131072 →
    bufWord s .tree (uval32 s.regs.root) 1 ≠ 0xFFFFFFFF →
    Decodes s (uval32 s.regs.root) ((List.range (uval32 s.regs.nbits)).map (streamBit s)) syms → syms.length ≤ 4096 →
    ∃ t, exec .hdec s = .next t ∧ Ended s t ∧
      t.regs = okRegs 0x23 { s.regs with ndsym := BitVec.ofNat 32 syms.length } ∧
      (∀ (d : Nat) (x : Word), syms[d]? = some x → Holds t.mem .dsym d 0 x) ∧
      SameOutside (bufAddr .dsym 0 0) (bufAddr .dsym syms.length 0) s.mem t.mem

/-- 45_entropy_coder.md R245, R248: an incomplete last traversal is DESYNC with ERRINFO NBITS; a symbol past the 4096th is
CAPACITY with the bit that completes it. -/
def Obligations.HdecReportsDesyncAndCapacity : Prop :=
  ∀ (s : State) (whole part : List Bool) (syms : List Word) (x : Nat), s.regs.status.treeValid = true →
    uval32 s.regs.nbits ≤ 131072 → bufWord s .tree (uval32 s.regs.root) 1 ≠ 0xFFFFFFFF →
    Decodes s (uval32 s.regs.root) whole syms → TreeWalk s (uval32 s.regs.root) part x → part ≠ [] →
    ((List.range (uval32 s.regs.nbits)).map (streamBit s) = whole ++ part → syms.length ≤ 4096 →
      bufWord s .tree x 1 ≠ 0xFFFFFFFF → x ≠ uval32 s.regs.root →
      ∃ t, exec .hdec s = .next t ∧ Ended s t ∧
        t.regs = errRegs 0x23 0x0D 0x23 s.regs.nbits s.regs ∧ Emptied [.dsym] s.mem t.mem) ∧
    (∀ rest, (List.range (uval32 s.regs.nbits)).map (streamBit s) = whole ++ part ++ rest → syms.length = 4096 →
      bufWord s .tree x 1 = 0xFFFFFFFF →
      ∃ t, exec .hdec s = .next t ∧ Ended s t ∧
        t.regs = errRegs 0x23 0x07 0x23 (BitVec.ofNat 32 (whole.length + part.length - 1)) s.regs ∧
        Emptied [.dsym] s.mem t.mem)

/-- 45_entropy_coder.md R247: with a root that is a leaf, each bit 0 is one copy of its symbol, and the first bit 1 is
DESYNC. -/
def Obligations.HdecOfASingleLeaf : Prop :=
  ∀ s : State, s.regs.status.treeValid = true → uval32 s.regs.nbits ≤ 131072 →
    bufWord s .tree (uval32 s.regs.root) 1 = 0xFFFFFFFF →
    (uval32 s.regs.nbits ≤ 4096 → (∀ p < uval32 s.regs.nbits, streamBit s p = false) →
      ∃ t, exec .hdec s = .next t ∧ Ended s t ∧ t.regs = okRegs 0x23 { s.regs with ndsym := s.regs.nbits } ∧
        (∀ d < uval32 s.regs.nbits, Holds t.mem .dsym d 0 (bufWord s .tree (uval32 s.regs.root) 3)) ∧
        SameOutside (bufAddr .dsym 0 0) (bufAddr .dsym (uval32 s.regs.nbits) 0) s.mem t.mem) ∧
    (∀ p < uval32 s.regs.nbits, p ≤ 4096 → streamBit s p = true → (∀ q < p, streamBit s q = false) →
      ∃ t, exec .hdec s = .next t ∧ Ended s t ∧
        t.regs = errRegs 0x23 0x0D 0x23 (BitVec.ofNat 32 p) s.regs ∧ Emptied [.dsym] s.mem t.mem) ∧
    (4096 < uval32 s.regs.nbits → (∀ p ≤ 4096, streamBit s p = false) →
      ∃ t, exec .hdec s = .next t ∧ Ended s t ∧
        t.regs = errRegs 0x23 0x07 0x23 (BitVec.ofNat 32 4096) s.regs ∧ Emptied [.dsym] s.mem t.mem)

/-- 45_entropy_coder.md R249 item 3: HCOUNT, HBUILD, HENC and HDEC complete OK and give the symbols back. -/
def Obligations.HuffmanRoundTrip : Prop :=
  ∀ (s : State) (sym : Nat → Word), 1 ≤ uval32 s.regs.nsym → uval32 s.regs.nsym ≤ 4096 →
    (∀ j < uval32 s.regs.nsym, Holds s.mem .sym j 0 (sym j)) →
    ∃ t, runAll [.hcount, .hbuild, .henc, .hdec] s = some t ∧ t.regs.ndsym = s.regs.nsym ∧
      ∀ j < uval32 s.regs.nsym, Holds t.mem .dsym j 0 (sym j)

/-! ### The reverse path -/

/-- 44_quantizer.md R205: every product exact; OVERFLOW at the first that does not fit. -/
def Obligations.DequantMultipliesExactly : Prop :=
  ∀ (s : State) (K : Nat) (p : Nat → Int), LegalBlock s K → LegalSteps s K → uval32 s.regs.ndsym ≤ 4096 →
    uval32 s.regs.ndsym % K = 0 →
    (∀ j, ∀ q : Fin 16, q.val = j % K → p j = sval32 (bufWord s .dsym j 0) * sval32 (s.regs.qv.get q)) →
    ((∀ j < uval32 s.regs.ndsym, -2 ^ 31 ≤ p j ∧ p j ≤ 2 ^ 31 - 1) →
      ∃ t, exec .dequant s = .next t ∧ Ended s t ∧
        t.regs = okRegs 0x30 { s.regs with nrblk := BitVec.ofNat 32 (uval32 s.regs.ndsym / K) } ∧
        (∀ j < uval32 s.regs.ndsym, HoldsInt t.mem .dcoef j (p j)) ∧
        SameOutside (bufAddr .dcoef 0 0) (bufAddr .dcoef (uval32 s.regs.ndsym) 0) s.mem t.mem) ∧
    (∀ j < uval32 s.regs.ndsym, ¬ (-2 ^ 31 ≤ p j ∧ p j ≤ 2 ^ 31 - 1) →
      (∀ j' < j, -2 ^ 31 ≤ p j' ∧ p j' ≤ 2 ^ 31 - 1) →
      ∃ t, exec .dequant s = .next t ∧ Ended s t ∧
        t.regs = errRegs 0x30 0x09 0x30 (BitVec.ofNat 32 j) s.regs ∧ Emptied [.dcoef] s.mem t.mem)

/-- 44_quantizer.md R208: DEQUANT of what QUANT made is within half a step of each coefficient, and never overflows for
|c| ≤ 2^19. The host copies SYM into DSYM and sets NDSYM between the two. -/
def Obligations.QuantizerRoundTrip : Prop :=
  ∀ (s t u : State) (K : Nat), LegalBlock s K → LegalSteps s K → uval32 s.regs.nblk * K ≤ 4096 →
    (∀ j < uval32 s.regs.nblk * K, |sval32 (bufWord s .coef j 0)| ≤ 2 ^ 19) →
    exec .quant s = .next t → u.regs = { t.regs with ndsym := t.regs.nsym } →
    (∀ j < uval32 s.regs.nblk * K, ∀ w, Holds t.mem .sym j 0 w → Holds u.mem .dsym j 0 w) →
    ∃ v, exec .dequant u = .next v ∧ v.regs.status.errCode = 0x00 ∧ v.regs.nrblk = s.regs.nblk ∧
      ∀ j < uval32 s.regs.nblk * K, ∀ q : Fin 16, q.val = j % K → ∃ d : Int, HoldsInt v.mem .dcoef j d ∧
        2 * |d - sval32 (bufWord s .coef j 0)| ≤ sval32 (s.regs.qv.get q)

/-- 43_transform.md R188, R189: every value is the exact real DCT-III value times 2^24, rounded once, and fits. -/
def Obligations.IdctRoundsTheExactValue : Prop :=
  ∀ (s : State) (K : Nat), LegalBlock s K → uval32 s.regs.nrblk * K ≤ 4096 →
    ∃ t, exec .idct s = .next t ∧ Ended s t ∧ t.regs = okRegs 0x31 s.regs ∧
      (∀ b < uval32 s.regs.nrblk, ∀ k < K,
        HoldsY t.mem (b * K + k)
          (roundHaz (dct3 K (fun n => sval32 (bufWord s .dcoef (b * K + n) 0)) k * 2 ^ 24))) ∧
      SameOutside (bufAddr .y 0 0) (bufAddr .y (uval32 s.regs.nrblk * K) 0) s.mem t.mem

/-- 42_scaler.md R165, R166: every value unscaled by the exact formula and rounded once; the extreme ones counted. -/
def Obligations.UnscaleRoundsTheExactFormula : Prop :=
  ∀ (s : State) (K R : Nat), LegalBlock s K → LegalRes s R → LegalRange s → uval32 s.regs.nrblk * K ≤ 4096 →
    ∃ t, exec .unscale s = .next t ∧ Ended s t ∧
      (∀ count : Nat, count = Set.ncard { i : ℕ | i < uval32 s.regs.nrblk * K ∧
          (normalised R (bufDWord s .y i) < 0 ∨ 1 < normalised R (bufDWord s .y i)) } →
        t.regs = okRegs 0x32 { s.regs with
          satcntInv := BitVec.ofNat 32 count
          status := { s.regs.status with satInv := s.regs.status.satInv || decide (0 < count) } }) ∧
      (∀ i < uval32 s.regs.nrblk * K,
        HoldsInt t.mem .out i (unscaled R s.regs.minv s.regs.maxv (bufDWord s .y i))) ∧
      SameOutside (bufAddr .out 0 0) (bufAddr .out (uval32 s.regs.nrblk * K) 0) s.mem t.mem

/-- 42_scaler.md R169: UNSCALE of a scaled sample is within half a scaling quantum and the output rounding of it; outside
the range it is the boundary. -/
def Obligations.ScalerRoundTrip : Prop :=
  ∀ (s : State) (K R : Nat) (v : Nat → Word), LegalBlock s K → LegalRes s R → LegalRange s →
    uval32 s.regs.nrblk * K ≤ 4096 →
    (∀ i < uval32 s.regs.nrblk * K, sval64 (bufDWord s .y i) = scaled R s.regs.minv s.regs.maxv (v i) * 2 ^ 24) →
    ∃ t, exec .unscale s = .next t ∧ ∀ i < uval32 s.regs.nrblk * K, ∃ o, Holds t.mem .out i 0 o ∧
      (valS s.regs.minv ≤ valS (v i) → valS (v i) ≤ valS s.regs.maxv →
        |valS o - valS (v i)| ≤ (valS s.regs.maxv - valS s.regs.minv) / 2 ^ (R + 1) + 1 / 2 ^ 17) ∧
      (valS s.regs.maxv < valS (v i) → valS o = valS s.regs.maxv) ∧
      (valS (v i) < valS s.regs.minv → valS o = valS s.regs.minv)

/-! ### The pipeline macros -/

/-- 46_pipeline.md R260: an ENCODE whose leading checks pass completes OK, whatever the samples are. -/
def Obligations.EncodeAlwaysSucceeds : Prop :=
  ∀ (s : State) (K R B : Nat), LegalBlock s K → LegalRes s R → LegalRange s → LegalSteps s K → LegalSamples s K B →
    ∃ t, exec .encode s = .next t ∧ Ended s t ∧ t.regs.status.errCode = 0x00 ∧ t.regs.status.lastOp = 0x40 ∧
      t.regs.status.err = s.regs.status.err ∧ t.regs.status.treeValid = true ∧
      uval32 t.regs.nblk = B ∧ uval32 t.regs.nsym = B * K

/-- 46_pipeline.md R261: DECODE of a stream of whole traversals, as many as fill blocks, whose products fit. Its leading
checks take one draw of the free values (log 2). -/
def Obligations.DecodeRunsTheReversePath : Prop :=
  ∀ (s : State) (K R : Nat) (syms : List Word), LegalBlock s K → LegalRes s R → LegalRange s → LegalSteps s K →
    s.regs.status.treeValid = true → uval32 s.regs.nbits ≤ 131072 →
    bufWord { s with draws := s.draws + 1 } .tree (uval32 s.regs.root) 1 ≠ 0xFFFFFFFF →
    Decodes { s with draws := s.draws + 1 } (uval32 s.regs.root)
      ((List.range (uval32 s.regs.nbits)).map (streamBit { s with draws := s.draws + 1 })) syms →
    syms.length ≤ 4096 → syms.length % K = 0 →
    (∀ (j : Nat) (x : Word), syms[j]? = some x → ∀ q : Fin 16, q.val = j % K → fits32 (sval32 x * sval32 (s.regs.qv.get q)) = true) →
    ∃ t, exec .decode s = .next t ∧ Ended s t ∧ t.regs.status.errCode = 0x00 ∧ t.regs.status.lastOp = 0x41 ∧
      uval32 t.regs.ndsym = syms.length ∧ uval32 t.regs.nrblk = syms.length / K ∧
      ∀ (j : Nat) (x : Word), syms[j]? = some x → Holds t.mem .dsym j 0 x

/-- 46_pipeline.md R263: a successful macro leaves the state its steps leave one by one, LASTOP apart. DECODE's leading
checks take one draw of the free values (log 2). -/
def Obligations.MacrosEqualTheirSteps : Prop :=
  (∀ s t : State, exec .encode s = .next t → t.regs.status.errCode = 0x00 →
    (runAll encodeSteps s).map (withLastOp 0x40) = some t) ∧
  (∀ (s t : State), exec .decode s = .next t → t.regs.status.errCode = 0x00 →
    (runAll decodeSteps { s with draws := s.draws + 1 }).map (withLastOp 0x41) = some t)

/-- 46_pipeline.md R262: a macro stops at the first step that raises an error and completes with it; the steps before keep
their effects. DECODE's leading checks are recorded under DECODE's own opcode. -/
def Obligations.MacrosStopAtTheFirstError : Prop :=
  (∀ (s t u : State) (before after : List Instr) (x : Instr), encodeSteps = before ++ x :: after →
    runAll before s = some t → exec x t = .next u → u.regs.status.errCode ≠ 0x00 →
    exec .encode s = .next (withLastOp 0x40 u)) ∧
  (∀ (s t u : State) (K R : Nat) (before after : List Instr) (x : Instr), LegalBlock s K → LegalRes s R → LegalRange s →
    LegalSteps s K → decodeSteps = before ++ x :: after →
    runAll before { s with draws := s.draws + 1 } = some t → exec x t = .next u → u.regs.status.errCode ≠ 0x00 →
    exec .decode s = .next (withLastOp 0x41 u)) ∧
  (∀ (s : State) (code : ErrCode) (info : Word),
    firstFailure s [.ckK, .ckR, .ckRange, .ckQv] = some (code, info) →
    exec .decode s = .next { s with
      run := .idle
      regs := errRegs 0x41 (errNumber code) 0x41 info s.regs
      draws := s.draws + 1 })

/-- 46_pipeline.md R264: DECODE after a successful ENCODE completes OK and gives the symbols back. -/
def Obligations.DecodeAfterEncode : Prop :=
  ∀ (s t : State), exec .encode s = .next t → t.regs.status.errCode = 0x00 →
    ∃ u, exec .decode t = .next u ∧ u.regs.status.errCode = 0x00 ∧ u.regs.ndsym = t.regs.nsym ∧
      u.regs.nrblk = t.regs.nblk ∧
      ∀ j < uval32 t.regs.nsym, ∃ w, Holds t.mem .sym j 0 w ∧ Holds u.mem .dsym j 0 w

/-! ### The host bus, reset and the interrupt -/

/-- 40_command_model.md R120, 70_reset_and_hazards.md R351: a CMD write is accepted when IDLE and dropped when BUSY. How
many host accesses fall before the execution step is free (log 3). -/
def Obligations.CmdWriteIssuesOrIsRejected : Prop :=
  ∀ (s : State) (w : Word),
    (s.run = .idle → ∃ d, busWrite 0x0000C#19 4 w s = { s with run := .busy w, delay := d }) ∧
    (IsBusy s → busWrite 0x0000C#19 4 w s =
      { s with regs := { s.regs with status := { s.regs.status with cmdRejected := true } } })

/-- 20_memory.md R72: a refused access sets BUSERR, returns 0 or is dropped, and does nothing else. A write of an RO
register and any access to a reserved offset is none: it is ignored or reads 0. -/
def Obligations.RefusedAccessesOnlySetBuserr : Prop :=
  ∀ (s : State) (a : BusAddr) (width : Nat) (w : Word),
    ((width ≠ 4 ∨ ¬ WordAddr a ∨ Unmapped a ∨ (IsBusy s ∧ InBuffers a)) →
      busRead a width s = { withBusErr s with replies := 0 :: s.replies }) ∧
    ((width ≠ 4 ∨ ¬ WordAddr a ∨ Unmapped a ∨ InReadOnly a ∨ (IsBusy s ∧ (InBuffers a ∨ RwOffset a))) →
      busWrite a width w s = withBusErr s) ∧
    (WordAddr a → RoOffset a ∨ ReservedOffset a → busWrite a 4 w s = s) ∧
    (WordAddr a → ReservedOffset a → busRead a 4 s = { s with replies := 0 :: s.replies })

/-- 20_memory.md R78: a host read changes nothing but what HOST has read, and BUSERR if it is refused. -/
def Obligations.HostReadsHaveNoSideEffect : Prop :=
  ∀ (s : State) (a : BusAddr) (width : Nat), ∃ v,
    busRead a width s = { s with replies := v :: s.replies } ∨
    (v = 0 ∧ busRead a width s = { withBusErr s with replies := v :: s.replies })

/-- 10_state.md R24, R28: writes of RW, RO and reserved offsets, of the W1C bits of STATUS and of CTRL with bit 0 clear, by
access type. CTRL with bit 0 set is `SoftResetRestoresRegisters`, CMD `CmdWriteIssuesOrIsRejected`. -/
def Obligations.RegisterWritesByAccessType : Prop :=
  ∀ (s : State) (a : BusAddr) (w : Word), WordAddr a →
    (s.run = .idle → RwOffset a →
      (busRead a 4 (busWrite a 4 w s)).replies = w :: s.replies ∧
      (∀ b : BusAddr, WordAddr b → InPage b → b ≠ a → b ≠ 0x00010#19 →
        (busRead b 4 (busWrite a 4 w s)).replies = (busRead b 4 s).replies) ∧
      busWrite a 4 w s = { s with regs := (busWrite a 4 w s).regs } ∧
      (busWrite a 4 w s).regs.status =
        (if a = 0x00034#19 then { s.regs.status with treeValid := false } else s.regs.status)) ∧
    (RoOffset a ∨ ReservedOffset a → busWrite a 4 w s = s) ∧
    (w.getLsbD 0 = false → busWrite 0x00008#19 4 w s = { s with regs := { s.regs with irqEn := w.getLsbD 1 } }) ∧
    busWrite 0x00010#19 4 w s = { s with regs := { s.regs with status := { s.regs.status with
      done := s.regs.status.done && !w.getLsbD 1
      err := s.regs.status.err && !w.getLsbD 2
      satFwd := s.regs.status.satFwd && !w.getLsbD 3
      satInv := s.regs.status.satInv && !w.getLsbD 4
      busErr := s.regs.status.busErr && !w.getLsbD 5
      cmdRejected := s.regs.status.cmdRejected && !w.getLsbD 6 } } }

/-- 10_state.md R30, 40_command_model.md R121: the fields of a STATUS read; BUSY reads 1 exactly in BUSY(w). -/
def Obligations.StatusReadsItsFields : Prop :=
  ∀ s : State, ∃ v : Word, busRead 0x00010#19 4 s = { s with replies := v :: s.replies } ∧
    (v.getLsbD 0 = true ↔ IsBusy s) ∧ v.getLsbD 1 = s.regs.status.done ∧ v.getLsbD 2 = s.regs.status.err ∧
    v.getLsbD 3 = s.regs.status.satFwd ∧ v.getLsbD 4 = s.regs.status.satInv ∧ v.getLsbD 5 = s.regs.status.busErr ∧
    v.getLsbD 6 = s.regs.status.cmdRejected ∧ v.getLsbD 7 = s.regs.status.treeValid ∧
    v.extractLsb' 8 8 = s.regs.status.errCode ∧ v.extractLsb' 16 8 = s.regs.status.lastOp ∧
    v.extractLsb' 24 8 = s.regs.status.errOp

/-- 10_state.md R23, R25 to R29, R39, R41 to R45: what a read of each register returns, in every state; CMD and the reserved
offsets read 0. STATUS is `StatusReadsItsFields`. -/
def Obligations.RegistersReadTheirValues : Prop :=
  ∀ s : State,
    busRead 0x00000#19 4 s = { s with replies := 0x44435432 :: s.replies } ∧
    busRead 0x00004#19 4 s = { s with replies := 0x20101000 :: s.replies } ∧
    busRead 0x00008#19 4 s = { s with replies := (if s.regs.irqEn then 0x00000002 else 0x00000000) :: s.replies } ∧
    busRead 0x0000C#19 4 s = { s with replies := 0x00000000 :: s.replies } ∧
    busRead 0x00014#19 4 s = { s with replies := s.regs.errInfo :: s.replies } ∧
    busRead 0x00018#19 4 s = { s with replies := s.regs.blockK :: s.replies } ∧
    busRead 0x0001C#19 4 s = { s with replies := s.regs.res :: s.replies } ∧
    busRead 0x00020#19 4 s = { s with replies := s.regs.minv :: s.replies } ∧
    busRead 0x00024#19 4 s = { s with replies := s.regs.maxv :: s.replies } ∧
    busRead 0x00028#19 4 s = { s with replies := s.regs.nsamp :: s.replies } ∧
    busRead 0x0002C#19 4 s = { s with replies := s.regs.nblk :: s.replies } ∧
    busRead 0x00030#19 4 s = { s with replies := s.regs.nsym :: s.replies } ∧
    busRead 0x00034#19 4 s = { s with replies := s.regs.ndist :: s.replies } ∧
    busRead 0x00038#19 4 s = { s with replies := s.regs.nbits :: s.replies } ∧
    busRead 0x0003C#19 4 s = { s with replies := s.regs.ndsym :: s.replies } ∧
    busRead 0x00040#19 4 s = { s with replies := s.regs.nrblk :: s.replies } ∧
    busRead 0x00044#19 4 s = { s with replies := s.regs.satcntFwd :: s.replies } ∧
    busRead 0x00048#19 4 s = { s with replies := s.regs.satcntInv :: s.replies } ∧
    busRead 0x0004C#19 4 s = { s with replies := s.regs.root :: s.replies } ∧
    busRead 0x00050#19 4 s = { s with replies := s.regs.maxlen :: s.replies } ∧
    (∀ (a : BusAddr) (i : Fin 16), a.toNat = 0x080 + 4 * i.val →
      busRead a 4 s = { s with replies := s.regs.qv.get i :: s.replies }) ∧
    (∀ a : BusAddr, WordAddr a → ReservedOffset a → busRead a 4 s = { s with replies := 0x00000000 :: s.replies })

/-- 20_memory.md R73, R74, 10_state.md R37: a buffer word written while IDLE reads back, no other byte changes, and only a
write of the FTAB window touches a register: it clears TREE_VALID. 20_memory.md R75, R73: the base, the element size and the
number of elements of each of the twelve buffers (word f of element i), and what the ENGINE reads of an element that holds a
value. -/
def Obligations.BufferWordsReadBack : Prop :=
  (∀ i f : Nat,
    bufAddr .inp i f = 0x10000 + 4 * i + 4 * f ∧ bufAddr .scl i f = 0x14000 + 4 * i + 4 * f ∧
    bufAddr .coef i f = 0x18000 + 4 * i + 4 * f ∧ bufAddr .sym i f = 0x1C000 + 4 * i + 4 * f ∧
    bufAddr .ftab i f = 0x20000 + 8 * i + 4 * f ∧ bufAddr .ctab i f = 0x28000 + 8 * i + 4 * f ∧
    bufAddr .tree i f = 0x30000 + 16 * i + 4 * f ∧ bufAddr .bits i f = 0x50000 + 4 * i + 4 * f ∧
    bufAddr .dsym i f = 0x54000 + 4 * i + 4 * f ∧ bufAddr .dcoef i f = 0x58000 + 4 * i + 4 * f ∧
    bufAddr .y i f = 0x5C000 + 8 * i + 4 * f ∧ bufAddr .out i f = 0x64000 + 4 * i + 4 * f) ∧
  (∀ b : Buffer, bufElements b = if b = .tree then 8192 else 4096) ∧
  (∀ a : Nat,
    (InWindows [.inp] a ↔ 0x10000 ≤ a ∧ a ≤ 0x13FFF) ∧ (InWindows [.scl] a ↔ 0x14000 ≤ a ∧ a ≤ 0x17FFF) ∧
    (InWindows [.coef] a ↔ 0x18000 ≤ a ∧ a ≤ 0x1BFFF) ∧ (InWindows [.sym] a ↔ 0x1C000 ≤ a ∧ a ≤ 0x1FFFF) ∧
    (InWindows [.ftab] a ↔ 0x20000 ≤ a ∧ a ≤ 0x27FFF) ∧ (InWindows [.ctab] a ↔ 0x28000 ≤ a ∧ a ≤ 0x2FFFF) ∧
    (InWindows [.tree] a ↔ 0x30000 ≤ a ∧ a ≤ 0x4FFFF) ∧ (InWindows [.bits] a ↔ 0x50000 ≤ a ∧ a ≤ 0x53FFF) ∧
    (InWindows [.dsym] a ↔ 0x54000 ≤ a ∧ a ≤ 0x57FFF) ∧ (InWindows [.dcoef] a ↔ 0x58000 ≤ a ∧ a ≤ 0x5BFFF) ∧
    (InWindows [.y] a ↔ 0x5C000 ≤ a ∧ a ≤ 0x63FFF) ∧ (InWindows [.out] a ↔ 0x64000 ≤ a ∧ a ≤ 0x67FFF)) ∧
  (∀ (s : State) (b : Buffer) (i f : Nat) (w : Word), i < bufElements b → Holds s.mem b i f w → bufWord s b i f = w) ∧
  (∀ (s : State) (i : Nat) (w : DWord), i < 4096 → Holds s.mem .y i 0 (w.extractLsb' 0 32) →
    Holds s.mem .y i 1 (w.extractLsb' 32 32) → bufDWord s .y i = w) ∧
  ∀ (s : State) (a : BusAddr) (w : Word), s.run = .idle → WordAddr a → InBuffers a →
    (¬ InReadOnly a →
      HoldsAt (busWrite a 4 w s).mem a.toNat w ∧
      SameOutside a.toNat (a.toNat + 4) s.mem (busWrite a 4 w s).mem ∧
      busWrite a 4 w s = { s with
        mem := (busWrite a 4 w s).mem
        regs := if 0x20000 ≤ a.toNat ∧ a.toNat < 0x28000 then
          { s.regs with status := { s.regs.status with treeValid := false } } else s.regs }) ∧
    (HoldsAt s.mem a.toNat w → busRead a 4 s = { s with replies := w :: s.replies })

/-- 70_reset_and_hazards.md R352: host accesses while BUSY. A CMD write is `CmdWriteIssuesOrIsRejected`, a soft reset
`SoftResetRestoresRegisters`, the refused ones `RefusedAccessesOnlySetBuserr`. -/
def Obligations.HostAccessesWhileBusy : Prop :=
  ∀ (s : State) (a : BusAddr) (w : Word), IsBusy s → WordAddr a →
    (InPage a → ∃ v, busRead a 4 s = { s with replies := v :: s.replies } ∧
      (a ≠ 0x00010#19 → busRead a 4 { s with run := .idle } = { s with run := .idle, replies := v :: s.replies })) ∧
    (w.getLsbD 0 = false → busWrite 0x00008#19 4 w s = { s with regs := { s.regs with irqEn := w.getLsbD 1 } }) ∧
    (busWrite 0x00010#19 4 w s).run = s.run ∧
    (RwOffset a → busWrite a 4 w s = withBusErr s) ∧
    (RoOffset a ∨ ReservedOffset a → busWrite a 4 w s = s) ∧
    (InBuffers a → busRead a 4 s = { withBusErr s with replies := 0 :: s.replies } ∧ busWrite a 4 w s = withBusErr s)

/-- 70_reset_and_hazards.md R340: after a hardware reset every register reads its reset value, the ENGINE is IDLE, IRQ is
low and no buffer byte holds a value; State.reset is such a state. -/
def Obligations.HardwareResetValues : Prop :=
  ∀ s : State, (s = State.reset ∨ ∃ s', s = hostEvent .hardReset s') →
    s.run = .idle ∧ (∀ k, byteAt s.mem k = none) ∧ irq s = false ∧
    ∀ a : BusAddr, WordAddr a → InPage a → (busRead a 4 s).replies = resetValue a :: s.replies

/-- 70_reset_and_hazards.md R342: a CTRL write with bit 0 set. Of the destination of SEGMENT (alone or in ENCODE) it says what
40_command_model.md R133 gives for K ≥ 1 when the padding slots lie inside IN. Where NSAMP or NBLK'·K passes 4096 (a pending
command that CK_NSAMP would reject), that only the slots inside IN are emptied and every other byte is kept is the MODEL's
choice, log 9 (DEDUCED, unsafe), and no rule of the spec. -/
def Obligations.SoftResetRestoresRegisters : Prop :=
  ∀ (s t : State) (w : Word), w.getLsbD 0 = true → t = busWrite 0x00008#19 4 w s →
    t.run = .idle ∧ t.regs = State.reset.regs ∧ t.host = s.host ∧ t.replies = s.replies ∧
    (s.run = .idle → t.mem = s.mem) ∧
    (∀ c, s.run = .busy c → (∀ i, decode c ≠ .command i) → t.mem = s.mem) ∧
    (∀ c i, s.run = .busy c → decode c = .command i →
      (i ≠ .segment → i ≠ .encode → Emptied (outputs i) s.mem t.mem) ∧
      (i = .segment ∨ i = .encode → ∀ K B : Nat, sval32 s.regs.blockK = K → 1 ≤ K →
        uval32 s.regs.nsamp ≤ B * K → B * K < uval32 s.regs.nsamp + K → ∀ a,
        (((bufAddr .inp (uval32 s.regs.nsamp) 0 ≤ a ∧ a < bufAddr .inp (B * K) 0 ∧ InWindows [.inp] a) ∨
            (i = .encode ∧ InWindows [.scl, .coef, .sym, .ftab, .tree, .ctab, .bits] a)) → byteAt t.mem a = none) ∧
        (¬ ((bufAddr .inp (uval32 s.regs.nsamp) 0 ≤ a ∧ a < bufAddr .inp (B * K) 0 ∧ InWindows [.inp] a) ∨
            (i = .encode ∧ InWindows [.scl, .coef, .sym, .ftab, .tree, .ctab, .bits] a)) →
          byteAt t.mem a = byteAt s.mem a)))

/-- 60_exceptions.md R310, 10_state.md R32: every completion raises IRQ exactly when it is enabled; clearing DONE or the
enable lowers it. -/
def Obligations.CompletionRaisesIrq : Prop :=
  (∀ (i : Instr) (s t : State), exec i s = .next t → irq t = s.regs.irqEn) ∧
  (∀ (s : State) (w : Word), w.getLsbD 1 = true → irq (busWrite 0x00010#19 4 w s) = false) ∧
  (∀ (s : State) (w : Word), w.getLsbD 0 = false →
    irq (busWrite 0x00008#19 4 w s) = (s.regs.status.done && w.getLsbD 1))

/-! ### Whole-machine rules -/

/-- 40_command_model.md R121: the ENGINE leaves IDLE only by a CMD write, and BUSY(w) only by completing w or by a reset. -/
def Obligations.RunStateTransitions : Prop :=
  ∀ s t : State, step s = .next t →
    (s.run = .idle → t.run = .idle ∨
      ∃ w es, s.host = .write 0x0000C#19 4 w :: es ∧ t.run = .busy w) ∧
    (∀ w, s.run = .busy w → t.run = .busy w ∨
      (t.run = .idle ∧ (execute w s = .next t ∨ ∃ e es, s.host = e :: es ∧ Resets e)))

/-- 40_command_model.md R122: a host access other than a reset while BUSY does not change the outcome of the command, apart
from the bits the host itself may change. The same draw of the free values is compared. -/
def Obligations.HostCannotChangeAPendingCommand : Prop :=
  ∀ (s t u : State) (w : Word) (i : Instr) (e : HostEvent) (es : List HostEvent), s.run = .busy w →
    s.host = e :: es → ¬ Resets e → exec i { s with draws := (hostTurn s).draws } = .next t →
    exec i (hostTurn s) = .next u →
    (hostTurn s).run = .busy w ∧ u.run = t.run ∧ u.mem = t.mem ∧ u.draws = t.draws ∧
    { u.regs with
      irqEn := t.regs.irqEn
      status := { u.regs.status with
        done := t.regs.status.done
        err := t.regs.status.err
        satFwd := t.regs.status.satFwd
        satInv := t.regs.status.satInv
        busErr := t.regs.status.busErr
        cmdRejected := t.regs.status.cmdRejected } } = t.regs

/-- 70_reset_and_hazards.md R356: a BUSY command that no reset aborts completes, after at most the free number of host
accesses (log 3). -/
def Obligations.PendingCommandsComplete : Prop :=
  ∀ (s : State) (w : Word), s.run = .busy w → (∀ e ∈ s.host, ¬ Resets e) →
    ∃ n ≤ s.delay, ∃ t u, stepN n s = some t ∧ t.run = .busy w ∧ step t = .next u ∧ execute w t = .next u ∧
      u.run = .idle

/-- 10_state.md R32 to R36: the W1C bits of STATUS are sticky: only a 1 written to the bit or a reset clears one. -/
def Obligations.StatusBitsAreSticky : Prop :=
  ∀ s t : State, step s = .next t →
    (∀ e es, s.host = e :: es → ¬ Resets e) →
    ∀ n, (∀ w es, s.host = .write 0x00010#19 4 w :: es → w.getLsbD n = false) →
    (n = 1 → s.regs.status.done = true → t.regs.status.done = true) ∧
    (n = 2 → s.regs.status.err = true → t.regs.status.err = true) ∧
    (n = 3 → s.regs.status.satFwd = true → t.regs.status.satFwd = true) ∧
    (n = 4 → s.regs.status.satInv = true → t.regs.status.satInv = true) ∧
    (n = 5 → s.regs.status.busErr = true → t.regs.status.busErr = true) ∧
    (n = 6 → s.regs.status.cmdRejected = true → t.regs.status.cmdRejected = true)

/-- 10_state.md R37: only HBUILD, alone or in ENCODE, sets TREE_VALID, and not when it fails. -/
def Obligations.OnlyHbuildSetsTreeValid : Prop :=
  ∀ s t : State, step s = .next t → s.regs.status.treeValid = false → t.regs.status.treeValid = true →
    s.run = .busy 0x00000021#32 ∨ s.run = .busy 0x00000040#32

/-- Every step keeps the invariant `Inv`. -/
def Obligations.StepKeepsInv : Prop := ∀ s t : State, Inv s → step s = .next t → Inv t

/-- 10_state.md R37: from every state in which TREE_VALID is truthful, a step leads to one in which it is: TREE and CTAB
hold the build of FTAB[0..NDIST−1] whenever TREE_VALID is 1. -/
def Obligations.StepKeepsTreeSound : Prop := ∀ s t : State, TreeSound s → step s = .next t → TreeSound t

/-- The invariants hold at reset. -/
def Obligations.ResetMeetsTheInvariants : Prop := Inv State.reset ∧ TreeSound State.reset

end
end

