-- ==== Sys2Proof/Laws/Memory.lean ====
section
/-! SUPPORT. What the memory operations do: the byte read after a splice, a store, an erasure; the canonical form is kept;
a word read after the store that wrote it. -/

namespace Sys2Proof.Machine

/-! ### Reading after a splice -/

theorem byteAt_append (m₁ m₂ : Memory) (k : Nat) :
    byteAt (m₁ ++ m₂) k = (byteAt m₁ k).or (byteAt m₂ k) := by
  induction m₁ with
  | nil => simp [byteAt]
  | cons c m ih =>
    obtain ⟨a, b⟩ := c
    by_cases h : a = k <;> simp [byteAt, h, ih]

theorem byteAt_filter (p : Nat → Bool) (m : Memory) (k : Nat) :
    byteAt (m.filter fun c => p c.1) k = if p k then byteAt m k else none := by
  induction m with
  | nil => simp [byteAt]
  | cons c m ih =>
    obtain ⟨a, b⟩ := c
    by_cases hp : p a = true
    · rw [List.filter_cons_of_pos (by simpa using hp)]
      by_cases h : a = k
      · subst h; simp [byteAt, hp]
      · simp [byteAt, h, ih]
    · rw [List.filter_cons_of_neg (by simpa using hp), ih]
      by_cases h : a = k
      · subst h; simp [hp]
      · simp [byteAt, h]

/-- A cell list that lists no address k reads as nothing there. -/
theorem byteAt_eq_none {m : Memory} {k : Nat} (h : ∀ c ∈ m, c.1 ≠ k) : byteAt m k = none := by
  induction m with
  | nil => rfl
  | cons c m ih =>
    obtain ⟨a, b⟩ := c
    have ha : a ≠ k := h (a, b) (by simp)
    simp [byteAt, ha, ih fun c hc => h c (by simp [hc])]

/-- The byte an address holds is listed. -/
theorem mem_of_byteAt {m : Memory} {k : Nat} {b : Byte} (h : byteAt m k = some b) : (k, b) ∈ m := by
  induction m with
  | nil => simp [byteAt] at h
  | cons c m ih =>
    obtain ⟨a, b'⟩ := c
    by_cases ha : a = k
    · subst ha; simp [byteAt] at h; simp [h]
    · simp [byteAt, ha] at h; simp [ih h]

/-- Everything a splice does to what a byte reads as. -/
theorem byteAt_splice {cells : List Host.Cell} {lo hi : Nat} (h : lo ≤ hi) (hc : ∀ c ∈ cells, lo ≤ c.1 ∧ c.1 < hi)
    (m : Memory) (k : Nat) :
    byteAt (splice m lo hi cells) k = if lo ≤ k ∧ k < hi then byteAt cells k else byteAt m k := by
  have hl := byteAt_filter (fun a => decide (a < lo)) m k
  have hr := byteAt_filter (fun a => decide (hi ≤ a)) m k
  simp only [splice, byteAt_append, hl, hr]
  by_cases h₁ : lo ≤ k
  · by_cases h₂ : k < hi
    · have h₃ : ¬ k < lo := by omega
      have h₄ : ¬ hi ≤ k := by omega
      simp [h₁, h₂, h₃, h₄]
    · have hn : byteAt cells k = none := byteAt_eq_none fun c hm => by have := hc c hm; omega
      have h₃ : ¬ k < lo := by omega
      have h₄ : hi ≤ k := by omega
      simp [h₁, h₂, h₃, h₄, hn]
  · have hn : byteAt cells k = none := byteAt_eq_none fun c hm => by have := hc c hm; omega
    have h₃ : k < lo := by omega
    have h₄ : ¬ hi ≤ k := by omega
    cases byteAt m k <;> simp [h₁, h₃, h₄, hn]

theorem mem_cellsFrom {a : Nat} {bs : List Byte} {c : Host.Cell} (h : c ∈ cellsFrom a bs) :
    a ≤ c.1 ∧ c.1 < a + bs.length := by
  induction bs generalizing a with
  | nil => simp [cellsFrom] at h
  | cons b bs ih =>
    simp only [cellsFrom, List.mem_cons] at h
    rcases h with rfl | h
    · simp
    · have := ih h; simp only [List.length_cons]; omega

theorem byteAt_cellsFrom (a : Nat) (bs : List Byte) (k : Nat) :
    byteAt (cellsFrom a bs) k = if a ≤ k then bs[k - a]? else none := by
  induction bs generalizing a with
  | nil => simp [cellsFrom, byteAt]
  | cons b bs ih =>
    by_cases h : a = k
    · subst h; simp [cellsFrom, byteAt]
    · simp only [cellsFrom, byteAt, h, if_false, ih]
      by_cases h₁ : a ≤ k
      · have h₂ : a + 1 ≤ k := by omega
        have h₃ : k - a = (k - (a + 1)) + 1 := by omega
        simp [h₁, h₂, h₃]
      · have h₂ : ¬ a + 1 ≤ k := by omega
        simp [h₁, h₂]

/-- Everything a store of bytes does to what a byte reads as. -/
theorem byteAt_storeBytes (m : Memory) (a : Nat) (bs : List Byte) (k : Nat) :
    byteAt (storeBytes m a bs) k = if a ≤ k ∧ k < a + bs.length then bs[k - a]? else byteAt m k := by
  rw [storeBytes, byteAt_splice (by omega) (fun c hc => mem_cellsFrom hc), byteAt_cellsFrom]
  by_cases h : a ≤ k ∧ k < a + bs.length
  · simp [h]
  · simp [h]

/-- Everything an erasure does to what a byte reads as. -/
theorem byteAt_unspecRange {lo hi : Nat} (h : lo ≤ hi) (m : Memory) (k : Nat) :
    byteAt (unspecRange m lo hi) k = if lo ≤ k ∧ k < hi then none else byteAt m k := by
  rw [unspecRange, byteAt_splice h (by simp)]; rfl

theorem length_wordBytes (w : Word) : (wordBytes w).length = 4 := rfl

theorem length_flatMap_wordBytes (ws : List Word) : (ws.flatMap wordBytes).length = 4 * ws.length := by
  induction ws with
  | nil => rfl
  | cons w ws ih => simp [List.flatMap_cons, ih, length_wordBytes]; omega

/-- Byte 4i + j of consecutive words is byte j of word i. -/
theorem getElem?_flatMap_wordBytes (ws : List Word) (i j : Nat) (hj : j < 4) :
    (ws.flatMap wordBytes)[4 * i + j]? = ws[i]?.bind fun w => (wordBytes w)[j]? := by
  induction ws generalizing i with
  | nil => simp
  | cons w ws ih =>
    cases i with
    | zero => simp [List.flatMap_cons, List.getElem?_append, length_wordBytes, hj]
    | succ i =>
      have h₁ : ¬ 4 * (i + 1) + j < 4 := by omega
      have h₂ : 4 * (i + 1) + j - 4 = 4 * i + j := by omega
      simp [List.flatMap_cons, List.getElem?_append, length_wordBytes, h₁, h₂, ih]

/-- Everything a store of words does to what a byte reads as. -/
theorem byteAt_storeWords (m : Memory) (a : Nat) (ws : List Word) (k : Nat) :
    byteAt (storeWords m a ws) k =
      if a ≤ k ∧ k < a + 4 * ws.length then (ws.flatMap wordBytes)[k - a]? else byteAt m k := by
  rw [storeWords, byteAt_storeBytes, length_flatMap_wordBytes]

/-- A store of words leaves every other byte as it was. -/
theorem byteAt_storeWords_of_outside {m : Memory} {a : Nat} {ws : List Word} {k : Nat}
    (h : k < a ∨ a + 4 * ws.length ≤ k) : byteAt (storeWords m a ws) k = byteAt m k := by
  rw [byteAt_storeWords, if_neg (by omega)]

/-- Word i of a store of words reads back byte by byte. -/
theorem byteAt_storeWords_of_word {m : Memory} {a : Nat} {ws : List Word} {i j : Nat} {w : Word}
    (hw : ws[i]? = some w) (hj : j < 4) : byteAt (storeWords m a ws) (a + 4 * i + j) = (wordBytes w)[j]? := by
  have hi : i < ws.length := by
    by_contra h
    rw [List.getElem?_eq_none (by omega)] at hw
    exact absurd hw (by simp)
  have hk : a + 4 * i + j - a = 4 * i + j := by omega
  rw [byteAt_storeWords, if_pos (by omega), hk, getElem?_flatMap_wordBytes _ _ _ hj, hw]
  rfl

theorem wordBytes_append (w : Word) :
    (w.extractLsb' 24 8 ++ w.extractLsb' 16 8 ++ w.extractLsb' 8 8 ++ w.extractLsb' 0 8 : BitVec 32) = w := by
  apply BitVec.eq_of_getLsbD_eq
  intro i hi
  simp only [BitVec.getLsbD_append, BitVec.getLsbD_extractLsb']
  rcases Nat.lt_or_ge i 8 with h | h
  · simp [h]
  · rcases Nat.lt_or_ge i 16 with h1 | h1
    · have e : 8 + (i - 8) = i := by omega
      simp [show ¬ i < 8 by omega, show i - 8 < 8 by omega, e]
    · rcases Nat.lt_or_ge i 24 with h2 | h2
      · have e : 16 + (i - 8 - 8) = i := by omega
        simp [show ¬ i < 8 by omega, show ¬ i - 8 < 8 by omega, show i - 8 - 8 < 8 by omega, e]
      · have e : 24 + (i - 8 - 8 - 8) = i := by omega
        simp [show ¬ i < 8 by omega, show ¬ i - 8 < 8 by omega, show ¬ i - 8 - 8 < 8 by omega, show i - 8 - 8 - 8 < 8 by omega, e]
theorem dword_append (w : DWord) :
    (w.extractLsb' 32 32 ++ w.extractLsb' 0 32 : BitVec 64) = w := by
  apply BitVec.eq_of_getLsbD_eq
  intro i hi
  simp only [BitVec.getLsbD_append, BitVec.getLsbD_extractLsb']
  rcases Nat.lt_or_ge i 32 with h | h
  · simp [h]
  · simp [show ¬ i < 32 by omega, show i - 32 < 32 by omega, show 32 + (i - 32) = i by omega]

/-- A word that memory holds is the word that is read, in every draw. -/
theorem readWord_of_holdsAt {m : Memory} {a : Nat} {w : Word} (h : HoldsAt m a w) (d : Nat) : readWord m d a = w := by
  have h0 := h 0 (by omega)
  have h1 := h 1 (by omega)
  have h2 := h 2 (by omega)
  have h3 := h 3 (by omega)
  simp only [Nat.add_zero, wordBytes, List.getElem?_cons_zero, List.getElem?_cons_succ] at h0 h1 h2 h3
  simp only [readWord, readByte, h0, h1, h2, h3, Option.getD_some]
  exact wordBytes_append w

theorem holdsAt_storeWords {m : Memory} {a : Nat} {ws : List Word} {i : Nat} {w : Word} (hw : ws[i]? = some w) :
    HoldsAt (storeWords m a ws) (a + 4 * i) w := fun _ hj => byteAt_storeWords_of_word hw hj

/-! ### The canonical form -/

theorem wf_nil : Memory.wf [] := List.Pairwise.nil

theorem wf_cellsFrom (a : Nat) (bs : List Byte) : Memory.wf (cellsFrom a bs) := by
  induction bs generalizing a with
  | nil => exact List.Pairwise.nil
  | cons b bs ih =>
    refine List.Pairwise.cons (fun c hc => ?_) (ih (a + 1))
    have := mem_cellsFrom hc
    show a < c.1
    omega

theorem wf_splice {m : Memory} {cells : List Host.Cell} {lo hi : Nat} (hm : Memory.wf m) (hw : Memory.wf cells)
    (h : lo ≤ hi) (hc : ∀ c ∈ cells, lo ≤ c.1 ∧ c.1 < hi) : Memory.wf (splice m lo hi cells) := by
  unfold splice
  have hl : ∀ c ∈ m.filter (fun c => decide (c.1 < lo)), c.1 < lo := fun c hm => by
    simpa using (List.mem_filter.mp hm).2
  have hr : ∀ c ∈ m.filter (fun c => decide (hi ≤ c.1)), hi ≤ c.1 := fun c hm => by
    simpa using (List.mem_filter.mp hm).2
  refine List.pairwise_append.mpr ⟨hm.filter _, ?_, ?_⟩
  · refine List.pairwise_append.mpr ⟨hw, hm.filter _, fun x hx y hy => ?_⟩
    have := hc x hx; have := hr y hy; omega
  · intro x hx y hy
    have hx' := hl x hx
    rcases List.mem_append.mp hy with hy | hy
    · have := hc y hy; omega
    · have := hr y hy; omega

theorem wf_storeBytes {m : Memory} (hm : Memory.wf m) (a : Nat) (bs : List Byte) : Memory.wf (storeBytes m a bs) :=
  wf_splice hm (wf_cellsFrom a bs) (by omega) fun _ hc => mem_cellsFrom hc

theorem wf_storeWords {m : Memory} (hm : Memory.wf m) (a : Nat) (ws : List Word) : Memory.wf (storeWords m a ws) :=
  wf_storeBytes hm a _

theorem wf_storeBuf {m : Memory} (hm : Memory.wf m) (b : Buffer) (i : Nat) (ws : List Word) :
    Memory.wf (storeBuf m b i ws) := wf_storeWords hm _ _

theorem wf_unspecRange {m : Memory} (hm : Memory.wf m) {lo hi : Nat} (h : lo ≤ hi) :
    Memory.wf (unspecRange m lo hi) := wf_splice hm wf_nil h (by simp)

theorem mem_splice {m : Memory} {lo hi : Nat} {cells : List Host.Cell} {c : Host.Cell} (h : c ∈ splice m lo hi cells) :
    c ∈ m ∨ c ∈ cells := by
  simp only [splice, List.mem_append, List.mem_filter] at h
  tauto

/-! ### Buffers -/

theorem bufBase_le_limit (b : Buffer) : bufBase b ≤ bufLimit b := by cases b <;> decide

theorem elemWords_pos (b : Buffer) : 0 < bufElemWords b := by cases b <;> decide

/-- Two windows do not meet (20_memory.md R75). -/
theorem windows_disjoint {b c : Buffer} (h : b ≠ c) : bufLimit b ≤ bufBase c ∨ bufLimit c ≤ bufBase b := by
  cases b <;> cases c <;> first | exact absurd rfl h | decide

/-- A word of an element lies inside its window. -/
theorem bufAddr_in_window {b : Buffer} {i f : Nat} (hi : i < bufElements b) (hf : f < bufElemWords b) :
    bufBase b ≤ bufAddr b i f ∧ bufAddr b i f + 4 ≤ bufLimit b := by
  have h : bufElemWords b * i + f + 1 ≤ bufElemWords b * bufElements b := by
    have : bufElemWords b * (i + 1) ≤ bufElemWords b * bufElements b := Nat.mul_le_mul_left _ hi
    rw [Nat.mul_add] at this
    omega
  have e : 4 * bufElemWords b * bufElements b = 4 * (bufElemWords b * bufElements b) := Nat.mul_assoc _ _ _
  simp only [bufAddr, bufLimit, e]
  omega

theorem bufAddr_add (b : Buffer) (i j f : Nat) :
    bufAddr b (i + j) f = bufAddr b i 0 + 4 * (bufElemWords b * j + f) := by
  simp only [bufAddr, Nat.mul_add]; omega

theorem bufAddr_elements (b : Buffer) : bufAddr b (bufElements b) 0 = bufLimit b := by
  cases b <;> decide

/-- The words of a buffer store that are stored are those inside the window. -/
theorem storeBuf_eq (m : Memory) (b : Buffer) (i : Nat) (ws : List Word)
    (h : ws.length ≤ bufElemWords b * (bufElements b - i)) : storeBuf m b i ws = storeWords m (bufAddr b i 0) ws := by
  rw [storeBuf, List.take_of_length_le h]

/-- A buffer store changes no byte outside the elements it writes. -/
theorem byteAt_storeBuf_of_outside {m : Memory} {b : Buffer} {i : Nat} {ws : List Word} {k : Nat}
    (h : k < bufAddr b i 0 ∨ bufAddr b i 0 + 4 * ws.length ≤ k) : byteAt (storeBuf m b i ws) k = byteAt m k := by
  refine byteAt_storeWords_of_outside ?_
  have := List.length_take_le (bufElemWords b * (bufElements b - i)) ws
  have := List.length_take_le' (bufElemWords b * (bufElements b - i)) ws
  omega

/-- A buffer store changes no byte outside the window. -/
theorem byteAt_storeBuf_of_outside_window {m : Memory} {b : Buffer} {i : Nat} {ws : List Word} {k : Nat}
    (h : k < bufBase b ∨ bufLimit b ≤ k) : byteAt (storeBuf m b i ws) k = byteAt m k := by
  refine byteAt_storeWords_of_outside ?_
  have h₁ := List.length_take_le (bufElemWords b * (bufElements b - i)) ws
  rcases h with h | h
  · left; simp only [bufAddr]; omega
  · rcases Nat.lt_or_ge i (bufElements b) with hi | hi
    · right
      have e : bufElemWords b * i + bufElemWords b * (bufElements b - i) = bufElemWords b * bufElements b := by
        rw [← Nat.mul_add]; congr 1; omega
      have e' : 4 * bufElemWords b * bufElements b = 4 * (bufElemWords b * bufElements b) := Nat.mul_assoc _ _ _
      simp only [bufLimit, e'] at h
      simp only [bufAddr]
      omega
    · have e : bufElements b - i = 0 := by omega
      rw [e, Nat.mul_zero, List.take_zero]
      rcases Nat.lt_or_ge k (bufAddr b i 0) with hk | hk
      · exact .inl hk
      · exact .inr hk

/-- What a buffer store wrote is held afterwards. -/
theorem holdsAt_storeBuf {m : Memory} {b : Buffer} {i j f : Nat} {ws : List Word} {w : Word}
    (hw : ws[bufElemWords b * j + f]? = some w) (hf : f < bufElemWords b) (hi : i + j < bufElements b) :
    HoldsAt (storeBuf m b i ws) (bufAddr b (i + j) f) w := by
  have hk : bufElemWords b * j + f < bufElemWords b * (bufElements b - i) := by
    have : bufElemWords b * (j + 1) ≤ bufElemWords b * (bufElements b - i) := Nat.mul_le_mul_left _ (by omega)
    rw [Nat.mul_add] at this
    omega
  rw [bufAddr_add, storeBuf]
  exact holdsAt_storeWords (by rw [List.getElem?_take_of_lt hk, hw])

theorem holds_storeBuf {m : Memory} {b : Buffer} {i f : Nat} {ws : List Word} {w : Word}
    (hw : ws[bufElemWords b * i + f]? = some w) (hf : f < bufElemWords b) (hi : i < bufElements b) :
    Holds (storeBuf m b 0 ws) b i f w := by
  have h := holdsAt_storeBuf (m := m) (b := b) (i := 0) (j := i) hw hf (by omega)
  rwa [Nat.zero_add] at h

/-- Two memories that agree on a word of a buffer hold the same words there. -/
theorem holds_congr {m n : Memory} {b : Buffer} {i f : Nat} {w : Word}
    (h : ∀ k, bufAddr b i f ≤ k → k < bufAddr b i f + 4 → byteAt m k = byteAt n k) (hn : Holds n b i f w) :
    Holds m b i f w := fun j hj => by rw [h _ (by omega) (by omega)]; exact hn j hj

/-- The ENGINE reads a word that memory holds, whatever the draw. -/
theorem bufWord_of_holds {s : State} {b : Buffer} {i f : Nat} {w : Word} (h : Holds s.mem b i f w)
    (hi : i < bufElements b) : bufWord s b i f = w := by
  rw [bufWord, if_pos hi]
  exact readWord_of_holdsAt h _

theorem readWord_congr {m n : Memory} {d a : Nat} (h : ∀ k, a ≤ k → k < a + 4 → byteAt m k = byteAt n k) :
    readWord m d a = readWord n d a := by
  simp only [readWord, readByte]
  rw [h a (by omega) (by omega), h (a + 1) (by omega) (by omega), h (a + 2) (by omega) (by omega),
    h (a + 3) (by omega) (by omega)]

/-- What the ENGINE reads depends only on the draw and on the window's bytes. -/
theorem bufWord_congr {s t : State} {b : Buffer} (hd : s.draws = t.draws)
    (h : ∀ k, bufBase b ≤ k → k < bufLimit b → byteAt s.mem k = byteAt t.mem k) (i f : Nat) (hf : f < bufElemWords b) :
    bufWord s b i f = bufWord t b i f := by
  rw [bufWord, bufWord, hd]
  by_cases hi : i < bufElements b
  · have := bufAddr_in_window hi hf
    rw [if_pos hi, if_pos hi]
    exact readWord_congr fun k h₁ h₂ => h k (by omega) (by omega)
  · rw [if_neg hi, if_neg hi]

/-- Everything an emptied buffer does to what a byte reads as. -/
theorem byteAt_unspecBuf (m : Memory) (b : Buffer) (k : Nat) :
    byteAt (unspecBuf m b) k = if bufBase b ≤ k ∧ k < bufLimit b then none else byteAt m k :=
  byteAt_unspecRange (bufBase_le_limit b) m k

theorem wf_unspecBuf {m : Memory} (hm : Memory.wf m) (b : Buffer) : Memory.wf (unspecBuf m b) :=
  wf_unspecRange hm (bufBase_le_limit b)

theorem wf_unspecBufs {m : Memory} (hm : Memory.wf m) (bs : List Buffer) : Memory.wf (unspecBufs m bs) := by
  induction bs generalizing m with
  | nil => exact hm
  | cons b bs ih => exact ih (wf_unspecBuf hm b)

/-- Emptied buffers hold nothing. -/
theorem byteAt_unspecBufs_of_inside {m : Memory} {bs : List Buffer} {k : Nat}
    (h : InWindows bs k ∨ byteAt m k = none) : byteAt (unspecBufs m bs) k = none := by
  induction bs generalizing m with
  | nil =>
    rcases h with ⟨b, hb, -⟩ | h
    · simp at hb
    · exact h
  | cons b bs ih =>
    refine ih ?_
    rw [byteAt_unspecBuf]
    by_cases hk : bufBase b ≤ k ∧ k < bufLimit b
    · right; rw [if_pos hk]
    · rw [if_neg hk]
      rcases h with ⟨c, hc, hk'⟩ | h
      · rcases List.mem_cons.mp hc with rfl | hc
        · exact absurd hk' hk
        · exact .inl ⟨c, hc, hk'⟩
      · exact .inr h

/-- Emptying buffers changes no byte outside their windows. -/
theorem byteAt_unspecBufs_of_outside {m : Memory} {bs : List Buffer} {k : Nat} (h : ¬ InWindows bs k) :
    byteAt (unspecBufs m bs) k = byteAt m k := by
  induction bs generalizing m with
  | nil => rfl
  | cons b bs ih =>
    have hb : ¬ (bufBase b ≤ k ∧ k < bufLimit b) := fun hk => h ⟨b, by simp, hk⟩
    have := ih (m := unspecBuf m b) fun ⟨c, hc, hk⟩ => h ⟨c, by simp [hc], hk⟩
    rw [show unspecBufs m (b :: bs) = unspecBufs (unspecBuf m b) bs from rfl, this, byteAt_unspecBuf, if_neg hb]

/-- ceil(n/k)·k is at least n. -/
theorem le_ceilDiv_mul {n k : Nat} (hk : 0 < k) : n ≤ ceilDiv n k * k := by
  have h := Nat.div_add_mod (n + k - 1) k
  have h' := Nat.mod_lt (n + k - 1) hk
  rw [ceilDiv, Nat.mul_comm]
  omega

theorem ceilDiv_mul_lt {n k : Nat} (hk : 0 < k) : ceilDiv n k * k < n + k := by
  have h := Nat.div_add_mod (n + k - 1) k
  rw [ceilDiv, Nat.mul_comm]
  omega

/-- The slots of IN that an aborted SEGMENT leaves UNSPEC, as byte addresses. -/
theorem byteAt_unspecPadding (s : State) (m : Memory) (k : Nat) :
    byteAt (unspecPadding s m) k =
      if blockSize s ≠ 0 ∧ bufAddr .inp (min (uval32 s.regs.nsamp) 4096) 0 ≤ k
          ∧ k < bufAddr .inp (min (ceilDiv (uval32 s.regs.nsamp) (blockSize s) * blockSize s) 4096) 0
      then none else byteAt m k := by
  unfold unspecPadding
  by_cases hk : blockSize s = 0
  · simp [hk]
  · have h := le_ceilDiv_mul (n := uval32 s.regs.nsamp) (k := blockSize s) (by omega)
    simp only [hk, if_false, unspecElems, bufElements]
    rw [byteAt_unspecRange]
    · simp [hk]
    · simp only [bufAddr, bufElemWords]; omega

theorem wf_unspecPadding {m : Memory} (hm : Memory.wf m) (s : State) : Memory.wf (unspecPadding s m) := by
  unfold unspecPadding
  by_cases hk : blockSize s = 0
  · simpa [hk] using hm
  · have h := le_ceilDiv_mul (n := uval32 s.regs.nsamp) (k := blockSize s) (by omega)
    simp only [hk, if_false, unspecElems, bufElements]
    exact wf_unspecRange hm (by simp only [bufAddr, bufElemWords]; omega)

theorem wf_unspecDests {s : State} (hm : Memory.wf s.mem) (i : Instr) : Memory.wf (unspecDests i s) := by
  refine wf_unspecBufs ?_ _
  split
  · exact wf_unspecPadding hm s
  · exact hm

end Sys2Proof.Machine
end

