-- ==== Sys2Proof/Laws/State.lean ====
section
/-! SUPPORT. One lemma per field per update of the state, each true by rfl, so that no later proof unfolds a record update. -/

namespace Sys2Proof.Machine

@[simp] theorem nextDraw_regs (s : State) : (nextDraw s).regs = s.regs := rfl
@[simp] theorem nextDraw_run (s : State) : (nextDraw s).run = s.run := rfl
@[simp] theorem nextDraw_mem (s : State) : (nextDraw s).mem = s.mem := rfl
@[simp] theorem nextDraw_draws (s : State) : (nextDraw s).draws = s.draws + 1 := rfl
@[simp] theorem nextDraw_host (s : State) : (nextDraw s).host = s.host := rfl
@[simp] theorem nextDraw_delay (s : State) : (nextDraw s).delay = s.delay := rfl
@[simp] theorem nextDraw_replies (s : State) : (nextDraw s).replies = s.replies := rfl

@[simp] theorem completeOk_regs (op : Byte) (s : State) : (completeOk op s).regs = { s.regs with status := okStatus op s.regs.status, errInfo := 0 } := rfl
@[simp] theorem completeOk_run (op : Byte) (s : State) : (completeOk op s).run = .idle := rfl
@[simp] theorem completeOk_mem (op : Byte) (s : State) : (completeOk op s).mem = s.mem := rfl
@[simp] theorem completeOk_draws (op : Byte) (s : State) : (completeOk op s).draws = s.draws := rfl
@[simp] theorem completeOk_host (op : Byte) (s : State) : (completeOk op s).host = s.host := rfl
@[simp] theorem completeOk_delay (op : Byte) (s : State) : (completeOk op s).delay = s.delay := rfl
@[simp] theorem completeOk_replies (op : Byte) (s : State) : (completeOk op s).replies = s.replies := rfl

@[simp] theorem completeError_regs (op : Byte) (e : CmdError) (s : State) : (completeError op e s).regs = { s.regs with status := errorStatus op (errNumber e.code) e.op s.regs.status, errInfo := e.info } := rfl
@[simp] theorem completeError_run (op : Byte) (e : CmdError) (s : State) : (completeError op e s).run = .idle := rfl
@[simp] theorem completeError_mem (op : Byte) (e : CmdError) (s : State) : (completeError op e s).mem = s.mem := rfl
@[simp] theorem completeError_draws (op : Byte) (e : CmdError) (s : State) : (completeError op e s).draws = s.draws := rfl
@[simp] theorem completeError_host (op : Byte) (e : CmdError) (s : State) : (completeError op e s).host = s.host := rfl
@[simp] theorem completeError_delay (op : Byte) (e : CmdError) (s : State) : (completeError op e s).delay = s.delay := rfl
@[simp] theorem completeError_replies (op : Byte) (e : CmdError) (s : State) : (completeError op e s).replies = s.replies := rfl

@[simp] theorem completeIllegal_regs (w : Word) (s : State) : (completeIllegal w s).regs = { s.regs with status := errorStatus (opcField w) 0x01 (opcField w) s.regs.status, errInfo := 0 } := rfl
@[simp] theorem completeIllegal_run (w : Word) (s : State) : (completeIllegal w s).run = .idle := rfl
@[simp] theorem completeIllegal_mem (w : Word) (s : State) : (completeIllegal w s).mem = s.mem := rfl
@[simp] theorem completeIllegal_draws (w : Word) (s : State) : (completeIllegal w s).draws = s.draws := rfl
@[simp] theorem completeIllegal_host (w : Word) (s : State) : (completeIllegal w s).host = s.host := rfl
@[simp] theorem completeIllegal_delay (w : Word) (s : State) : (completeIllegal w s).delay = s.delay := rfl
@[simp] theorem completeIllegal_replies (w : Word) (s : State) : (completeIllegal w s).replies = s.replies := rfl

@[simp] theorem acknowledge_regs (w : Word) (s : State) : (acknowledge w s).regs = { s.regs with status := w1cStatus w s.regs.status } := rfl
@[simp] theorem acknowledge_run (w : Word) (s : State) : (acknowledge w s).run = s.run := rfl
@[simp] theorem acknowledge_mem (w : Word) (s : State) : (acknowledge w s).mem = s.mem := rfl
@[simp] theorem acknowledge_draws (w : Word) (s : State) : (acknowledge w s).draws = s.draws := rfl
@[simp] theorem acknowledge_host (w : Word) (s : State) : (acknowledge w s).host = s.host := rfl
@[simp] theorem acknowledge_delay (w : Word) (s : State) : (acknowledge w s).delay = s.delay := rfl
@[simp] theorem acknowledge_replies (w : Word) (s : State) : (acknowledge w s).replies = s.replies := rfl

@[simp] theorem setBusErr_regs (s : State) : (setBusErr s).regs = { s.regs with status := { s.regs.status with busErr := true } } := rfl
@[simp] theorem setBusErr_run (s : State) : (setBusErr s).run = s.run := rfl
@[simp] theorem setBusErr_mem (s : State) : (setBusErr s).mem = s.mem := rfl
@[simp] theorem setBusErr_draws (s : State) : (setBusErr s).draws = s.draws := rfl
@[simp] theorem setBusErr_host (s : State) : (setBusErr s).host = s.host := rfl
@[simp] theorem setBusErr_delay (s : State) : (setBusErr s).delay = s.delay := rfl
@[simp] theorem setBusErr_replies (s : State) : (setBusErr s).replies = s.replies := rfl

@[simp] theorem setCmdRejected_regs (s : State) : (setCmdRejected s).regs = { s.regs with status := { s.regs.status with cmdRejected := true } } := rfl
@[simp] theorem setCmdRejected_run (s : State) : (setCmdRejected s).run = s.run := rfl
@[simp] theorem setCmdRejected_mem (s : State) : (setCmdRejected s).mem = s.mem := rfl
@[simp] theorem setCmdRejected_draws (s : State) : (setCmdRejected s).draws = s.draws := rfl
@[simp] theorem setCmdRejected_host (s : State) : (setCmdRejected s).host = s.host := rfl
@[simp] theorem setCmdRejected_delay (s : State) : (setCmdRejected s).delay = s.delay := rfl
@[simp] theorem setCmdRejected_replies (s : State) : (setCmdRejected s).replies = s.replies := rfl

@[simp] theorem reply_regs (w : Word) (s : State) : (reply w s).regs = s.regs := rfl
@[simp] theorem reply_run (w : Word) (s : State) : (reply w s).run = s.run := rfl
@[simp] theorem reply_mem (w : Word) (s : State) : (reply w s).mem = s.mem := rfl
@[simp] theorem reply_draws (w : Word) (s : State) : (reply w s).draws = s.draws := rfl
@[simp] theorem reply_host (w : Word) (s : State) : (reply w s).host = s.host := rfl
@[simp] theorem reply_delay (w : Word) (s : State) : (reply w s).delay = s.delay := rfl
@[simp] theorem reply_replies (w : Word) (s : State) : (reply w s).replies = w :: s.replies := rfl

@[simp] theorem refusedRead_regs (s : State) : (refusedRead s).regs = { s.regs with status := { s.regs.status with busErr := true } } := rfl
@[simp] theorem refusedRead_run (s : State) : (refusedRead s).run = s.run := rfl
@[simp] theorem refusedRead_mem (s : State) : (refusedRead s).mem = s.mem := rfl
@[simp] theorem refusedRead_draws (s : State) : (refusedRead s).draws = s.draws := rfl
@[simp] theorem refusedRead_host (s : State) : (refusedRead s).host = s.host := rfl
@[simp] theorem refusedRead_delay (s : State) : (refusedRead s).delay = s.delay := rfl
@[simp] theorem refusedRead_replies (s : State) : (refusedRead s).replies = 0 :: s.replies := rfl

@[simp] theorem softReset_regs (s : State) : (softReset s).regs = Regs.reset := rfl
@[simp] theorem softReset_run (s : State) : (softReset s).run = .idle := rfl
@[simp] theorem softReset_draws (s : State) : (softReset s).draws = s.draws := rfl
@[simp] theorem softReset_host (s : State) : (softReset s).host = s.host := rfl
@[simp] theorem softReset_delay (s : State) : (softReset s).delay = s.delay := rfl
@[simp] theorem softReset_replies (s : State) : (softReset s).replies = s.replies := rfl

@[simp] theorem hardReset_regs (s : State) : (hardReset s).regs = Regs.reset := rfl
@[simp] theorem hardReset_run (s : State) : (hardReset s).run = .idle := rfl
@[simp] theorem hardReset_mem (s : State) : (hardReset s).mem = [] := rfl
@[simp] theorem hardReset_draws (s : State) : (hardReset s).draws = s.draws := rfl
@[simp] theorem hardReset_host (s : State) : (hardReset s).host = s.host := rfl
@[simp] theorem hardReset_delay (s : State) : (hardReset s).delay = s.delay := rfl
@[simp] theorem hardReset_replies (s : State) : (hardReset s).replies = s.replies := rfl

@[simp] theorem withFetchWord_regs (s : State) (nbits w : Nat) : (s.withFetchWord nbits w).regs = s.regs := rfl
@[simp] theorem withFetchWord_run (s : State) (nbits w : Nat) : (s.withFetchWord nbits w).run = .busy (BitVec.ofNat 32 (w % 2 ^ nbits)) := rfl
@[simp] theorem withFetchWord_mem (s : State) (nbits w : Nat) : (s.withFetchWord nbits w).mem = s.mem := rfl
@[simp] theorem withFetchWord_draws (s : State) (nbits w : Nat) : (s.withFetchWord nbits w).draws = s.draws := rfl
@[simp] theorem withFetchWord_host (s : State) (nbits w : Nat) : (s.withFetchWord nbits w).host = s.host := rfl
@[simp] theorem withFetchWord_delay (s : State) (nbits w : Nat) : (s.withFetchWord nbits w).delay = 0 := rfl
@[simp] theorem withFetchWord_replies (s : State) (nbits w : Nat) : (s.withFetchWord nbits w).replies = s.replies := rfl

@[simp] theorem okStatus_done (op : Byte) (st : Status) : (okStatus op st).done = true := rfl
@[simp] theorem okStatus_err (op : Byte) (st : Status) : (okStatus op st).err = st.err := rfl
@[simp] theorem okStatus_satFwd (op : Byte) (st : Status) : (okStatus op st).satFwd = st.satFwd := rfl
@[simp] theorem okStatus_satInv (op : Byte) (st : Status) : (okStatus op st).satInv = st.satInv := rfl
@[simp] theorem okStatus_busErr (op : Byte) (st : Status) : (okStatus op st).busErr = st.busErr := rfl
@[simp] theorem okStatus_cmdRejected (op : Byte) (st : Status) : (okStatus op st).cmdRejected = st.cmdRejected := rfl
@[simp] theorem okStatus_treeValid (op : Byte) (st : Status) : (okStatus op st).treeValid = st.treeValid := rfl
@[simp] theorem okStatus_errCode (op : Byte) (st : Status) : (okStatus op st).errCode = 0x00 := rfl
@[simp] theorem okStatus_lastOp (op : Byte) (st : Status) : (okStatus op st).lastOp = op := rfl
@[simp] theorem okStatus_errOp (op : Byte) (st : Status) : (okStatus op st).errOp = 0x00 := rfl

@[simp] theorem errorStatus_done (op code eop : Byte) (st : Status) : (errorStatus op code eop st).done = true := rfl
@[simp] theorem errorStatus_err (op code eop : Byte) (st : Status) : (errorStatus op code eop st).err = true := rfl
@[simp] theorem errorStatus_satFwd (op code eop : Byte) (st : Status) : (errorStatus op code eop st).satFwd = st.satFwd := rfl
@[simp] theorem errorStatus_satInv (op code eop : Byte) (st : Status) : (errorStatus op code eop st).satInv = st.satInv := rfl
@[simp] theorem errorStatus_busErr (op code eop : Byte) (st : Status) : (errorStatus op code eop st).busErr = st.busErr := rfl
@[simp] theorem errorStatus_cmdRejected (op code eop : Byte) (st : Status) : (errorStatus op code eop st).cmdRejected = st.cmdRejected := rfl
@[simp] theorem errorStatus_treeValid (op code eop : Byte) (st : Status) : (errorStatus op code eop st).treeValid = st.treeValid := rfl
@[simp] theorem errorStatus_errCode (op code eop : Byte) (st : Status) : (errorStatus op code eop st).errCode = code := rfl
@[simp] theorem errorStatus_lastOp (op code eop : Byte) (st : Status) : (errorStatus op code eop st).lastOp = op := rfl
@[simp] theorem errorStatus_errOp (op code eop : Byte) (st : Status) : (errorStatus op code eop st).errOp = eop := rfl

@[simp] theorem w1cStatus_done (w : Word) (st : Status) : (w1cStatus w st).done = (st.done && !w.getLsbD 1) := rfl
@[simp] theorem w1cStatus_err (w : Word) (st : Status) : (w1cStatus w st).err = (st.err && !w.getLsbD 2) := rfl
@[simp] theorem w1cStatus_satFwd (w : Word) (st : Status) : (w1cStatus w st).satFwd = (st.satFwd && !w.getLsbD 3) := rfl
@[simp] theorem w1cStatus_satInv (w : Word) (st : Status) : (w1cStatus w st).satInv = (st.satInv && !w.getLsbD 4) := rfl
@[simp] theorem w1cStatus_busErr (w : Word) (st : Status) : (w1cStatus w st).busErr = (st.busErr && !w.getLsbD 5) := rfl
@[simp] theorem w1cStatus_cmdRejected (w : Word) (st : Status) : (w1cStatus w st).cmdRejected = (st.cmdRejected && !w.getLsbD 6) := rfl
@[simp] theorem w1cStatus_treeValid (w : Word) (st : Status) : (w1cStatus w st).treeValid = st.treeValid := rfl
@[simp] theorem w1cStatus_errCode (w : Word) (st : Status) : (w1cStatus w st).errCode = st.errCode := rfl
@[simp] theorem w1cStatus_lastOp (w : Word) (st : Status) : (w1cStatus w st).lastOp = st.lastOp := rfl
@[simp] theorem w1cStatus_errOp (w : Word) (st : Status) : (w1cStatus w st).errOp = st.errOp := rfl

@[simp] theorem isBusy_idle : RunState.idle.isBusy = false := rfl
@[simp] theorem isBusy_busy (w : Word) : (RunState.busy w).isBusy = true := rfl

theorem isBusy_iff (r : RunState) : r.isBusy = true ↔ ∃ w, r = .busy w := by
  cases r <;> simp

theorem softReset_mem_idle {s : State} (h : s.run = .idle) : (softReset s).mem = s.mem := by
  simp [softReset, h]

theorem softReset_mem_command {s : State} {w : Word} {i : Instr} (h : s.run = .busy w) (hd : decode w = .command i) :
    (softReset s).mem = unspecDests i s := by
  simp [softReset, h, hd]

theorem softReset_mem_illegal {s : State} {w : Word} {e : DecodeError} (h : s.run = .busy w)
    (hd : decode w = .illegal e) : (softReset s).mem = s.mem := by
  simp [softReset, h, hd]

end Sys2Proof.Machine
end

