-- ==== Sys2Proof/Laws/Commands.lean ====
section
/-! SUPPORT. What the commands can do, said once: each command's work by cases, what every command leaves alone (registers and
memory), and how the pre-checks bound the counts. -/

namespace Sys2Proof.Machine

/-- The state a command's work ends in. -/
def Result.state : Result → State
  | .ok s => s
  | .raised s _ => s

@[simp] theorem Result.state_ok (s : State) : (Result.ok s).state = s := rfl
@[simp] theorem Result.state_raised (s : State) (e : CmdError) : (Result.raised s e).state = s := rfl
@[simp] theorem done_eq (s : State) : done s = .ok (nextDraw s) := rfl
@[simp] theorem andThen_ok (s : State) (f : State → Result) : (Result.ok s).andThen f = f s := rfl
@[simp] theorem andThen_raised (s : State) (e : CmdError) (f : State → Result) :
    (Result.raised s e).andThen f = .raised s e := rfl
@[simp] theorem complete_ok (op : Byte) (s : State) : complete op (.ok s) = completeOk op s := rfl
@[simp] theorem complete_raised (op : Byte) (s : State) (e : CmdError) :
    complete op (.raised s e) = completeError op e s := rfl

/-- A failed pre-check: nothing but the draw counter changes (40_command_model.md R130). -/
theorem runPrimitive_of_fails {i : Instr} {work : State → Result} {s : State} {c : ErrCode} {info : Word}
    (h : firstFailure s (preChecks i) = some (c, info)) :
    runPrimitive i work s = .raised (nextDraw s) { code := c, info := info, op := opcode i } := by
  simp [runPrimitive, h]

/-- When the pre-checks pass, the command does its work. -/
theorem runPrimitive_of_passes {i : Instr} {work : State → Result} {s : State}
    (h : firstFailure s (preChecks i) = none) : runPrimitive i work s = work s := by
  simp [runPrimitive, h]

/-- Everything a primitive command can do: fail a pre-check, or do its work with the pre-checks passed. -/
theorem runPrimitive_cases (i : Instr) (work : State → Result) (s : State) :
    (∃ c info, firstFailure s (preChecks i) = some (c, info) ∧
      runPrimitive i work s = .raised (nextDraw s) { code := c, info := info, op := opcode i }) ∨
    (firstFailure s (preChecks i) = none ∧ runPrimitive i work s = work s) := by
  cases h : firstFailure s (preChecks i) with
  | none => exact .inr ⟨rfl, runPrimitive_of_passes h⟩
  | some p => exact .inl ⟨p.1, p.2, rfl, runPrimitive_of_fails h⟩

theorem firstFailure_eq_none {s : State} {cs : List Check} :
    firstFailure s cs = none ↔ ∀ c ∈ cs, runCheck s c = none := by
  induction cs with
  | nil => simp [firstFailure]
  | cons c cs ih =>
    cases h : runCheck s c with
    | none => simp [firstFailure, h, ih]
    | some e => simp [firstFailure, h]

/-! ### What the passed checks say -/

theorem ckK_passes {s : State} : runCheck s .ckK = none ↔ 1 ≤ sval32 s.regs.blockK ∧ sval32 s.regs.blockK ≤ 16 := by
  simp only [runCheck, Config.kmax]
  split <;> simp <;> omega

theorem ckR_passes {s : State} : runCheck s .ckR = none ↔ 1 ≤ sval32 s.regs.res ∧ sval32 s.regs.res ≤ 16 := by
  simp only [runCheck, Config.rmax]
  split <;> simp <;> omega

theorem ckRange_passes {s : State} : runCheck s .ckRange = none ↔ sval32 s.regs.minv < sval32 s.regs.maxv := by
  simp only [runCheck]
  split <;> simp <;> omega

theorem ckQv_passes {s : State} : runCheck s .ckQv = none ↔ ∀ i < blockSize s, 0 < stepSize s i := by
  simp only [runCheck, firstBadStep, Option.map_eq_none_iff, List.find?_eq_none, List.mem_range, decide_eq_true_eq, not_le]

theorem ckNsamp_passes {s : State} : runCheck s .ckNsamp = none ↔
    1 ≤ uval32 s.regs.nsamp ∧ uval32 s.regs.nsamp ≤ 4096 ∧
      ceilDiv (uval32 s.regs.nsamp) (blockSize s) * blockSize s ≤ 4096 := by
  simp only [runCheck, Config.nmax]
  split
  · simp; omega
  · split <;> simp <;> omega

theorem ckNblk_passes {s : State} : runCheck s .ckNblk = none ↔ uval32 s.regs.nblk * blockSize s ≤ 4096 := by
  simp only [runCheck, Config.nmax]
  split <;> simp <;> omega

theorem ckNsymNz_passes {s : State} : runCheck s .ckNsymNz = none ↔
    1 ≤ uval32 s.regs.nsym ∧ uval32 s.regs.nsym ≤ 4096 := by
  simp only [runCheck, Config.nmax]
  split
  · simp; omega
  · split <;> simp <;> omega

theorem ckNsym_passes {s : State} : runCheck s .ckNsym = none ↔ uval32 s.regs.nsym ≤ 4096 := by
  simp only [runCheck, Config.nmax]
  split <;> simp <;> omega

theorem ckTree_passes {s : State} : runCheck s .ckTree = none ↔ s.regs.status.treeValid = true := by
  simp only [runCheck]
  split <;> simp_all

theorem ckNdist_passes {s : State} : runCheck s .ckNdist = none ↔
    1 ≤ uval32 s.regs.ndist ∧ uval32 s.regs.ndist ≤ 4096 := by
  simp only [runCheck, Config.nmax]
  split
  · simp; omega
  · split <;> simp <;> omega

theorem ckFtab_passes {s : State} : runCheck s .ckFtab = none ↔
    firstBadEntry (readFtab s (uval32 s.regs.ndist)) 0 [] 0 = none := by
  simp only [runCheck, Option.map_eq_none_iff]

theorem ckNbits_passes {s : State} : runCheck s .ckNbits = none ↔ uval32 s.regs.nbits ≤ 131072 := by
  simp only [runCheck, Config.bitmax]
  split <;> simp <;> omega

theorem ckNdsym_passes {s : State} : runCheck s .ckNdsym = none ↔
    uval32 s.regs.ndsym ≤ 4096 ∧ uval32 s.regs.ndsym % blockSize s = 0 := by
  simp only [runCheck, Config.nmax]
  split
  · simp; omega
  · split <;> simp <;> omega

theorem ckNrblk_passes {s : State} : runCheck s .ckNrblk = none ↔ uval32 s.regs.nrblk * blockSize s ≤ 4096 := by
  simp only [runCheck, Config.nmax]
  split <;> simp <;> omega

/-- A legal K as a count. -/
theorem blockSize_of_legal {s : State} (h : 1 ≤ sval32 s.regs.blockK ∧ sval32 s.regs.blockK ≤ 16) :
    1 ≤ blockSize s ∧ blockSize s ≤ 16 := by
  unfold blockSize; omega

/-! ### What every command leaves alone -/

/-- The registers and model fields no command's work touches: everything but NBLK, NSYM, NDIST, NBITS, NDSYM, NRBLK, the
saturation counts, ROOT, MAXLEN, SAT_FWD, SAT_INV, TREE_VALID, memory and the draw counter. -/
structure Keeps (s t : State) : Prop where
  run : t.run = s.run
  host : t.host = s.host
  delay : t.delay = s.delay
  replies : t.replies = s.replies
  irqEn : t.regs.irqEn = s.regs.irqEn
  errInfo : t.regs.errInfo = s.regs.errInfo
  blockK : t.regs.blockK = s.regs.blockK
  res : t.regs.res = s.regs.res
  minv : t.regs.minv = s.regs.minv
  maxv : t.regs.maxv = s.regs.maxv
  nsamp : t.regs.nsamp = s.regs.nsamp
  qv : t.regs.qv = s.regs.qv
  done : t.regs.status.done = s.regs.status.done
  err : t.regs.status.err = s.regs.status.err
  busErr : t.regs.status.busErr = s.regs.status.busErr
  cmdRejected : t.regs.status.cmdRejected = s.regs.status.cmdRejected
  errCode : t.regs.status.errCode = s.regs.status.errCode
  lastOp : t.regs.status.lastOp = s.regs.status.lastOp
  errOp : t.regs.status.errOp = s.regs.status.errOp

theorem Keeps.refl (s : State) : Keeps s s :=
  ⟨rfl, rfl, rfl, rfl, rfl, rfl, rfl, rfl, rfl, rfl, rfl, rfl, rfl, rfl, rfl, rfl, rfl, rfl, rfl⟩

theorem Keeps.trans {s t u : State} (h₁ : Keeps s t) (h₂ : Keeps t u) : Keeps s u where
  run := h₂.run.trans h₁.run
  host := h₂.host.trans h₁.host
  delay := h₂.delay.trans h₁.delay
  replies := h₂.replies.trans h₁.replies
  irqEn := h₂.irqEn.trans h₁.irqEn
  errInfo := h₂.errInfo.trans h₁.errInfo
  blockK := h₂.blockK.trans h₁.blockK
  res := h₂.res.trans h₁.res
  minv := h₂.minv.trans h₁.minv
  maxv := h₂.maxv.trans h₁.maxv
  nsamp := h₂.nsamp.trans h₁.nsamp
  qv := h₂.qv.trans h₁.qv
  done := h₂.done.trans h₁.done
  err := h₂.err.trans h₁.err
  busErr := h₂.busErr.trans h₁.busErr
  cmdRejected := h₂.cmdRejected.trans h₁.cmdRejected
  errCode := h₂.errCode.trans h₁.errCode
  lastOp := h₂.lastOp.trans h₁.lastOp
  errOp := h₂.errOp.trans h₁.errOp

theorem nextDraw_keeps (s : State) : Keeps s (nextDraw s) :=
  ⟨rfl, rfl, rfl, rfl, rfl, rfl, rfl, rfl, rfl, rfl, rfl, rfl, rfl, rfl, rfl, rfl, rfl, rfl, rfl⟩

/-- A primitive keeps what its work keeps. -/
theorem runPrimitive_keeps {i : Instr} {work : State → Result} {s : State} (h : Keeps s (work s).state) :
    Keeps s (runPrimitive i work s).state := by
  rcases runPrimitive_cases i work s with ⟨c, info, -, he⟩ | ⟨-, he⟩
  · rw [he]; exact nextDraw_keeps s
  · rw [he]; exact h

theorem andThen_keeps {s : State} {r : Result} {f : State → Result} (h : Keeps s r.state)
    (hf : ∀ t, Keeps t (f t).state) : Keeps s (r.andThen f).state := by
  cases r with
  | ok t => exact h.trans (hf t)
  | raised t e => exact h

theorem runChkcfg_keeps (s : State) : Keeps s (runChkcfg s).state := runPrimitive_keeps (nextDraw_keeps s)

theorem runSegment_keeps (s : State) : Keeps s (runSegment s).state :=
  runPrimitive_keeps ⟨rfl, rfl, rfl, rfl, rfl, rfl, rfl, rfl, rfl, rfl, rfl, rfl, rfl, rfl, rfl, rfl, rfl, rfl, rfl⟩

theorem runScale_keeps (s : State) : Keeps s (runScale s).state :=
  runPrimitive_keeps ⟨rfl, rfl, rfl, rfl, rfl, rfl, rfl, rfl, rfl, rfl, rfl, rfl, rfl, rfl, rfl, rfl, rfl, rfl, rfl⟩

theorem runFdct_keeps (s : State) : Keeps s (runFdct s).state := by
  refine runPrimitive_keeps ?_
  unfold fdctWork
  split <;>
    exact ⟨rfl, rfl, rfl, rfl, rfl, rfl, rfl, rfl, rfl, rfl, rfl, rfl, rfl, rfl, rfl, rfl, rfl, rfl, rfl⟩

theorem runQuant_keeps (s : State) : Keeps s (runQuant s).state :=
  runPrimitive_keeps ⟨rfl, rfl, rfl, rfl, rfl, rfl, rfl, rfl, rfl, rfl, rfl, rfl, rfl, rfl, rfl, rfl, rfl, rfl, rfl⟩

theorem runHcount_keeps (s : State) : Keeps s (runHcount s).state :=
  runPrimitive_keeps ⟨rfl, rfl, rfl, rfl, rfl, rfl, rfl, rfl, rfl, rfl, rfl, rfl, rfl, rfl, rfl, rfl, rfl, rfl, rfl⟩

theorem runHbuild_keeps (s : State) : Keeps s (runHbuild s).state := by
  refine runPrimitive_keeps ?_
  unfold hbuildWork
  split <;>
    exact ⟨rfl, rfl, rfl, rfl, rfl, rfl, rfl, rfl, rfl, rfl, rfl, rfl, rfl, rfl, rfl, rfl, rfl, rfl, rfl⟩

theorem runHenc_keeps (s : State) : Keeps s (runHenc s).state := by
  refine runPrimitive_keeps ?_
  unfold hencWork
  split <;>
    exact ⟨rfl, rfl, rfl, rfl, rfl, rfl, rfl, rfl, rfl, rfl, rfl, rfl, rfl, rfl, rfl, rfl, rfl, rfl, rfl⟩

theorem runHdec_keeps (s : State) : Keeps s (runHdec s).state := by
  refine runPrimitive_keeps ?_
  unfold hdecWork
  split <;>
    exact ⟨rfl, rfl, rfl, rfl, rfl, rfl, rfl, rfl, rfl, rfl, rfl, rfl, rfl, rfl, rfl, rfl, rfl, rfl, rfl⟩

theorem runDequant_keeps (s : State) : Keeps s (runDequant s).state := by
  refine runPrimitive_keeps ?_
  unfold dequantWork
  split <;>
    exact ⟨rfl, rfl, rfl, rfl, rfl, rfl, rfl, rfl, rfl, rfl, rfl, rfl, rfl, rfl, rfl, rfl, rfl, rfl, rfl⟩

theorem runIdct_keeps (s : State) : Keeps s (runIdct s).state :=
  runPrimitive_keeps ⟨rfl, rfl, rfl, rfl, rfl, rfl, rfl, rfl, rfl, rfl, rfl, rfl, rfl, rfl, rfl, rfl, rfl, rfl, rfl⟩

theorem runUnscale_keeps (s : State) : Keeps s (runUnscale s).state :=
  runPrimitive_keeps ⟨rfl, rfl, rfl, rfl, rfl, rfl, rfl, rfl, rfl, rfl, rfl, rfl, rfl, rfl, rfl, rfl, rfl, rfl, rfl⟩

theorem runEncode_keeps (s : State) : Keeps s (runEncode s).state :=
  andThen_keeps (andThen_keeps (andThen_keeps (andThen_keeps (andThen_keeps (andThen_keeps (andThen_keeps
    (runChkcfg_keeps s) runSegment_keeps) runScale_keeps) runFdct_keeps) runQuant_keeps) runHcount_keeps)
    runHbuild_keeps) runHenc_keeps

theorem runDecode_keeps (s : State) : Keeps s (runDecode s).state :=
  andThen_keeps (andThen_keeps (andThen_keeps (andThen_keeps (runPrimitive_keeps (nextDraw_keeps s)) runHdec_keeps)
    runDequant_keeps) runIdct_keeps) runUnscale_keeps

/-- A command's work, before its completion. -/
def runCommand : Instr → State → Result
  | .nop => runPrimitive .nop done
  | .chkcfg => runChkcfg
  | .segment => runSegment
  | .scale => runScale
  | .fdct => runFdct
  | .quant => runQuant
  | .hcount => runHcount
  | .hbuild => runHbuild
  | .henc => runHenc
  | .hdec => runHdec
  | .dequant => runDequant
  | .idct => runIdct
  | .unscale => runUnscale
  | .encode => runEncode
  | .decode => runDecode

/-- Every command is its work and then its completion (40_command_model.md R122). -/
theorem exec_eq (i : Instr) (s : State) : exec i s = .next (complete (opcode i) (runCommand i s)) := by
  cases i <;> rfl

theorem runCommand_keeps (i : Instr) (s : State) : Keeps s (runCommand i s).state := by
  cases i with
  | nop => exact runPrimitive_keeps (i := .nop) (work := done) (nextDraw_keeps s)
  | chkcfg => exact runChkcfg_keeps s
  | segment => exact runSegment_keeps s
  | scale => exact runScale_keeps s
  | fdct => exact runFdct_keeps s
  | quant => exact runQuant_keeps s
  | hcount => exact runHcount_keeps s
  | hbuild => exact runHbuild_keeps s
  | henc => exact runHenc_keeps s
  | hdec => exact runHdec_keeps s
  | dequant => exact runDequant_keeps s
  | idct => exact runIdct_keeps s
  | unscale => exact runUnscale_keeps s
  | encode => exact runEncode_keeps s
  | decode => exact runDecode_keeps s

/-! ### Error opcodes, sticky notices, TREE_VALID -/

/-- The notices stay (10_state.md R34), an error names the opcode of a command (40_command_model.md R129), and TREE_VALID is
not set but by HBUILD (10_state.md R37). -/
structure Marks (builds : Bool) (s : State) (r : Result) : Prop where
  satFwd : s.regs.status.satFwd = true → r.state.regs.status.satFwd = true
  satInv : s.regs.status.satInv = true → r.state.regs.status.satInv = true
  op : ∀ t e, r = .raised t e → ∃ j, e.op = opcode j
  treeValid : r.state.regs.status.treeValid = true → builds = true ∨ s.regs.status.treeValid = true

theorem Marks.mono {s : State} {r : Result} (h : Marks false s r) : Marks true s r :=
  ⟨h.satFwd, h.satInv, h.op, fun _ => .inl rfl⟩

theorem runPrimitive_marks {b : Bool} {i : Instr} {work : State → Result} {s : State} (h : Marks b s (work s)) :
    Marks b s (runPrimitive i work s) := by
  rcases runPrimitive_cases i work s with ⟨c, info, -, he⟩ | ⟨-, he⟩ <;> rw [he]
  · exact ⟨id, id, fun t e h => ⟨i, by injection h with _ h2; rw [← h2]⟩, Or.inr⟩
  · exact h

theorem andThen_marks {b : Bool} {s : State} {r : Result} {f : State → Result} (h : Marks b s r)
    (hf : ∀ t, Marks b t (f t)) : Marks b s (r.andThen f) := by
  cases r with
  | ok t =>
    have h' := hf t
    refine ⟨fun x => h'.satFwd (h.satFwd x), fun x => h'.satInv (h.satInv x), h'.op, fun x => ?_⟩
    rcases h'.treeValid x with hb | ht
    · exact .inl hb
    · exact h.treeValid ht
  | raised t e => exact h

theorem dataError_marks (i : Instr) (code : ErrCode) (info : Nat) {s t : State} (h₁ : t.regs.status.satFwd = s.regs.status.satFwd)
    (h₂ : t.regs.status.satInv = s.regs.status.satInv)
    (h₃ : t.regs.status.treeValid = true → s.regs.status.treeValid = true) : Marks false s (dataError i code info t) :=
  ⟨fun x => h₁.trans x, fun x => h₂.trans x, fun _ _ h => ⟨i, by cases h; rfl⟩, fun x => .inr (h₃ x)⟩

theorem done_marks {s t : State} (h₁ : s.regs.status.satFwd = true → t.regs.status.satFwd = true)
    (h₂ : s.regs.status.satInv = true → t.regs.status.satInv = true)
    (h₃ : t.regs.status.treeValid = true → s.regs.status.treeValid = true) : Marks false s (done t) :=
  ⟨h₁, h₂, fun _ _ h => (nomatch h), fun x => .inr (h₃ x)⟩

theorem runChkcfg_marks (s : State) : Marks false s (runChkcfg s) := runPrimitive_marks (done_marks id id id)

theorem runSegment_marks (s : State) : Marks false s (runSegment s) := runPrimitive_marks (done_marks id id id)

theorem runScale_marks (s : State) : Marks false s (runScale s) :=
  runPrimitive_marks (done_marks (fun h => by simp [h]) id id)

theorem runFdct_marks (s : State) : Marks false s (runFdct s) := by
  refine runPrimitive_marks ?_
  unfold fdctWork
  split
  · exact dataError_marks _ _ _ rfl rfl id
  · exact done_marks id id id

theorem runQuant_marks (s : State) : Marks false s (runQuant s) := runPrimitive_marks (done_marks id id id)

theorem runHcount_marks (s : State) : Marks false s (runHcount s) := by
  refine runPrimitive_marks (done_marks id id ?_)
  intro h
  cases h

theorem runHbuild_marks (s : State) : Marks true s (runHbuild s) := by
  refine runPrimitive_marks ?_
  unfold hbuildWork
  split
  · apply Marks.mono
    apply dataError_marks
    · rfl
    · rfl
    · intro h
      cases h
  · exact ⟨id, id, fun _ _ h => (nomatch h), fun _ => .inl rfl⟩

theorem runHenc_marks (s : State) : Marks false s (runHenc s) := by
  refine runPrimitive_marks ?_
  unfold hencWork
  split
  · exact dataError_marks _ _ _ rfl rfl id
  · exact done_marks id id id

theorem runHdec_marks (s : State) : Marks false s (runHdec s) := by
  refine runPrimitive_marks ?_
  unfold hdecWork
  split
  · exact dataError_marks _ _ _ rfl rfl id
  · exact done_marks id id id

theorem runDequant_marks (s : State) : Marks false s (runDequant s) := by
  refine runPrimitive_marks ?_
  unfold dequantWork
  split
  · exact dataError_marks _ _ _ rfl rfl id
  · exact done_marks id id id

theorem runIdct_marks (s : State) : Marks false s (runIdct s) := runPrimitive_marks (done_marks id id id)

theorem runUnscale_marks (s : State) : Marks false s (runUnscale s) :=
  runPrimitive_marks (done_marks id (fun h => by simp [h]) id)

/-- The commands that contain HBUILD. -/
def buildsTree : Instr → Bool
  | .hbuild => true
  | .encode => true
  | _ => false

theorem runCommand_marks (i : Instr) (s : State) : Marks (buildsTree i) s (runCommand i s) := by
  cases i with
  | nop => exact runPrimitive_marks (i := .nop) (work := done) (done_marks id id id)
  | chkcfg => exact runChkcfg_marks s
  | segment => exact runSegment_marks s
  | scale => exact runScale_marks s
  | fdct => exact runFdct_marks s
  | quant => exact runQuant_marks s
  | hcount => exact runHcount_marks s
  | hbuild => exact runHbuild_marks s
  | henc => exact runHenc_marks s
  | hdec => exact runHdec_marks s
  | dequant => exact runDequant_marks s
  | idct => exact runIdct_marks s
  | unscale => exact runUnscale_marks s
  | encode =>
    exact andThen_marks (andThen_marks (andThen_marks (andThen_marks (andThen_marks (andThen_marks (andThen_marks
      (runChkcfg_marks s).mono fun t => (runSegment_marks t).mono) fun t => (runScale_marks t).mono)
      fun t => (runFdct_marks t).mono) fun t => (runQuant_marks t).mono) fun t => (runHcount_marks t).mono)
      runHbuild_marks) fun t => (runHenc_marks t).mono
  | decode =>
    exact andThen_marks (andThen_marks (andThen_marks (andThen_marks (runPrimitive_marks (i := .decode) (work := done)
      (done_marks id id id)) runHdec_marks) runDequant_marks) runIdct_marks) runUnscale_marks

/-! ### The memory frame -/

/-- Memory stays canonical, and no byte outside some windows changes. -/
structure MemFrame (bs : List Buffer) (m n : Memory) : Prop where
  wf : Memory.wf m → Memory.wf n
  frame : ∀ k, ¬ InWindows bs k → byteAt n k = byteAt m k

theorem MemFrame.refl (bs : List Buffer) (m : Memory) : MemFrame bs m m := ⟨id, fun _ _ => rfl⟩

theorem MemFrame.trans {bs : List Buffer} {m n o : Memory} (h₁ : MemFrame bs m n) (h₂ : MemFrame bs n o) :
    MemFrame bs m o := ⟨fun h => h₂.wf (h₁.wf h), fun k hk => (h₂.frame k hk).trans (h₁.frame k hk)⟩

theorem MemFrame.mono {bs cs : List Buffer} {m n : Memory} (h : MemFrame bs m n) (hs : ∀ b ∈ bs, b ∈ cs) :
    MemFrame cs m n := ⟨h.wf, fun k hk => h.frame k fun ⟨b, hb, hw⟩ => hk ⟨b, hs b hb, hw⟩⟩

theorem storeBuf_memFrame (m : Memory) (b : Buffer) (i : Nat) (ws : List Word) : MemFrame [b] m (storeBuf m b i ws) :=
  ⟨fun h => wf_storeBuf h b i ws, fun k hk => byteAt_storeBuf_of_outside_window (by
    by_contra hc
    exact hk ⟨b, by simp, by omega, by omega⟩)⟩

theorem unspecBufs_memFrame (m : Memory) (bs : List Buffer) : MemFrame bs m (unspecBufs m bs) :=
  ⟨fun h => wf_unspecBufs h bs, fun _ hk => byteAt_unspecBufs_of_outside hk⟩

/-- The windows a command may change: its destination buffers, and IN where it pads (40_command_model.md R133). -/
def writtenBuffers (i : Instr) : List Buffer := (if padsInput i then [.inp] else []) ++ destBuffers i

theorem unspecPadding_memFrame (s : State) (m : Memory) : MemFrame [.inp] m (unspecPadding s m) := by
  refine ⟨fun h => wf_unspecPadding h s, fun k hk => ?_⟩
  rw [byteAt_unspecPadding, if_neg]
  rintro ⟨-, h₁, h₂⟩
  refine hk ⟨.inp, by simp, ?_, ?_⟩
  · simp only [bufAddr] at h₁; omega
  · simp only [bufAddr, bufElemWords, bufBase] at h₂
    simp only [bufLimit, bufBase, bufElemWords, bufElements, Config.nmax]
    omega

theorem unspecDests_memFrame (i : Instr) (s : State) : MemFrame (writtenBuffers i) s.mem (unspecDests i s) := by
  unfold unspecDests writtenBuffers
  split
  · exact ((unspecPadding_memFrame s s.mem).mono (by simp)).trans
      ((unspecBufs_memFrame _ _).mono fun b hb => List.mem_append_right _ hb)
  · exact (unspecBufs_memFrame _ _).mono (by simp)

theorem runPrimitive_memFrame {bs : List Buffer} {i : Instr} {work : State → Result} {s : State}
    (h : MemFrame bs s.mem (work s).state.mem) : MemFrame bs s.mem (runPrimitive i work s).state.mem := by
  rcases runPrimitive_cases i work s with ⟨c, info, -, he⟩ | ⟨-, he⟩
  · rw [he]; exact MemFrame.refl _ _
  · rw [he]; exact h

theorem andThen_memFrame {bs : List Buffer} {s : State} {r : Result} {f : State → Result}
    (h : MemFrame bs s.mem r.state.mem) (hf : ∀ t, MemFrame bs t.mem (f t).state.mem) :
    MemFrame bs s.mem (r.andThen f).state.mem := by
  cases r with
  | ok t => exact h.trans (hf t)
  | raised t e => exact h

theorem runSegment_memFrame (s : State) : MemFrame [.inp] s.mem (runSegment s).state.mem :=
  runPrimitive_memFrame (storeBuf_memFrame _ _ _ _)

theorem runScale_memFrame (s : State) : MemFrame [.scl] s.mem (runScale s).state.mem :=
  runPrimitive_memFrame (storeBuf_memFrame _ _ _ _)

theorem runFdct_memFrame (s : State) : MemFrame [.coef] s.mem (runFdct s).state.mem := by
  refine runPrimitive_memFrame ?_
  unfold fdctWork
  split
  · exact unspecDests_memFrame .fdct s
  · exact storeBuf_memFrame _ _ _ _

theorem runQuant_memFrame (s : State) : MemFrame [.sym] s.mem (runQuant s).state.mem :=
  runPrimitive_memFrame (storeBuf_memFrame _ _ _ _)

theorem runHcount_memFrame (s : State) : MemFrame [.ftab] s.mem (runHcount s).state.mem :=
  runPrimitive_memFrame (storeBuf_memFrame _ _ _ _)

theorem runHbuild_memFrame (s : State) : MemFrame [.tree, .ctab] s.mem (runHbuild s).state.mem := by
  refine runPrimitive_memFrame ?_
  unfold hbuildWork
  split
  · exact unspecDests_memFrame .hbuild s
  · exact ((storeBuf_memFrame s.mem .tree 0 _).mono (by simp)).trans ((storeBuf_memFrame _ .ctab 0 _).mono (by simp))

theorem runHenc_memFrame (s : State) : MemFrame [.bits] s.mem (runHenc s).state.mem := by
  refine runPrimitive_memFrame ?_
  unfold hencWork
  split
  · exact unspecDests_memFrame .henc s
  · exact storeBuf_memFrame _ _ _ _

theorem runHdec_memFrame (s : State) : MemFrame [.dsym] s.mem (runHdec s).state.mem := by
  refine runPrimitive_memFrame ?_
  unfold hdecWork
  split
  · exact unspecDests_memFrame .hdec s
  · exact storeBuf_memFrame _ _ _ _

theorem runDequant_memFrame (s : State) : MemFrame [.dcoef] s.mem (runDequant s).state.mem := by
  refine runPrimitive_memFrame ?_
  unfold dequantWork
  split
  · exact unspecDests_memFrame .dequant s
  · exact storeBuf_memFrame _ _ _ _

theorem runIdct_memFrame (s : State) : MemFrame [.y] s.mem (runIdct s).state.mem :=
  runPrimitive_memFrame (storeBuf_memFrame _ _ _ _)

theorem runUnscale_memFrame (s : State) : MemFrame [.out] s.mem (runUnscale s).state.mem :=
  runPrimitive_memFrame (storeBuf_memFrame _ _ _ _)

/-- Memory stays canonical, and no command changes a byte outside the windows it writes. -/
theorem runCommand_memFrame (i : Instr) (s : State) :
    MemFrame (writtenBuffers i) s.mem (runCommand i s).state.mem := by
  cases i with
  | nop => exact runPrimitive_memFrame (i := .nop) (work := done) (MemFrame.refl _ s.mem)
  | chkcfg => exact runPrimitive_memFrame (i := .chkcfg) (work := done) (MemFrame.refl _ s.mem)
  | segment => exact runSegment_memFrame s
  | scale => exact runScale_memFrame s
  | fdct => exact runFdct_memFrame s
  | quant => exact runQuant_memFrame s
  | hcount => exact runHcount_memFrame s
  | hbuild => exact runHbuild_memFrame s
  | henc => exact runHenc_memFrame s
  | hdec => exact runHdec_memFrame s
  | dequant => exact runDequant_memFrame s
  | idct => exact runIdct_memFrame s
  | unscale => exact runUnscale_memFrame s
  | encode =>
    exact andThen_memFrame (andThen_memFrame (andThen_memFrame (andThen_memFrame (andThen_memFrame (andThen_memFrame
      (andThen_memFrame (runPrimitive_memFrame (i := .chkcfg) (work := done) (MemFrame.refl _ s.mem))
      fun t => (runSegment_memFrame t).mono (by decide)) fun t => (runScale_memFrame t).mono (by decide))
      fun t => (runFdct_memFrame t).mono (by decide)) fun t => (runQuant_memFrame t).mono (by decide))
      fun t => (runHcount_memFrame t).mono (by decide)) fun t => (runHbuild_memFrame t).mono (by decide))
      fun t => (runHenc_memFrame t).mono (by decide)
  | decode =>
    exact andThen_memFrame (andThen_memFrame (andThen_memFrame (andThen_memFrame
      (runPrimitive_memFrame (i := .decode) (work := done) (MemFrame.refl _ s.mem)) fun t => (runHdec_memFrame t).mono (by decide))
      fun t => (runDequant_memFrame t).mono (by decide)) fun t => (runIdct_memFrame t).mono (by decide))
      fun t => (runUnscale_memFrame t).mono (by decide)

end Sys2Proof.Machine
end

