-- ==== Sys2Proof/Laws/Checks.lean ====
section
/-! SUPPORT. The pre-checks (40_command_model.md R124) in the terms claims use: legal K, R, range, step sizes and sample counts,
and the frequency table's conditions (45_entropy_coder.md R225). -/

namespace Sys2Proof.Machine

/-! ### Legal parameters -/

theorem LegalBlock.blockSize {s : State} {K : Nat} (h : LegalBlock s K) : blockSize s = K := by
  unfold Machine.blockSize
  rw [h.eq]
  rfl

theorem LegalBlock.ckK {s : State} {K : Nat} (h : LegalBlock s K) : runCheck s .ckK = none := by
  have := h.eq; have := h.pos; have := h.le
  rw [ckK_passes]; omega

theorem LegalRes.resolution {s : State} {R : Nat} (h : LegalRes s R) : resolution s = R := by
  unfold Machine.resolution
  rw [h.eq]
  rfl

theorem LegalRes.ckR {s : State} {R : Nat} (h : LegalRes s R) : runCheck s .ckR = none := by
  have := h.eq; have := h.pos; have := h.le
  rw [ckR_passes]; omega

theorem LegalRange.ckRange {s : State} (h : LegalRange s) : runCheck s .ckRange = none := ckRange_passes.mpr h

theorem exists_legalBlock {s : State} : (∃ K, LegalBlock s K) ↔ runCheck s .ckK = none := by
  constructor
  · rintro ⟨K, h⟩; exact h.ckK
  · intro h
    rw [ckK_passes] at h
    exact ⟨(sval32 s.regs.blockK).toNat, by omega, by omega, by omega⟩

theorem exists_legalRes {s : State} : (∃ R, LegalRes s R) ↔ runCheck s .ckR = none := by
  constructor
  · rintro ⟨R, h⟩; exact h.ckR
  · intro h
    rw [ckR_passes] at h
    exact ⟨(sval32 s.regs.res).toNat, by omega, by omega, by omega⟩

theorem stepSize_eq (s : State) (i : Fin 16) : stepSize s i.val = sval32 (s.regs.qv.get i) := by
  unfold stepSize
  congr 1
  rw [List.getD_eq_getElem?_getD, List.getElem?_eq_getElem (by simp), Option.getD_some]
  simp [Vector.get]

theorem legalSteps_iff {s : State} {K : Nat} (h : LegalBlock s K) : LegalSteps s K ↔ runCheck s .ckQv = none := by
  rw [ckQv_passes, h.blockSize]
  constructor
  · intro hs i hi
    have hl := h.le
    have := hs ⟨i, by omega⟩ hi
    rwa [← stepSize_eq] at this
  · intro hs i hi
    rw [← stepSize_eq]
    exact hs i.val hi

/-- CK_QV names the least index with a bad step size. -/
theorem ckQv_fails {s : State} {K : Nat} (h : LegalBlock s K) {i : Fin 16} (hi : i.val < K)
    (hb : sval32 (s.regs.qv.get i) ≤ 0) (hl : ∀ j : Fin 16, j.val < i.val → 0 < sval32 (s.regs.qv.get j)) :
    runCheck s .ckQv = some (.cfgQv, encCount i.val) := by
  simp only [runCheck, firstBadStep, h.blockSize]
  have : (List.range K).find? (fun i => decide (stepSize s i ≤ 0)) = some i.val := by
    rw [List.find?_range_eq_some]
    refine ⟨?_, by simpa using hi, ?_⟩
    · rw [stepSize_eq]; simpa using hb
    · intro j hj
      have hl' := hl ⟨j, by omega⟩ hj
      rw [← stepSize_eq] at hl'
      simpa using hl'
  rw [this]
  rfl

theorem LegalSamples.ckNsamp {s : State} {K B : Nat} (hK : LegalBlock s K) (h : LegalSamples s K B) :
    runCheck s .ckNsamp = none ∧ ceilDiv (uval32 s.regs.nsamp) K = B := by
  have hk := hK.pos
  have hB : ceilDiv (uval32 s.regs.nsamp) K = B := by
    have h₁ := h.enough
    have h₂ := h.least
    unfold ceilDiv
    refine Nat.div_eq_of_lt_le ?_ ?_
    · omega
    · rw [Nat.add_mul]; omega
  refine ⟨?_, hB⟩
  rw [ckNsamp_passes, hK.blockSize, hB]
  exact ⟨h.pos, h.le, h.fits⟩

theorem exists_legalSamples {s : State} {K : Nat} (hK : LegalBlock s K) :
    (∃ B, LegalSamples s K B) ↔ runCheck s .ckNsamp = none := by
  constructor
  · rintro ⟨B, h⟩; exact (h.ckNsamp hK).1
  · intro h
    rw [ckNsamp_passes, hK.blockSize] at h
    exact ⟨_, h.1, h.2.1, le_ceilDiv_mul hK.pos, ceilDiv_mul_lt hK.pos, h.2.2⟩

/-! ### The frequency table -/

/-- The scan of CK_FTAB stops at the least bad entry. -/
theorem firstBadEntry_spec (all : List FtabEntry) : ∀ (es : List FtabEntry) (pre : List FtabEntry),
    all = pre ++ es →
    (∀ j < pre.length, ¬ BadEntry all j) →
    match firstBadEntry es pre.length ((pre.map FtabEntry.symbol).reverse) ((pre.map fun d => uval32 d.count).sum) with
    | some i => BadEntry all i ∧ ∀ j < i, ¬ BadEntry all j
    | none => ∀ j, ¬ BadEntry all j := by
  intro es
  induction es with
  | nil =>
    intro pre hall hgood
    simp only [firstBadEntry]
    intro j
    by_cases hj : j < pre.length
    · exact hgood j hj
    · rintro ⟨e, he, -⟩
      rw [hall, List.append_nil, List.getElem?_eq_none (by omega)] at he
      cases he
  | cons e es ih =>
    intro pre hall hgood
    have hget : all[pre.length]? = some e := by rw [hall]; simp
    have hseen : (∃ j < pre.length, ∃ d, all[j]? = some d ∧ d.symbol = e.symbol) ↔
        e.symbol ∈ (pre.map FtabEntry.symbol).reverse := by
      rw [List.mem_reverse, List.mem_map]
      constructor
      · rintro ⟨j, hj, d, hd, hs⟩
        rw [hall, List.getElem?_append_left hj] at hd
        exact ⟨d, List.mem_of_getElem? hd, hs⟩
      · rintro ⟨d, hd, hs⟩
        obtain ⟨j, hj, hd⟩ := List.mem_iff_getElem.mp hd
        refine ⟨j, hj, d, ?_, hs⟩
        rw [hall, List.getElem?_append_left hj, List.getElem?_eq_getElem hj, hd]
    have htake : all.take (pre.length + 1) = pre ++ [e] := by
      rw [hall, List.take_append]
      simp
    have hsum : ((all.take (pre.length + 1)).map fun d => uval32 d.count).sum
        = (pre.map fun d => uval32 d.count).sum + uval32 e.count := by
      rw [htake]; simp
    have hbad : BadEntry all pre.length ↔ (uval32 e.count = 0 ∨ e.symbol ∈ (pre.map FtabEntry.symbol).reverse ∨
        4294967295 < (pre.map fun d => uval32 d.count).sum + uval32 e.count) := by
      unfold BadEntry
      rw [hget, hsum]
      constructor
      · rintro ⟨e', he', h⟩
        obtain rfl := Option.some.inj he'
        rwa [hseen] at h
      · intro h
        exact ⟨e, rfl, by rwa [hseen]⟩
    simp only [firstBadEntry]
    by_cases h : BadEntry all pre.length
    · rw [if_pos (hbad.mp h)]
      exact ⟨h, hgood⟩
    · rw [if_neg (fun h' => h (hbad.mpr h'))]
      have := ih (pre ++ [e]) (by rw [hall, List.append_assoc]; rfl) (by
        intro j hj
        simp only [List.length_append, List.length_singleton] at hj
        rcases Nat.lt_or_ge j pre.length with h' | h'
        · exact hgood j h'
        · obtain rfl : j = pre.length := by omega
          exact h)
      simpa using this

theorem firstBadEntry_eq_none {ft : List FtabEntry} : firstBadEntry ft 0 [] 0 = none ↔ ∀ j, ¬ BadEntry ft j := by
  have := firstBadEntry_spec ft ft [] rfl (by simp)
  simp only [List.length_nil, List.map_nil, List.reverse_nil, List.sum_nil] at this
  cases h : firstBadEntry ft 0 [] 0 with
  | none => rw [h] at this; simpa using this
  | some i =>
    rw [h] at this
    simp only [reduceCtorEq, false_iff]
    exact fun hn => hn i this.1

theorem firstBadEntry_eq_some {ft : List FtabEntry} {i : Nat} (h : BadEntry ft i) (hl : ∀ j < i, ¬ BadEntry ft j) :
    firstBadEntry ft 0 [] 0 = some i := by
  have := firstBadEntry_spec ft ft [] rfl (by simp)
  simp only [List.length_nil, List.map_nil, List.reverse_nil, List.sum_nil] at this
  cases h' : firstBadEntry ft 0 [] 0 with
  | none => rw [h'] at this; exact absurd h (this i)
  | some k =>
    rw [h'] at this
    have h₁ : ¬ i < k := fun hk => this.2 i hk h
    have h₂ : ¬ k < i := fun hk => hl k hk this.1
    congr 1; omega

@[simp] theorem readFtab_length (s : State) (n : Nat) : (readFtab s n).length = n := by simp [readFtab]

/-- HBUILD's pre-checks pass exactly on a valid table. -/
theorem hbuild_passes {s : State} : firstFailure s (preChecks .hbuild) = none ↔
    ValidTable (readFtab s (uval32 s.regs.ndist)) := by
  rw [firstFailure_eq_none]
  simp only [preChecks, List.mem_cons, List.not_mem_nil, or_false, forall_eq_or_imp, forall_eq]
  rw [ckNdist_passes, ckFtab_passes, firstBadEntry_eq_none]
  constructor
  · rintro ⟨⟨h₁, h₂⟩, h₃⟩
    exact ⟨by simpa using h₁, by simpa using h₂, h₃⟩
  · intro h
    exact ⟨⟨by simpa using h.pos, by simpa using h.le⟩, h.good⟩

/-! ### Completions -/

/-- A command whose work is done without an error. -/
theorem exec_of_ok {i : Instr} {s u : State} (h : runCommand i s = .ok u) :
    exec i s = .next (completeOk (opcode i) u) := by
  rw [exec_eq, h]; rfl

theorem exec_of_raised {i : Instr} {s u : State} {e : CmdError} (h : runCommand i s = .raised u e) :
    exec i s = .next (completeError (opcode i) e u) := by
  rw [exec_eq, h]; rfl

theorem completeOk_ended {s u : State} (op : Byte) (h : Keeps s u) : Ended s (completeOk op u) :=
  ⟨rfl, h.host, h.delay, h.replies⟩

theorem completeError_ended {s u : State} (op : Byte) (e : CmdError) (h : Keeps s u) : Ended s (completeError op e u) :=
  ⟨rfl, h.host, h.delay, h.replies⟩

/-- Every destination buffer but SEGMENT's padding is emptied by a data error (40_command_model.md R131). -/
theorem emptied_unspecBufs (m : Memory) (bs : List Buffer) : Emptied bs m (unspecBufs m bs) :=
  ⟨fun _ h => byteAt_unspecBufs_of_inside (.inl h), fun _ h => byteAt_unspecBufs_of_outside h⟩

end Sys2Proof.Machine
end

