-- ==== Sys2Proof/Laws/Congruence.lean ====
section
/-! SUPPORT. What a command's work does not read: the run state, the host's side, CTRL, ERRINFO, and every STATUS bit but
TREE_VALID. So a command does the same after another command's completion (46_pipeline.md R263) and after a host access
while BUSY (40_command_model.md R122). -/

namespace Sys2Proof.Machine

/-- The state `x` with what a command's work reads and writes taken from `s`. -/
def dress (x s : State) : State :=
  { x with
    mem := s.mem
    draws := s.draws
    regs := { s.regs with
      irqEn := x.regs.irqEn
      errInfo := x.regs.errInfo
      status := { x.regs.status with treeValid := s.regs.status.treeValid } } }

/-- Two states a command's work cannot tell apart. -/
structure Like (s t : State) : Prop where
  eq : t = dress t s

/-- Their saturation notices agree. -/
def SameSat (s t : State) : Prop := t.regs.status.satFwd = s.regs.status.satFwd ∧ t.regs.status.satInv = s.regs.status.satInv

/-- The same outcome from two such states. -/
def LikeR (s t : State) : Result → Result → Prop
  | .ok u, .ok v => Like u v ∧ (SameSat s t → SameSat u v)
  | .raised u e, .raised v e' => Like u v ∧ (SameSat s t → SameSat u v) ∧ e' = e
  | .ok _, .raised _ _ => False
  | .raised _ _, .ok _ => False

theorem Like.runCheck {s t : State} (h : Like s t) (c : Check) : Machine.runCheck t c = Machine.runCheck s c := by
  rw [h.eq]
  cases c <;> rfl

theorem Like.firstFailure {s t : State} (h : Like s t) (cs : List Check) :
    Machine.firstFailure t cs = Machine.firstFailure s cs := by
  induction cs with
  | nil => rfl
  | cons c cs ih => rw [Machine.firstFailure, Machine.firstFailure, h.runCheck, ih]

theorem like_nextDraw {s t : State} (h : Like s t) : Like (nextDraw s) (nextDraw t) := ⟨by
  conv_lhs => rw [h.eq]
  rfl⟩

theorem runPrimitive_like {i : Instr} {work : State → Result} {s t : State} (h : Like s t)
    (hw : LikeR s t (work s) (work t)) : LikeR s t (runPrimitive i work s) (runPrimitive i work t) := by
  rcases runPrimitive_cases i work s with ⟨c, info, hf, he⟩ | ⟨hf, he⟩
  · rw [he, runPrimitive_of_fails (by rw [h.firstFailure]; exact hf)]
    exact ⟨like_nextDraw h, id, rfl⟩
  · rw [he, runPrimitive_of_passes (by rw [h.firstFailure]; exact hf)]
    exact hw

theorem andThen_like {s t : State} {r r' : Result} {f : State → Result} (h : LikeR s t r r')
    (hf : ∀ u v, Like u v → LikeR u v (f u) (f v)) : LikeR s t (r.andThen f) (r'.andThen f) := by
  cases r with
  | ok u =>
    cases r' with
    | ok v =>
      obtain ⟨h1, h2⟩ := h
      have h3 := hf u v h1
      simp only [andThen_ok]
      cases hu : f u with
      | ok u' =>
        cases hv : f v with
        | ok v' =>
          rw [hu, hv] at h3
          exact ⟨h3.1, fun hs => h3.2 (h2 hs)⟩
        | raised v' e' => rw [hu, hv] at h3; exact h3.elim
      | raised u' e =>
        cases hv : f v with
        | ok v' => rw [hu, hv] at h3; exact h3.elim
        | raised v' e' =>
          rw [hu, hv] at h3
          exact ⟨h3.1, fun hs => h3.2.1 (h2 hs), h3.2.2⟩
    | raised v e => exact h.elim
  | raised u e =>
    cases r' with
    | ok v => exact h.elim
    | raised v e' => exact h

theorem done_like {s t : State} (h : Like s t) : LikeR s t (done s) (done t) := ⟨like_nextDraw h, id⟩

theorem runChkcfg_like {s t : State} (h : Like s t) : LikeR s t (runChkcfg s) (runChkcfg t) :=
  runPrimitive_like h (done_like h)

theorem runSegment_like {s t : State} (h : Like s t) : LikeR s t (runSegment s) (runSegment t) := by
  refine runPrimitive_like h ?_
  rw [h.eq]
  exact ⟨⟨rfl⟩, id⟩

theorem runScale_like {s t : State} (h : Like s t) : LikeR s t (runScale s) (runScale t) := by
  refine runPrimitive_like h ?_
  rw [h.eq]
  refine ⟨⟨rfl⟩, fun hs => ⟨?_, hs.2⟩⟩
  show (t.regs.status.satFwd || _) = (s.regs.status.satFwd || _)
  rw [show t.regs.status.satFwd = s.regs.status.satFwd from hs.1]
  rfl

theorem runFdct_like {s t : State} (h : Like s t) : LikeR s t (runFdct s) (runFdct t) := by
  refine runPrimitive_like h ?_
  have e : fdctCoefs t = fdctCoefs s := by rw [h.eq]; rfl
  unfold fdctWork
  rw [e]
  cases (fdctCoefs s).findIdx? (fun c => !fits32 c) with
  | none => rw [h.eq]; exact ⟨⟨rfl⟩, id⟩
  | some i => rw [h.eq]; exact ⟨⟨rfl⟩, id, rfl⟩

theorem runQuant_like {s t : State} (h : Like s t) : LikeR s t (runQuant s) (runQuant t) := by
  refine runPrimitive_like h ?_
  rw [h.eq]
  exact ⟨⟨rfl⟩, id⟩

theorem runHcount_like {s t : State} (h : Like s t) : LikeR s t (runHcount s) (runHcount t) := by
  refine runPrimitive_like h ?_
  rw [h.eq]
  exact ⟨⟨rfl⟩, id⟩

theorem runHbuild_like {s t : State} (h : Like s t) : LikeR s t (runHbuild s) (runHbuild t) := by
  refine runPrimitive_like h ?_
  have e : hbuildResult t = hbuildResult s := by rw [h.eq]; rfl
  unfold hbuildWork
  rw [e]
  cases (hbuildResult s).codes.findIdx? (fun c => decide (Config.codemax < c.length)) with
  | none => rw [h.eq]; exact ⟨⟨rfl⟩, id⟩
  | some i => rw [h.eq]; exact ⟨⟨rfl⟩, id, rfl⟩

theorem encodeSymbols_like {s t : State} (h : Like s t) (ft : List FtabEntry) : ∀ (syms : List Word) (j : Nat),
    encodeSymbols t ft j syms = encodeSymbols s ft j syms
  | [], _ => rfl
  | x :: xs, j => by
    have e : symbolCode t ft x = symbolCode s ft x := by rw [h.eq]; rfl
    rw [encodeSymbols, encodeSymbols, e, encodeSymbols_like h ft xs]

theorem runHenc_like {s t : State} (h : Like s t) : LikeR s t (runHenc s) (runHenc t) := by
  refine runPrimitive_like h ?_
  have e : hencStream t = hencStream s := by
    unfold hencStream
    rw [encodeSymbols_like h]
    rw [h.eq]
    rfl
  unfold hencWork
  rw [e]
  cases hencStream s with
  | ok bs => rw [h.eq]; exact ⟨⟨rfl⟩, id⟩
  | error j => rw [h.eq]; exact ⟨⟨rfl⟩, id, rfl⟩

theorem hdecWalk_like {s t : State} (h : Like s t) (root : Nat) : ∀ (bits : List Bool) (p cur d : Nat),
    hdecWalk t root bits p cur d = hdecWalk s root bits p cur d := by
  have e : ∀ i f, bufWord t .tree i f = bufWord s .tree i f := by intro i f; rw [h.eq]; rfl
  have el : isLeaf t = isLeaf s := by funext i; rw [h.eq]; rfl
  have ep : payload t = payload s := by funext i; rw [h.eq]; rfl
  intro bits
  induction bits with
  | nil => intro p cur d; rw [hdecWalk, hdecWalk, el]
  | cons b bs ih => intro p cur d; rw [hdecWalk, hdecWalk, el, ep]; simp only [e, ih]

theorem runHdec_like {s t : State} (h : Like s t) : LikeR s t (runHdec s) (runHdec t) := by
  refine runPrimitive_like h ?_
  have e : hdecResult t = hdecResult s := by
    unfold hdecResult
    rw [hdecWalk_like h]
    rw [h.eq]
    rfl
  unfold hdecWork
  rw [e]
  cases hdecResult s with
  | symbols out => rw [h.eq]; exact ⟨⟨rfl⟩, id⟩
  | failed c i => rw [h.eq]; exact ⟨⟨rfl⟩, id, rfl⟩

theorem runDequant_like {s t : State} (h : Like s t) : LikeR s t (runDequant s) (runDequant t) := by
  refine runPrimitive_like h ?_
  have e : dequantValues t = dequantValues s := by rw [h.eq]; rfl
  unfold dequantWork
  rw [e]
  cases (dequantValues s).findIdx? (fun p => !fits32 p) with
  | none => rw [h.eq]; exact ⟨⟨rfl⟩, id⟩
  | some i => rw [h.eq]; exact ⟨⟨rfl⟩, id, rfl⟩

theorem runIdct_like {s t : State} (h : Like s t) : LikeR s t (runIdct s) (runIdct t) := by
  refine runPrimitive_like h ?_
  rw [h.eq]
  exact ⟨⟨rfl⟩, id⟩

theorem runUnscale_like {s t : State} (h : Like s t) : LikeR s t (runUnscale s) (runUnscale t) := by
  refine runPrimitive_like h ?_
  rw [h.eq]
  refine ⟨⟨rfl⟩, fun hs => ⟨hs.1, ?_⟩⟩
  show (t.regs.status.satInv || _) = (s.regs.status.satInv || _)
  rw [show t.regs.status.satInv = s.regs.status.satInv from hs.2]
  rfl

/-- A command cannot tell such states apart. -/
theorem runCommand_like (i : Instr) {s t : State} (h : Like s t) : LikeR s t (runCommand i s) (runCommand i t) := by
  cases i with
  | nop => exact runPrimitive_like (i := .nop) h (done_like h)
  | chkcfg => exact runChkcfg_like h
  | segment => exact runSegment_like h
  | scale => exact runScale_like h
  | fdct => exact runFdct_like h
  | quant => exact runQuant_like h
  | hcount => exact runHcount_like h
  | hbuild => exact runHbuild_like h
  | henc => exact runHenc_like h
  | hdec => exact runHdec_like h
  | dequant => exact runDequant_like h
  | idct => exact runIdct_like h
  | unscale => exact runUnscale_like h
  | encode =>
    exact andThen_like (andThen_like (andThen_like (andThen_like (andThen_like (andThen_like (andThen_like
      (runChkcfg_like h) fun _ _ => runSegment_like) fun _ _ => runScale_like) fun _ _ => runFdct_like)
      fun _ _ => runQuant_like) fun _ _ => runHcount_like) fun _ _ => runHbuild_like) fun _ _ => runHenc_like
  | decode =>
    exact andThen_like (andThen_like (andThen_like (andThen_like
      (runPrimitive_like (i := .decode) h (done_like h)) fun _ _ => runHdec_like) fun _ _ => runDequant_like)
      fun _ _ => runIdct_like) fun _ _ => runUnscale_like

/-- A completion changes nothing a later command reads. -/
theorem like_completeOk (op : Byte) (s : State) : Like s (completeOk op s) ∧ SameSat s (completeOk op s) :=
  ⟨⟨rfl⟩, rfl, rfl⟩

/-- Completing over a completion is completing. -/
theorem completeOk_of_like {u v : State} (op : Byte) (h : Like u v) (hs : SameSat u v) (hk : v.regs.irqEn = u.regs.irqEn)
    (he : v.regs.status.err = u.regs.status.err) (hb : v.regs.status.busErr = u.regs.status.busErr)
    (hc : v.regs.status.cmdRejected = u.regs.status.cmdRejected) (hh : v.host = u.host) (hd : v.delay = u.delay)
    (hr : v.replies = u.replies) : completeOk op v = completeOk op u := by
  rw [h.eq]
  simp only [completeOk, dress, okStatus, hs.1, hs.2, hk, he, hb, hc, hh, hd, hr]

theorem completeError_of_like {u v : State} (op : Byte) (e : CmdError) (h : Like u v) (hs : SameSat u v)
    (hk : v.regs.irqEn = u.regs.irqEn) (hb : v.regs.status.busErr = u.regs.status.busErr)
    (hc : v.regs.status.cmdRejected = u.regs.status.cmdRejected) (hh : v.host = u.host) (hd : v.delay = u.delay)
    (hr : v.replies = u.replies) : completeError op e v = completeError op e u := by
  rw [h.eq]
  simp only [completeError, dress, errorStatus, hs.1, hs.2, hk, hb, hc, hh, hd, hr]

end Sys2Proof.Machine
end

