-- ==== Sys2Proof/Laws/Cyclotomic.lean ====
section
/-! SUPPORT. How near zero a non-zero integer combination of roots of unity can be. A value p(ζ), p an integer polynomial and ζ
a primitive N-th root of unity, is an algebraic integer; its norm is a non-zero integer and every conjugate is at most the sum of
|coefficients|. This is what makes the rounding of Machine/Cosine.lean exact. -/

namespace Sys2Proof.Laws

open Polynomial

/-- The sum of the absolute values of the coefficients. -/
noncomputable def weight (p : ℤ[X]) : ℝ := ∑ i ∈ p.support, |(p.coeff i : ℝ)|

theorem weight_eq_sum {p : ℤ[X]} {s : Finset ℕ} (h : p.support ⊆ s) : weight p = ∑ i ∈ s, |(p.coeff i : ℝ)| :=
  Finset.sum_subset h fun i _ hi => by simp [notMem_support_iff.mp hi]

theorem weight_add_le (p q : ℤ[X]) : weight (p + q) ≤ weight p + weight q := by
  classical
  rw [weight_eq_sum (support_add (p := p) (q := q)), weight_eq_sum (Finset.subset_union_left (s₂ := q.support)),
    weight_eq_sum (Finset.subset_union_right (s₁ := p.support)), ← Finset.sum_add_distrib]
  refine Finset.sum_le_sum fun i _ => ?_
  rw [coeff_add, Int.cast_add]
  exact abs_add_le _ _

theorem weight_monomial (a : ℤ) (n : ℕ) : weight (C a * X ^ n) = |(a : ℝ)| := by
  classical
  have h : (C a * X ^ n : ℤ[X]).support ⊆ {n} := by
    rw [C_mul_X_pow_eq_monomial]; exact support_monomial_subset n a
  rw [weight_eq_sum h, Finset.sum_singleton, coeff_C_mul_X_pow, if_pos rfl]

theorem weight_C_mul (a : ℤ) (p : ℤ[X]) : weight (C a * p) ≤ |(a : ℝ)| * weight p := by
  have h : (C a * p).support ⊆ p.support := fun i hi => by
    rw [mem_support_iff, coeff_C_mul] at hi
    exact mem_support_iff.mpr (right_ne_zero_of_mul hi)
  rw [weight_eq_sum h, weight, Finset.mul_sum]
  refine Finset.sum_le_sum fun i _ => ?_
  rw [coeff_C_mul, Int.cast_mul, abs_mul]

theorem norm_aeval_le_weight {ζ : ℂ} (hζ : ‖ζ‖ = 1) (p : ℤ[X]) : ‖aeval ζ p‖ ≤ weight p := by
  rw [aeval_eq_sum_range, weight]
  calc ‖∑ i ∈ Finset.range (p.natDegree + 1), p.coeff i • ζ ^ i‖
      ≤ ∑ i ∈ Finset.range (p.natDegree + 1), ‖p.coeff i • ζ ^ i‖ := norm_sum_le _ _
    _ = ∑ i ∈ Finset.range (p.natDegree + 1), |(p.coeff i : ℝ)| := by
        refine Finset.sum_congr rfl fun i _ => ?_
        rw [zsmul_eq_mul, norm_mul, norm_pow, hζ, one_pow, mul_one, Complex.norm_intCast]
    _ = ∑ i ∈ p.support, |(p.coeff i : ℝ)| := by
        refine (Finset.sum_subset (fun i hi => ?_) fun i _ hi => ?_).symm
        · exact Finset.mem_range.mpr (Nat.lt_succ_of_le (le_natDegree_of_mem_supp i hi))
        · simp [notMem_support_iff.mp hi]

/-- The separation bound in any N-th cyclotomic extension of ℚ. -/
theorem one_le_norm_mul_pow_of_extension (L : Type) [Field L] [Algebra ℚ L] {N : ℕ} [NeZero N]
    [IsCyclotomicExtension {N} ℚ L] {ζ : ℂ} (hζ : IsPrimitiveRoot ζ N) {p : ℤ[X]} (hp : aeval ζ p ≠ 0)
    {B : ℝ} (hB : weight p ≤ B) : 1 ≤ ‖aeval ζ p‖ * B ^ (N.totient - 1) := by
  classical
  have hN : 0 < N := Nat.pos_of_ne_zero (NeZero.ne N)
  let z : L := IsCyclotomicExtension.zeta N ℚ L
  have hz : IsPrimitiveRoot z N := IsCyclotomicExtension.zeta_spec N ℚ L
  have hirr : Irreducible (cyclotomic N ℚ) := cyclotomic.irreducible_rat hN
  have : FiniteDimensional ℚ L := IsCyclotomicExtension.finiteDimensional {N} ℚ L
  let e := hz.embeddingsEquivPrimitiveRoots ℂ hirr
  have he : ∀ σ : L →ₐ[ℚ] ℂ, IsPrimitiveRoot (σ z) N := fun σ => hz.map_of_injective σ.injective
  have hmem : ζ ∈ primitiveRoots N ℂ := (mem_primitiveRoots hN).mpr hζ
  let σ₀ : L →ₐ[ℚ] ℂ := e.symm ⟨ζ, hmem⟩
  have hσ₀ : σ₀ z = ζ := by
    have h := hz.embeddingsEquivPrimitiveRoots_apply_coe ℂ hirr σ₀
    rw [← h]
    simp [σ₀, e]
  let a : L := aeval z p
  have ha : ∀ σ : L →ₐ[ℚ] ℂ, σ a = aeval (σ z) p := fun σ => by
    have h := Polynomial.aeval_algHom_apply (σ.restrictScalars ℤ) z p
    simpa [a] using h.symm
  have ha₀ : a ≠ 0 := fun h => hp (by rw [← hσ₀, ← ha σ₀, h, map_zero])
  have hint : IsIntegral ℤ a := by
    have hzint : IsIntegral ℤ z := hz.isIntegral hN
    show IsIntegral ℤ (aeval z p)
    rw [aeval_eq_sum_range]
    exact IsIntegral.sum _ fun i _ => (hzint.pow i).smul _
  obtain ⟨n, hn⟩ := (IsIntegrallyClosed.isIntegral_iff (R := ℤ) (K := ℚ)).mp (Algebra.isIntegral_norm ℚ hint)
  have hn₀ : n ≠ 0 := by
    rintro rfl
    exact (Algebra.norm_ne_zero_iff.mpr ha₀) (by rw [← hn, map_zero])
  have hprod : (n : ℂ) = ∏ σ : L →ₐ[ℚ] ℂ, σ a := by
    rw [← Algebra.norm_eq_prod_embeddings ℚ ℂ a, ← hn]
    simp
  have hle : ∀ σ : L →ₐ[ℚ] ℂ, ‖σ a‖ ≤ B := fun σ => by
    rw [ha σ]
    exact (norm_aeval_le_weight ((he σ).norm'_eq_one hN.ne') p).trans hB
  have hcard : (Finset.univ.erase σ₀ : Finset (L →ₐ[ℚ] ℂ)).card = N.totient - 1 := by
    rw [Finset.card_erase_of_mem (Finset.mem_univ _), Finset.card_univ, Fintype.card_congr e,
      Fintype.card_coe, hζ.card_primitiveRoots]
  have hn₁ : (1 : ℝ) ≤ ‖(n : ℂ)‖ := by
    rw [Complex.norm_intCast]
    exact_mod_cast Int.one_le_abs hn₀
  calc (1 : ℝ) ≤ ‖(n : ℂ)‖ := hn₁
    _ = ∏ σ : L →ₐ[ℚ] ℂ, ‖σ a‖ := by rw [hprod, norm_prod]
    _ = ‖σ₀ a‖ * ∏ σ ∈ Finset.univ.erase σ₀, ‖σ a‖ := (Finset.mul_prod_erase _ _ (Finset.mem_univ σ₀)).symm
    _ ≤ ‖σ₀ a‖ * ∏ _σ ∈ (Finset.univ.erase σ₀ : Finset (L →ₐ[ℚ] ℂ)), B :=
        mul_le_mul_of_nonneg_left (Finset.prod_le_prod (fun σ _ => norm_nonneg _) fun σ _ => hle σ) (norm_nonneg _)
    _ = ‖aeval ζ p‖ * B ^ (N.totient - 1) := by rw [Finset.prod_const, hcard, ha σ₀, hσ₀]

/-- The separation bound: a non-zero p(ζ) is at least 1 / weight^(φ(N) − 1). -/
theorem one_le_norm_mul_pow {N : ℕ} (hN : 0 < N) {ζ : ℂ} (hζ : IsPrimitiveRoot ζ N) {p : ℤ[X]} (hp : aeval ζ p ≠ 0)
    {B : ℝ} (hB : weight p ≤ B) : 1 ≤ ‖aeval ζ p‖ * B ^ (N.totient - 1) := by
  have : NeZero N := ⟨hN.ne'⟩
  have : NeZero (N : ℚ) := ⟨by exact_mod_cast hN.ne'⟩
  let A : Algebra ℚ (CyclotomicField N ℚ) := CyclotomicField.algebra N ℚ
  have hE : @IsCyclotomicExtension {N} ℚ (CyclotomicField N ℚ) _ _ A := CyclotomicField.isCyclotomicExtension N ℚ
  exact @one_le_norm_mul_pow_of_extension (CyclotomicField N ℚ) _ A N _ hE ζ hζ p hp B hB

end Sys2Proof.Laws
end

