-- ==== Sys2Proof/Laws/Cosine.lean ====
section
/-! SUPPORT. The integer cosines of Machine/Cosine.lean are near the real ones, a rounded sum is that of the exact real sum,
so FDCT and IDCT round exactly once (43_transform.md R180, R188; log 7). -/

namespace Sys2Proof.Machine

open Polynomial Sys2Proof.Laws

/-! ### The unit cosines -/

/-- 2^(P·n)·cos(nφ) from u = 2^P·cos φ, by the Chebyshev recurrence. -/
def chebyshev (P : Nat) (u : Int) : Nat → Int
  | 0 => 1
  | 1 => u
  | n + 2 => 2 * u * chebyshev P u (n + 1) - 2 ^ (2 * P) * chebyshev P u n

theorem cos_add_two (x : ℝ) (n : ℕ) :
    Real.cos (((n : ℝ) + 2) * x) = 2 * Real.cos x * Real.cos (((n : ℝ) + 1) * x) - Real.cos (n * x) := by
  have h₁ : ((n : ℝ) + 2) * x = ((n : ℝ) + 1) * x + x := by ring
  have h₂ : (n : ℝ) * x = ((n : ℝ) + 1) * x - x := by ring
  rw [h₁, h₂, Real.cos_add, Real.cos_sub]
  ring

theorem chebyshev_eq {P : Nat} {u : Int} {φ : ℝ} (hu : (u : ℝ) = 2 ^ P * Real.cos φ) :
    ∀ n : ℕ, (chebyshev P u n : ℝ) = 2 ^ (P * n) * Real.cos (n * φ)
  | 0 => by simp [chebyshev]
  | 1 => by simp [chebyshev, hu]
  | n + 2 => by
    rw [chebyshev]
    push_cast
    rw [chebyshev_eq hu (n + 1), chebyshev_eq hu n, hu, cos_add_two]
    push_cast
    ring

/-- What is computed about a unit cosine u: it lies past the next root of T_K, and T_K changes sign at it. -/
def unitOk (P k : Nat) (u : Int) : Bool :=
  decide ((2 * (k : Int) ^ 2 - 9) * 2 ^ P < 2 * (k : Int) ^ 2 * (u - 1))
    && decide (u + 1 < 2 ^ P)
    && decide (0 < u)
    && decide (chebyshev P (u - 1) k < 0)
    && decide (0 < chebyshev P (u + 1) k)

theorem unitOk_all : ∀ k ∈ List.range' 2 15, unitOk cosBits k (cosUnit k) = true := by decide +kernel

theorem unit_accurate {P k : Nat} {u : Int} (hk : 2 ≤ k) (h : unitOk P k u = true) :
    |(u : ℝ) - 2 ^ P * Real.cos (Real.pi / (2 * k))| ≤ 1 := by
  simp only [unitOk, Bool.and_eq_true, decide_eq_true_eq] at h
  obtain ⟨⟨⟨⟨h₁, h₂⟩, h₃⟩, h₄⟩, h₅⟩ := h
  have hP : (0 : ℝ) < 2 ^ P := by positivity
  have hk' : (2 : ℝ) ≤ k := by exact_mod_cast hk
  have hk₀ : (0 : ℝ) < k := by linarith
  have hπ := Real.pi_pos
  -- every cosine above (u − 1)/2^P has its angle below 3π/(2K)
  have coarse : ∀ v : Int, u - 1 ≤ v → v < 2 ^ P → ∃ φ : ℝ, (v : ℝ) = 2 ^ P * Real.cos φ ∧ 0 ≤ φ ∧ φ ≤ Real.pi ∧
      k * φ < 3 * Real.pi / 2 := by
    intro v hv hv'
    have hvP : (v : ℝ) < 2 ^ P := by exact_mod_cast hv'
    have hv0 : (0 : ℝ) ≤ v := by exact_mod_cast (by omega : 0 ≤ v)
    have hr : (v : ℝ) / 2 ^ P ≤ 1 := by rw [div_le_one hP]; exact hvP.le
    have hr' : -1 ≤ (v : ℝ) / 2 ^ P := by have := div_nonneg hv0 hP.le; linarith
    refine ⟨Real.arccos (v / 2 ^ P), ?_, Real.arccos_nonneg _, Real.arccos_le_pi _, ?_⟩
    · rw [Real.cos_arccos hr' hr]; field_simp
    · by_contra hc
      push Not at hc
      have hle : 3 * Real.pi / (2 * k) ≤ Real.arccos (v / 2 ^ P) := by
        rw [div_le_iff₀ (by positivity)]; linarith
      have hcos := Real.cos_le_cos_of_nonneg_of_le_pi (by positivity) (Real.arccos_le_pi _) hle
      rw [Real.cos_arccos hr' hr] at hcos
      have hq := Real.cos_le_one_sub_mul_cos_sq (x := 3 * Real.pi / (2 * k)) (by
        rw [abs_of_pos (by positivity), div_le_iff₀ (by positivity)]
        nlinarith)
      have hq' : 1 - 2 / Real.pi ^ 2 * (3 * Real.pi / (2 * k)) ^ 2 = (2 * k ^ 2 - 9) / (2 * (k : ℝ) ^ 2) := by
        field_simp; ring
      rw [hq'] at hq
      have h6 := hcos.trans hq
      rw [div_le_div_iff₀ hP (by positivity)] at h6
      have h₁' : (2 * (k : ℝ) ^ 2 - 9) * 2 ^ P < 2 * (k : ℝ) ^ 2 * (u - 1) := by exact_mod_cast h₁
      have hv'' : (u : ℝ) - 1 ≤ v := by exact_mod_cast hv
      have : 2 * (k : ℝ) ^ 2 * ((u : ℝ) - 1) ≤ 2 * (k : ℝ) ^ 2 * v := mul_le_mul_of_nonneg_left hv'' (by positivity)
      linarith
  have hθ : Real.pi / (2 * k) ≤ Real.pi := by
    rw [div_le_iff₀ (by positivity)]; nlinarith
  have hθ₀ : 0 ≤ Real.pi / (2 * k) := by positivity
  rw [abs_le]
  constructor
  · obtain ⟨φ, hv, hφ₀, hφ₁, hφ₂⟩ := coarse (u + 1) (by omega) h₂
    have hs := chebyshev_eq hv k
    have hpos : 0 < Real.cos (k * φ) := by
      have : (0 : ℝ) < chebyshev P (u + 1) k := by exact_mod_cast h₅
      rw [hs] at this
      exact pos_of_mul_pos_right this (by positivity)
    have hlt : k * φ < Real.pi / 2 := by
      by_contra hc
      push Not at hc
      have := Real.cos_nonpos_of_pi_div_two_le_of_le hc (by linarith)
      linarith
    have : φ ≤ Real.pi / (2 * k) := by
      rw [le_div_iff₀ (by positivity)]; linarith
    have hc := Real.cos_le_cos_of_nonneg_of_le_pi hφ₀ hθ this
    have : 2 ^ P * Real.cos (Real.pi / (2 * k)) ≤ 2 ^ P * Real.cos φ := mul_le_mul_of_nonneg_left hc hP.le
    push_cast at hv
    linarith
  · obtain ⟨φ, hv, hφ₀, hφ₁, hφ₂⟩ := coarse (u - 1) le_rfl (by omega)
    have hs := chebyshev_eq hv k
    have hneg : Real.cos (k * φ) < 0 := by
      have : (chebyshev P (u - 1) k : ℝ) < 0 := by exact_mod_cast h₄
      rw [hs] at this
      by_contra hc
      push Not at hc
      have : (0 : ℝ) ≤ 2 ^ (P * k) * Real.cos (k * φ) := mul_nonneg (by positivity) hc
      linarith
    have hlt : Real.pi / 2 ≤ k * φ := by
      by_contra hc
      push Not at hc
      have := Real.cos_nonneg_of_neg_pi_div_two_le_of_le (x := k * φ) (by
        have : 0 ≤ k * φ := by positivity
        linarith) hc.le
      linarith
    have : Real.pi / (2 * k) ≤ φ := by
      rw [div_le_iff₀ (by positivity)]; linarith
    have hc := Real.cos_le_cos_of_nonneg_of_le_pi hθ₀ hφ₁ this
    have : 2 ^ P * Real.cos φ ≤ 2 ^ P * Real.cos (Real.pi / (2 * k)) := mul_le_mul_of_nonneg_left hc hP.le
    push_cast at hv
    linarith

theorem cosUnit_accurate {k : Nat} (h₁ : 1 ≤ k) (h₂ : k ≤ 16) :
    |(cosUnit k : ℝ) - 2 ^ cosBits * Real.cos (Real.pi / (2 * k))| ≤ 1 := by
  rcases Nat.lt_or_ge k 2 with h | h
  · have : k = 1 := by omega
    subst this
    have hu : cosUnit 1 = 0 := rfl
    rw [hu]
    simp
  · exact unit_accurate h (unitOk_all k (by simp; omega))

/-! ### The table -/

/-- One step of the recurrence multiplies the error by at most 4. -/
theorem cosStep_accurate {P : Nat} {u a b : Int} {θ : ℝ} {j : Nat} (hu : |(u : ℝ) - 2 ^ P * Real.cos θ| ≤ 1)
    (hj : (4 : ℝ) ^ (j + 1) ≤ 2 ^ P) (ha : |(a : ℝ) - 2 ^ P * Real.cos (j * θ)| ≤ 4 ^ j)
    (hb : |(b : ℝ) - 2 ^ P * Real.cos (((j : ℝ) + 1) * θ)| ≤ 4 ^ (j + 1)) :
    |((2 * u * b / 2 ^ P - a : Int) : ℝ) - 2 ^ P * Real.cos (((j : ℝ) + 2) * θ)| ≤ 4 ^ (j + 2) := by
  rw [cos_add_two]
  have hT₀ : (0 : ℝ) < 2 ^ P := by positivity
  have hq₁ : 2 * u * b / 2 ^ P * 2 ^ P ≤ 2 * u * b := Int.ediv_mul_le _ (by positivity)
  have hq₂ : 2 * u * b < (2 * u * b / 2 ^ P + 1) * 2 ^ P := Int.lt_ediv_add_one_mul_self _ (by positivity)
  have hq₁' : ((2 * u * b / 2 ^ P : Int) : ℝ) * 2 ^ P ≤ 2 * u * b := by exact_mod_cast hq₁
  have hq₂' : (2 : ℝ) * u * b < (((2 * u * b / 2 ^ P : Int) : ℝ) + 1) * 2 ^ P := by exact_mod_cast hq₂
  push_cast
  have hC := Real.abs_cos_le_one θ
  have hB := Real.abs_cos_le_one (((j : ℝ) + 1) * θ)
  have hE : (1 : ℝ) ≤ 4 ^ j := one_le_pow₀ (by norm_num)
  generalize ((2 * u * b / 2 ^ P : Int) : ℝ) = q at *
  generalize Real.cos (((j : ℝ) + 1) * θ) = B at *
  generalize Real.cos ((j : ℝ) * θ) = A at *
  generalize Real.cos θ = C at *
  rw [pow_succ] at hj hb
  rw [pow_succ, pow_succ]
  generalize (4 : ℝ) ^ j = E at *
  generalize (2 : ℝ) ^ P = T at *
  generalize (u : ℝ) = u at *
  generalize (b : ℝ) = b at *
  generalize (a : ℝ) = a at *
  have hTB : |T * B| ≤ T := by
    rw [abs_mul, abs_of_pos hT₀]; exact mul_le_of_le_one_right hT₀.le hB
  have hb' : |b| ≤ 2 * T := by
    have h : b = (b - T * B) + T * B := by ring
    rw [h]
    exact (abs_add_le _ _).trans (by linarith)
  have h1 : |(u - T * C) * b| ≤ 2 * T := by
    rw [abs_mul]
    exact (mul_le_mul hu hb' (abs_nonneg _) zero_le_one).trans (by linarith)
  have h2 : |T * (C * (b - T * B))| ≤ T * (E * 4) := by
    rw [abs_mul, abs_of_pos hT₀, abs_mul]
    exact mul_le_mul_of_nonneg_left ((mul_le_mul hC hb (abs_nonneg _) zero_le_one).trans (by linarith)) hT₀.le
  have h3 : u * b - T * (C * (T * B)) = (u - T * C) * b + T * (C * (b - T * B)) := by ring
  rw [abs_le] at h1 h2 ha ⊢
  have h4 : (q - 2 * C * (T * B)) * T ≤ (4 + 2 * (E * 4)) * T := by
    linear_combination hq₁' + 2 * h3 + 2 * h1.2 + 2 * h2.2
  have h5 : (-(5 + 2 * (E * 4))) * T ≤ (q - 2 * C * (T * B)) * T := by
    linear_combination hq₂'.le - 2 * h3 + 2 * h1.1 + 2 * h2.1
  have h4' := le_of_mul_le_mul_right h4 hT₀
  have h5' := le_of_mul_le_mul_right h5 hT₀
  constructor <;> linarith [ha.1, ha.2]

theorem cosSequence_accurate {u : Int} {θ : ℝ} (hu : |(u : ℝ) - 2 ^ cosBits * Real.cos θ| ≤ 1) :
    ∀ (n j : Nat) (a b : Int), (4 : ℝ) ^ (j + n) ≤ 2 ^ cosBits →
      |(a : ℝ) - 2 ^ cosBits * Real.cos (j * θ)| ≤ 4 ^ j →
      |(b : ℝ) - 2 ^ cosBits * Real.cos (((j : ℝ) + 1) * θ)| ≤ 4 ^ (j + 1) →
      ∀ i, i < n → |((cosSequence u n a b).getD i 0 : ℝ) - 2 ^ cosBits * Real.cos (((j : ℝ) + i) * θ)| ≤ 4 ^ (j + i)
  | 0, _, _, _, _, _, _, i, hi => absurd hi (Nat.not_lt_zero i)
  | n + 1, j, a, b, hj, ha, hb, 0, _ => by simpa [cosSequence] using ha
  | n + 1, j, a, b, hj, ha, hb, i + 1, hi => by
    have hj' : (4 : ℝ) ^ (j + 1 + n) ≤ 2 ^ cosBits := by
      rw [show j + 1 + n = j + (n + 1) by omega]; exact hj
    have hj₁ : (4 : ℝ) ^ (j + 1) ≤ 2 ^ cosBits :=
      (pow_le_pow_right₀ (by norm_num) (by omega)).trans hj
    have h := cosSequence_accurate hu n (j + 1) b (2 * u * b / 2 ^ cosBits - a) hj' (by push_cast; exact hb) (by
      have := cosStep_accurate hu hj₁ ha hb
      rw [show (((j + 1 : ℕ) : ℝ) + 1) = (j : ℝ) + 2 by push_cast; ring]
      exact this) i (by omega)
    rw [show (j : ℝ) + ((i + 1 : ℕ) : ℝ) = ((j + 1 : ℕ) : ℝ) + i by push_cast; ring,
      show j + (i + 1) = j + 1 + i by omega]
    exact h

theorem cosTable_accurate {k : Nat} (h₁ : 1 ≤ k) (h₂ : k ≤ 16) {i : Nat} (hi : i ≤ k) :
    |((cosTable k).getD i 0 : ℝ) - 2 ^ cosBits * Real.cos (i * (Real.pi / (2 * k)))| ≤ 2 ^ 32 := by
  have hu := cosUnit_accurate h₁ h₂
  have h := cosSequence_accurate hu (k + 1) 0 (2 ^ cosBits) (cosUnit k)
    ((pow_le_pow_right₀ (by norm_num) (show 0 + (k + 1) ≤ 17 by omega)).trans (by
      calc (4 : ℝ) ^ 17 = 2 ^ 34 := by norm_num
        _ ≤ 2 ^ cosBits := pow_le_pow_right₀ (by norm_num) (by unfold cosBits; omega)))
    (by rw [Int.cast_pow, Int.cast_ofNat, Nat.cast_zero, zero_mul, Real.cos_zero, mul_one, sub_self, abs_zero]; norm_num)
    (by simpa using hu.trans (by norm_num)) i (by omega)
  simp only [Nat.cast_zero, zero_add] at h
  refine h.trans ?_
  calc (4 : ℝ) ^ i ≤ 4 ^ 16 := pow_le_pow_right₀ (by norm_num) (by omega)
    _ = 2 ^ 32 := by norm_num

/-- The scaled cosine of any multiple of π/(2K) is within 2^32 units. -/
theorem cosAt_accurate {k : Nat} (h₁ : 1 ≤ k) (h₂ : k ≤ 16) (t : Nat) :
    |(cosAt (cosTable k) k t : ℝ) - 2 ^ cosBits * Real.cos (t * (Real.pi / (2 * k)))| ≤ 2 ^ 32 := by
  have hk : (0 : ℝ) < k := by exact_mod_cast h₁
  have hper : Real.cos (t * (Real.pi / (2 * k))) = Real.cos ((t % (4 * k) : ℕ) * (Real.pi / (2 * k))) := by
    have ht : (t : ℝ) = (t % (4 * k) : ℕ) + 4 * k * (t / (4 * k) : ℕ) := by
      exact_mod_cast (Nat.mod_add_div t (4 * k)).symm
    rw [ht, show (((t % (4 * k) : ℕ) : ℝ) + 4 * k * (t / (4 * k) : ℕ)) * (Real.pi / (2 * k))
      = (t % (4 * k) : ℕ) * (Real.pi / (2 * k)) + (t / (4 * k) : ℕ) * (2 * Real.pi) by field_simp; ring,
      Real.cos_add_nat_mul_two_pi]
  have hlt : t % (4 * k) < 4 * k := Nat.mod_lt _ (by omega)
  rw [hper]
  unfold cosAt
  generalize t % (4 * k) = u at hlt ⊢
  simp only
  have hfold : ∃ v : Nat, v ≤ 2 * k ∧ (if 2 * k < u then 4 * k - u else u) = v ∧
      Real.cos (u * (Real.pi / (2 * k))) = Real.cos (v * (Real.pi / (2 * k))) := by
    by_cases h : 2 * k < u
    · refine ⟨4 * k - u, by omega, by simp [h], ?_⟩
      rw [Nat.cast_sub hlt.le, show (((4 * k : ℕ) : ℝ) - u) * (Real.pi / (2 * k))
        = 2 * Real.pi - u * (Real.pi / (2 * k)) by push_cast; field_simp; ring, Real.cos_two_pi_sub]
    · exact ⟨u, by omega, by simp [h], rfl⟩
  obtain ⟨v, hv, he, hc⟩ := hfold
  rw [he, hc]
  by_cases h : k < v
  · rw [if_pos h]
    have hr := cosTable_accurate h₁ h₂ (i := 2 * k - v) (by omega)
    rw [Nat.cast_sub hv, show (((2 * k : ℕ) : ℝ) - v) * (Real.pi / (2 * k)) = Real.pi - v * (Real.pi / (2 * k)) by
      push_cast; field_simp, Real.cos_pi_sub] at hr
    rw [Int.cast_neg, ← abs_neg, neg_sub', neg_neg, sub_neg_eq_add]
    rwa [mul_neg, sub_neg_eq_add] at hr
  · rw [if_neg h]
    exact cosTable_accurate h₁ h₂ (by omega)

/-! ### Rounding -/

/-- A scaled integer near x, with x far from every tie it is not, rounds like x. -/
theorem roundHazNear_eq {num : Int} {den : Nat} {x : ℝ} {E D : ℝ} (hden : 2 * E < den)
    (hE : |(num : ℝ) - x * den| ≤ E) (hES : E ≤ 2 ^ 100) (hD : 2 * E + 2 ^ 101 < D)
    (htie : ∀ m : ℤ, (2 * ⌊|x| + 1 / 2⌋ + 1 = m ∨ 2 * ⌊|x| + 1 / 2⌋ + 1 = -m) → 2 * x = m ∨ D ≤ |2 * x - m| * den) :
    roundHazNear num den = roundHaz x := by
  have hE₀ : 0 ≤ E := (abs_nonneg _).trans hE
  have hden₀ : (0 : ℝ) < den := by linarith
  have hden₁ : 0 < den := by exact_mod_cast hden₀
  have hq₁ := Int.floor_le (|x| + 1 / 2)
  have hq₂ := Int.lt_floor_add_one (|x| + 1 / 2)
  have hq₀ : 0 ≤ ⌊|x| + 1 / 2⌋ := Int.floor_nonneg.mpr (by positivity)
  have hfar : D ≤ (2 * (⌊|x| + 1 / 2⌋ : ℝ) + 1 - 2 * |x|) * den := by
    rcases le_total 0 x with hx | hx
    · rw [abs_of_nonneg hx] at *
      rcases htie (2 * ⌊x + 1 / 2⌋ + 1) (.inl rfl) with h | h
      · push_cast at h; linarith
      · push_cast at h
        rwa [abs_sub_comm, abs_of_nonneg (by linarith)] at h
    · rw [abs_of_nonpos hx] at *
      rcases htie (-(2 * ⌊-x + 1 / 2⌋ + 1)) (.inr (by ring)) with h | h
      · push_cast at h; linarith
      · push_cast at h
        rw [abs_of_nonneg (by linarith)] at h
        linarith
  have hn : |(num.natAbs : ℝ) - |x| * den| ≤ E := by
    rw [Nat.cast_natAbs, Int.cast_abs]
    refine (le_of_eq_of_le ?_ (abs_abs_sub_abs_le (num : ℝ) (x * den))).trans hE
    rw [abs_mul, abs_of_pos hden₀]
  rw [abs_le] at hn
  unfold roundHazNear roundHaz roundSlack
  have hquot : (((2 * num.natAbs + den + 2 * 2 ^ 100) / (2 * den) : Nat) : ℤ) = ⌊|x| + 1 / 2⌋ := by
    obtain ⟨q, hq⟩ := Int.eq_ofNat_of_zero_le hq₀
    have hqr : ((⌊|x| + 1 / 2⌋ : ℤ) : ℝ) = q := by rw [hq]; norm_cast
    rw [hqr] at hq₁ hfar
    rw [hq]
    have hup : 2 * (num.natAbs : ℝ) + den + 2 * 2 ^ 100 < (q + 1) * (2 * den) := by
      have h2 : (2 : ℝ) * 2 ^ 100 = 2 ^ 101 := by norm_num
      nlinarith [hn.2]
    have hlo : (q : ℝ) * (2 * den) ≤ 2 * num.natAbs + den + 2 * 2 ^ 100 := by
      have : (q : ℝ) * den ≤ (|x| + 1 / 2) * den := mul_le_mul_of_nonneg_right hq₁ hden₀.le
      linarith [hn.1]
    have hup' : 2 * num.natAbs + den + 2 * 2 ^ 100 < (q + 1) * (2 * den) := by exact_mod_cast hup
    have hlo' : q * (2 * den) ≤ 2 * num.natAbs + den + 2 * 2 ^ 100 := by exact_mod_cast hlo
    have : (2 * num.natAbs + den + 2 * 2 ^ 100) / (2 * den) = q :=
      Nat.div_eq_of_lt_le hlo' hup'
    exact congrArg Nat.cast this
  rw [hquot]
  rcases eq_or_lt_of_le hq₀ with h0 | h0
  · rw [← h0]; simp
  · congr 1
    have h1 : (1 : ℝ) ≤ ⌊|x| + 1 / 2⌋ := by exact_mod_cast h0
    have hx : 1 / 2 ≤ |x| := by linarith
    rw [abs_le] at hE
    rcases le_total 0 x with hs | hs
    · rw [abs_of_nonneg hs] at hx
      have : (0 : ℝ) < num := by nlinarith [hE.1]
      have hnum : 0 < num := by exact_mod_cast this
      rw [Int.sign_eq_one_of_pos hnum, sign_pos (by linarith)]
      rfl
    · rw [abs_of_nonpos hs] at hx
      have : (num : ℝ) < 0 := by nlinarith [hE.2]
      have hnum : num < 0 := by exact_mod_cast this
      rw [Int.sign_eq_neg_one_of_neg hnum, sign_neg (by linarith)]
      rfl

/-! ### Sums of cosines -/

/-- Σ a·f(t) over pairs (a, t). -/
def pairSum {R : Type} [Ring R] (f : Nat → R) : List (Int × Nat) → R
  | [] => 0
  | p :: ps => (p.1 : R) * f p.2 + pairSum f ps

/-- Σ |a|. -/
def pairWeight : List (Int × Nat) → Nat
  | [] => 0
  | p :: ps => p.1.natAbs + pairWeight ps

theorem pairSum_cos_le (θ : ℝ) : ∀ ps : List (Int × Nat), |pairSum (fun t => Real.cos (t * θ)) ps| ≤ pairWeight ps
  | [] => by simp [pairSum, pairWeight]
  | p :: ps => by
    simp only [pairSum, pairWeight]
    refine (abs_add_le _ _).trans ?_
    push_cast
    refine add_le_add ?_ (pairSum_cos_le θ ps)
    rw [abs_mul, Nat.cast_natAbs, Int.cast_abs]
    exact mul_le_of_le_one_right (abs_nonneg _) (Real.abs_cos_le_one _)

theorem pairSum_accurate {k : Nat} (h₁ : 1 ≤ k) (h₂ : k ≤ 16) : ∀ ps : List (Int × Nat),
    |((pairSum (cosAt (cosTable k) k) ps : Int) : ℝ)
      - 2 ^ cosBits * pairSum (fun t => Real.cos (t * (Real.pi / (2 * k)))) ps| ≤ pairWeight ps * 2 ^ 32
  | [] => by simp [pairSum, pairWeight]
  | p :: ps => by
    have h := pairSum_accurate h₁ h₂ ps
    have hc := cosAt_accurate h₁ h₂ p.2
    simp only [pairSum, pairWeight, Int.cast_add, Int.cast_mul, Int.cast_id]
    generalize pairSum (fun t : Nat => Real.cos (t * (Real.pi / (2 * k)))) ps = R at *
    generalize ((pairSum (cosAt (cosTable k) k) ps : Int) : ℝ) = I at *
    generalize Real.cos (p.2 * (Real.pi / (2 * k))) = c at *
    generalize ((cosAt (cosTable k) k p.2 : Int) : ℝ) = d at *
    generalize (2 : ℝ) ^ cosBits = T at *
    have he : (p.1 : ℝ) * d + I - T * (p.1 * c + R) = p.1 * (d - T * c) + (I - T * R) := by ring
    rw [he]
    refine (abs_add_le _ _).trans ?_
    push_cast
    rw [add_mul]
    refine add_le_add ?_ h
    rw [abs_mul, Nat.cast_natAbs, Int.cast_abs]
    exact mul_le_mul_of_nonneg_left hc (abs_nonneg _)

/-- The integer polynomial whose value at exp(iπ/(2K)) is twice the sum of cosines. -/
noncomputable def pairPoly (k : Nat) (ps : List (Int × Nat)) : ℤ[X] :=
  pairSum (fun t => X ^ t + X ^ (t * (4 * k - 1))) ps

theorem weight_pairPoly (k : Nat) : ∀ ps : List (Int × Nat), weight (pairPoly k ps) ≤ 2 * pairWeight ps
  | [] => by simp [pairPoly, pairSum, pairWeight, weight]
  | p :: ps => by
    have h := weight_pairPoly k ps
    unfold pairPoly at h ⊢
    simp only [pairSum, pairWeight]
    have he : ((p.1 : ℤ) : ℤ[X]) * (X ^ p.2 + X ^ (p.2 * (4 * k - 1)))
        = C p.1 * X ^ p.2 + C p.1 * X ^ (p.2 * (4 * k - 1)) := by
      rw [← mul_add]; simp
    rw [he]
    have h1 := weight_add_le (C p.1 * X ^ p.2 + C p.1 * X ^ (p.2 * (4 * k - 1)))
      (pairSum (fun t => X ^ t + X ^ (t * (4 * k - 1)) : Nat → ℤ[X]) ps)
    have h2 := weight_add_le (C p.1 * X ^ p.2) (C p.1 * X ^ (p.2 * (4 * k - 1)))
    rw [weight_monomial, weight_monomial] at h2
    push_cast
    rw [Nat.cast_natAbs, Int.cast_abs]
    linarith

/-- exp(iπ/(2K)). -/
noncomputable def unitRoot (k : Nat) : ℂ := Complex.exp (2 * Real.pi * Complex.I / (4 * k : ℕ))

theorem unitRoot_primitive {k : Nat} (hk : 1 ≤ k) : IsPrimitiveRoot (unitRoot k) (4 * k) :=
  Complex.isPrimitiveRoot_exp (4 * k) (by omega)

theorem unitRoot_pow_add {k : Nat} (hk : 1 ≤ k) (t : Nat) :
    unitRoot k ^ t + unitRoot k ^ (t * (4 * k - 1)) = ((2 * Real.cos (t * (Real.pi / (2 * k))) : ℝ) : ℂ) := by
  have hone := (unitRoot_primitive hk).pow_eq_one
  have hk' : (k : ℂ) ≠ 0 := by exact_mod_cast (by omega : k ≠ 0)
  have ht : unitRoot k ^ t = Complex.exp ((t * (Real.pi / (2 * k)) : ℝ) * Complex.I) := by
    rw [unitRoot, ← Complex.exp_nat_mul]
    congr 1
    push_cast
    field_simp
    ring
  have hinv : unitRoot k ^ (t * (4 * k - 1)) = (unitRoot k ^ t)⁻¹ := by
    have h : unitRoot k ^ (t * (4 * k - 1)) * unitRoot k ^ t = 1 := by
      rw [← pow_add, show t * (4 * k - 1) + t = 4 * k * t by
        rw [← Nat.mul_succ, mul_comm]; congr 1; omega, pow_mul, hone, one_pow]
    exact eq_inv_of_mul_eq_one_left h
  rw [hinv, ht, ← Complex.exp_neg]
  push_cast
  rw [Complex.cos]
  ring_nf

theorem aeval_pairPoly {k : Nat} (hk : 1 ≤ k) : ∀ ps : List (Int × Nat), aeval (unitRoot k) (pairPoly k ps)
    = ((2 * pairSum (fun t => Real.cos (t * (Real.pi / (2 * k)))) ps : ℝ) : ℂ)
  | [] => by simp [pairPoly, pairSum]
  | p :: ps => by
    have h := aeval_pairPoly hk ps
    unfold pairPoly at h ⊢
    have hc := unitRoot_pow_add hk p.2
    simp only [pairSum, map_add, map_mul, map_intCast, map_pow, aeval_X]
    rw [h, hc]
    push_cast
    ring

theorem totient_le {k : Nat} (h₁ : 1 ≤ k) (h₂ : k ≤ 16) : (4 * k).totient - 1 ≤ 31 := by
  interval_cases k <;> decide

/-- How near zero a value c·(2·sum) + d can be without being zero. -/
theorem pairSum_separated {k : Nat} (h₁ : 1 ≤ k) (h₂ : k ≤ 16) (ps : List (Int × Nat)) (c d : Int) {B : ℝ} (hB₁ : 1 ≤ B)
    (hB : 2 * |(c : ℝ)| * pairWeight ps + |(d : ℝ)| ≤ B) :
    (c : ℝ) * (2 * pairSum (fun t => Real.cos (t * (Real.pi / (2 * k)))) ps) + d = 0 ∨
      1 ≤ |(c : ℝ) * (2 * pairSum (fun t => Real.cos (t * (Real.pi / (2 * k)))) ps) + d| * B ^ 31 := by
  have hval : aeval (unitRoot k) (C c * pairPoly k ps + C d)
      = (((c : ℝ) * (2 * pairSum (fun t => Real.cos (t * (Real.pi / (2 * k)))) ps) + d : ℝ) : ℂ) := by
    rw [map_add, map_mul, aeval_pairPoly h₁]
    simp
  have hw : weight (C c * pairPoly k ps + C d) ≤ B := by
    refine (weight_add_le _ _).trans (le_trans ?_ hB)
    have h1 := weight_C_mul c (pairPoly k ps)
    have h2 := weight_pairPoly k ps
    have h3 : weight (C d) = |(d : ℝ)| := by simpa using weight_monomial d 0
    have h4 := mul_le_mul_of_nonneg_left h2 (abs_nonneg (c : ℝ))
    linarith
  by_cases h0 : aeval (unitRoot k) (C c * pairPoly k ps + C d) = 0
  · left
    rw [hval] at h0
    exact_mod_cast h0
  · right
    have h := one_le_norm_mul_pow (by omega) (unitRoot_primitive h₁) h0 hw
    rw [hval, Complex.norm_real, Real.norm_eq_abs] at h
    exact h.trans (mul_le_mul_of_nonneg_left (pow_le_pow_right₀ hB₁ (totient_le h₁ h₂)) (abs_nonneg _))

/-! ### FDCT and IDCT -/

/-- The terms of DCT2_K(x)[j] from index n on. -/
def pairs2 (j : Nat) : Nat → List Int → List (Int × Nat)
  | _, [] => []
  | n, x :: xs => (x, (2 * n + 1) * j) :: pairs2 j (n + 1) xs

/-- The terms of the sum of DCT3_K(c)[j] from index n on. -/
def pairs3 (j : Nat) : Nat → List Int → List (Int × Nat)
  | _, [] => []
  | n, c :: cs => (2 * c, n * (2 * j + 1)) :: pairs3 j (n + 1) cs

theorem dct2Sum_eq (table : List Int) (k j : Nat) : ∀ (xs : List Int) (n : Nat),
    dct2Sum table k j n xs = pairSum (cosAt table k) (pairs2 j n xs)
  | [], _ => rfl
  | x :: xs, n => by simp [dct2Sum, pairs2, pairSum, dct2Sum_eq table k j xs]

theorem dct3Sum_eq (table : List Int) (k j : Nat) : ∀ (cs : List Int) (n : Nat),
    dct3Sum table k j n cs = pairSum (cosAt table k) (pairs3 j n cs)
  | [], _ => rfl
  | c :: cs, n => by simp [dct3Sum, pairs3, pairSum, dct3Sum_eq table k j cs]

theorem pairWeight_pairs2 (j : Nat) : ∀ (xs : List Int) (n : Nat), (∀ x ∈ xs, x.natAbs ≤ 2 ^ 31) →
    pairWeight (pairs2 j n xs) ≤ 2 ^ 31 * xs.length
  | [], _, _ => by simp [pairs2, pairWeight]
  | x :: xs, n, h => by
    have h1 := pairWeight_pairs2 j xs (n + 1) fun y hy => h y (by simp [hy])
    have h2 := h x (by simp)
    simp only [pairs2, pairWeight, List.length_cons]
    omega

theorem pairWeight_pairs3 (j : Nat) : ∀ (cs : List Int) (n : Nat), (∀ c ∈ cs, c.natAbs ≤ 2 ^ 31) →
    pairWeight (pairs3 j n cs) ≤ 2 ^ 32 * cs.length
  | [], _, _ => by simp [pairs3, pairWeight]
  | c :: cs, n, h => by
    have h1 := pairWeight_pairs3 j cs (n + 1) fun y hy => h y (by simp [hy])
    have h2 := h c (by simp)
    simp only [pairs3, pairWeight, List.length_cons]
    omega

theorem pairSum_pairs2 {k : Nat} (hk : 1 ≤ k) (j : Nat) : ∀ (xs : List Int) (n : Nat),
    pairSum (fun t => Real.cos (t * (Real.pi / (2 * k)))) (pairs2 j n xs)
      = ∑ i ∈ Finset.range xs.length, (xs.getD i 0 : ℝ) * Real.cos (Real.pi / k * ((n : ℝ) + i + 1 / 2) * j)
  | [], _ => by simp [pairs2, pairSum]
  | x :: xs, n => by
    have hk' : (k : ℝ) ≠ 0 := by exact_mod_cast (by omega : k ≠ 0)
    rw [List.length_cons, Finset.sum_range_succ', pairs2, pairSum, pairSum_pairs2 hk j xs (n + 1), add_comm]
    congr 1
    · refine Finset.sum_congr rfl fun i _ => ?_
      simp only [List.getD_cons_succ]
      congr 3
      push_cast
      ring
    · simp only [List.getD_cons_zero]
      congr 2
      push_cast
      field_simp
      ring

theorem pairSum_pairs3 {k : Nat} (hk : 1 ≤ k) (j : Nat) : ∀ (cs : List Int) (n : Nat),
    pairSum (fun t => Real.cos (t * (Real.pi / (2 * k)))) (pairs3 j n cs)
      = 2 * ∑ i ∈ Finset.range cs.length, (cs.getD i 0 : ℝ) * Real.cos (Real.pi / k * ((n : ℝ) + i) * ((j : ℝ) + 1 / 2))
  | [], _ => by simp [pairs3, pairSum]
  | c :: cs, n => by
    have hk' : (k : ℝ) ≠ 0 := by exact_mod_cast (by omega : k ≠ 0)
    rw [List.length_cons, Finset.sum_range_succ', pairs3, pairSum, pairSum_pairs3 hk j cs (n + 1), mul_add (2 : ℝ), add_comm]
    congr 1
    · congr 1
      refine Finset.sum_congr rfl fun i _ => ?_
      simp only [List.getD_cons_succ]
      congr 3
      push_cast
      ring
    · simp only [List.getD_cons_zero]
      rw [← mul_assoc, Int.cast_mul, Int.cast_ofNat]
      congr 2
      push_cast
      field_simp
      ring

theorem roundHaz_bound {x : ℝ} {m : ℤ} (hm : 2 * ⌊|x| + 1 / 2⌋ + 1 = m ∨ 2 * ⌊|x| + 1 / 2⌋ + 1 = -m) :
    |(m : ℝ)| ≤ 2 * |x| + 2 := by
  have h₁ := Int.floor_le (|x| + 1 / 2)
  have h₀ : (0 : ℝ) ≤ ⌊|x| + 1 / 2⌋ := by exact_mod_cast Int.floor_nonneg.mpr (by positivity)
  rcases hm with h | h
  · have : (m : ℝ) = 2 * ⌊|x| + 1 / 2⌋ + 1 := by exact_mod_cast h.symm
    rw [this, abs_of_nonneg (by linarith)]; linarith
  · have : (m : ℝ) = -(2 * ⌊|x| + 1 / 2⌋ + 1) := by
      have h' : m = -(2 * ⌊|x| + 1 / 2⌋ + 1) := by omega
      rw [h']; push_cast; ring
    rw [this, abs_neg, abs_of_nonneg (by linarith)]; linarith

theorem two_pow_cosBits : (2 : ℝ) ^ cosBits = 2 ^ 2112 := rfl

/-- A coefficient is the exact sum, rounded once (43_transform.md R180). -/
theorem fdctValue_eq {k : Nat} (h₁ : 1 ≤ k) (h₂ : k ≤ 16) {xs : List Int} (hl : xs.length ≤ 16)
    (hx : ∀ x ∈ xs, x.natAbs ≤ 2 ^ 31) (j : Nat) :
    fdctValue (cosTable k) k xs j = roundHaz (∑ i ∈ Finset.range xs.length,
      (xs.getD i 0 : ℝ) * Real.cos (Real.pi / k * ((i : ℝ) + 1 / 2) * j)) := by
  have hw : (pairWeight (pairs2 j 0 xs) : ℝ) ≤ 2 ^ 35 := by
    have := pairWeight_pairs2 j xs 0 hx
    have h2 : pairWeight (pairs2 j 0 xs) ≤ 2 ^ 35 := this.trans (by omega)
    exact_mod_cast h2
  have hsum := pairSum_pairs2 h₁ j xs 0
  simp only [Nat.cast_zero, zero_add] at hsum
  rw [← hsum]
  have hacc := pairSum_accurate h₁ h₂ (pairs2 j 0 xs)
  have habs := pairSum_cos_le (Real.pi / (2 * k)) (pairs2 j 0 xs)
  have hsep := fun m : ℤ => pairSum_separated h₁ h₂ (pairs2 j 0 xs) 1 (-m) (B := 2 ^ 38) (by norm_num)
  unfold fdctValue
  rw [dct2Sum_eq]
  generalize pairSum (fun t : Nat => Real.cos (t * (Real.pi / (2 * k)))) (pairs2 j 0 xs) = R at *
  refine roundHazNear_eq (E := 2 ^ 67) (D := 2 ^ 102) ?_ ?_ ?_ ?_ ?_
  · rw [Nat.cast_pow, Nat.cast_ofNat]
    calc (2 : ℝ) * 2 ^ 67 = 2 ^ 68 := by norm_num
      _ < 2 ^ cosBits := pow_lt_pow_right₀ (by norm_num) (by unfold cosBits; omega)
  · rw [Nat.cast_pow, Nat.cast_ofNat, mul_comm R]
    refine hacc.trans ?_
    calc (pairWeight (pairs2 j 0 xs) : ℝ) * 2 ^ 32 ≤ 2 ^ 35 * 2 ^ 32 := mul_le_mul_of_nonneg_right hw (by norm_num)
      _ = 2 ^ 67 := by norm_num
  · norm_num
  · norm_num
  · intro m hm
    have hmb := roundHaz_bound hm
    rw [Nat.cast_pow, Nat.cast_ofNat]
    have hs := hsep m (by
      rw [Int.cast_neg, abs_neg, Int.cast_one, abs_one]
      have : |R| ≤ 2 ^ 35 := habs.trans hw
      linarith)
    rw [Int.cast_one, one_mul, Int.cast_neg, ← sub_eq_add_neg] at hs
    rcases hs with h | h
    · left; linarith
    · right
      have hT : (2 : ℝ) ^ 102 * (2 ^ 38) ^ 31 ≤ 2 ^ cosBits := by
        rw [← pow_mul, ← pow_add]
        exact pow_le_pow_right₀ (by norm_num) (by unfold cosBits; omega)
      have h3 := mul_le_mul_of_nonneg_left hT (abs_nonneg (2 * R - m))
      have h4 := mul_le_mul_of_nonneg_left h (show (0 : ℝ) ≤ 2 ^ 102 by norm_num)
      linarith

/-- A reconstructed value is the exact value times 2^24, rounded once (43_transform.md R188). -/
theorem idctValue_eq {k : Nat} (h₁ : 1 ≤ k) (h₂ : k ≤ 16) {c : Int} {cs : List Int} (hl : (c :: cs).length ≤ 16)
    (hx : ∀ x ∈ c :: cs, x.natAbs ≤ 2 ^ 31) (j : Nat) :
    idctValue (cosTable k) k (c :: cs) j = roundHaz (2 / k * (1 / 2 * c + ∑ i ∈ Finset.range cs.length,
      (cs.getD i 0 : ℝ) * Real.cos (Real.pi / k * ((i : ℝ) + 1) * ((j : ℝ) + 1 / 2))) * 2 ^ 24) := by
  have hk : (1 : ℝ) ≤ k := by exact_mod_cast h₁
  have hk' : (k : ℝ) ≤ 16 := by exact_mod_cast h₂
  have hk₀ : (0 : ℝ) < k := by linarith
  have hc : |(c : ℝ)| ≤ 2 ^ 31 := by
    have := hx c (by simp)
    rw [← Int.cast_abs, ← Nat.cast_natAbs]
    exact_mod_cast this
  have hw : (pairWeight (pairs3 j 1 cs) : ℝ) ≤ 2 ^ 36 := by
    have := pairWeight_pairs3 j cs 1 fun x hx' => hx x (by simp [hx'])
    simp only [List.length_cons] at hl
    have h2 : pairWeight (pairs3 j 1 cs) ≤ 2 ^ 36 := this.trans (by omega)
    exact_mod_cast h2
  have hsum := pairSum_pairs3 h₁ j cs 1
  have hre : 2 / (k : ℝ) * (1 / 2 * c + ∑ i ∈ Finset.range cs.length,
      (cs.getD i 0 : ℝ) * Real.cos (Real.pi / k * ((i : ℝ) + 1) * ((j : ℝ) + 1 / 2))) * 2 ^ 24
      = 2 ^ 24 * (c + pairSum (fun t => Real.cos (t * (Real.pi / (2 * k)))) (pairs3 j 1 cs)) / k := by
    rw [hsum]
    simp only [Nat.cast_one, add_comm (1 : ℝ)]
    ring
  rw [hre]
  have hacc := pairSum_accurate h₁ h₂ (pairs3 j 1 cs)
  have habs := (pairSum_cos_le (Real.pi / (2 * k)) (pairs3 j 1 cs)).trans hw
  have hsep := fun d : ℤ => pairSum_separated h₁ h₂ (pairs3 j 1 cs) (2 ^ 24) d (B := 2 ^ 63) (by norm_num)
  unfold idctValue
  rw [List.headD_cons, List.tail_cons, dct3Sum_eq]
  generalize pairSum (fun t : Nat => Real.cos (t * (Real.pi / (2 * k)))) (pairs3 j 1 cs) = R at *
  generalize pairSum (cosAt (cosTable k) k) (pairs3 j 1 cs) = I at *
  have hnum : ((2 ^ Config.yfrac * (c * 2 ^ cosBits + I) : Int) : ℝ) = 2 ^ 24 * (c * 2 ^ cosBits + I) := by
    rw [Int.cast_mul, Int.cast_pow, Int.cast_add, Int.cast_mul, Int.cast_pow]; norm_cast
  have hden : ((k * 2 ^ cosBits : Nat) : ℝ) = k * 2 ^ cosBits := by rw [Nat.cast_mul, Nat.cast_pow, Nat.cast_ofNat]
  have hxa : |2 ^ 24 * ((c : ℝ) + R) / (k : ℝ)| * (k : ℝ) ≤ 2 ^ 61 := by
    rw [abs_div, abs_of_pos hk₀, div_mul_cancel₀ _ hk₀.ne', abs_mul, abs_of_pos (by norm_num : (0 : ℝ) < 2 ^ 24)]
    have := abs_add_le (c : ℝ) R
    linarith
  refine roundHazNear_eq (E := 2 ^ 92) (D := 2 ^ 102) ?_ ?_ ?_ ?_ ?_
  · rw [hden]
    have : (2 : ℝ) * 2 ^ 92 < 2 ^ cosBits := by
      calc (2 : ℝ) * 2 ^ 92 = 2 ^ 93 := by norm_num
        _ < 2 ^ cosBits := pow_lt_pow_right₀ (by norm_num) (by unfold cosBits; omega)
    have h3 := mul_le_mul_of_nonneg_right hk (show (0 : ℝ) ≤ 2 ^ cosBits by positivity)
    linarith
  · rw [hnum, hden]
    have he : 2 ^ 24 * ((c : ℝ) * 2 ^ cosBits + I) - 2 ^ 24 * (c + R) / k * (k * 2 ^ cosBits)
        = 2 ^ 24 * (I - 2 ^ cosBits * R) := by
      generalize (2 : ℝ) ^ cosBits = T
      field_simp
      ring
    rw [he, abs_mul, abs_of_pos (by norm_num)]
    calc (2 : ℝ) ^ 24 * |I - 2 ^ cosBits * R| ≤ 2 ^ 24 * (2 ^ 36 * 2 ^ 32) :=
          mul_le_mul_of_nonneg_left (hacc.trans (mul_le_mul_of_nonneg_right hw (by norm_num))) (by norm_num)
      _ = 2 ^ 92 := by norm_num
  · norm_num
  · norm_num
  · intro m hm
    have hmb := roundHaz_bound hm
    rw [hden]
    have hmk : |(m : ℝ) * k| ≤ 2 ^ 62 + 32 := by
      rw [abs_mul, abs_of_pos hk₀]
      have := mul_le_mul_of_nonneg_right hmb hk₀.le
      linarith
    have hs := hsep (2 ^ 25 * c - m * k) (by
      rw [Int.cast_sub, Int.cast_mul, Int.cast_mul, Int.cast_pow, Int.cast_pow, Int.cast_ofNat, Int.cast_natCast]
      have h1 : |(2 : ℝ) ^ 25 * c - m * k| ≤ 2 ^ 25 * 2 ^ 31 + (2 ^ 62 + 32) := by
        refine (abs_sub _ _).trans (add_le_add ?_ hmk)
        rw [abs_mul, abs_of_pos (by norm_num)]
        exact mul_le_mul_of_nonneg_left hc (by norm_num)
      rw [abs_of_pos (by norm_num : (0 : ℝ) < 2 ^ 24)]
      linarith)
    rw [Int.cast_sub, Int.cast_mul, Int.cast_mul, Int.cast_pow, Int.cast_pow, Int.cast_ofNat, Int.cast_natCast] at hs
    have he : (2 : ℝ) ^ 24 * (2 * R) + (2 ^ 25 * c - m * k) = (2 * (2 ^ 24 * (c + R) / k) - m) * k := by
      field_simp
      ring
    rw [he] at hs
    rcases hs with h | h
    · left
      have := (mul_eq_zero.mp h).resolve_right hk₀.ne'
      linarith
    · right
      rw [abs_mul, abs_of_pos hk₀] at h
      have hT : (2 : ℝ) ^ 102 * (2 ^ 63) ^ 31 ≤ 2 ^ cosBits := by
        rw [← pow_mul, ← pow_add]
        exact pow_le_pow_right₀ (by norm_num) (by unfold cosBits; omega)
      generalize |2 * (2 ^ 24 * ((c : ℝ) + R) / (k : ℝ)) - (m : ℝ)| = A at *
      calc (2 : ℝ) ^ 102 = 2 ^ 102 * 1 := (mul_one _).symm
        _ ≤ 2 ^ 102 * (A * k * (2 ^ 63) ^ 31) := mul_le_mul_of_nonneg_left h (by norm_num)
        _ = A * k * (2 ^ 102 * (2 ^ 63) ^ 31) := mul_left_comm _ _ _
        _ ≤ A * k * 2 ^ cosBits := mul_le_mul_of_nonneg_left hT (by
          by_contra hc'
          push Not at hc'
          have : A * k * (2 ^ 63) ^ 31 < 0 := mul_neg_of_neg_of_pos hc' (by positivity)
          linarith)
        _ = A * (k * 2 ^ cosBits) := mul_assoc _ _ _

end Sys2Proof.Machine
end

