-- ==== Sys2Proof/Laws/Rounding.lean ====
section
/-! SUPPORT. `round_haz` (00_scope.md R15): the integer form `roundHazDiv` rounds the exact quotient, and the laws of the
rounding claims use. -/

namespace Sys2Proof.Machine

theorem roundHaz_of_nonneg {x : ℝ} (h : 0 ≤ x) : roundHaz x = ⌊x + 1 / 2⌋ := by
  unfold roundHaz
  rw [abs_of_nonneg h]
  rcases eq_or_lt_of_le h with h0 | h0
  · rw [← h0]
    norm_num
  · rw [sign_pos h0]; simp

theorem roundHaz_neg (x : ℝ) : roundHaz (-x) = -roundHaz x := by
  unfold roundHaz
  rw [abs_neg, Left.sign_neg]
  simp

theorem roundHaz_intCast (n : ℤ) : roundHaz (n : ℝ) = n := by
  have key : ∀ m : ℤ, 0 ≤ m → roundHaz (m : ℝ) = m := by
    intro m hm
    rw [roundHaz_of_nonneg (by exact_mod_cast hm), Int.floor_eq_iff]
    constructor <;> linarith
  rcases le_total 0 n with h | h
  · exact key n h
  · have := key (-n) (by omega)
    rw [Int.cast_neg, roundHaz_neg] at this
    omega

/-- The rounding error is at most one half. -/
theorem abs_roundHaz_sub_le (x : ℝ) : |(roundHaz x : ℝ) - x| ≤ 1 / 2 := by
  have key : ∀ y : ℝ, 0 ≤ y → |(roundHaz y : ℝ) - y| ≤ 1 / 2 := by
    intro y hy
    rw [roundHaz_of_nonneg hy, abs_le]
    have h₁ := Int.floor_le (y + 1 / 2)
    have h₂ := Int.lt_floor_add_one (y + 1 / 2)
    constructor <;> linarith
  rcases le_total 0 x with h | h
  · exact key x h
  · have := key (-x) (by linarith)
    rw [roundHaz_neg, ← abs_neg] at this
    convert this using 2
    push_cast
    ring

/-- Rounding keeps a bound that is an integer. -/
theorem roundHaz_le {x : ℝ} {n : ℤ} (h : x ≤ n) : roundHaz x ≤ n := by
  have h₁ := abs_le.mp (abs_roundHaz_sub_le x)
  rcases le_total 0 x with hx | hx
  · rw [roundHaz_of_nonneg hx]
    have h₂ := Int.floor_le (x + 1 / 2)
    have : (⌊x + 1 / 2⌋ : ℝ) < n + 1 := by linarith
    have : ⌊x + 1 / 2⌋ < n + 1 := by exact_mod_cast this
    omega
  · have e : roundHaz x = -⌊-x + 1 / 2⌋ := by
      rw [← roundHaz_of_nonneg (by linarith : (0 : ℝ) ≤ -x), roundHaz_neg]; omega
    rw [e]
    have : -n ≤ ⌊-x + 1 / 2⌋ := Int.le_floor.mpr (by push_cast; linarith)
    omega

theorem le_roundHaz {x : ℝ} {n : ℤ} (h : n ≤ x) : n ≤ roundHaz x := by
  have := roundHaz_le (x := -x) (n := -n) (by push_cast; linarith)
  rw [roundHaz_neg] at this
  omega

/-- `roundHazDiv` rounds the exact quotient (00_scope.md R15). -/
theorem roundHazDiv_eq (num : Int) {den : Nat} (h : 0 < den) : roundHazDiv num den = roundHaz ((num : ℝ) / den) := by
  have hd : (0 : ℝ) < den := by exact_mod_cast h
  have key : ∀ n : Nat, ((2 * n + den) / (2 * den) : Nat) = ⌊(n : ℝ) / den + 1 / 2⌋ := by
    intro n
    symm
    rw [Int.floor_eq_iff]
    have e : (n : ℝ) / den + 1 / 2 = (2 * n + den) / (2 * den) := by field_simp
    have h₁ := Nat.div_mul_le_self (2 * n + den) (2 * den)
    have h₂ := Nat.lt_div_mul_add (a := 2 * n + den) (b := 2 * den) (by omega)
    rw [e, le_div_iff₀ (by positivity), div_lt_iff₀ (by positivity)]
    constructor
    · exact_mod_cast h₁
    · have : 2 * n + den < ((2 * n + den) / (2 * den) + 1) * (2 * den) := by
        rw [Nat.add_mul]; omega
      exact_mod_cast this
  unfold roundHazDiv
  rcases le_total 0 num with hn | hn
  · obtain ⟨n, rfl⟩ := Int.eq_ofNat_of_zero_le hn
    rw [roundHaz_of_nonneg (by positivity)]
    rcases Nat.eq_zero_or_pos n with rfl | h0
    · norm_num
    · rw [Int.natAbs_natCast, Int.sign_eq_one_of_pos (by exact_mod_cast h0), one_mul, key]
      norm_num
  · obtain ⟨n, hn'⟩ := Int.eq_ofNat_of_zero_le (a := -num) (by omega)
    obtain rfl : num = -(n : ℤ) := by omega
    rw [Int.cast_neg, neg_div, roundHaz_neg, Int.natAbs_neg, Int.natAbs_natCast, Int.sign_neg,
      roundHaz_of_nonneg (by positivity), key]
    rcases Nat.eq_zero_or_pos n with rfl | h0
    · norm_num
    · rw [Int.sign_eq_one_of_pos (by exact_mod_cast h0)]
      norm_num

/-! ### Words that hold integers -/

theorem sval32_enc32 {n : Int} (h : -2 ^ 31 ≤ n ∧ n < 2 ^ 31) : sval32 (enc32 n) = n := by
  unfold sval32 enc32 Config.dataW
  rw [BitVec.toInt_ofInt, Int.bmod_eq_of_le] <;> omega

theorem fits32_iff {n : Int} : fits32 n = true ↔ -2 ^ 31 ≤ n ∧ n < 2 ^ 31 := by
  unfold fits32
  simp only [Bool.and_eq_true, decide_eq_true_eq]
  omega

theorem fits32_eq_false_iff {n : Int} : fits32 n = false ↔ ¬ (-2 ^ 31 ≤ n ∧ n < 2 ^ 31) := by
  rw [← fits32_iff, Bool.not_eq_true]

theorem sval64_enc64 {n : Int} (h : -2 ^ 63 ≤ n ∧ n < 2 ^ 63) : sval64 (enc64 n) = n := by
  unfold sval64 enc64
  rw [BitVec.toInt_ofInt, Int.bmod_eq_of_le] <;> omega

theorem sval32_range (w : Word) : -2 ^ 31 ≤ sval32 w ∧ sval32 w < 2 ^ 31 := by
  unfold sval32
  constructor
  · exact BitVec.le_toInt w
  · exact BitVec.toInt_lt

theorem uval32_encCount {n : Nat} (h : n < 2 ^ 32) : uval32 (encCount n) = n := by
  unfold uval32 encCount
  rw [BitVec.toNat_ofNat, Nat.mod_eq_of_lt h]

end Sys2Proof.Machine
end

