-- ==== Sys2Proof/Laws/Results.lean ====
section
/-! SUPPORT. What a stored result buffer holds, said once for every command that writes one. -/

namespace Sys2Proof.Machine

/-- A store of whole elements changes no byte outside them. -/
theorem sameOutside_storeBuf {m : Memory} {b : Buffer} {i n : Nat} {ws : List Word}
    (h : ws.length = bufElemWords b * n) :
    SameOutside (bufAddr b i 0) (bufAddr b (i + n) 0) m (storeBuf m b i ws) := by
  intro a ha
  refine byteAt_storeBuf_of_outside ?_
  rw [h]
  simp only [bufAddr, Nat.mul_add] at *
  omega

theorem sameOutside_storeBuf_zero {m : Memory} {b : Buffer} {n : Nat} {ws : List Word}
    (h : ws.length = bufElemWords b * n) :
    SameOutside (bufAddr b 0 0) (bufAddr b n 0) m (storeBuf m b 0 ws) := by
  have := sameOutside_storeBuf (m := m) (i := 0) h
  rwa [Nat.zero_add] at this

/-- A one-word result element. -/
theorem holds_result {m : Memory} {b : Buffer} {ws : List Word} {i : Nat} {w : Word} (hb : bufElemWords b = 1)
    (hi : i < bufElements b) (hw : ws[i]? = some w) : Holds (storeBuf m b 0 ws) b i 0 w :=
  holds_storeBuf (by simpa [hb] using hw) (by omega) hi

/-- A one-word result element that holds a fitting integer. -/
theorem holdsInt_result {m : Memory} {b : Buffer} {vs : List Int} {i : Nat} {n : Int} (hb : bufElemWords b = 1)
    (hi : i < bufElements b) (hw : vs[i]? = some n) (hn : fits32 n = true) :
    HoldsInt (storeBuf m b 0 (vs.map enc32)) b i n :=
  ⟨enc32 n, holds_result hb hi (by simp [hw]), sval32_enc32 (fits32_iff.mp hn)⟩

/-- What a word's bytes say is what the word is. -/
theorem holds_unique {m : Memory} {b : Buffer} {i f : Nat} {v w : Word} (hv : Holds m b i f v) (hw : Holds m b i f w) :
    v = w := by
  rw [← readWord_of_holdsAt hv 0, ← readWord_of_holdsAt hw 0]

/-- Counting the elements of a list read from a buffer is counting indices. -/
theorem countP_range_map {α : Type} (f : Nat → α) (p : α → Bool) (n : Nat) :
    ((List.range n).map f).countP p = Set.ncard { i : ℕ | i < n ∧ p (f i) = true } := by
  rw [List.countP_map]
  have : { i : ℕ | i < n ∧ p (f i) = true } = ↑((Finset.range n).filter fun i => p (f i) = true) := by
    ext i; simp
  rw [this, Set.ncard_coe_finset, ← Nat.count_eq_card_filter_range]
  unfold Nat.count
  congr 1
  funext i
  simp

/-- A passed pre-check list. -/
theorem firstFailure_cons_none {s : State} {c : Check} {cs : List Check} (h : runCheck s c = none) :
    firstFailure s (c :: cs) = firstFailure s cs := by
  simp [firstFailure, h]

end Sys2Proof.Machine
end

