-- ==== Sys2Proof/Laws/Count.lean ====
section
/-! SUPPORT. HCOUNT's counting (45_entropy_coder.md R220, R221): the table lists the distinct symbols in order of first
occurrence, each with its number of occurrences. -/

namespace Sys2Proof.Machine

theorem countSymbol_of_not_mem {s : Word} : ∀ {t : List (Word × Nat)}, s ∉ t.map Prod.fst →
    countSymbol s t = t ++ [(s, 1)]
  | [], _ => rfl
  | (x, c) :: t, h => by
    simp only [List.map_cons, List.mem_cons, not_or] at h
    rw [countSymbol, if_neg (fun e => h.1 e.symm), countSymbol_of_not_mem h.2]
    rfl

theorem countSymbol_keys {s : Word} : ∀ {t : List (Word × Nat)}, s ∈ t.map Prod.fst →
    (countSymbol s t).map Prod.fst = t.map Prod.fst
  | [], h => by simp at h
  | (x, c) :: t, h => by
    rw [countSymbol]
    split
    · rfl
    · rename_i hx
      simp only [List.map_cons, List.mem_cons] at h
      rw [List.map_cons, List.map_cons, countSymbol_keys (h.resolve_left fun e => hx e.symm)]

theorem mem_countSymbol {s : Word} : ∀ {t : List (Word × Nat)} {x : Word} {c : Nat}, (t.map Prod.fst).Nodup →
    (x, c) ∈ countSymbol s t →
      (x ≠ s ∧ (x, c) ∈ t) ∨ (x = s ∧ ((s ∉ t.map Prod.fst ∧ c = 1) ∨ ∃ d, (s, d) ∈ t ∧ c = d + 1))
  | [], x, c, _, h => by
    simp only [countSymbol, List.mem_singleton, Prod.mk.injEq] at h
    exact .inr ⟨h.1, .inl ⟨by simp, h.2⟩⟩
  | (y, d) :: t, x, c, hn, h => by
    simp only [List.map_cons, List.nodup_cons] at hn
    rw [countSymbol] at h
    split at h
    · rename_i hy
      simp only [List.mem_cons, Prod.mk.injEq] at h
      rcases h with ⟨rfl, rfl⟩ | h
      · exact .inr ⟨hy, .inr ⟨d, by simp [hy], rfl⟩⟩
      · left
        refine ⟨?_, by simp [h]⟩
        rintro rfl
        exact hn.1 (by rw [hy]; exact List.mem_map.mpr ⟨_, h, rfl⟩)
    · rename_i hy
      simp only [List.mem_cons, Prod.mk.injEq] at h
      rcases h with ⟨rfl, rfl⟩ | h
      · exact .inl ⟨hy, by simp⟩
      · rcases mem_countSymbol hn.2 h with ⟨h1, h2⟩ | ⟨h1, h2 | ⟨e, h2, h3⟩⟩
        · exact .inl ⟨h1, by simp [h2]⟩
        · refine .inr ⟨h1, .inl ⟨?_, h2.2⟩⟩
          simp only [List.map_cons, List.mem_cons, not_or]
          exact ⟨fun e => hy e.symm, h2.1⟩
        · exact .inr ⟨h1, .inr ⟨e, by simp [h2], h3⟩⟩

theorem countSymbols_concat (l : List Word) (x : Word) :
    countSymbols (l ++ [x]) = countSymbol x (countSymbols l) := by
  simp [countSymbols]

/-- What the counting leaves. -/
structure CountTable (l : List Word) (t : List (Word × Nat)) : Prop where
  nodup : (t.map Prod.fst).Nodup
  mem : ∀ x, x ∈ t.map Prod.fst ↔ x ∈ l
  count : ∀ x c, (x, c) ∈ t → c = l.count x
  order : (t.map Prod.fst).Pairwise fun x y => l.idxOf x < l.idxOf y

theorem countTable (l : List Word) : CountTable l (countSymbols l) := by
  induction l using List.reverseRecOn with
  | nil => exact ⟨by simp [countSymbols], by simp [countSymbols], by simp [countSymbols], by simp [countSymbols]⟩
  | append_singleton l x ih =>
    have idx : ∀ y ∈ l, (l ++ [x]).idxOf y = l.idxOf y := fun y hy => List.idxOf_append_of_mem hy
    have hord : ((countSymbols l).map Prod.fst).Pairwise fun a b => (l ++ [x]).idxOf a < (l ++ [x]).idxOf b := by
      refine List.Pairwise.imp_of_mem (fun {a b} ha hb h => ?_) ih.order
      rw [idx _ ((ih.mem a).mp ha), idx _ ((ih.mem b).mp hb)]
      exact h
    rw [countSymbols_concat]
    by_cases hx : x ∈ (countSymbols l).map Prod.fst
    · have hk := countSymbol_keys hx
      refine ⟨by rw [hk]; exact ih.nodup, ?_, ?_, by rw [hk]; exact hord⟩
      · intro y
        rw [hk, ih.mem, List.mem_append, List.mem_singleton]
        constructor
        · exact Or.inl
        · rintro (h | rfl)
          · exact h
          · exact (ih.mem _).mp hx
      · intro y c h
        rcases mem_countSymbol ih.nodup h with ⟨h1, h2⟩ | ⟨rfl, ⟨h1, -⟩ | ⟨d, h2, h3⟩⟩
        · rw [ih.count y c h2, List.count_append, List.count_singleton, if_neg (by simpa using h1.symm)]
          simp
        · exact absurd hx h1
        · rw [h3, ih.count _ d h2, List.count_append, List.count_singleton]
          simp
    · have hx' : x ∉ l := fun h => hx ((ih.mem x).mpr h)
      rw [countSymbol_of_not_mem hx]
      refine ⟨?_, ?_, ?_, ?_⟩
      · rw [List.map_append, List.map_singleton, List.nodup_append]
        refine ⟨ih.nodup, by simp, ?_⟩
        rintro a ha b hb rfl
        simp only [List.mem_singleton] at hb
        exact hx (by rw [← hb]; exact ha)
      · intro y
        rw [List.map_append, List.mem_append, List.mem_append, ih.mem]
        simp
      · intro y c h
        simp only [List.mem_append, List.mem_singleton, Prod.mk.injEq] at h
        rw [List.count_append, List.count_singleton]
        rcases h with h | ⟨rfl, rfl⟩
        · have hy : y ∈ l := (ih.mem y).mp (List.mem_map.mpr ⟨_, h, rfl⟩)
          rw [ih.count y c h, if_neg]
          · simp
          · rintro h'
            exact hx' (by simpa using (by simpa using h' : x = y) ▸ hy)
        · rw [List.count_eq_zero.mpr hx']
          simp
      · rw [List.map_append, List.map_singleton, List.pairwise_append]
        refine ⟨hord, by simp, ?_⟩
        intro a ha b hb
        simp only [List.mem_singleton] at hb
        subst hb
        have ha' := (ih.mem a).mp ha
        rw [idx a ha', List.idxOf_append_of_notMem hx']
        have := List.idxOf_lt_length_of_mem ha'
        omega

/-- The counts add up to the number of symbols. -/
theorem sum_countSymbol (s : Word) : ∀ t : List (Word × Nat),
    ((countSymbol s t).map Prod.snd).sum = (t.map Prod.snd).sum + 1
  | [] => rfl
  | (x, c) :: t => by
    rw [countSymbol]
    split
    · simp; omega
    · simp only [List.map_cons, List.sum_cons, sum_countSymbol s t]; omega

theorem sum_countSymbols (l : List Word) : ((countSymbols l).map Prod.snd).sum = l.length := by
  induction l using List.reverseRecOn with
  | nil => rfl
  | append_singleton l x ih => rw [countSymbols_concat, sum_countSymbol, ih]; simp

/-- A list of the distinct symbols in order of first occurrence is the table's list of symbols. -/
theorem CountTable.keys_eq {l : List Word} {t : List (Word × Nat)} (h : CountTable l t) {d : List Word} (hn : d.Nodup)
    (hm : ∀ x, x ∈ d ↔ x ∈ l) (ho : d.Pairwise fun x y => l.idxOf x < l.idxOf y) : t.map Prod.fst = d := by
  have hp : (t.map Prod.fst).Perm d := (List.perm_ext_iff_of_nodup h.nodup hn).mpr fun x => (h.mem x).trans (hm x).symm
  exact hp.eq_of_pairwise (fun a b _ _ h1 h2 => by omega) h.order ho

end Sys2Proof.Machine
end

