-- ==== Sys2Proof/Laws/Huffman.lean ====
section
/-! SUPPORT. The Huffman build (45_entropy_coder.md R225 to R233): the model's merge loop is the spec's, on nodes whose fields
are numbers; what the loop keeps; the spec's run is unique. -/

namespace Sys2Proof.Machine

/-! ### The queue -/

/-- The TREE index of a queue member. -/
def QItem.index (q : QItem) : Nat := q.tree.index

theorem insertQ_perm (x : QItem) : ∀ q : List QItem, (insertQ x q).Perm (x :: q)
  | [] => List.Perm.refl _
  | y :: ys => by
    rw [insertQ]
    split
    · exact List.Perm.refl _
    · exact ((insertQ_perm x ys).cons y).trans (List.Perm.swap x y ys)

theorem keyLt_iff {a b : QItem} : keyLt a b = true ↔ a.weight < b.weight ∨ (a.weight = b.weight ∧ a.index < b.index) := by
  simp [keyLt, QItem.index]

/-- Ascending key order (R229). -/
def Ordered (q : List QItem) : Prop := q.Pairwise fun a b => keyLt a b = true

theorem insertQ_ordered {x : QItem} : ∀ {q : List QItem}, Ordered q → (∀ y ∈ q, x.index ≠ y.index) →
    Ordered (insertQ x q)
  | [], _, _ => by simp [insertQ, Ordered]
  | y :: ys, h, hx => by
    rw [insertQ]
    have h' := List.pairwise_cons.mp h
    split
    · rename_i hxy
      refine List.pairwise_cons.mpr ⟨?_, h⟩
      intro z hz
      rcases List.mem_cons.mp hz with rfl | hz
      · exact hxy
      · have hyz := h'.1 z hz
        rw [keyLt_iff] at *
        omega
    · rename_i hxy
      have hne := hx y (by simp)
      refine List.pairwise_cons.mpr ⟨?_, insertQ_ordered h'.2 fun z hz => hx z (by simp [hz])⟩
      intro z hz
      rcases List.mem_cons.mp ((insertQ_perm x ys).mem_iff.mp hz) with rfl | hz
      · rw [keyLt_iff] at *
        omega
      · exact h'.1 z hz

/-! ### The loop on numbers -/

/-- The words of a node. -/
def wordsOf (n : Node) : TreeNode :=
  { weight := encCount n.weight, left := childWord n.left, right := childWord n.right, payload := n.payload }

/-- The node a merge makes (R230). -/
def joinNode (a b : QItem) : Node :=
  { weight := a.weight + b.weight, left := some a.index, right := some b.index, payload := 0 }

/-- The queue member a merge inserts. -/
def joinItem (next : Nat) (a b : QItem) : QItem := { weight := a.weight + b.weight, tree := .node next a.tree b.tree }

/-- The merge loop, its nodes as numbers. -/
def mergeNodes : Nat → Nat → List QItem → List Node × List QItem
  | fuel + 1, next, a :: b :: q =>
    let rest := mergeNodes fuel (next + 1) (insertQ (joinItem next a b) q)
    (joinNode a b :: rest.1, rest.2)
  | _, _, q => ([], q)

theorem mergeLoop_eq : ∀ (fuel next : Nat) (q : List QItem),
    mergeLoop fuel next q = ((mergeNodes fuel next q).1.map wordsOf, (mergeNodes fuel next q).2)
  | 0, _, _ => rfl
  | _ + 1, _, [] => rfl
  | _ + 1, _, [_] => rfl
  | fuel + 1, next, a :: b :: q => by
    rw [mergeLoop, mergeNodes, mergeLoop_eq fuel (next + 1)]
    rfl

theorem leafNode_eq (e : FtabEntry) : leafNode e = wordsOf (leafOf e) := by
  simp [leafNode, wordsOf, leafOf, encCount, uval32, absent, childWord]

/-! ### Trees in a list of nodes -/

/-- The nodes hold the tree. -/
def Shape (T : List Node) : HTree → Prop
  | .leaf i => ∃ nd, T[i]? = some nd ∧ nd.left = none ∧ nd.right = none
  | .node i l r => (∃ nd, T[i]? = some nd ∧ nd.left = some l.index ∧ nd.right = some r.index) ∧ Shape T l ∧ Shape T r

theorem getElem?_append_some {α : Type} {l : List α} {i : Nat} {x : α} (m : List α) (h : l[i]? = some x) :
    (l ++ m)[i]? = some x := by
  have : i < l.length := by
    by_contra hc
    rw [List.getElem?_eq_none (by omega)] at h
    cases h
  rw [List.getElem?_append_left this, h]

theorem Shape.append {T : List Node} (m : List Node) : ∀ {t : HTree}, Shape T t → Shape (T ++ m) t
  | .leaf _, ⟨nd, h, hl, hr⟩ => ⟨nd, getElem?_append_some m h, hl, hr⟩
  | .node _ _ _, ⟨⟨nd, h, hl, hr⟩, h₁, h₂⟩ => ⟨⟨nd, getElem?_append_some m h, hl, hr⟩, h₁.append m, h₂.append m⟩

theorem Shape.index_lt {T : List Node} : ∀ {t : HTree}, Shape T t → t.index < T.length
  | .leaf i, ⟨nd, h, _, _⟩ => by
    by_contra hc
    simp only [HTree.index] at hc
    rw [List.getElem?_eq_none (by omega)] at h
    cases h
  | .node i _ _, ⟨⟨nd, h, _, _⟩, _, _⟩ => by
    by_contra hc
    simp only [HTree.index] at hc
    rw [List.getElem?_eq_none (by omega)] at h
    cases h

/-- The leaves of a tree, left to right. -/
def HTree.leaves : HTree → List Nat
  | .leaf i => [i]
  | .node _ l r => l.leaves ++ r.leaves

/-- The greatest depth of a leaf. -/
def HTree.height : HTree → Nat
  | .leaf _ => 0
  | .node _ l r => max l.height r.height + 1

theorem weightOf_of_get {T : List Node} {i : Nat} {nd : Node} (h : T[i]? = some nd) : weightOf T i = nd.weight := by
  simp [weightOf, h]

theorem weightOf_append {T : List Node} {i : Nat} (m : List Node) (h : i < T.length) :
    weightOf (T ++ m) i = weightOf T i := by
  unfold weightOf
  rw [List.getElem?_append_left h]

/-- A child of a node. -/
def ChildOf (T : List Node) (x y : Nat) : Prop := ∃ nd, T[x]? = some nd ∧ (nd.left = some y ∨ nd.right = some y)

/-! ### What the loop keeps -/

/-- The merge loop's invariant over n leaves: nodes T and queue Q. -/
structure LoopInv (n total : Nat) (T : List Node) (Q : List QItem) : Prop where
  ordered : Ordered Q
  nodup : (Q.map QItem.index).Nodup
  count : T.length + Q.length = 2 * n
  leafCount : n ≤ T.length
  shape : ∀ q ∈ Q, Shape T q.tree
  weight : ∀ q ∈ Q, q.weight = weightOf T q.index
  leaves : (Q.flatMap fun q => q.tree.leaves).Perm (List.range n)
  sum : (Q.map QItem.weight).sum = total
  isLeaf : ∀ (x : Nat) (nd : Node), x < n → T[x]? = some nd → nd.left = none ∧ nd.right = none
  isNode : ∀ (x : Nat) (nd : Node), n ≤ x → T[x]? = some nd → ∃ a b, nd.left = some a ∧ nd.right = some b ∧ a < x ∧ b < x ∧ a ≠ b
  childOut : ∀ x y, ChildOf T x y → y < x ∧ y ∉ Q.map QItem.index
  parent : ∀ y < T.length, y ∉ Q.map QItem.index → ∃ x, ChildOf T x y
  parentUnique : ∀ x x' y, ChildOf T x y → ChildOf T x' y → x = x'
  weights : ∀ (x : Nat) (nd : Node), T[x]? = some nd → nd.weight ≤ total
  fib : ∀ q ∈ Q, Nat.fib (q.tree.height + 2) ≤ q.weight
  fibChild : ∀ q ∈ Q, ∀ i l r, q.tree = .node i l r →
    Nat.fib (l.height + 2) ≤ weightOf T l.index ∧ Nat.fib (r.height + 2) ≤ weightOf T r.index ∧
      ∀ c ∈ Q, weightOf T l.index ≤ c.weight ∧ weightOf T r.index ≤ c.weight

theorem childOf_append {T : List Node} {nd : Node} {x y : Nat} :
    ChildOf (T ++ [nd]) x y ↔ ChildOf T x y ∨ (x = T.length ∧ (nd.left = some y ∨ nd.right = some y)) := by
  unfold ChildOf
  rcases Nat.lt_trichotomy x T.length with h | h | h
  · rw [List.getElem?_append_left h]
    constructor
    · exact Or.inl
    · rintro (h' | ⟨h', -⟩)
      · exact h'
      · omega
  · subst h
    rw [List.getElem?_concat_length]
    rw [List.getElem?_eq_none (le_refl _)]
    simp
  · rw [List.getElem?_eq_none (by simp; omega), List.getElem?_eq_none (by omega)]
    simp; omega

/-- One merge keeps the invariant. -/
theorem LoopInv.merge {n total : Nat} {T : List Node} {a b : QItem} {q : List QItem}
    (h : LoopInv n total T (a :: b :: q)) :
    LoopInv n total (T ++ [joinNode a b]) (insertQ (joinItem T.length a b) q) := by
  have hp := insertQ_perm (joinItem T.length a b) q
  have hmem : ∀ x, x ∈ insertQ (joinItem T.length a b) q ↔ x = joinItem T.length a b ∨ x ∈ q := fun x => by
    rw [hp.mem_iff, List.mem_cons]
  have hlt : ∀ x ∈ a :: b :: q, x.index < T.length := fun x hx => (h.shape x hx).index_lt
  have hidx : (joinItem T.length a b).index = T.length := rfl
  have hnd := h.nodup
  simp only [List.map_cons, List.nodup_cons, List.mem_cons, not_or] at hnd
  obtain ⟨⟨hab, haq⟩, hbq, hqq⟩ := hnd
  have hord := h.ordered
  have hord₁ := List.pairwise_cons.mp hord
  have hord₂ := List.pairwise_cons.mp hord₁.2
  have hwa : a.weight ≤ b.weight := by
    have := keyLt_iff.mp (hord₁.1 b (by simp)); omega
  have hwb : ∀ c ∈ q, b.weight ≤ c.weight := fun c hc => by
    have := keyLt_iff.mp (hord₂.1 c hc); omega
  have hjw : weightOf (T ++ [joinNode a b]) T.length = a.weight + b.weight := by
    rw [weightOf_of_get (nd := joinNode a b) List.getElem?_concat_length]; rfl
  have hqmap : ∀ y, y ∈ (insertQ (joinItem T.length a b) q).map QItem.index ↔ y = T.length ∨ y ∈ q.map QItem.index := by
    intro y
    rw [(hp.map QItem.index).mem_iff, List.map_cons, List.mem_cons, hidx]
  have hsum := h.sum
  simp only [List.map_cons, List.sum_cons] at hsum
  refine ⟨?_, ?_, ?_, ?_, ?_, ?_, ?_, ?_, ?_, ?_, ?_, ?_, ?_, ?_, ?_, ?_⟩
  · refine insertQ_ordered hord₂.2 fun y hy => ?_
    have := hlt y (by simp [hy])
    rw [hidx]; omega
  · rw [(hp.map QItem.index).nodup_iff, List.map_cons, List.nodup_cons]
    refine ⟨fun hc => ?_, hqq⟩
    obtain ⟨c, hc, he⟩ := List.mem_map.mp hc
    have := hlt c (by simp [hc])
    rw [hidx] at he; omega
  · have := h.count
    rw [hp.length_eq]
    simp only [List.length_append, List.length_cons, List.length_nil] at *
    omega
  · have := h.leafCount
    rw [List.length_append]; omega
  · intro c hc
    rcases (hmem c).mp hc with rfl | hc
    · exact ⟨⟨joinNode a b, List.getElem?_concat_length, rfl, rfl⟩,
        (h.shape a (by simp)).append _, (h.shape b (by simp)).append _⟩
    · exact (h.shape c (by simp [hc])).append _
  · intro c hc
    rcases (hmem c).mp hc with rfl | hc
    · rw [hidx, hjw]; rfl
    · rw [weightOf_append _ (hlt c (by simp [hc]))]
      exact h.weight c (by simp [hc])
  · refine (hp.flatMap_right _).trans ?_
    have := h.leaves
    simp only [List.flatMap_cons] at *
    rw [← List.append_assoc] at this
    exact this
  · rw [(hp.map QItem.weight).sum_eq, List.map_cons, List.sum_cons]
    show a.weight + b.weight + _ = _
    omega
  · intro x nd hx hg
    have := h.leafCount
    rw [List.getElem?_append_left (by omega)] at hg
    exact h.isLeaf x nd hx hg
  · intro x nd hx hg
    rcases Nat.lt_or_ge x T.length with hl | hl
    · rw [List.getElem?_append_left hl] at hg
      exact h.isNode x nd hx hg
    · have hxT : x = T.length := by
        by_contra hc
        rw [List.getElem?_eq_none (by simp; omega)] at hg
        cases hg
      subst hxT
      rw [List.getElem?_concat_length] at hg
      cases hg
      exact ⟨a.index, b.index, rfl, rfl, hlt a (by simp), hlt b (by simp), hab⟩
  · intro x y hc
    rw [hqmap]
    rcases childOf_append.mp hc with hc | ⟨hxT, hj⟩
    · have := h.childOut x y hc
      simp only [List.map_cons, List.mem_cons, not_or] at this
      refine ⟨this.1, ?_⟩
      rintro (rfl | h')
      · obtain ⟨nd, hg, -⟩ := hc
        have : x < T.length := by
          by_contra hc'
          rw [List.getElem?_eq_none (by omega)] at hg
          cases hg
        omega
      · exact this.2.2.2 h'
    · have hy : y = a.index ∨ y = b.index := by
        rcases hj with hj | hj
        · exact .inl (Option.some.inj hj).symm
        · exact .inr (Option.some.inj hj).symm
      subst hxT
      have ha := hlt a (by simp)
      have hb := hlt b (by simp)
      rcases hy with rfl | rfl
      · refine ⟨ha, ?_⟩
        rintro (h' | h')
        · omega
        · exact haq h'
      · refine ⟨hb, ?_⟩
        rintro (h' | h')
        · omega
        · exact hbq h'
  · intro y hy hn
    rw [hqmap] at hn
    push Not at hn
    have hyT : y < T.length := by
      rw [List.length_append, List.length_singleton] at hy
      omega
    by_cases hya : y = a.index
    · exact ⟨T.length, childOf_append.mpr (.inr ⟨rfl, .inl (by rw [hya]; rfl)⟩)⟩
    · by_cases hyb : y = b.index
      · exact ⟨T.length, childOf_append.mpr (.inr ⟨rfl, .inr (by rw [hyb]; rfl)⟩)⟩
      · obtain ⟨x, hx⟩ := h.parent y hyT (by
          simp only [List.map_cons, List.mem_cons, not_or]
          exact ⟨hya, hyb, hn.2⟩)
        exact ⟨x, childOf_append.mpr (.inl hx)⟩
  · intro x x' y hx hx'
    have hout : ∀ z, ChildOf T z y → (joinNode a b).left = some y ∨ (joinNode a b).right = some y → False := by
      intro z hz hj
      have := (h.childOut z y hz).2
      simp only [List.map_cons, List.mem_cons, not_or] at this
      rcases hj with hj | hj
      · exact this.1 (Option.some.inj hj).symm
      · exact this.2.1 (Option.some.inj hj).symm
    rcases childOf_append.mp hx with h1 | ⟨h1, h2⟩ <;> rcases childOf_append.mp hx' with h3 | ⟨h3, h4⟩
    · exact h.parentUnique x x' y h1 h3
    · exact (hout x h1 h4).elim
    · exact (hout x' h3 h2).elim
    · rw [h1, h3]
  · intro x nd hg
    rcases Nat.lt_or_ge x T.length with hl | hl
    · rw [List.getElem?_append_left hl] at hg
      exact h.weights x nd hg
    · have hxT : x = T.length := by
        by_contra hc
        rw [List.getElem?_eq_none (by simp; omega)] at hg
        cases hg
      subst hxT
      rw [List.getElem?_concat_length] at hg
      cases hg
      show a.weight + b.weight ≤ total
      omega
  · have key : ∀ x y : QItem, (x = a ∧ y = b) ∨ (x = b ∧ y = a) → y.tree.height ≤ x.tree.height →
        Nat.fib (x.tree.height + 1 + 2) ≤ a.weight + b.weight := by
      intro x y hxy hh
      have hx : x ∈ a :: b :: q := by rcases hxy with ⟨rfl, -⟩ | ⟨rfl, -⟩ <;> simp
      have hy : y ∈ a :: b :: q := by rcases hxy with ⟨-, rfl⟩ | ⟨-, rfl⟩ <;> simp
      have hs : a.weight + b.weight = x.weight + y.weight := by
        rcases hxy with ⟨rfl, rfl⟩ | ⟨rfl, rfl⟩ <;> omega
      have hfx := h.fib x hx
      have hfy := h.fib y hy
      have hsum2 : Nat.fib (x.tree.height + 1) ≤ y.weight := by
        cases ht : x.tree with
        | leaf i =>
          have : Nat.fib (y.tree.height + 2) ≥ 1 := Nat.fib_pos.mpr (by omega)
          show Nat.fib 1 ≤ _
          rw [Nat.fib_one]
          omega
        | node i l r =>
          obtain ⟨h1, h2, h3⟩ := h.fibChild x hx i l r ht
          have h4 := h3 y hy
          simp only [HTree.height]
          rcases le_total l.height r.height with hlr | hlr
          · rw [max_eq_right hlr]
            exact h2.trans h4.2
          · rw [max_eq_left hlr]
            exact h1.trans h4.1
      rw [hs, show x.tree.height + 1 + 2 = (x.tree.height + 1) + 2 from rfl, Nat.fib_add_two]
      have : Nat.fib (x.tree.height + 1 + 1) ≤ x.weight := hfx
      omega
    intro c hc
    rcases (hmem c).mp hc with rfl | hc
    · show Nat.fib (max a.tree.height b.tree.height + 1 + 2) ≤ a.weight + b.weight
      rcases le_total a.tree.height b.tree.height with hh | hh
      · rw [max_eq_right hh]; exact key b a (.inr ⟨rfl, rfl⟩) hh
      · rw [max_eq_left hh]; exact key a b (.inl ⟨rfl, rfl⟩) hh
    · exact h.fib c (by simp [hc])
  · have hA : weightOf (T ++ [joinNode a b]) a.tree.index = a.weight := by
      exact (weightOf_append _ (hlt a (by simp))).trans (h.weight a (by simp)).symm
    have hB : weightOf (T ++ [joinNode a b]) b.tree.index = b.weight := by
      exact (weightOf_append _ (hlt b (by simp))).trans (h.weight b (by simp)).symm
    intro c hc i l r hcr
    rcases (hmem c).mp hc with rfl | hc
    · simp only [joinItem, HTree.node.injEq] at hcr
      obtain ⟨rfl, rfl, rfl⟩ := hcr
      rw [hA, hB]
      refine ⟨h.fib a (by simp), h.fib b (by simp), fun d hd => ?_⟩
      rcases (hmem d).mp hd with rfl | hd
      · show _ ≤ a.weight + b.weight ∧ _ ≤ a.weight + b.weight
        omega
      · have := hwb d hd
        omega
    · obtain ⟨h1, h2, h3⟩ := h.fibChild c (by simp [hc]) i l r hcr
      have hs := h.shape c (by simp [hc])
      rw [hcr] at hs
      have hl := hs.2.1.index_lt
      have hr := hs.2.2.index_lt
      rw [weightOf_append _ hl, weightOf_append _ hr]
      refine ⟨h1, h2, fun d hd => ?_⟩
      rcases (hmem d).mp hd with rfl | hd
      · have := h3 a (by simp)
        show _ ≤ a.weight + b.weight ∧ _ ≤ a.weight + b.weight
        omega
      · exact h3 d (by simp [hd])

/-! ### The spec's run -/

theorem isLeast_congr {T : List Node} {Q Q' : List Nat} {a : Nat} (h : Q.Perm Q') (ha : IsLeast T Q a) : IsLeast T Q' a :=
  ⟨h.mem_iff.mp ha.1, fun x hx => ha.2 x (h.mem_iff.mpr hx)⟩

theorem MergeRun.congr {T T' : List Node} {Q : List Nat} {r : Nat} (h : MergeRun T Q T' r) :
    ∀ {Q' : List Nat}, Q.Perm Q' → MergeRun T Q' T' r := by
  induction h with
  | stop T r =>
    intro Q' hp
    rw [List.perm_singleton.mp hp.symm]
    exact .stop T r
  | merge ha hb rest ih =>
    intro Q' hp
    refine .merge (isLeast_congr hp ha) (isLeast_congr (hp.erase _) hb) (ih (((hp.erase _).erase _).cons _))

theorem isLeast_unique {T : List Node} {Q : List Nat} {a b : Nat} (ha : IsLeast T Q a) (hb : IsLeast T Q b) : a = b := by
  have h₁ := ha.2 b hb.1
  have h₂ := hb.2 a ha.1
  unfold KeyLe at *
  omega

theorem mergeRun_unique {T T₁ T₂ : List Node} {Q : List Nat} {r₁ r₂ : Nat} (h₁ : MergeRun T Q T₁ r₁)
    (h₂ : MergeRun T Q T₂ r₂) : T₁ = T₂ ∧ r₁ = r₂ := by
  induction h₁ with
  | stop T r =>
    cases h₂ with
    | stop => exact ⟨rfl, rfl⟩
    | merge ha hb rest =>
      have := List.mem_singleton.mp ha.1
      subst this
      simp [IsLeast] at hb
  | merge ha hb rest ih =>
    cases h₂ with
    | stop =>
      have := List.mem_singleton.mp ha.1
      subst this
      simp [IsLeast] at hb
    | merge ha' hb' rest' =>
      obtain rfl := isLeast_unique ha ha'
      obtain rfl := isLeast_unique hb hb'
      exact ih rest'

/-- The head of an ordered queue is the least key. -/
theorem isLeast_head {T : List Node} {a : QItem} {q : List QItem} (ho : Ordered (a :: q))
    (hw : ∀ x ∈ a :: q, x.weight = weightOf T x.index) : IsLeast T ((a :: q).map QItem.index) a.index := by
  refine ⟨by simp, ?_⟩
  intro x hx
  obtain ⟨c, hc, rfl⟩ := List.mem_map.mp hx
  unfold KeyLe
  rw [← hw a (by simp), ← hw c hc]
  rcases List.mem_cons.mp hc with rfl | hc
  · right; omega
  · have := keyLt_iff.mp ((List.pairwise_cons.mp ho).1 c hc)
    omega

/-- The model's loop is a run of the spec's and keeps the invariant. -/
theorem mergeNodes_run {n total : Nat} : ∀ (fuel : Nat) (T : List Node) (Q : List QItem), LoopInv n total T Q → Q ≠ [] →
    Q.length ≤ fuel + 1 → ∃ item, (mergeNodes fuel T.length Q).2 = [item] ∧
      LoopInv n total (T ++ (mergeNodes fuel T.length Q).1) [item] ∧
      MergeRun T (Q.map QItem.index) (T ++ (mergeNodes fuel T.length Q).1) item.index
  | fuel, T, [], _, hne, _ => absurd rfl hne
  | 0, T, [a], h, _, _ => ⟨a, rfl, by simpa [mergeNodes] using h, by simpa [mergeNodes] using MergeRun.stop T a.index⟩
  | _ + 1, T, [a], h, _, _ => ⟨a, rfl, by simpa [mergeNodes] using h, by simpa [mergeNodes] using MergeRun.stop T a.index⟩
  | 0, T, a :: b :: q, _, _, hl => by simp at hl
  | fuel + 1, T, a :: b :: q, h, _, hl => by
    have hp := insertQ_perm (joinItem T.length a b) q
    have hlen : (T ++ [joinNode a b]).length = T.length + 1 := by simp
    obtain ⟨item, h1, h2, h3⟩ := mergeNodes_run fuel (T ++ [joinNode a b]) (insertQ (joinItem T.length a b) q) h.merge
      (by intro hc; rw [hc] at hp; exact absurd hp.length_eq (by simp))
      (by rw [hp.length_eq]; simp at *; omega)
    rw [hlen] at h1 h2 h3
    refine ⟨item, h1, ?_, ?_⟩
    · rw [mergeNodes]
      simpa using h2
    · rw [mergeNodes]
      have hord₁ := List.pairwise_cons.mp h.ordered
      have hea : ((a :: b :: q).map QItem.index).erase a.index = (b :: q).map QItem.index := by simp
      have heb : ((b :: q).map QItem.index).erase b.index = q.map QItem.index := by simp
      refine .merge (a := a.index) (b := b.index) (isLeast_head h.ordered h.weight) ?_ ?_
      · rw [hea]
        exact isLeast_head hord₁.2 fun x hx => h.weight x (by simp at hx ⊢; tauto)
      · rw [hea, heb, ← h.weight a (by simp), ← h.weight b (by simp)]
        have h4 := h3.congr (hp.map QItem.index)
        simp only [List.append_assoc, List.singleton_append] at h4
        exact h4

end Sys2Proof.Machine
end

