-- ==== Sys2Proof/Laws/HuffmanCodes.lean ====
section
/-! SUPPORT. The Huffman build as a whole (45_entropy_coder.md R225, R232 to R235, R249): the model builds what the spec builds
and nothing else is a build; its codes are the edge paths, prefix-free, with Kraft sum 1, and no longer than the weights
allow. -/

namespace Sys2Proof.Machine

/-! ### Path codes -/

theorem pathCodes_fst : ∀ (t : HTree) (p : List Bool), (pathCodes t p).map Prod.fst = t.leaves
  | .leaf _, _ => rfl
  | .node _ l r, p => by
    rw [pathCodes, List.map_append, pathCodes_fst l, pathCodes_fst r, HTree.leaves]

theorem mem_pathCodes {T : List Node} : ∀ {t : HTree} {p bs : List Bool} {y : Nat}, Shape T t → (y, bs) ∈ pathCodes t p →
    ∃ cs, bs = p ++ cs ∧ EdgePath T t.index cs y
  | .leaf i, p, bs, y, _, h => by
    simp only [pathCodes, List.mem_singleton, Prod.mk.injEq] at h
    obtain ⟨rfl, rfl⟩ := h
    exact ⟨[], by simp, .here _⟩
  | .node i l r, p, bs, y, ⟨⟨nd, hg, hl, hr⟩, h₁, h₂⟩, h => by
    rw [pathCodes, List.mem_append] at h
    rcases h with h | h
    · obtain ⟨cs, rfl, hp⟩ := mem_pathCodes h₁ h
      exact ⟨true :: cs, by simp, .left (by simp [HTree.index, hg, hl]) hp⟩
    · obtain ⟨cs, rfl, hp⟩ := mem_pathCodes h₂ h
      exact ⟨false :: cs, by simp, .right (by simp [HTree.index, hg, hr]) hp⟩

theorem pathCodes_mem {T : List Node} : ∀ {t : HTree} {cs : List Bool} {y : Nat}, Shape T t → EdgePath T t.index cs y →
    (∃ nd, T[y]? = some nd ∧ nd.left = none ∧ nd.right = none) → ∀ p : List Bool, (y, p ++ cs) ∈ pathCodes t p
  | .leaf i, cs, y, ⟨nd, hg, hl, hr⟩, h, _, p => by
    cases h with
    | here => simp [pathCodes, HTree.index]
    | left h => simp [HTree.index, hg, hl] at h
    | right h => simp [HTree.index, hg, hr] at h
  | .node i l r, cs, y, ⟨⟨nd, hg, hl, hr⟩, h₁, h₂⟩, h, hy, p => by
    rw [pathCodes, List.mem_append]
    cases h with
    | here =>
      obtain ⟨nd', hg', hl', -⟩ := hy
      simp only [HTree.index] at hg'
      rw [hg] at hg'
      cases hg'
      rw [hl] at hl'
      cases hl'
    | left hc rest =>
      simp only [HTree.index, hg, Option.bind_some, hl, Option.some.injEq] at hc
      subst hc
      left
      have := pathCodes_mem h₁ rest hy (p ++ [true])
      simpa using this
    | right hc rest =>
      simp only [HTree.index, hg, Option.bind_some, hr, Option.some.injEq] at hc
      subst hc
      right
      have := pathCodes_mem h₂ rest hy (p ++ [false])
      simpa using this

theorem prefix_of_mem_pathCodes : ∀ {t : HTree} {p bs : List Bool} {y : Nat}, (y, bs) ∈ pathCodes t p → p <+: bs
  | .leaf _, p, bs, y, h => by
    simp only [pathCodes, List.mem_singleton, Prod.mk.injEq] at h
    rw [h.2]
  | .node _ l r, p, bs, y, h => by
    rw [pathCodes, List.mem_append] at h
    rcases h with h | h <;> exact (List.prefix_append _ _).trans (prefix_of_mem_pathCodes h)

/-- No code of a tree is a prefix of another (R249 item 2). -/
theorem pathCodes_prefixFree : ∀ (t : HTree) (p : List Bool),
    (pathCodes t p).Pairwise fun a b => ¬ a.2 <+: b.2 ∧ ¬ b.2 <+: a.2
  | .leaf _, _ => by simp [pathCodes]
  | .node _ l r, p => by
    rw [pathCodes, List.pairwise_append]
    refine ⟨pathCodes_prefixFree l _, pathCodes_prefixFree r _, ?_⟩
    rintro ⟨x, a⟩ ha ⟨y, b⟩ hb
    have hpa := prefix_of_mem_pathCodes ha
    have hpb := prefix_of_mem_pathCodes hb
    have key : ∀ u v : List Bool, p ++ [true] <+: u → p ++ [false] <+: v → ¬ u <+: v ∧ ¬ v <+: u := by
      intro u v hu hv
      have hne : ∀ w : List Bool, p ++ [true] <+: w → p ++ [false] <+: w → False := by
        intro w h₁ h₂
        have := List.prefix_of_prefix_length_le h₁ h₂ (by simp)
        rw [List.prefix_append_right_inj] at this
        simp at this
      exact ⟨fun h => hne v (hu.trans h) hv, fun h => hne u hu (hv.trans h)⟩
    exact key a b hpa hpb

/-- The Kraft sum of a tree's codes (R249 item 1). -/
theorem pathCodes_kraft : ∀ (t : HTree) (p : List Bool),
    ((pathCodes t p).map fun c => (1 / 2 : ℝ) ^ c.2.length).sum = (1 / 2) ^ p.length
  | .leaf _, _ => by simp [pathCodes]
  | .node _ l r, p => by
    rw [pathCodes, List.map_append, List.sum_append, pathCodes_kraft l, pathCodes_kraft r]
    simp only [List.length_append, List.length_singleton, pow_succ]
    ring

theorem pathCodes_length : ∀ {t : HTree} {p bs : List Bool} {y : Nat}, (y, bs) ∈ pathCodes t p →
    bs.length ≤ p.length + t.height
  | .leaf _, p, bs, y, h => by
    simp only [pathCodes, List.mem_singleton, Prod.mk.injEq] at h
    rw [h.2]; simp
  | .node _ l r, p, bs, y, h => by
    rw [pathCodes, List.mem_append] at h
    simp only [HTree.height]
    rcases h with h | h
    · have := pathCodes_length h
      simp only [List.length_append, List.length_singleton] at this
      omega
    · have := pathCodes_length h
      simp only [List.length_append, List.length_singleton] at this
      omega

/-! ### The initial queue -/

theorem leafItems_index : ∀ (i : Nat) (ft : List FtabEntry), (leafItems i ft).map QItem.index = List.range' i ft.length
  | _, [] => rfl
  | i, e :: es => by
    rw [leafItems, List.map_cons, leafItems_index (i + 1) es, List.length_cons, List.range'_succ]
    rfl

theorem leafItems_leaves : ∀ (i : Nat) (ft : List FtabEntry),
    ((leafItems i ft).flatMap fun q => q.tree.leaves) = List.range' i ft.length
  | _, [] => rfl
  | i, e :: es => by
    rw [leafItems, List.flatMap_cons, leafItems_leaves (i + 1) es, List.length_cons, List.range'_succ]
    rfl

theorem leafItems_weight : ∀ (i : Nat) (ft : List FtabEntry),
    (leafItems i ft).map QItem.weight = ft.map fun e => uval32 e.count
  | _, [] => rfl
  | i, e :: es => by rw [leafItems, List.map_cons, leafItems_weight (i + 1) es, List.map_cons]

theorem mem_leafItems : ∀ {i : Nat} {ft : List FtabEntry} {q : QItem}, q ∈ leafItems i ft →
    ∃ j e, ft[j]? = some e ∧ q = { weight := uval32 e.count, tree := .leaf (i + j) }
  | _, [], _, h => by simp [leafItems] at h
  | i, e :: es, q, h => by
    rw [leafItems, List.mem_cons] at h
    rcases h with rfl | h
    · exact ⟨0, e, rfl, rfl⟩
    · obtain ⟨j, d, hd, rfl⟩ := mem_leafItems h
      exact ⟨j + 1, d, by simpa using hd, by rw [Nat.add_assoc, Nat.add_comm 1]⟩

theorem foldr_insertQ_perm : ∀ q : List QItem, (q.foldr insertQ []).Perm q
  | [] => List.Perm.refl _
  | x :: xs => (insertQ_perm x _).trans ((foldr_insertQ_perm xs).cons x)

theorem foldr_insertQ_ordered : ∀ {q : List QItem}, (q.map QItem.index).Nodup → Ordered (q.foldr insertQ [])
  | [], _ => List.Pairwise.nil
  | x :: xs, h => by
    rw [List.map_cons, List.nodup_cons] at h
    refine insertQ_ordered (foldr_insertQ_ordered h.2) fun y hy he => ?_
    exact h.1 (List.mem_map.mpr ⟨y, (foldr_insertQ_perm xs).mem_iff.mp hy, he.symm⟩)

/-- The total of a table's counts. -/
def tableTotal (ft : List FtabEntry) : Nat := (ft.map fun e => uval32 e.count).sum

theorem ValidTable.count_pos {ft : List FtabEntry} (h : ValidTable ft) {i : Nat} {e : FtabEntry} (he : ft[i]? = some e) :
    1 ≤ uval32 e.count := by
  by_contra hc
  exact h.good i ⟨e, he, .inl (by omega)⟩

theorem ValidTable.total_le {ft : List FtabEntry} (h : ValidTable ft) : tableTotal ft ≤ 4294967295 := by
  by_contra hc
  have hp := h.pos
  have hlt : ft.length - 1 < ft.length := by omega
  refine h.good (ft.length - 1) ⟨_, List.getElem?_eq_getElem hlt, .inr (.inr ?_)⟩
  rw [Nat.sub_add_cancel hp, List.take_length]
  unfold tableTotal at hc
  omega

theorem initial_inv {ft : List FtabEntry} (h : ValidTable ft) :
    LoopInv ft.length (tableTotal ft) (ft.map leafOf) (initialQueue ft) := by
  have hp : (initialQueue ft).Perm (leafItems 0 ft) := foldr_insertQ_perm _
  have hidx : (leafItems 0 ft).map QItem.index = List.range ft.length := by
    rw [leafItems_index, List.range_eq_range']
  have hmem : ∀ q ∈ initialQueue ft, ∃ j e, ft[j]? = some e ∧ q = { weight := uval32 e.count, tree := .leaf j } := by
    intro q hq
    obtain ⟨j, e, he, hq⟩ := mem_leafItems (hp.mem_iff.mp hq)
    exact ⟨j, e, he, by simpa using hq⟩
  have hleaf : ∀ (x : Nat) (nd : Node), (ft.map leafOf)[x]? = some nd → ∃ e, ft[x]? = some e ∧ nd = leafOf e := by
    intro x nd hg
    rw [List.getElem?_map, Option.map_eq_some_iff] at hg
    obtain ⟨e, he, hn⟩ := hg
    exact ⟨e, he, hn.symm⟩
  have hno : ∀ x y, ¬ ChildOf (ft.map leafOf) x y := by
    rintro x y ⟨nd, hg, hc⟩
    obtain ⟨e, -, rfl⟩ := hleaf x nd hg
    simp [leafOf] at hc
  refine ⟨?_, ?_, ?_, by simp, ?_, ?_, ?_, ?_, ?_, ?_, ?_, ?_, ?_, ?_, ?_, ?_⟩
  · exact foldr_insertQ_ordered (by rw [hidx]; exact List.nodup_range)
  · rw [(hp.map QItem.index).nodup_iff, hidx]; exact List.nodup_range
  · rw [hp.length_eq, List.length_map]
    have := congrArg List.length hidx
    simp only [List.length_map, List.length_range] at this
    omega
  · intro q hq
    obtain ⟨j, e, he, rfl⟩ := hmem q hq
    exact ⟨leafOf e, by simp [he], rfl, rfl⟩
  · intro q hq
    obtain ⟨j, e, he, rfl⟩ := hmem q hq
    simp [QItem.index, HTree.index, weightOf, he, leafOf]
  · refine (hp.flatMap_right _).trans ?_
    rw [leafItems_leaves, ← List.range_eq_range']
  · rw [(hp.map QItem.weight).sum_eq, leafItems_weight]; rfl
  · intro x nd _ hg
    obtain ⟨e, -, rfl⟩ := hleaf x nd hg
    exact ⟨rfl, rfl⟩
  · intro x nd hx hg
    rw [List.getElem?_eq_none (by simpa using hx)] at hg
    cases hg
  · exact fun x y hc => (hno x y hc).elim
  · intro y hy hn
    refine (hn ?_).elim
    rw [(hp.map QItem.index).mem_iff, hidx, List.mem_range]
    simpa using hy
  · exact fun x _ y hc => (hno x y hc).elim
  · intro x nd hg
    obtain ⟨e, he, rfl⟩ := hleaf x nd hg
    refine List.single_le_sum (by simp) _ (List.mem_map.mpr ⟨e, List.mem_of_getElem? he, rfl⟩)
  · intro q hq
    obtain ⟨j, e, he, rfl⟩ := hmem q hq
    exact h.count_pos he
  · intro q hq i l r ht
    obtain ⟨j, e, he, rfl⟩ := hmem q hq
    cases ht

/-! ### The build -/

/-- The code the model gives leaf i. -/
def modelCode (tree : HTree) (i : Nat) : List Bool := codeOf (treeCodes tree) i

/-- What the model builds from a valid table: nodes T and a tree, the invariant at the loop's end, the spec's run. -/
structure ModelBuild (ft : List FtabEntry) (T : List Node) (tree : HTree) : Prop where
  nodes : (buildTree ft).nodes = T.map wordsOf
  codes : (buildTree ft).codes = (List.range ft.length).map (modelCode tree)
  root : (buildTree ft).root = tree.index
  inv : LoopInv ft.length (tableTotal ft) T [{ weight := weightOf T tree.index, tree := tree }]
  run : MergeRun (ft.map leafOf) (List.range ft.length) T tree.index

theorem exists_modelBuild {ft : List FtabEntry} (h : ValidTable ft) : ∃ T tree, ModelBuild ft T tree := by
  have hi := initial_inv h
  have hlen : (initialQueue ft).length = ft.length := by
    have := hi.count
    rw [List.length_map] at this
    omega
  have hp := h.pos
  have hidx : ((initialQueue ft).map QItem.index).Perm (List.range ft.length) := by
    have := (foldr_insertQ_perm (leafItems 0 ft)).map QItem.index
    rwa [leafItems_index, ← List.range_eq_range'] at this
  obtain ⟨item, h1, h2, h3⟩ := mergeNodes_run ft.length (ft.map leafOf) (initialQueue ft) hi
    (by intro hc; rw [hc] at hlen; simp at hlen; omega) (by omega)
  rw [List.length_map] at h1 h2 h3
  have hit : item = ⟨weightOf (ft.map leafOf ++ (mergeNodes ft.length ft.length (initialQueue ft)).1) item.tree.index,
      item.tree⟩ := by
    have hw := h2.weight item (by simp)
    unfold QItem.index at hw
    rw [← hw]
  refine ⟨_, item.tree, ?_, ?_, ?_, ?_, h3.congr hidx⟩
  · simp only [buildTree, mergeLoop_eq, List.map_append, List.map_map]
    congr 1
    exact List.map_congr_left fun e _ => leafNode_eq e
  · simp only [buildTree, mergeLoop_eq, h1]
    rfl
  · simp only [buildTree, mergeLoop_eq, h1]
    rfl
  · rw [hit] at h2; exact h2

theorem ModelBuild.shape {ft : List FtabEntry} {T : List Node} {tree : HTree} (h : ModelBuild ft T tree) : Shape T tree :=
  h.inv.shape _ (List.mem_singleton.mpr rfl)

theorem ModelBuild.leaves {ft : List FtabEntry} {T : List Node} {tree : HTree} (h : ModelBuild ft T tree) :
    tree.leaves.Perm (List.range ft.length) := by
  have := h.inv.leaves
  simpa using this

theorem ModelBuild.length {ft : List FtabEntry} {T : List Node} {tree : HTree} (h : ModelBuild ft T tree) :
    T.length = 2 * ft.length - 1 := by
  have := h.inv.count
  simp only [List.length_singleton] at this
  omega

theorem leaves_length_pos : ∀ t : HTree, 1 ≤ t.leaves.length
  | .leaf _ => by simp [HTree.leaves]
  | .node _ l r => by
    have := leaves_length_pos l
    simp only [HTree.leaves, List.length_append]; omega

/-- The tree is one leaf exactly when the table has one entry. -/
theorem ModelBuild.isLeaf {ft : List FtabEntry} {T : List Node} {tree : HTree} (h : ModelBuild ft T tree) :
    (ft.length = 1 ∧ tree = .leaf 0) ∨ (2 ≤ ft.length ∧ ∃ i l r, tree = .node i l r) := by
  have hl := h.leaves
  cases tree with
  | leaf i =>
    left
    have h1 := hl.length_eq
    simp only [HTree.leaves, List.length_singleton, List.length_range] at h1
    rw [← h1] at hl
    simp only [HTree.leaves, List.range_one] at hl
    have := List.singleton_perm_singleton.mp hl
    exact ⟨h1.symm, by rw [this]⟩
  | node i l r =>
    right
    have h1 := hl.length_eq
    simp only [HTree.leaves, List.length_append, List.length_range] at h1
    have := leaves_length_pos l
    have := leaves_length_pos r
    exact ⟨by omega, i, l, r, rfl⟩

theorem treeCodes_fst (t : HTree) : (treeCodes t).map Prod.fst = t.leaves := by
  cases t with
  | leaf i => rfl
  | node i l r => exact pathCodes_fst (.node i l r) []

theorem mem_of_codeOf {cs : List (Nat × List Bool)} {i : Nat} (h : i ∈ cs.map Prod.fst) : (i, codeOf cs i) ∈ cs := by
  unfold codeOf
  cases hf : cs.find? (fun c => c.1 == i) with
  | none =>
    rw [List.find?_eq_none] at hf
    obtain ⟨c, hc, rfl⟩ := List.mem_map.mp h
    exact (hf c hc (by simp)).elim
  | some c =>
    have h1 := List.find?_some hf
    have h2 := List.mem_of_find?_eq_some hf
    simp only [beq_iff_eq] at h1
    rw [← h1]
    exact h2

theorem codeOf_of_mem {cs : List (Nat × List Bool)} (hn : (cs.map Prod.fst).Nodup) {i : Nat} {c : List Bool}
    (h : (i, c) ∈ cs) : codeOf cs i = c := by
  have h' := mem_of_codeOf (List.mem_map.mpr ⟨_, h, rfl⟩ : i ∈ cs.map Prod.fst)
  exact congrArg Prod.snd (List.inj_on_of_nodup_map hn h' h rfl)

theorem ModelBuild.codes_nodup {ft : List FtabEntry} {T : List Node} {tree : HTree} (h : ModelBuild ft T tree) :
    ((treeCodes tree).map Prod.fst).Nodup := by
  rw [treeCodes_fst, h.leaves.nodup_iff]; exact List.nodup_range

theorem ModelBuild.mem_codes {ft : List FtabEntry} {T : List Node} {tree : HTree} (h : ModelBuild ft T tree) {i : Nat}
    (hi : i < ft.length) : (i, modelCode tree i) ∈ treeCodes tree := by
  refine mem_of_codeOf ?_
  rw [treeCodes_fst, h.leaves.mem_iff, List.mem_range]
  exact hi

/-- The model's build is the spec's (R225). -/
theorem ModelBuild.built {ft : List FtabEntry} {T : List Node} {tree : HTree} (h : ModelBuild ft T tree) :
    BuiltFrom ft T tree.index (modelCode tree) := by
  refine ⟨h.run, fun i hi => ?_⟩
  rcases h.isLeaf with ⟨h1, rfl⟩ | ⟨h1, j, l, r, rfl⟩
  · rw [if_pos h1]
    have hi0 : i = 0 := by omega
    subst hi0
    rfl
  · rw [if_neg (by omega)]
    obtain ⟨cs, h2, h3⟩ := mem_pathCodes h.shape (h.mem_codes hi)
    simp only [List.nil_append] at h2
    rw [h2]
    exact h3

/-- Nothing else is a build of the table. -/
theorem ModelBuild.unique {ft : List FtabEntry} {T T' : List Node} {tree : HTree} {root : Nat} {codes : Nat → List Bool}
    (h : ModelBuild ft T tree) (h' : BuiltFrom ft T' root codes) :
    T' = T ∧ root = tree.index ∧ ∀ i < ft.length, codes i = modelCode tree i := by
  obtain ⟨rfl, rfl⟩ := mergeRun_unique h'.run h.run
  refine ⟨rfl, rfl, fun i hi => ?_⟩
  have hc := h'.code i hi
  have hb := h.built.code i hi
  by_cases h1 : ft.length = 1
  · rw [if_pos h1] at hc hb
    rw [hc, hb]
  · rw [if_neg h1] at hc
    obtain ⟨-, j, l, r, rfl⟩ := h.isLeaf.resolve_left fun hx => h1 hx.1
    have hlt : i < T'.length := lt_of_lt_of_le hi h.inv.leafCount
    have := pathCodes_mem h.shape hc ⟨_, List.getElem?_eq_getElem hlt, h.inv.isLeaf i _ hi (List.getElem?_eq_getElem hlt)⟩ []
    exact (codeOf_of_mem h.codes_nodup this).symm

/-- A code is at least one bit long and no longer than the tree is high, or one bit for one leaf. -/
theorem ModelBuild.length_code {ft : List FtabEntry} {T : List Node} {tree : HTree} (h : ModelBuild ft T tree) {i : Nat}
    (hi : i < ft.length) : 1 ≤ (modelCode tree i).length ∧ (modelCode tree i).length ≤ max 1 tree.height := by
  have hm := h.mem_codes hi
  rcases h.isLeaf with ⟨h1, rfl⟩ | ⟨h1, j, l, r, rfl⟩
  · simp only [treeCodes, List.mem_singleton, Prod.mk.injEq] at hm
    rw [hm.2]
    simp
  · have h2 := pathCodes_length hm
    simp only [List.length_nil, Nat.zero_add] at h2
    refine ⟨?_, h2.trans (le_max_right _ _)⟩
    rw [treeCodes, pathCodes, List.mem_append] at hm
    rcases hm with hm | hm
    · have := (prefix_of_mem_pathCodes hm).length_le
      simpa using this
    · have := (prefix_of_mem_pathCodes hm).length_le
      simpa using this

/-- The weights bound the height (R235: Fibonacci). -/
theorem ModelBuild.fib_le {ft : List FtabEntry} {T : List Node} {tree : HTree} (h : ModelBuild ft T tree) :
    Nat.fib (tree.height + 2) ≤ tableTotal ft := by
  have h1 := h.inv.fib _ (List.mem_singleton.mpr rfl)
  have h2 := h.inv.sum
  simp only [List.map_cons, List.map_nil, List.sum_cons, List.sum_nil, Nat.add_zero] at h2
  rw [← h2]
  exact h1

/-- Codes of distinct leaves are not prefixes of each other. -/
theorem ModelBuild.prefixFree {ft : List FtabEntry} {T : List Node} {tree : HTree} (h : ModelBuild ft T tree) {i j : Nat}
    (hi : i < ft.length) (hj : j < ft.length) (hij : i ≠ j) : ¬ modelCode tree i <+: modelCode tree j := by
  rcases h.isLeaf with ⟨h1, -⟩ | ⟨-, k, l, r, rfl⟩
  · omega
  · have hmi := h.mem_codes hi
    have hmj := h.mem_codes hj
    have hp := pathCodes_prefixFree (.node k l r) []
    have hsym : ∀ a ∈ pathCodes (.node k l r) [], ∀ b ∈ pathCodes (.node k l r) [], a ≠ b → ¬ a.2 <+: b.2 := by
      intro a ha b hb hab
      rw [List.pairwise_iff_getElem] at hp
      obtain ⟨m, hm, rfl⟩ := List.mem_iff_getElem.mp ha
      obtain ⟨n, hn, rfl⟩ := List.mem_iff_getElem.mp hb
      rcases Nat.lt_trichotomy m n with hmn | hmn | hmn
      · exact (hp m n hm hn hmn).1
      · subst hmn; exact absurd rfl hab
      · exact (hp n m hn hm hmn).2
    exact hsym _ hmi _ hmj fun he => hij (congrArg Prod.fst he)

/-- The Kraft sum of the codes. -/
theorem ModelBuild.kraft {ft : List FtabEntry} {T : List Node} {tree : HTree} (h : ModelBuild ft T tree) :
    (∑ i ∈ Finset.range ft.length, (1 / 2 : ℝ) ^ (modelCode tree i).length) = if ft.length = 1 then 1 / 2 else 1 := by
  have hp : (treeCodes tree).Perm ((List.range ft.length).map fun i => (i, modelCode tree i)) := by
    refine (List.perm_ext_iff_of_nodup (List.Nodup.of_map _ h.codes_nodup) ?_).mpr ?_
    · refine List.Nodup.of_map Prod.fst ?_
      rw [List.map_map]
      exact List.Nodup.map (fun _ _ h => h) List.nodup_range
    · rintro ⟨i, c⟩
      constructor
      · intro hm
        have hi : i < ft.length := by
          have : i ∈ tree.leaves := by
            rw [← treeCodes_fst]
            exact List.mem_map.mpr ⟨_, hm, rfl⟩
          rwa [h.leaves.mem_iff, List.mem_range] at this
        refine List.mem_map.mpr ⟨i, List.mem_range.mpr hi, ?_⟩
        rw [Prod.mk.injEq]
        exact ⟨rfl, codeOf_of_mem h.codes_nodup hm⟩
      · intro hm
        obtain ⟨j, hj, he⟩ := List.mem_map.mp hm
        rw [← he]
        exact h.mem_codes (List.mem_range.mp hj)
  have hsum := (hp.map fun c => (1 / 2 : ℝ) ^ c.2.length).sum_eq
  rw [List.map_map] at hsum
  have hr : ((List.range ft.length).map ((fun c : Nat × List Bool => (1 / 2 : ℝ) ^ c.2.length) ∘ fun i => (i, modelCode tree i))).sum
      = ∑ i ∈ Finset.range ft.length, (1 / 2 : ℝ) ^ (modelCode tree i).length := by
    rw [Finset.sum_range, ← List.sum_ofFn, List.ofFn_eq_map]
    rw [← List.map_coe_finRange_eq_range, List.map_map]
    rfl
  rw [← hr, ← hsum]
  rcases h.isLeaf with ⟨h1, rfl⟩ | ⟨h1, j, l, r, rfl⟩
  · rw [if_pos h1]
    norm_num [treeCodes]
  · rw [if_neg (by omega), treeCodes, pathCodes_kraft]
    simp

end Sys2Proof.Machine
end

