-- ==== Sys2Proof/Laws/Hbuild.lean ====
section
/-! SUPPORT. What HBUILD leaves in TREE, CTAB, ROOT and MAXLEN (45_entropy_coder.md R225, R236), and when it fails (R226). -/

namespace Sys2Proof.Machine

theorem treeWords_get : ∀ {ns : List TreeNode} {x : Nat} {n : TreeNode}, ns[x]? = some n →
    (treeWords ns)[4 * x + 0]? = some n.weight ∧ (treeWords ns)[4 * x + 1]? = some n.left ∧
    (treeWords ns)[4 * x + 2]? = some n.right ∧ (treeWords ns)[4 * x + 3]? = some n.payload
  | [], _, _, h => by simp at h
  | m :: ms, 0, n, h => by
    simp only [List.getElem?_cons_zero, Option.some.injEq] at h
    subst h
    simp [treeWords]
  | m :: ms, x + 1, n, h => by
    have := treeWords_get (ns := ms) (x := x) (by simpa using h)
    simpa [treeWords, Nat.mul_add] using this

theorem length_treeWords (ns : List TreeNode) : (treeWords ns).length = 4 * ns.length := by
  simp [treeWords, List.length_flatMap]; omega

theorem ctabWords_get : ∀ {cs : List (List Bool)} {i : Nat} {c : List Bool}, cs[i]? = some c →
    (ctabWords cs)[2 * i + 0]? = some (encCount c.length) ∧ (ctabWords cs)[2 * i + 1]? = some (encCount (bitsValue c))
  | [], _, _, h => by simp at h
  | m :: ms, 0, c, h => by
    simp only [List.getElem?_cons_zero, Option.some.injEq] at h
    subst h
    simp [ctabWords]
  | m :: ms, i + 1, c, h => by
    have := ctabWords_get (cs := ms) (i := i) (by simpa using h)
    simpa [ctabWords, Nat.mul_add] using this

theorem length_ctabWords (cs : List (List Bool)) : (ctabWords cs).length = 2 * cs.length := by
  simp [ctabWords, List.length_flatMap]; omega

theorem foldl_bits : ∀ (bs : List Bool) (v : Nat),
    bs.foldl (fun v b => 2 * v + b.toNat) v = v * 2 ^ bs.length + codeValue bs
  | [], v => by simp [codeValue]
  | b :: bs, v => by
    rw [List.foldl_cons, foldl_bits bs, codeValue, List.length_cons, pow_succ]
    ring

theorem bitsValue_eq (bs : List Bool) : bitsValue bs = codeValue bs := by
  rw [bitsValue, foldl_bits]; simp

theorem foldl_max : ∀ (cs : List (List Bool)) (m : Nat), m ≤ cs.foldl (fun m c => max m c.length) m ∧
    (∀ c ∈ cs, c.length ≤ cs.foldl (fun m c => max m c.length) m) ∧
    (cs.foldl (fun m c => max m c.length) m = m ∨ ∃ c ∈ cs, c.length = cs.foldl (fun m c => max m c.length) m)
  | [], m => ⟨le_refl _, by simp, .inl rfl⟩
  | c :: cs, m => by
    obtain ⟨h1, h2, h3⟩ := foldl_max cs (max m c.length)
    rw [List.foldl_cons]
    refine ⟨(le_max_left _ _).trans h1, ?_, ?_⟩
    · intro d hd
      rcases List.mem_cons.mp hd with rfl | hd
      · exact (le_max_right _ _).trans h1
      · exact h2 d hd
    · rcases h3 with h3 | ⟨d, hd, he⟩
      · rcases le_total m c.length with h | h
        · right
          exact ⟨c, by simp, by rw [h3, max_eq_right h]⟩
        · left
          rw [h3, max_eq_left h]
      · right
        exact ⟨d, by simp [hd], he⟩

theorem le_maxLength {cs : List (List Bool)} {c : List Bool} (h : c ∈ cs) : c.length ≤ maxLength cs :=
  (foldl_max cs 0).2.1 c h

theorem maxLength_mem {cs : List (List Bool)} (h : 1 ≤ maxLength cs) : ∃ c ∈ cs, c.length = maxLength cs := by
  rcases (foldl_max cs 0).2.2 with h' | h'
  · unfold maxLength at h; omega
  · exact h'

/-- What a successful HBUILD stores holds the build. -/
theorem ModelBuild.holds {ft : List FtabEntry} {T : List Node} {tree : HTree} (h : ModelBuild ft T tree)
    (hle : ft.length ≤ 4096) (hlen : ∀ i < ft.length, (modelCode tree i).length ≤ 32) (m : Memory) {r : Regs}
    (hroot : r.root = encCount (buildTree ft).root) (hmax : r.maxlen = encCount (maxLength (buildTree ft).codes)) :
    HoldsBuild (storeBuf (storeBuf m .tree 0 (treeWords (buildTree ft).nodes)) .ctab 0 (ctabWords (buildTree ft).codes)) r
      T tree.index ft.length (modelCode tree) := by
  have hT := h.length
  have hpos : 1 ≤ ft.length := by
    have := h.isLeaf; omega
  have htree : ∀ {x : Nat} {nd : Node} {f : Nat} {w : Word}, T[x]? = some nd → f < 4 →
      (treeWords (buildTree ft).nodes)[4 * x + f]? = some w →
      Holds (storeBuf (storeBuf m .tree 0 (treeWords (buildTree ft).nodes)) .ctab 0 (ctabWords (buildTree ft).codes)) .tree x f w := by
    intro x nd f w hx hf hw
    have hxl : x < T.length := by
      by_contra hc
      rw [List.getElem?_eq_none (by omega)] at hx
      cases hx
    have hin := bufAddr_in_window (b := .tree) (i := x) (f := f) (by show _ < 8192; omega) hf
    refine holds_congr ?_ (holds_storeBuf (m := m) hw hf (by show _ < 8192; omega))
    intro k hk hk'
    refine byteAt_storeBuf_of_outside_window ?_
    have hd := windows_disjoint (b := .tree) (c := .ctab) (by decide)
    omega
  have hnd : ∀ {x : Nat} {nd : Node}, T[x]? = some nd → (buildTree ft).nodes[x]? = some (wordsOf nd) := by
    intro x nd hx
    rw [h.nodes, List.getElem?_map, hx]
    rfl
  have hctab : ∀ i < ft.length, (buildTree ft).codes[i]? = some (modelCode tree i) := by
    intro i hi
    rw [h.codes]
    simp [hi]
  have hmem : ∀ i < ft.length, modelCode tree i ∈ (buildTree ft).codes := fun i hi => List.mem_of_getElem? (hctab i hi)
  have hmax1 : 1 ≤ maxLength (buildTree ft).codes :=
    ((h.length_code (i := 0) (by omega)).1).trans (le_maxLength (hmem 0 (by omega)))
  obtain ⟨c, hc, hce⟩ := maxLength_mem hmax1
  have hc' : ∃ i < ft.length, modelCode tree i = c := by
    rw [h.codes] at hc
    obtain ⟨i, hi, he⟩ := List.mem_map.mp hc
    exact ⟨i, List.mem_range.mp hi, he⟩
  obtain ⟨i₀, hi₀, rfl⟩ := hc'
  have hmax32 : maxLength (buildTree ft).codes ≤ 32 := by rw [← hce]; exact hlen i₀ hi₀
  have hmaxv : uval32 r.maxlen = maxLength (buildTree ft).codes := by rw [hmax]; exact uval32_encCount (by omega)
  refine ⟨?_, ?_, ?_, ?_, ?_, ?_, ?_, ?_, ?_⟩
  · intro x nd hx
    exact htree hx (by omega) (treeWords_get (hnd hx)).1
  · intro x nd hx
    exact htree hx (by omega) (treeWords_get (hnd hx)).2.1
  · intro x nd hx
    exact htree hx (by omega) (treeWords_get (hnd hx)).2.2.1
  · intro x nd hx
    exact htree hx (by omega) (treeWords_get (hnd hx)).2.2.2
  · intro i hi
    exact holds_storeBuf (ctabWords_get (hctab i hi)).1 (by decide) (by show _ < 4096; omega)
  · intro i hi
    have := (ctabWords_get (hctab i hi)).2
    rw [bitsValue_eq] at this
    exact holds_storeBuf this (by decide) (by show _ < 4096; omega)
  · have hidx := h.shape.index_lt
    rw [hroot, h.root]
    exact uval32_encCount (by omega)
  · intro i hi
    rw [hmaxv]
    exact le_maxLength (hmem i hi)
  · exact ⟨i₀, hi₀, by rw [hmaxv]; exact hce⟩

/-- No code is longer than CODEMAX exactly when HBUILD completes OK. -/
theorem ModelBuild.findIdx_none {ft : List FtabEntry} {T : List Node} {tree : HTree} (h : ModelBuild ft T tree) :
    (buildTree ft).codes.findIdx? (fun c => decide (Config.codemax < c.length)) = none ↔
      ∀ i < ft.length, (modelCode tree i).length ≤ 32 := by
  rw [h.codes, List.findIdx?_eq_none_iff]
  simp only [List.mem_map, List.mem_range, Config.codemax, decide_eq_false_iff_not]
  constructor
  · intro hx i hi
    have := hx _ ⟨i, hi, rfl⟩
    omega
  · rintro hx c ⟨i, hi, rfl⟩
    have := hx i hi
    omega

/-- HBUILD names the first code longer than CODEMAX (R226). -/
theorem ModelBuild.findIdx_some {ft : List FtabEntry} {T : List Node} {tree : HTree} (h : ModelBuild ft T tree) {i : Nat}
    (hi : i < ft.length) (hl : 32 < (modelCode tree i).length) (hs : ∀ j < i, (modelCode tree j).length ≤ 32) :
    (buildTree ft).codes.findIdx? (fun c => decide (Config.codemax < c.length)) = some i := by
  rw [h.codes, List.findIdx?_eq_some_iff_getElem]
  refine ⟨by simpa using hi, by simpa using hl, ?_⟩
  intro j hj
  have := hs j hj
  simpa using this

/-- HBUILD on a valid table: the build stored, or CAPACITY. -/
theorem hbuild_cases {s : State} {ft : List FtabEntry} (hft : ft = readFtab s (uval32 s.regs.ndist)) (hv : ValidTable ft) :
    ∃ T tree, ModelBuild ft T tree ∧
      ((∀ i < ft.length, (modelCode tree i).length ≤ 32) → ∃ r, runCommand .hbuild s = .ok (nextDraw { s with
          mem := storeBuf (storeBuf s.mem .tree 0 (treeWords (buildTree ft).nodes)) .ctab 0 (ctabWords (buildTree ft).codes)
          regs := r }) ∧
        r = { s.regs with
          root := r.root
          maxlen := r.maxlen
          status := { s.regs.status with treeValid := true } } ∧
        r.root = encCount (buildTree ft).root ∧ r.maxlen = encCount (maxLength (buildTree ft).codes)) ∧
      (∀ i < ft.length, 32 < (modelCode tree i).length → (∀ j < i, (modelCode tree j).length ≤ 32) →
        runCommand .hbuild s = dataError .hbuild .capacity i
          { s with regs := { s.regs with status := { s.regs.status with treeValid := false } } }) := by
  obtain ⟨T, tree, h⟩ := exists_modelBuild hv
  have hrun : runCommand .hbuild s = hbuildWork s := runPrimitive_of_passes (hbuild_passes.mpr (by rw [← hft]; exact hv))
  have hres : hbuildResult s = buildTree ft := by rw [hbuildResult, ← hft]
  refine ⟨T, tree, h, fun hl => ?_, fun i hi hl hs => ?_⟩
  · refine ⟨{ s.regs with
      root := encCount (buildTree ft).root
      maxlen := encCount (maxLength (buildTree ft).codes)
      status := { s.regs.status with treeValid := true } }, ?_, rfl, rfl, rfl⟩
    rw [hrun, hbuildWork, hres, h.findIdx_none.mpr hl]
    rfl
  · rw [hrun, hbuildWork, hres, h.findIdx_some hi hl hs]

end Sys2Proof.Machine
end

