-- ==== Sys2Proof/Laws/Transform.lean ====
section
/-! SUPPORT. FDCT and IDCT over whole buffers: every element is the exact real DCT-II or DCT-III value, rounded once
(43_transform.md R180, R188), and every IDCT value fits (R189). -/

namespace Sys2Proof.Machine

/-- Element lookup in a list of equal blocks. -/
theorem getElem?_blocks {α : Type} (f : Nat → Nat → α) (blocks k b j : Nat) (hb : b < blocks) (hj : j < k) :
    ((List.range blocks).flatMap fun blk => (List.range k).map (f blk))[b * k + j]? = some (f b j) := by
  induction blocks generalizing b with
  | zero => omega
  | succ n ih =>
    rw [List.range_succ, List.flatMap_append]
    have hlen : ∀ m, ((List.range m).flatMap fun blk => (List.range k).map (f blk)).length = m * k := by
      intro m
      simp [List.length_flatMap]
    rcases Nat.lt_or_ge b n with h | h
    · have : b * k + j < n * k := by
        have := Nat.mul_le_mul_right k (show b + 1 ≤ n by omega)
        rw [Nat.add_mul] at this
        omega
      rw [List.getElem?_append_left (by rw [hlen]; exact this)]
      exact ih b h
    · obtain rfl : b = n := by omega
      rw [List.getElem?_append_right (by rw [hlen]; omega), hlen, Nat.add_sub_cancel_left]
      simp [hj]

theorem length_transformBlocks (s : State) (b : Buffer) (k blocks : Nat) (f : List Int → Nat → Int) :
    (transformBlocks s b k blocks f).length = blocks * k := by
  simp [transformBlocks, List.length_flatMap]

theorem getElem?_transformBlocks (s : State) (src : Buffer) (k blocks b j : Nat) (f : List Int → Nat → Int) (hb : b < blocks)
    (hj : j < k) : (transformBlocks s src k blocks f)[b * k + j]? = some (f (readBlock s src k b) j) :=
  getElem?_blocks (fun blk => f (readBlock s src k blk)) blocks k b j hb hj

theorem readBlock_eq (s : State) (src : Buffer) (k b : Nat) :
    readBlock s src k b = (List.range k).map fun n => sval32 (bufWord s src (b * k + n) 0) := by
  simp [readBlock, bufWords, List.map_map, Function.comp_def]

theorem natAbs_sval32_le (w : Word) : (sval32 w).natAbs ≤ 2 ^ 31 := by
  have := sval32_range w
  omega

/-- One FDCT coefficient of a block. -/
theorem fdct_block {K : Nat} (h₁ : 1 ≤ K) (h₂ : K ≤ 16) (s : State) (src : Buffer) (b j : Nat) :
    fdctValue (cosTable K) K (readBlock s src K b) j
      = roundHaz (dct2 K (fun n => sval32 (bufWord s src (b * K + n) 0)) j) := by
  rw [readBlock_eq, fdctValue_eq h₁ h₂ (by simpa using h₂)]
  · unfold dct2
    congr 1
    rw [List.length_map, List.length_range]
    refine Finset.sum_congr rfl fun i hi => ?_
    rw [Finset.mem_range] at hi
    simp [List.getD_eq_getElem?_getD, hi]
  · intro x hx
    simp only [List.mem_map] at hx
    obtain ⟨n, -, rfl⟩ := hx
    exact natAbs_sval32_le _

/-- One IDCT value of a block. -/
theorem idct_block {K : Nat} (h₁ : 1 ≤ K) (h₂ : K ≤ 16) (s : State) (src : Buffer) (b j : Nat) :
    idctValue (cosTable K) K (readBlock s src K b) j
      = roundHaz (dct3 K (fun n => sval32 (bufWord s src (b * K + n) 0)) j * 2 ^ 24) := by
  obtain ⟨m, rfl⟩ : ∃ m, K = m + 1 := ⟨K - 1, by omega⟩
  rw [readBlock_eq, List.range_succ_eq_map, List.map_cons, List.map_map]
  rw [idctValue_eq h₁ h₂ (by simpa using h₂)]
  · have hsum : ∑ i ∈ Finset.range (((List.range m).map ((fun n => sval32 (bufWord s src (b * (m + 1) + n) 0)) ∘ Nat.succ)).length),
        ((((List.range m).map ((fun n => sval32 (bufWord s src (b * (m + 1) + n) 0)) ∘ Nat.succ)).getD i 0 : ℤ) : ℝ)
          * Real.cos (Real.pi / ((m + 1 : ℕ) : ℝ) * ((i : ℝ) + 1) * ((j : ℝ) + 1 / 2))
        = ∑ n ∈ Finset.Ico 1 (m + 1), (sval32 (bufWord s src (b * (m + 1) + n) 0) : ℝ)
          * Real.cos (Real.pi / ((m + 1 : ℕ) : ℝ) * n * ((j : ℝ) + 1 / 2)) := by
      rw [List.length_map, List.length_range, Finset.sum_Ico_eq_sum_range, Nat.add_sub_cancel]
      refine Finset.sum_congr rfl fun i hi => ?_
      rw [Finset.mem_range] at hi
      have hg : ((List.range m).map ((fun n => sval32 (bufWord s src (b * (m + 1) + n) 0)) ∘ Nat.succ)).getD i 0
          = sval32 (bufWord s src (b * (m + 1) + (1 + i)) 0) := by
        simp [List.getD_eq_getElem?_getD, hi, add_comm]
      rw [hg, Nat.cast_add m 1, Nat.cast_add 1 i, Nat.cast_one, add_comm (1 : ℝ) (i : ℝ)]
    rw [hsum]
    rfl
  · intro x hx
    simp only [List.mem_cons, List.mem_map] at hx
    rcases hx with rfl | ⟨n, -, rfl⟩ <;> exact natAbs_sval32_le _

/-- R189: a DCT-III value of 32-bit coefficients, times 2^24, fits 64 bits. -/
theorem idct_fits {K : Nat} (h₁ : 1 ≤ K) (c : Nat → Int) (hc : ∀ n, -2 ^ 31 ≤ c n ∧ c n ≤ 2 ^ 31) (k : Nat) :
    -2 ^ 63 ≤ roundHaz (dct3 K c k * 2 ^ 24) ∧ roundHaz (dct3 K c k * 2 ^ 24) < 2 ^ 63 := by
  have hK : (1 : ℝ) ≤ K := by exact_mod_cast h₁
  have hb : ∀ n, |(c n : ℝ)| ≤ 2 ^ 31 := by
    intro n
    rw [abs_le]
    constructor <;> exact_mod_cast by have := hc n; omega
  have hsum : |∑ n ∈ Finset.Ico 1 K, (c n : ℝ) * Real.cos (Real.pi / K * n * (k + 1 / 2))| ≤ K * 2 ^ 31 := by
    refine (Finset.abs_sum_le_sum_abs _ _).trans ?_
    calc ∑ n ∈ Finset.Ico 1 K, |(c n : ℝ) * Real.cos (Real.pi / K * n * (k + 1 / 2))|
        ≤ ∑ n ∈ Finset.Ico 1 K, (2 : ℝ) ^ 31 := by
          refine Finset.sum_le_sum fun n _ => ?_
          rw [abs_mul]
          have h1 := Real.abs_cos_le_one (Real.pi / K * n * (k + 1 / 2))
          have h2 := hb n
          have h3 := abs_nonneg (c n : ℝ)
          nlinarith
      _ = (K - 1 : ℕ) * (2 : ℝ) ^ 31 := by simp
      _ ≤ K * 2 ^ 31 := by
          have : ((K - 1 : ℕ) : ℝ) ≤ K := by exact_mod_cast Nat.sub_le K 1
          nlinarith
  have hd : |dct3 K c k| ≤ 2 ^ 34 := by
    unfold dct3
    rw [abs_mul, abs_of_nonneg (by positivity : (0 : ℝ) ≤ 2 / K), div_mul_eq_mul_div, div_le_iff₀ (by linarith)]
    have h0 : |1 / 2 * (c 0 : ℝ)| ≤ 2 ^ 30 := by
      rw [abs_mul]
      have := hb 0
      norm_num
      linarith
    have := (abs_add_le (1 / 2 * (c 0 : ℝ)) (∑ n ∈ Finset.Ico 1 K, (c n : ℝ) * Real.cos (Real.pi / K * n * (k + 1 / 2)))).trans
      (add_le_add h0 hsum)
    nlinarith
  rw [abs_le] at hd
  constructor
  · refine le_roundHaz ?_
    push_cast
    linarith [hd.1]
  · have : roundHaz (dct3 K c k * 2 ^ 24) ≤ 2 ^ 62 := roundHaz_le (by push_cast; linarith [hd.2])
    omega

end Sys2Proof.Machine
end

