-- ==== Sys2Proof/Laws/Stream.lean ====
section
/-! SUPPORT. The bit stream in BITS (10_state.md R50, 45_entropy_coder.md R242): packing and reading, and codes as words. -/

namespace Sys2Proof.Machine

theorem codeValue_lt : ∀ bs : List Bool, codeValue bs < 2 ^ bs.length
  | [] => by simp [codeValue]
  | b :: bs => by
    have := codeValue_lt bs
    rw [codeValue, List.length_cons, pow_succ]
    cases b <;> simp <;> omega

/-- Bit j of a code is bit LEN − 1 − j of its value (10_state.md R47). -/
theorem testBit_codeValue : ∀ (bs : List Bool) (j : Nat) (b : Bool), bs[j]? = some b →
    (codeValue bs).testBit (bs.length - 1 - j) = b
  | [], j, b, h => by simp at h
  | c :: bs, 0, b, h => by
    simp only [List.getElem?_cons_zero, Option.some.injEq] at h
    subst h
    have := codeValue_lt bs
    rw [codeValue, List.length_cons, Nat.add_sub_cancel, Nat.sub_zero]
    cases c
    · simp only [Bool.toNat_false, zero_mul, zero_add]
      exact Nat.testBit_lt_two_pow this
    · simp only [Bool.toNat_true, one_mul]
      rw [Nat.testBit_two_pow_add_eq, Nat.testBit_lt_two_pow this]
      rfl
  | c :: bs, j + 1, b, h => by
    have h' : bs[j]? = some b := by simpa using h
    have hj : j < bs.length := by
      by_contra hc
      rw [List.getElem?_eq_none (by omega)] at h'
      cases h'
    have ih := testBit_codeValue bs j b h'
    rw [codeValue, List.length_cons, show bs.length + 1 - 1 - (j + 1) = bs.length - 1 - j by omega]
    cases c
    · simp only [Bool.toNat_false, zero_mul, zero_add]; exact ih
    · simp only [Bool.toNat_true, one_mul]
      rw [Nat.testBit_two_pow_add_gt (by omega)]
      exact ih

theorem codeBits_length (l : Nat) (c : Word) : (codeBits l c).length = l := by simp [codeBits]

/-- The bits HENC writes for a stored code are the code (45_entropy_coder.md R240). -/
theorem codeBits_code {bs : List Bool} (h : bs.length ≤ 32) : codeBits bs.length (encCount (codeValue bs)) = bs := by
  apply List.ext_getElem?
  intro j
  rcases Nat.lt_or_ge j bs.length with hj | hj
  · have := testBit_codeValue bs j bs[j] (List.getElem?_eq_getElem hj)
    rw [List.getElem?_eq_getElem hj, codeBits, List.getElem?_map, List.getElem?_range hj]
    simp only [Option.map_some, Option.some.injEq, encCount, BitVec.getLsbD_ofNat]
    rw [this]
    simp only [Config.dataW, Bool.and_eq_right_iff_imp, decide_eq_true_eq]
    omega
  · rw [List.getElem?_eq_none (by rw [codeBits_length]; omega), List.getElem?_eq_none (by omega)]

theorem packWord_eq (bs : List Bool) : packWord bs = encCount (bitsValue (bs ++ List.replicate (32 - bs.length) false)) := rfl

theorem packWords_succ (n : Nat) (bs : List Bool) : packWords (n + 1) bs = packWord (bs.take 32) :: packWords n (bs.drop 32) := rfl

theorem wordStream_eq (w : Word) : wordStream w = (List.range 32).map fun t => w.getLsbD (31 - t) := rfl

theorem getLsbD_packWord {bs : List Bool} (h : bs.length ≤ 32) {j : Nat} (hj : j < 32) :
    (packWord bs).getLsbD (31 - j) = bs.getD j false := by
  have hlen : (bs ++ List.replicate (32 - bs.length) false).length = 32 := by simp; omega
  have hb : (bs ++ List.replicate (32 - bs.length) false)[j]? = some (bs.getD j false) := by
    rcases Nat.lt_or_ge j bs.length with hl | hl
    · rw [List.getElem?_append_left hl, List.getElem?_eq_getElem hl, List.getD_eq_getElem _ _ hl]
    · rw [List.getElem?_append_right hl, List.getElem?_replicate, if_pos (by omega), List.getD_eq_default _ _ hl]
  have := testBit_codeValue _ j _ hb
  rw [hlen] at this
  rw [packWord_eq, bitsValue_eq, encCount, BitVec.getLsbD_ofNat, this]
  simp only [Config.dataW, Bool.and_eq_right_iff_imp, decide_eq_true_eq]
  omega

theorem packWords_length : ∀ (n : Nat) (bs : List Bool), (packWords n bs).length = n
  | 0, _ => rfl
  | n + 1, bs => by simp [packWords, packWords_length n]

theorem packWords_get : ∀ (n q : Nat) (bs : List Bool), q < n →
    (packWords n bs)[q]? = some (packWord ((bs.drop (32 * q)).take 32))
  | 0, _, _, h => by omega
  | n + 1, 0, bs, _ => by simp [packWords]
  | n + 1, q + 1, bs, h => by
    have := packWords_get n q (bs.drop 32) (by omega)
    rw [List.drop_drop] at this
    rw [packWords_succ, List.getElem?_cons_succ, this, Nat.mul_add, Nat.mul_one, Nat.add_comm 32]

/-- Bit 31 − j of word q of a packed stream is stream bit 32q + j. -/
theorem getLsbD_packWords (bs : List Bool) (q : Nat) {j : Nat} (hj : j < 32) :
    (packWord ((bs.drop (32 * q)).take 32)).getLsbD (31 - j) = bs.getD (32 * q + j) false := by
  rw [getLsbD_packWord (by simp) hj]
  simp only [List.getD_eq_getElem?_getD, List.getElem?_take, List.getElem?_drop, if_pos hj]

/-- The decoder's stream is the bits of BITS (10_state.md R50). -/
theorem streamBits_eq (s : State) (n : Nat) : streamBits s n = (List.range n).map (streamBit s) := by
  have hlen : n ≤ ceilDiv n 32 * 32 := le_ceilDiv_mul (by decide)
  have hflat : (bufWords s .bits 0 (ceilDiv n 32)).flatMap wordStream
      = (List.range (ceilDiv n 32)).flatMap fun q => (List.range 32).map fun t => (bufWord s .bits q 0).getLsbD (31 - t) := by
    simp [bufWords, List.flatMap_map, wordStream_eq]
  unfold streamBits
  rw [hflat]
  apply List.ext_getElem?
  intro p
  rcases Nat.lt_or_ge p n with hp | hp
  · have := getElem?_blocks (fun q t => (bufWord s .bits q 0).getLsbD (31 - t)) (ceilDiv n 32) 32 (p / 32) (p % 32)
      (by omega) (Nat.mod_lt _ (by decide))
    rw [show p / 32 * 32 + p % 32 = p by omega] at this
    rw [List.getElem?_take, if_pos hp, this, List.getElem?_map, List.getElem?_range hp]
    rfl
  · rw [List.getElem?_eq_none (by simp; omega), List.getElem?_eq_none (by simpa using hp)]

theorem streamBits_length (s : State) (n : Nat) : (streamBits s n).length = n := by simp [streamBits_eq]

/-- A stream that BITS holds, packed, reads back. -/
theorem streamBits_of_packed {s : State} {bs : List Bool} (hle : bs.length ≤ 131072)
    (h : ∀ q, q < ceilDiv bs.length 32 → Holds s.mem .bits q 0 (packWord ((bs.drop (32 * q)).take 32))) :
    streamBits s bs.length = bs := by
  rw [streamBits_eq]
  apply List.ext_getElem?
  intro p
  rcases Nat.lt_or_ge p bs.length with hp | hp
  · have hc := le_ceilDiv_mul (n := bs.length) (k := 32) (by decide)
    have hc' := ceilDiv_mul_lt (n := bs.length) (k := 32) (by decide)
    have hq : p / 32 < ceilDiv bs.length 32 := by omega
    have hw := bufWord_of_holds (h (p / 32) hq) (by show _ < 4096; omega)
    rw [List.getElem?_map, List.getElem?_range hp, List.getElem?_eq_getElem hp]
    simp only [Option.map_some, Option.some.injEq]
    rw [streamBit, hw, getLsbD_packWords bs (p / 32) (Nat.mod_lt _ (by decide)), show 32 * (p / 32) + p % 32 = p by omega,
      List.getD_eq_getElem _ _ hp]
  · rw [List.getElem?_eq_none (by simpa using hp), List.getElem?_eq_none hp]

end Sys2Proof.Machine
end

