-- ==== Sys2Proof/Laws/Hdec.lean ====
section
/-! SUPPORT. HENC's concatenation and HDEC's walk (45_entropy_coder.md R240 to R248), and that the walk of a code in a stored
tree ends at its leaf. -/

namespace Sys2Proof.Machine

/-! ### HENC -/

theorem symbolIndex_eq {ft : List FtabEntry} {sym : Word} {i : Nat} {e : FtabEntry} (he : ft[i]? = some e)
    (hs : e.symbol = sym) (hu : ∀ j d, ft[j]? = some d → d.symbol = sym → j = i) : symbolIndex ft sym = some i := by
  have hi : i < ft.length := by
    by_contra hc
    rw [List.getElem?_eq_none (by omega)] at he
    cases he
  rw [symbolIndex, List.findIdx?_eq_some_iff_getElem]
  refine ⟨hi, ?_, ?_⟩
  · rw [List.getElem?_eq_getElem hi, Option.some.injEq] at he
    rw [he, hs]; simp
  · intro j hj hc
    simp only [beq_iff_eq] at hc
    have := hu j _ (List.getElem?_eq_getElem (by omega)) hc
    omega

theorem symbolIndex_eq_none {ft : List FtabEntry} {sym : Word} :
    symbolIndex ft sym = none ↔ ∀ e ∈ ft, e.symbol ≠ sym := by
  rw [symbolIndex, List.findIdx?_eq_none_iff]
  simp

/-- Every symbol has a code: the stream is the codes one after another (R240). -/
theorem encodeSymbols_ok (s : State) (ft : List FtabEntry) (code : Word → List Bool) : ∀ (syms : List Word) (j : Nat),
    (∀ x ∈ syms, symbolCode s ft x = some (code x)) → encodeSymbols s ft j syms = .ok (syms.flatMap code)
  | [], _, _ => rfl
  | x :: xs, j, h => by
    rw [encodeSymbols, h x (by simp)]
    simp only
    rw [encodeSymbols_ok s ft code xs (j + 1) fun y hy => h y (by simp [hy])]
    rfl

/-- The first symbol with no code is reported (R241). -/
theorem encodeSymbols_error (s : State) (ft : List FtabEntry) : ∀ (before : List Word) (x : Word) (after : List Word) (j : Nat),
    (∀ y ∈ before, symbolCode s ft y ≠ none) → symbolCode s ft x = none →
      encodeSymbols s ft j (before ++ x :: after) = .error (j + before.length)
  | [], x, after, j, _, hx => by
    rw [List.nil_append, encodeSymbols, hx]
    rfl
  | y :: ys, x, after, j, h, hx => by
    rw [List.cons_append, encodeSymbols]
    cases hy : symbolCode s ft y with
    | none => exact absurd hy (h y (by simp))
    | some c =>
      simp only
      rw [encodeSymbols_error s ft ys x after (j + 1) (fun z hz => h z (by simp [hz])) hx]
      simp only [List.length_cons]
      congr 1
      omega

/-! ### HDEC -/

theorem isLeaf_iff {s : State} {i : Nat} : isLeaf s i = true ↔ bufWord s .tree i 1 = 0xFFFFFFFF := by
  simp [isLeaf, absent]

theorem isLeaf_eq_false {s : State} {i : Nat} : isLeaf s i = false ↔ bufWord s .tree i 1 ≠ 0xFFFFFFFF := by
  rw [← Bool.not_eq_true, isLeaf_iff]

/-- Decoding after some symbols. -/
def Decoding.emits : List Word → Decoding → Decoding
  | [], d => d
  | x :: xs, d => (Decoding.emits xs d).emit x

theorem emits_symbols (xs ys : List Word) : Decoding.emits xs (.symbols ys) = .symbols (xs ++ ys) := by
  induction xs with
  | nil => rfl
  | cons x xs ih => rw [Decoding.emits, ih]; rfl

theorem emits_failed (xs : List Word) (c : ErrCode) (i : Nat) : Decoding.emits xs (.failed c i) = .failed c i := by
  induction xs with
  | nil => rfl
  | cons x xs ih => rw [Decoding.emits, ih]; rfl

/-- A walk to an internal node reads bits and emits nothing. -/
theorem hdecWalk_internal {s : State} {root : Nat} (hr : isLeaf s root = false) : ∀ {bits : List Bool} {x y : Nat} (rest : List Bool)
    (p d : Nat), TreeWalk s x bits y → isLeaf s y = false →
      hdecWalk s root (bits ++ rest) p x d = hdecWalk s root rest (p + bits.length) y d
  | [], x, y, rest, p, d, h, _ => by
    cases h
    rfl
  | b :: bits, x, y, rest, p, d, h, hy => by
    cases h with
    | step hx hrest =>
      have hc : isLeaf s (uval32 (bufWord s .tree x (if b then 1 else 2))) = false := by
        rw [isLeaf_eq_false]
        cases hrest with
        | here => exact isLeaf_eq_false.mp hy
        | step hx' _ => exact hx'
      have ih := hdecWalk_internal hr rest (p + 1) d hrest hy
      rw [List.cons_append, hdecWalk, hr]
      simp only [hc, Bool.false_eq_true, if_false]
      rw [ih, List.length_cons, Nat.add_assoc, Nat.add_comm 1]

/-- A walk to a leaf ends with its symbol, or with CAPACITY when DSYM is full (R245). -/
theorem hdecWalk_leaf {s : State} {root : Nat} (hr : isLeaf s root = false) : ∀ {bits : List Bool} {x y : Nat} (rest : List Bool)
    (p d : Nat), TreeWalk s x bits y → isLeaf s y = true → bits ≠ [] →
      hdecWalk s root (bits ++ rest) p x d =
        if d = Config.nmax then .failed .capacity (p + bits.length - 1)
        else (hdecWalk s root rest (p + bits.length) root (d + 1)).emit (payload s y)
  | [], _, _, _, _, _, _, _, hne => absurd rfl hne
  | [b], x, y, rest, p, d, h, hy, _ => by
    cases h with
    | step hx hrest =>
      cases hrest
      rw [List.cons_append, List.nil_append, hdecWalk, hr]
      simp [hy]
  | b :: b' :: bits, x, y, rest, p, d, h, hy, _ => by
    cases h with
    | step hx hrest =>
      have hc : isLeaf s (uval32 (bufWord s .tree x (if b then 1 else 2))) = false := by
        rw [isLeaf_eq_false]
        cases hrest with
        | step hx' _ => exact hx'
      have ih := hdecWalk_leaf hr rest (p + 1) d hrest hy (by simp)
      rw [List.cons_append, hdecWalk, hr]
      simp only [hc, Bool.false_eq_true, if_false]
      rw [ih]
      simp only [List.length_cons]
      rw [show p + 1 + (bits.length + 1) = p + (bits.length + 1 + 1) by omega]

/-- Whole traversals emit their symbols (R246). -/
theorem hdecWalk_decodes {s : State} {root : Nat} (hr : isLeaf s root = false) {bits : List Bool} {syms : List Word}
    (h : Decodes s root bits syms) : ∀ (rest : List Bool) (p d : Nat), d + syms.length ≤ 4096 →
      hdecWalk s root (bits ++ rest) p root d =
        Decoding.emits syms (hdecWalk s root rest (p + bits.length) root (d + syms.length)) := by
  induction h with
  | nil => intro rest p d _; rfl
  | @symbol code tail leaf syms walk ne isLeaf more ih =>
    intro rest p d hd
    simp only [List.length_cons] at hd
    rw [List.append_assoc, hdecWalk_leaf hr (tail ++ rest) p d walk (isLeaf_iff.mpr isLeaf) ne, if_neg (by unfold Config.nmax; omega),
      ih rest _ _ (by omega)]
    simp only [List.length_append, List.length_cons, Decoding.emits, payload]
    congr 2
    rw [Nat.add_assoc, Nat.add_assoc, Nat.add_comm 1]

/-- With a root that is a leaf, a run of zeros copies its symbol (R247). -/
theorem hdecWalk_single {s : State} {root : Nat} (hr : isLeaf s root = true) : ∀ (n : Nat) (rest : List Bool) (p cur d : Nat),
    d + n ≤ 4096 → hdecWalk s root (List.replicate n false ++ rest) p cur d =
      Decoding.emits (List.replicate n (payload s root)) (hdecWalk s root rest (p + n) cur (d + n))
  | 0, _, _, _, _, _ => rfl
  | n + 1, rest, p, cur, d, h => by
    rw [List.replicate_succ, List.replicate_succ, List.cons_append, hdecWalk, hr]
    simp only [if_true, Bool.false_eq_true, if_false]
    rw [if_neg (by unfold Config.nmax; omega), hdecWalk_single hr n rest (p + 1) cur (d + 1) (by omega), Decoding.emits]
    rw [show p + 1 + n = p + (n + 1) by omega, show d + 1 + n = d + (n + 1) by omega]

/-! ### A stored tree -/

/-- TREE in a state holds the nodes T. -/
def TreeIs (s : State) (T : List Node) : Prop :=
  ∀ (x : Nat) (nd : Node), T[x]? = some nd → bufWord s .tree x 1 = childWord nd.left ∧ bufWord s .tree x 2 = childWord nd.right ∧
    bufWord s .tree x 3 = nd.payload

theorem treeIs_of_holds {s : State} {r : Regs} {T : List Node} {root n : Nat} {codes : Nat → List Bool} (hT : T.length ≤ 8192)
    (h : HoldsBuild s.mem r T root n codes) : TreeIs s T := by
  intro x nd hx
  have hxl : x < T.length := by
    by_contra hc
    rw [List.getElem?_eq_none (by omega)] at hx
    cases hx
  have hb : x < bufElements .tree := by show _ < 8192; omega
  exact ⟨bufWord_of_holds (h.left x nd hx) hb, bufWord_of_holds (h.right x nd hx) hb, bufWord_of_holds (h.payload x nd hx) hb⟩

theorem childWord_some {c : Nat} (h : c < 8192) : childWord (some c) ≠ 0xFFFFFFFF ∧ uval32 (childWord (some c)) = c := by
  have hv : uval32 (encCount c) = c := uval32_encCount (by omega)
  refine ⟨fun he => ?_, hv⟩
  have : uval32 (childWord (some c)) = uval32 (0xFFFFFFFF : Word) := congrArg uval32 he
  rw [show childWord (some c) = encCount c from rfl, hv] at this
  have e : uval32 (0xFFFFFFFF : Word) = 4294967295 := rfl
  omega

/-- The walk of an edge path (R232, R246). -/
theorem treeWalk_of_edgePath {s : State} {T : List Node} (hT : T.length ≤ 8192) (ht : TreeIs s T)
    (hc : ∀ (x : Nat) (nd : Node), T[x]? = some nd → (nd.left = none ↔ nd.right = none)) (hlt : ∀ x y, ChildOf T x y → y < T.length) {x y : Nat}
    {bs : List Bool} (h : EdgePath T x bs y) : TreeWalk s x bs y := by
  induction h with
  | here x => exact .here x
  | @left x c y bs h rest ih =>
    obtain ⟨nd, hg, hl⟩ := Option.bind_eq_some_iff.mp h
    have hcl := hlt x c ⟨nd, hg, .inl hl⟩
    obtain ⟨h1, -, -⟩ := ht x nd hg
    rw [hl] at h1
    obtain ⟨h2, h3⟩ := childWord_some (c := c) (by omega)
    refine .step (by rw [h1]; exact h2) ?_
    rw [if_pos rfl, h1, h3]
    exact ih
  | @right x c y bs h rest ih =>
    obtain ⟨nd, hg, hr⟩ := Option.bind_eq_some_iff.mp h
    have hcl := hlt x c ⟨nd, hg, .inr hr⟩
    obtain ⟨h1, h2, -⟩ := ht x nd hg
    rw [hr] at h2
    obtain ⟨-, h4⟩ := childWord_some (c := c) (by omega)
    obtain ⟨d, hd⟩ : ∃ d, nd.left = some d := by
      cases hl : nd.left with
      | none => rw [(hc x nd hg).mp hl] at hr; cases hr
      | some d => exact ⟨d, rfl⟩
    have hdl := hlt x d ⟨nd, hg, .inl hd⟩
    rw [hd] at h1
    refine .step (by rw [h1]; exact (childWord_some (by omega)).1) ?_
    rw [if_neg (by simp), h2, h4]
    exact ih

/-- A decode walk fails with DESYNC or CAPACITY only (R245). -/
theorem hdecWalk_failed (s : State) (root : Nat) : ∀ (bits : List Bool) (p cur d : Nat) {c : ErrCode} {i : Nat},
    hdecWalk s root bits p cur d = .failed c i → c = .desync ∨ c = .capacity
  | [], p, cur, d, c, i, h => by
    simp only [hdecWalk] at h
    split at h <;> simp_all
  | b :: bs, p, cur, d, c, i, h => by
    have emit : ∀ {sym : Word} {r : Decoding}, r.emit sym = .failed c i → r = .failed c i := by
      intro sym r h
      cases r <;> simp_all [Decoding.emit]
    cases b <;> simp only [hdecWalk, if_true, Bool.false_eq_true, if_false] at h <;> repeat' split at h
    all_goals first
      | exact hdecWalk_failed s root bs _ _ _ h
      | exact hdecWalk_failed s root bs _ _ _ (emit h)
      | simp_all

end Sys2Proof.Machine
end

