-- ==== Sys2Proof/Laws/HostBus.lean ====
section
/-! SUPPORT. The address map said once (10_state.md R23, 20_memory.md R75), and what a host access does at each place. -/

namespace Sys2Proof.Machine

/-! ### The address map -/

/-- Where the offsets of R23 lie, by access type. -/
def accessAt (a : Nat) : Access → Prop
  | .ro => a = 0x000 ∨ a = 0x004 ∨ a = 0x014 ∨ (0x044 ≤ a ∧ a ≤ 0x050)
  | .rw => (0x018 ≤ a ∧ a ≤ 0x040) ∨ (0x080 ≤ a ∧ a ≤ 0x0BF)
  | .ctrl => a = 0x008
  | .cmd => a = 0x00C
  | .status => a = 0x010

/-- What `locate` answers for word `i` of the register page. -/
def pageOk (i : Nat) : Bool :=
  match locate (4 * i) with
  | .reg r =>
    decide (regOffset r = 4 * i) &&
      match regAccess r with
      | .ro => decide (i ≤ 1) || decide (i = 5) || (decide (17 ≤ i) && decide (i ≤ 20))
      | .rw => (decide (6 ≤ i) && decide (i ≤ 16)) || (decide (32 ≤ i) && decide (i ≤ 47))
      | .ctrl => decide (i = 2)
      | .cmd => decide (i = 3)
      | .status => decide (i = 4)
  | .reserved => (decide (21 ≤ i) && decide (i ≤ 31)) || (decide (48 ≤ i) && decide (i ≤ 1023))
  | .window _ => false
  | .unmapped => false

theorem pageOk_all : ∀ i < 1024, pageOk i = true := by decide +kernel

/-- A word of the register page is a register at its offset, or a reserved offset. -/
theorem locate_page {a : Nat} (h : a < 0x1000) (h4 : a % 4 = 0) :
    (∃ r, locate a = .reg r ∧ regOffset r = a ∧ accessAt a (regAccess r)) ∨
    (locate a = .reserved ∧ ((0x054 ≤ a ∧ a ≤ 0x07F) ∨ (0x0C0 ≤ a ∧ a ≤ 0xFFF))) := by
  obtain ⟨i, rfl⟩ : ∃ i, a = 4 * i := ⟨a / 4, by omega⟩
  have hp := pageOk_all i (by omega)
  unfold pageOk at hp
  cases hl : locate (4 * i) with
  | reg r =>
    rw [hl] at hp
    left
    simp only [Bool.and_eq_true, decide_eq_true_eq] at hp
    refine ⟨r, rfl, hp.1, ?_⟩
    have hp2 := hp.2
    cases ha : regAccess r <;> rw [ha] at hp2 <;> simp only [Bool.and_eq_true, Bool.or_eq_true, decide_eq_true_eq] at hp2 <;>
      simp only [accessAt] <;> omega
  | reserved =>
    rw [hl] at hp
    right
    simp only [Bool.and_eq_true, Bool.or_eq_true, decide_eq_true_eq] at hp
    exact ⟨rfl, by omega⟩
  | window b => rw [hl] at hp; cases hp
  | unmapped => rw [hl] at hp; cases hp

/-- Every address of a buffer's window is that buffer's. -/
theorem locate_window {a : Nat} {b : Buffer} (h₁ : bufBase b ≤ a) (h₂ : a < bufLimit b) : locate a = .window b := by
  have hw : windowAt a = some b := by
    unfold windowAt
    cases hf : allBuffers.find? fun b => decide (bufBase b ≤ a) && decide (a < bufLimit b) with
    | none =>
      have hb : b ∈ allBuffers := by cases b <;> decide
      have := List.find?_eq_none.mp hf b hb
      simp [h₁, h₂] at this
    | some c =>
      have hc := List.find?_some hf
      simp only [Bool.and_eq_true, decide_eq_true_eq] at hc
      by_cases hbc : c = b
      · rw [hbc]
      · rcases windows_disjoint hbc with h | h <;> omega
  have hp : ¬ a < 0x1000 := by cases b <;> simp only [bufBase] at h₁ <;> omega
  simp [locate, hp, hw]

/-- The windows fill 0x10000 .. 0x67FFF; a read-only one is CTAB, TREE or OUT. -/
theorem window_of_address {a : Nat} (h₁ : 0x10000 ≤ a) (h₂ : a < 0x68000) : ∃ b, bufBase b ≤ a ∧ a < bufLimit b := by
  by_contra h
  push Not at h
  have := h .inp; have := h .scl; have := h .coef; have := h .sym; have := h .ftab; have := h .ctab; have := h .tree
  have := h .bits; have := h .dsym; have := h .dcoef; have := h .y; have := h .out
  simp only [bufBase, bufLimit, bufElemWords, bufElements, Config.nmax, Config.nodemax] at *
  omega

theorem window_range {a : Nat} {b : Buffer} (h₁ : bufBase b ≤ a) (h₂ : a < bufLimit b) : 0x10000 ≤ a ∧ a < 0x68000 := by
  cases b <;> simp only [bufBase, bufLimit, bufElemWords, bufElements, Config.nmax, Config.nodemax] at h₁ h₂ <;> omega

theorem window_writable {a : Nat} {b : Buffer} (h₁ : bufBase b ≤ a) (h₂ : a < bufLimit b) :
    bufHostWritable b = false ↔ (0x28000 ≤ a ∧ a < 0x50000) ∨ (0x64000 ≤ a ∧ a < 0x68000) := by
  cases b <;> simp only [bufBase, bufLimit, bufElemWords, bufElements, Config.nmax, Config.nodemax] at h₁ h₂ <;> simp [bufHostWritable] <;> omega

theorem window_ftab {a : Nat} {b : Buffer} (h₁ : bufBase b ≤ a) (h₂ : a < bufLimit b) :
    b = .ftab ↔ 0x20000 ≤ a ∧ a < 0x28000 := by
  cases b <;> simp only [bufBase, bufLimit, bufElemWords, bufElements, Config.nmax, Config.nodemax] at h₁ h₂ <;> simp <;> omega

/-- The rest of the address space is unmapped. -/
theorem locate_unmapped {a : Nat} (h : (0x1000 ≤ a ∧ a < 0x10000) ∨ 0x68000 ≤ a) : locate a = .unmapped := by
  have hp : ¬ a < 0x1000 := by omega
  have hw : windowAt a = none := by
    unfold windowAt
    rw [List.find?_eq_none]
    intro b _
    simp only [Bool.and_eq_true, decide_eq_true_eq, not_and]
    intro h₁ h₂
    have := window_range h₁ h₂
    omega
  simp [locate, hp, hw]

/-- Every address is one of these. -/
theorem address_cases (a : Nat) :
    a < 0x1000 ∨ ((0x1000 ≤ a ∧ a < 0x10000) ∨ 0x68000 ≤ a) ∨ ∃ b, bufBase b ≤ a ∧ a < bufLimit b := by
  by_cases h₁ : a < 0x1000
  · exact .inl h₁
  · by_cases h₂ : 0x10000 ≤ a ∧ a < 0x68000
    · exact .inr (.inr (window_of_address h₂.1 h₂.2))
    · exact .inr (.inl (by omega))

/-! ### Aligned and misaligned accesses -/

theorem aligned_iff (a : BusAddr) : aligned a = true ↔ a.toNat % 4 = 0 := by
  unfold aligned
  rw [beq_iff_eq]
  constructor
  · intro h
    have := congrArg BitVec.toNat h
    simpa [BitVec.extractLsb'_toNat] using this
  · intro h
    apply BitVec.eq_of_toNat_eq
    simpa [BitVec.extractLsb'_toNat] using h

theorem busWrite_of_accepted {a : BusAddr} (h : a.toNat % 4 = 0) (w : Word) (s : State) :
    busWrite a 4 w s = match locate a.toNat with
      | .reg r => writeReg r w s
      | .reserved => s
      | .window b => writeWindow b a.toNat w s
      | .unmapped => setBusErr s := by
  unfold busWrite
  rw [(aligned_iff a).mpr h]
  rfl

theorem busRead_of_accepted {a : BusAddr} (h : a.toNat % 4 = 0) (s : State) :
    busRead a 4 s = match locate a.toNat with
      | .reg r => reply (regRead s r) s
      | .reserved => reply 0 s
      | .window _ => if s.run.isBusy then refusedRead s else reply (readWord s.mem s.draws a.toNat) s
      | .unmapped => refusedRead s := by
  unfold busRead
  rw [(aligned_iff a).mpr h]
  rfl

theorem not_accepted {a : BusAddr} {width : Nat} (h : width ≠ 4 ∨ ¬ a.toNat % 4 = 0) :
    (widthOk width && aligned a) = false := by
  rcases h with h | h
  · simp [widthOk, h]
  · have : aligned a = false := by
      cases ha : aligned a with
      | false => rfl
      | true => exact absurd ((aligned_iff a).mp ha) h
    simp [this]

theorem busWrite_of_refused {a : BusAddr} {width : Nat} (h : width ≠ 4 ∨ ¬ a.toNat % 4 = 0) (w : Word) (s : State) :
    busWrite a width w s = setBusErr s := by
  unfold busWrite
  rw [not_accepted h]
  rfl

theorem busRead_of_refused {a : BusAddr} {width : Nat} (h : width ≠ 4 ∨ ¬ a.toNat % 4 = 0) (s : State) :
    busRead a width s = refusedRead s := by
  unfold busRead
  rw [not_accepted h]
  rfl

/-- An address of the page decides its register. -/
theorem locate_eq_reg {a : Nat} {r : RegName} (h : locate a = .reg r) (h4 : a % 4 = 0) : regOffset r = a := by
  have ha : a < 0x1000 := by
    by_contra hc
    rcases address_cases a with h' | h' | ⟨b, h₁, h₂⟩
    · exact hc h'
    · rw [locate_unmapped h'] at h; cases h
    · rw [locate_window h₁ h₂] at h; cases h
  rcases locate_page ha h4 with ⟨r', h₁, h₂, -⟩ | ⟨h₁, -⟩
  · rw [h₁] at h; injection h with h; rw [← h]; exact h₂
  · rw [h₁] at h; cases h

/-- Everything a write of an aligned word can be. -/
theorem busWrite_cases {a : BusAddr} (h4 : a.toNat % 4 = 0) (w : Word) (s : State) :
    (∃ r, regOffset r = a.toNat ∧ accessAt a.toNat (regAccess r) ∧ a.toNat < 0x1000 ∧ busWrite a 4 w s = writeReg r w s) ∨
    (((0x054 ≤ a.toNat ∧ a.toNat ≤ 0x07F) ∨ (0x0C0 ≤ a.toNat ∧ a.toNat ≤ 0xFFF)) ∧ busWrite a 4 w s = s) ∨
    (∃ b, bufBase b ≤ a.toNat ∧ a.toNat < bufLimit b ∧ busWrite a 4 w s = writeWindow b a.toNat w s) ∨
    (((0x1000 ≤ a.toNat ∧ a.toNat < 0x10000) ∨ 0x68000 ≤ a.toNat) ∧ busWrite a 4 w s = setBusErr s) := by
  rw [busWrite_of_accepted h4]
  rcases address_cases a.toNat with h | h | ⟨b, h₁, h₂⟩
  · rcases locate_page h h4 with ⟨r, hl, hr, ha⟩ | ⟨hl, hr⟩
    · rw [hl]; exact .inl ⟨r, hr, ha, h, rfl⟩
    · rw [hl]; exact .inr (.inl ⟨hr, rfl⟩)
  · rw [locate_unmapped h]; exact .inr (.inr (.inr ⟨h, rfl⟩))
  · rw [locate_window h₁ h₂]; exact .inr (.inr (.inl ⟨b, h₁, h₂, rfl⟩))

/-- Everything a read of an aligned word can be. -/
theorem busRead_cases {a : BusAddr} (h4 : a.toNat % 4 = 0) (s : State) :
    (∃ r, regOffset r = a.toNat ∧ a.toNat < 0x1000 ∧ busRead a 4 s = reply (regRead s r) s) ∨
    (((0x054 ≤ a.toNat ∧ a.toNat ≤ 0x07F) ∨ (0x0C0 ≤ a.toNat ∧ a.toNat ≤ 0xFFF)) ∧ busRead a 4 s = reply 0 s) ∨
    (∃ b, bufBase b ≤ a.toNat ∧ a.toNat < bufLimit b ∧ busRead a 4 s =
      if s.run.isBusy then refusedRead s else reply (readWord s.mem s.draws a.toNat) s) ∨
    (((0x1000 ≤ a.toNat ∧ a.toNat < 0x10000) ∨ 0x68000 ≤ a.toNat) ∧ busRead a 4 s = refusedRead s) := by
  rw [busRead_of_accepted h4]
  rcases address_cases a.toNat with h | h | ⟨b, h₁, h₂⟩
  · rcases locate_page h h4 with ⟨r, hl, hr, ha⟩ | ⟨hl, hr⟩
    · rw [hl]; exact .inl ⟨r, hr, h, rfl⟩
    · rw [hl]; exact .inr (.inl ⟨hr, rfl⟩)
  · rw [locate_unmapped h]; exact .inr (.inr (.inr ⟨h, rfl⟩))
  · rw [locate_window h₁ h₂]; exact .inr (.inr (.inl ⟨b, h₁, h₂, rfl⟩))

theorem regOffset_injective {r q : RegName} (h : regOffset r = regOffset q) : r = q := by
  cases r <;> cases q <;> simp [regOffset] at h ⊢ <;> omega

/-- A read at a register's offset returns the register (10_state.md R23, R25). -/
theorem busRead_of_reg (r : RegName) {a : BusAddr} (h : regOffset r = a.toNat) (s : State) :
    busRead a 4 s = { s with replies := regRead s r :: s.replies } := by
  have hr : a.toNat % 4 = 0 ∧ a.toNat < 0x1000 ∧ ¬ ((0x054 ≤ a.toNat ∧ a.toNat ≤ 0x07F) ∨ (0x0C0 ≤ a.toNat ∧ a.toNat ≤ 0xFFF)) := by
    rw [← h]
    cases r with
    | qv i => have := i.isLt; simp only [regOffset, Config.kmax] at *; omega
    | _ => simp [regOffset]
  rcases busRead_cases hr.1 s with ⟨q, hq, -, he⟩ | ⟨hres, -⟩ | ⟨b, h₁, h₂, -⟩ | ⟨hu, -⟩
  · rw [he, regOffset_injective (hq.trans h.symm)]; rfl
  · exact absurd hres hr.2.2
  · have := window_range h₁ h₂; omega
  · omega

/-- The register at CTRL, CMD and STATUS. -/
theorem busWrite_ctrl (w : Word) (s : State) : busWrite 0x00008#19 4 w s = writeCtrl w s := by
  rw [busWrite_of_accepted (by decide), show locate (0x00008#19 : BusAddr).toNat = .reg .ctrl by decide +kernel]
  rfl

theorem busWrite_cmd (w : Word) (s : State) : busWrite 0x0000C#19 4 w s = writeCmd w s := by
  rw [busWrite_of_accepted (by decide), show locate (0x0000C#19 : BusAddr).toNat = .reg .cmd by decide +kernel]
  rfl

theorem busWrite_status (w : Word) (s : State) : busWrite 0x00010#19 4 w s = acknowledge w s := by
  rw [busWrite_of_accepted (by decide), show locate (0x00010#19 : BusAddr).toNat = .reg .status by decide +kernel]
  rfl

theorem busRead_status (s : State) : busRead 0x00010#19 4 s = reply (statusWord s.regs.status s.run.isBusy) s := by
  rw [busRead_of_accepted (by decide), show locate (0x00010#19 : BusAddr).toNat = .reg .status by decide +kernel]
  rfl

end Sys2Proof.Machine
end

