-- ==== Sys2Proof/Laws/Step.lean ====
section
/-! SUPPORT. What one step can do: the host access by cases (IDLE, BUSY, reset), the ENGINE's execution, and the inversion of
`step`. -/

namespace Sys2Proof.Machine

/-- Nothing changed but CTRL.IRQ_EN and the W1C bits of STATUS, and HOST's own side. -/
structure OnlyFlags (s t : State) : Prop where
  run : t.run = s.run
  mem : t.mem = s.mem
  draws : t.draws = s.draws
  delay : t.delay = s.delay
  regs : t.regs = { s.regs with
    irqEn := t.regs.irqEn
    status := { s.regs.status with
      done := t.regs.status.done
      err := t.regs.status.err
      satFwd := t.regs.status.satFwd
      satInv := t.regs.status.satInv
      busErr := t.regs.status.busErr
      cmdRejected := t.regs.status.cmdRejected } }

theorem OnlyFlags.refl (s : State) : OnlyFlags s s := ⟨rfl, rfl, rfl, rfl, rfl⟩

theorem busRead_onlyFlags (a : BusAddr) (width : Nat) (s : State) : OnlyFlags s (busRead a width s) := by
  by_cases hw : width ≠ 4 ∨ ¬ a.toNat % 4 = 0
  · rw [busRead_of_refused hw]; exact ⟨rfl, rfl, rfl, rfl, rfl⟩
  · push Not at hw
    obtain ⟨rfl, h4⟩ := hw
    rcases busRead_cases h4 s with ⟨r, -, -, he⟩ | ⟨-, he⟩ | ⟨b, -, -, he⟩ | ⟨-, he⟩ <;> rw [he]
    · exact ⟨rfl, rfl, rfl, rfl, rfl⟩
    · exact ⟨rfl, rfl, rfl, rfl, rfl⟩
    · split <;> exact ⟨rfl, rfl, rfl, rfl, rfl⟩
    · exact ⟨rfl, rfl, rfl, rfl, rfl⟩

theorem address_of_offset {a : BusAddr} {r : RegName} (h : regOffset r = a.toNat) : a = BitVec.ofNat 19 (regOffset r) := by
  rw [h]; simp

/-- While BUSY a host event that does not reset the block changes only flags (70_reset_and_hazards.md R352). -/
theorem hostEvent_busy {e : HostEvent} {s : State} {w : Word} (hb : s.run = .busy w) (hn : ¬ Resets e) :
    OnlyFlags s (hostEvent e s) := by
  cases e with
  | read a width => exact busRead_onlyFlags a width s
  | waitIdle =>
    have h := busRead_onlyFlags statusAddr 4 s
    simp only [hostEvent]
    split
    · exact ⟨h.run, h.mem, h.draws, h.delay, h.regs⟩
    · exact h
  | hardReset => exact absurd trivial hn
  | write a width v =>
    simp only [hostEvent]
    by_cases hw : width ≠ 4 ∨ ¬ a.toNat % 4 = 0
    · rw [busWrite_of_refused hw]; exact ⟨rfl, rfl, rfl, rfl, rfl⟩
    · push Not at hw
      obtain ⟨rfl, h4⟩ := hw
      rcases busWrite_cases h4 v s with ⟨r, hr, -, -, he⟩ | ⟨-, he⟩ | ⟨b, -, -, he⟩ | ⟨-, he⟩
      · rw [he]
        unfold writeReg
        cases hac : regAccess r with
        | ro => exact OnlyFlags.refl s
        | ctrl =>
          have hrc : r = .ctrl := by cases r <;> simp [regAccess] at hac ⊢
          subst hrc
          have hv : v.getLsbD 0 = false := by
            cases h : v.getLsbD 0 with
            | false => rfl
            | true => exact absurd ⟨address_of_offset hr, rfl, h⟩ hn
          simp only [writeCtrl, hv]
          exact ⟨rfl, rfl, rfl, rfl, rfl⟩
        | cmd => simp only [writeCmd, hb]; exact ⟨rfl, rfl, rfl, rfl, rfl⟩
        | status => exact ⟨rfl, rfl, rfl, rfl, rfl⟩
        | rw => simp only [hb, isBusy_busy, if_true]; exact ⟨rfl, rfl, rfl, rfl, rfl⟩
      · rw [he]; exact OnlyFlags.refl s
      · rw [he]
        simp only [writeWindow, hb, isBusy_busy, Bool.not_true, Bool.and_false, Bool.false_eq_true, if_false]
        exact ⟨rfl, rfl, rfl, rfl, rfl⟩
      · rw [he]; exact ⟨rfl, rfl, rfl, rfl, rfl⟩

/-- A reset leaves the ENGINE IDLE, with the registers at their reset values. -/
theorem hostEvent_resets {e : HostEvent} {s : State} (h : Resets e) :
    (hostEvent e s).run = .idle ∧ (hostEvent e s).regs = Regs.reset ∧
      (e = .hardReset ∧ (hostEvent e s).mem = [] ∨ (hostEvent e s).mem = (softReset s).mem) := by
  cases e with
  | read a width => exact absurd h id
  | waitIdle => exact absurd h id
  | hardReset => exact ⟨rfl, rfl, .inl ⟨rfl, rfl⟩⟩
  | write a width v =>
    obtain ⟨rfl, rfl, hv⟩ := h
    simp only [hostEvent, busWrite_ctrl, writeCtrl, if_pos hv]
    exact ⟨rfl, rfl, .inr trivial⟩

/-- What a host event can do while IDLE and without a reset: issue a command, store a word in a window, write a register, or
change flags only. -/
theorem hostEvent_idle {e : HostEvent} {s : State} (hi : s.run = .idle) (hn : ¬ Resets e) :
    (∃ w, e = .write 0x0000C#19 4 w ∧ hostEvent e s = { s with run := .busy w, delay := Config.freeDelay s.draws }) ∨
    (∃ a w b, e = .write a 4 w ∧ bufBase b ≤ a.toNat ∧ a.toNat < bufLimit b ∧ a.toNat % 4 = 0 ∧ bufHostWritable b = true ∧
      hostEvent e s = { s with
        mem := storeWords s.mem a.toNat [w]
        regs := if b = .ftab then clearTreeValid s.regs else s.regs }) ∨
    (∃ a w r, e = .write a 4 w ∧ regOffset r = a.toNat ∧ regAccess r = .rw ∧
      hostEvent e s = { s with regs := rwWrite w s.regs r }) ∨
    OnlyFlags s (hostEvent e s) := by
  cases e with
  | read a width => exact .inr (.inr (.inr (busRead_onlyFlags a width s)))
  | waitIdle =>
    refine .inr (.inr (.inr ?_))
    have h := busRead_onlyFlags statusAddr 4 s
    simp only [hostEvent]
    split
    · exact ⟨h.run, h.mem, h.draws, h.delay, h.regs⟩
    · exact h
  | hardReset => exact absurd trivial hn
  | write a width v =>
    simp only [hostEvent]
    by_cases hw : width ≠ 4 ∨ ¬ a.toNat % 4 = 0
    · rw [busWrite_of_refused hw]; exact .inr (.inr (.inr ⟨rfl, rfl, rfl, rfl, rfl⟩))
    · push Not at hw
      obtain ⟨rfl, h4⟩ := hw
      rcases busWrite_cases h4 v s with ⟨r, hr, -, -, he⟩ | ⟨-, he⟩ | ⟨b, h₁, h₂, he⟩ | ⟨-, he⟩
      · rw [he]
        unfold writeReg
        cases hac : regAccess r with
        | ro => exact .inr (.inr (.inr (OnlyFlags.refl s)))
        | ctrl =>
          have hrc : r = .ctrl := by cases r <;> simp [regAccess] at hac ⊢
          subst hrc
          have hv : v.getLsbD 0 = false := by
            cases h : v.getLsbD 0 with
            | false => rfl
            | true => exact absurd ⟨address_of_offset hr, rfl, h⟩ hn
          simp only [writeCtrl, hv]
          exact .inr (.inr (.inr ⟨rfl, rfl, rfl, rfl, rfl⟩))
        | cmd =>
          have hrc : r = .cmd := by cases r <;> simp [regAccess] at hac ⊢
          subst hrc
          refine .inl ⟨v, ?_, by simp only [writeCmd, hi]⟩
          rw [address_of_offset hr]; rfl
        | status => exact .inr (.inr (.inr ⟨rfl, rfl, rfl, rfl, rfl⟩))
        | rw =>
          refine .inr (.inr (.inl ⟨a, v, r, rfl, hr, hac, ?_⟩))
          simp only [hi, isBusy_idle, Bool.false_eq_true, if_false]
      · rw [he]; exact .inr (.inr (.inr (OnlyFlags.refl s)))
      · rw [he]
        cases hwr : bufHostWritable b with
        | true =>
          refine .inr (.inl ⟨a, v, b, rfl, h₁, h₂, h4, hwr, ?_⟩)
          simp only [writeWindow, hwr, hi, isBusy_idle, Bool.not_false, Bool.and_self, if_true]
        | false =>
          refine .inr (.inr (.inr ?_))
          simp only [writeWindow, hwr, Bool.false_and, Bool.false_eq_true, if_false]
          exact ⟨rfl, rfl, rfl, rfl, rfl⟩
      · rw [he]; exact .inr (.inr (.inr ⟨rfl, rfl, rfl, rfl, rfl⟩))

@[simp] theorem busRead_host (a : BusAddr) (width : Nat) (s : State) : (busRead a width s).host = s.host := by
  by_cases hw : width ≠ 4 ∨ ¬ a.toNat % 4 = 0
  · rw [busRead_of_refused hw]; rfl
  · push Not at hw
    obtain ⟨rfl, h4⟩ := hw
    rcases busRead_cases h4 s with ⟨r, -, -, he⟩ | ⟨-, he⟩ | ⟨b, -, -, he⟩ | ⟨-, he⟩ <;> rw [he]
    · rfl
    · rfl
    · split <;> rfl
    · rfl

@[simp] theorem busWrite_host (a : BusAddr) (width : Nat) (w : Word) (s : State) : (busWrite a width w s).host = s.host := by
  by_cases hw : width ≠ 4 ∨ ¬ a.toNat % 4 = 0
  · rw [busWrite_of_refused hw]; rfl
  · push Not at hw
    obtain ⟨rfl, h4⟩ := hw
    rcases busWrite_cases h4 w s with ⟨r, -, -, -, he⟩ | ⟨-, he⟩ | ⟨b, -, -, he⟩ | ⟨-, he⟩ <;> rw [he]
    · unfold writeReg writeCtrl writeCmd
      split <;> first | rfl | (split <;> rfl)
    · unfold writeWindow
      split <;> rfl
    · rfl

/-- The W1C bits stay set: only a write of STATUS with a 1 in the bit, or a reset, clears one (10_state.md R30). -/
theorem hostEvent_sticky {e : HostEvent} {s : State} (hn : ¬ Resets e) (n : Nat)
    (hw : ∀ w, e = .write 0x00010#19 4 w → w.getLsbD n = false) :
    (n = 1 → s.regs.status.done = true → (hostEvent e s).regs.status.done = true) ∧
    (n = 2 → s.regs.status.err = true → (hostEvent e s).regs.status.err = true) ∧
    (n = 3 → s.regs.status.satFwd = true → (hostEvent e s).regs.status.satFwd = true) ∧
    (n = 4 → s.regs.status.satInv = true → (hostEvent e s).regs.status.satInv = true) ∧
    (n = 5 → s.regs.status.busErr = true → (hostEvent e s).regs.status.busErr = true) ∧
    (n = 6 → s.regs.status.cmdRejected = true → (hostEvent e s).regs.status.cmdRejected = true) := by
  have same : ∀ t : State, (t.regs.status = s.regs.status ∨ t.regs.status = { s.regs.status with busErr := true } ∨
      t.regs.status = { s.regs.status with cmdRejected := true } ∨
      t.regs.status = { s.regs.status with treeValid := false }) →
      (n = 1 → s.regs.status.done = true → t.regs.status.done = true) ∧
      (n = 2 → s.regs.status.err = true → t.regs.status.err = true) ∧
      (n = 3 → s.regs.status.satFwd = true → t.regs.status.satFwd = true) ∧
      (n = 4 → s.regs.status.satInv = true → t.regs.status.satInv = true) ∧
      (n = 5 → s.regs.status.busErr = true → t.regs.status.busErr = true) ∧
      (n = 6 → s.regs.status.cmdRejected = true → t.regs.status.cmdRejected = true) := by
    intro t h
    rcases h with h | h | h | h <;> rw [h] <;>
      exact ⟨fun _ h => h, fun _ h => h, fun _ h => h, fun _ h => h, fun _ h => by first | rfl | exact h,
        fun _ h => by first | rfl | exact h⟩
  have hread : ∀ a width, ((busRead a width s).regs.status = s.regs.status ∨
      (busRead a width s).regs.status = { s.regs.status with busErr := true }) := by
    intro a width
    by_cases hw : width ≠ 4 ∨ ¬ a.toNat % 4 = 0
    · rw [busRead_of_refused hw]; exact .inr rfl
    · push Not at hw
      obtain ⟨rfl, h4⟩ := hw
      rcases busRead_cases h4 s with ⟨r, -, -, he⟩ | ⟨-, he⟩ | ⟨b, -, -, he⟩ | ⟨-, he⟩ <;> rw [he]
      · exact .inl rfl
      · exact .inl rfl
      · split
        · exact .inr rfl
        · exact .inl rfl
      · exact .inr rfl
  cases e with
  | read a width => exact same _ ((hread a width).imp_right .inl)
  | waitIdle =>
    refine same _ ?_
    simp only [hostEvent]
    split <;> exact (hread statusAddr 4).imp_right .inl
  | hardReset => exact absurd trivial hn
  | write a width v =>
    simp only [hostEvent]
    by_cases hwid : width ≠ 4 ∨ ¬ a.toNat % 4 = 0
    · rw [busWrite_of_refused hwid]; exact same _ (.inr (.inl rfl))
    · push Not at hwid
      obtain ⟨rfl, h4⟩ := hwid
      rcases busWrite_cases h4 v s with ⟨r, hr, -, -, he⟩ | ⟨-, he⟩ | ⟨b, h₁, h₂, he⟩ | ⟨-, he⟩
      · rw [he]
        unfold writeReg
        cases hac : regAccess r with
        | ro => exact same _ (.inl rfl)
        | ctrl =>
          have hrc : r = .ctrl := by cases r <;> simp [regAccess] at hac ⊢
          subst hrc
          have hv : v.getLsbD 0 = false := by
            cases h : v.getLsbD 0 with
            | false => rfl
            | true => exact absurd ⟨address_of_offset hr, rfl, h⟩ hn
          simp only [writeCtrl, hv]
          exact same _ (.inl rfl)
        | cmd =>
          simp only [writeCmd]
          split
          · exact same _ (.inl rfl)
          · exact same _ (.inr (.inr (.inl rfl)))
        | status =>
          have hrc : r = .status := by cases r <;> simp [regAccess] at hac ⊢
          subst hrc
          have hv := hw v (by rw [address_of_offset hr]; rfl)
          refine ⟨?_, ?_, ?_, ?_, ?_, ?_⟩ <;> rintro rfl h <;>
            simp only [acknowledge_regs, w1cStatus_done, w1cStatus_err, w1cStatus_satFwd, w1cStatus_satInv, w1cStatus_busErr,
              w1cStatus_cmdRejected, h, hv, Bool.not_false, Bool.and_self]
        | rw =>
          simp only
          split
          · exact same _ (.inr (.inl rfl))
          · refine same _ ?_
            cases r <;> simp only [regAccess] at hac <;> first | exact .inl rfl | exact .inr (.inr (.inr rfl))
      · rw [he]; exact same _ (.inl rfl)
      · rw [he]
        simp only [writeWindow]
        split
        · refine same _ ?_
          simp only
          split
          · exact .inr (.inr (.inr rfl))
          · exact .inl rfl
        · exact same _ (.inr (.inl rfl))
      · rw [he]; exact same _ (.inr (.inl rfl))

/-- Only a WAIT that still reads BUSY = 1 stays on HOST's queue (30_encoding.md R108). -/
theorem hostEvent_host (e : HostEvent) (s : State) :
    (hostEvent e s).host = s.host ∨ (e = .waitIdle ∧ (hostEvent e s).host = .waitIdle :: s.host) := by
  cases e with
  | read a width => exact .inl (busRead_host a width s)
  | write a width w => exact .inl (busWrite_host a width w s)
  | hardReset => exact .inl rfl
  | waitIdle =>
    simp only [hostEvent]
    split
    · exact .inr ⟨trivial, by simp⟩
    · exact .inl (by simp)

/-! ### Steps -/

/-- Everything a step can be: the ENGINE executes the pending word, or HOST takes its turn. -/
theorem step_cases {s t : State} (h : step s = .next t) :
    (∃ w, s.run = .busy w ∧ engineTurn s = true ∧ execute w s = .next t) ∨
    (t = hostTurn s ∧ (s.run = .idle ∨ engineTurn s = false)) := by
  unfold step at h
  cases hr : s.run with
  | idle =>
    rw [hr] at h
    injection h with h
    exact .inr ⟨h.symm, .inl rfl⟩
  | busy w =>
    rw [hr] at h
    cases he : engineTurn s with
    | true => simp only [he, if_true] at h; exact .inl ⟨w, rfl, rfl, h⟩
    | false => simp only [he, Bool.false_eq_true, if_false] at h; injection h with h; exact .inr ⟨h.symm, .inr rfl⟩

/-- HOST's turn: nothing, or its next event. -/
theorem hostTurn_cases (s : State) :
    (s.host = [] ∧ hostTurn s = s) ∨
    ∃ e es, s.host = e :: es ∧ hostTurn s = nextDraw (hostEvent e { s with host := es, delay := s.delay - 1 }) := by
  unfold hostTurn
  cases h : s.host with
  | nil => exact .inl ⟨rfl, rfl⟩
  | cons e es => exact .inr ⟨e, es, rfl, rfl⟩

/-- Everything execute(w) can be: a command, or the completion of an illegal word. -/
theorem execute_cases {w : Word} {s t : State} (h : execute w s = .next t) :
    (∃ i, decode w = .command i ∧ t = complete (opcode i) (runCommand i s)) ∨
    (∃ e, decode w = .illegal e ∧ t = completeIllegal w s) := by
  unfold execute at h
  cases hd : decode w with
  | command i =>
    simp only [hd, exec_eq] at h
    injection h with h
    exact .inl ⟨i, rfl, h.symm⟩
  | illegal e =>
    simp only [hd] at h
    injection h with h
    exact .inr ⟨e, rfl, h.symm⟩

/-- execute(w) always gives a next state (40_command_model.md R123). -/
theorem execute_next (w : Word) (s : State) : ∃ t, execute w s = .next t := by
  unfold execute
  cases decode w with
  | command i => exact ⟨_, exec_eq i s⟩
  | illegal e => exact ⟨_, rfl⟩

@[simp] theorem complete_run (op : Byte) (r : Result) : (complete op r).run = .idle := by cases r <;> rfl

end Sys2Proof.Machine
end

