-- ==== Sys2Proof/Laws/Invariant.lean ====
section
/-! SUPPORT. What the commands keep of the invariants of `Safety`: the bounds of the registers only commands write, memory
inside the windows, and TREE_VALID's meaning (10_state.md R37). -/

namespace Sys2Proof.Machine

/-! ### Bounds of the RO registers -/

/-- The register bounds of `Inv`. -/
structure Bounded (r : Regs) : Prop where
  satFwd : uval32 r.satcntFwd ≤ 4096
  satInv : uval32 r.satcntInv ≤ 4096
  root : uval32 r.root ≤ 8190
  maxlen : uval32 r.maxlen ≤ 32

/-- A change of registers that keeps the bounds. -/
def KeepsBounds (s t : State) : Prop := Bounded s.regs → Bounded t.regs

theorem runPrimitive_bounds {i : Instr} {work : State → Result} {s : State}
    (h : (∀ c ∈ preChecks i, runCheck s c = none) → KeepsBounds s (work s).state) :
    KeepsBounds s (runPrimitive i work s).state := by
  rcases runPrimitive_cases i work s with ⟨c, info, -, he⟩ | ⟨hp, he⟩
  · rw [he]; exact id
  · rw [he]; exact h (firstFailure_eq_none.mp hp)

theorem andThen_bounds {s : State} {r : Result} {f : State → Result} (h : KeepsBounds s r.state)
    (hf : ∀ t, KeepsBounds t (f t).state) : KeepsBounds s (r.andThen f).state := by
  cases r with
  | ok t => exact fun hs => hf t (h hs)
  | raised t e => exact h

theorem runSame_bounds {i : Instr} {work : State → Result} {s : State}
    (h : (work s).state.regs.satcntFwd = s.regs.satcntFwd ∧ (work s).state.regs.satcntInv = s.regs.satcntInv ∧
      (work s).state.regs.root = s.regs.root ∧ (work s).state.regs.maxlen = s.regs.maxlen) :
    KeepsBounds s (runPrimitive i work s).state := by
  refine runPrimitive_bounds fun _ hb => ?_
  exact ⟨by rw [h.1]; exact hb.satFwd, by rw [h.2.1]; exact hb.satInv, by rw [h.2.2.1]; exact hb.root,
    by rw [h.2.2.2]; exact hb.maxlen⟩

theorem runFdct_bounds (s : State) : KeepsBounds s (runFdct s).state := by
  refine runSame_bounds ?_
  unfold fdctWork
  split <;> exact ⟨rfl, rfl, rfl, rfl⟩

theorem runHenc_bounds (s : State) : KeepsBounds s (runHenc s).state := by
  refine runSame_bounds ?_
  unfold hencWork
  split <;> exact ⟨rfl, rfl, rfl, rfl⟩

theorem runHdec_bounds (s : State) : KeepsBounds s (runHdec s).state := by
  refine runSame_bounds ?_
  unfold hdecWork
  split <;> exact ⟨rfl, rfl, rfl, rfl⟩

theorem runDequant_bounds (s : State) : KeepsBounds s (runDequant s).state := by
  refine runSame_bounds ?_
  unfold dequantWork
  split <;> exact ⟨rfl, rfl, rfl, rfl⟩

theorem countP_length_le {α : Type} (p : α → Bool) {l : List α} {n : Nat} (h : l.length ≤ n) : l.countP p ≤ n :=
  (List.countP_le_length).trans h

theorem runScale_bounds (s : State) : KeepsBounds s (runScale s).state := by
  refine runPrimitive_bounds fun hc hb => ⟨?_, hb.satInv, hb.root, hb.maxlen⟩
  have hn := ckNblk_passes.mp (hc .ckNblk (by decide))
  have hle : scaleCount s ≤ 4096 := countP_length_le _ (by simpa [scaleInputs, bufWords] using hn)
  exact (uval32_encCount (n := scaleCount s) (by omega)).trans_le hle

theorem runUnscale_bounds (s : State) : KeepsBounds s (runUnscale s).state := by
  refine runPrimitive_bounds fun hc hb => ⟨hb.satFwd, ?_, hb.root, hb.maxlen⟩
  have hn := ckNrblk_passes.mp (hc .ckNrblk (by decide))
  have hle : unscaleCount s ≤ 4096 := countP_length_le _ (by simpa [unscaleInputs] using hn)
  exact (uval32_encCount (n := unscaleCount s) (by omega)).trans_le hle

/-- The outcome of HBUILD: nothing but a failed check, CAPACITY with TREE_VALID cleared, or the build of a valid table. -/
theorem runHbuild_cases (s : State) :
    (∃ e, runHbuild s = .raised (nextDraw s) e) ∨
    (∃ i, runHbuild s = dataError .hbuild .capacity i
      { s with regs := { s.regs with status := { s.regs.status with treeValid := false } } }) ∨
    ∃ ft T tree, ft.length = uval32 s.regs.ndist ∧ ft = readFtab s (uval32 s.regs.ndist) ∧ ValidTable ft ∧
      ModelBuild ft T tree ∧ (∀ i < ft.length, (modelCode tree i).length ≤ 32) ∧
      runHbuild s = .ok (nextDraw { s with
        mem := storeBuf (storeBuf s.mem .tree 0 (treeWords (buildTree ft).nodes)) .ctab 0 (ctabWords (buildTree ft).codes)
        regs := { s.regs with
          root := encCount (buildTree ft).root
          maxlen := encCount (maxLength (buildTree ft).codes)
          status := { s.regs.status with treeValid := true } } }) := by
  rcases runPrimitive_cases .hbuild hbuildWork s with ⟨c, info, -, he⟩ | ⟨hp, he⟩
  · exact .inl ⟨_, he⟩
  · have hv := hbuild_passes.mp hp
    rw [runHbuild, he, hbuildWork]
    obtain ⟨T, tree, hm⟩ := exists_modelBuild hv
    have hres : hbuildResult s = buildTree (readFtab s (uval32 s.regs.ndist)) := rfl
    cases hf : (hbuildResult s).codes.findIdx? (fun c => decide (Config.codemax < c.length)) with
    | some i => exact .inr (.inl ⟨i, rfl⟩)
    | none =>
      rw [hres] at hf
      exact .inr (.inr ⟨_, T, tree, by simp [readFtab], rfl, hv, hm, hm.findIdx_none.mp hf, by rw [hres]; rfl⟩)

theorem runHbuild_bounds (s : State) : KeepsBounds s (runHbuild s).state := by
  intro hb
  rcases runHbuild_cases s with ⟨e, he⟩ | ⟨i, he⟩ | ⟨ft, T, tree, -, -, hv, hm, hl, he⟩
  · rw [he]; exact hb
  · rw [he]; exact ⟨hb.satFwd, hb.satInv, hb.root, hb.maxlen⟩
  · rw [he]
    have hh := hm.holds hv.le hl s.mem (r := { s.regs with
      root := encCount (buildTree ft).root
      maxlen := encCount (maxLength (buildTree ft).codes) }) rfl rfl
    refine ⟨hb.satFwd, hb.satInv, ?_, ?_⟩
    · have h1 := hh.root
      have h2 := hm.shape.index_lt
      have h3 := hm.length
      have h4 := hv.le
      show uval32 (encCount (buildTree ft).root) ≤ 8190
      change uval32 (encCount (buildTree ft).root) = _ at h1
      omega
    · obtain ⟨i, hi, he⟩ := hh.maxlenEq
      have := hl i hi
      show uval32 (encCount (maxLength (buildTree ft).codes)) ≤ 32
      change _ = uval32 (encCount (maxLength (buildTree ft).codes)) at he
      omega

theorem runCommand_bounds (i : Instr) (s : State) : KeepsBounds s (runCommand i s).state := by
  have hd : ∀ (i : Instr) (s : State), KeepsBounds s (runPrimitive i done s).state :=
    fun _ _ => runSame_bounds ⟨rfl, rfl, rfl, rfl⟩
  have hseg : ∀ s : State, KeepsBounds s (runSegment s).state := fun _ => runSame_bounds ⟨rfl, rfl, rfl, rfl⟩
  have hq : ∀ s : State, KeepsBounds s (runQuant s).state := fun _ => runSame_bounds ⟨rfl, rfl, rfl, rfl⟩
  have hc : ∀ s : State, KeepsBounds s (runHcount s).state := fun _ => runSame_bounds ⟨rfl, rfl, rfl, rfl⟩
  have hi : ∀ s : State, KeepsBounds s (runIdct s).state := fun _ => runSame_bounds ⟨rfl, rfl, rfl, rfl⟩
  cases i with
  | nop => exact hd .nop s
  | chkcfg => exact hd .chkcfg s
  | segment => exact hseg s
  | scale => exact runScale_bounds s
  | fdct => exact runFdct_bounds s
  | quant => exact hq s
  | hcount => exact hc s
  | hbuild => exact runHbuild_bounds s
  | henc => exact runHenc_bounds s
  | hdec => exact runHdec_bounds s
  | dequant => exact runDequant_bounds s
  | idct => exact hi s
  | unscale => exact runUnscale_bounds s
  | encode =>
    exact andThen_bounds (andThen_bounds (andThen_bounds (andThen_bounds (andThen_bounds (andThen_bounds
      (andThen_bounds (hd .chkcfg s) hseg) runScale_bounds) runFdct_bounds) hq) hc) runHbuild_bounds) runHenc_bounds
  | decode =>
    exact andThen_bounds (andThen_bounds (andThen_bounds (andThen_bounds (hd .decode s) runHdec_bounds) runDequant_bounds)
      hi) runUnscale_bounds

/-! ### Memory inside the windows -/

theorem byteAt_of_mem {m : Memory} (hm : Memory.wf m) {c : Host.Cell} (h : c ∈ m) : byteAt m c.1 = some c.2 := by
  induction m with
  | nil => simp at h
  | cons d m ih =>
    rw [Memory.wf, List.pairwise_cons] at hm
    rcases List.mem_cons.mp h with rfl | h
    · simp [byteAt]
    · have := hm.1 c h
      have hne : d.1 ≠ c.1 := by omega
      simp [byteAt, hne, ih hm.2 h]

/-- Memory that lists only bytes of the windows still does after a change inside the windows. -/
theorem MemFrame.inWindows {bs : List Buffer} {m n : Memory} (h : MemFrame bs m n) (hm : Memory.wf m)
    (hi : ∀ c ∈ m, InWindows allBuffers c.1) : ∀ c ∈ n, InWindows allBuffers c.1 := by
  intro c hc
  by_contra hn
  have hb := byteAt_of_mem (h.wf hm) hc
  rw [h.frame c.1 fun ⟨b, _, hw⟩ => hn ⟨b, by cases b <;> decide, hw⟩] at hb
  exact hn (hi _ (mem_of_byteAt hb))

/-- A word the host stores in a window. -/
theorem storeWords_memFrame {m : Memory} {a : Nat} {b : Buffer} (w : Word) (h1 : bufBase b ≤ a) (h2 : a < bufLimit b)
    (h4 : a % 4 = 0) : MemFrame [b] m (storeWords m a [w]) := by
  refine ⟨fun h => wf_storeWords h a _, fun k hk => byteAt_storeWords_of_outside ?_⟩
  have hb : bufLimit b % 4 = 0 := by cases b <;> decide
  by_contra hc
  simp only [List.length_singleton, not_or, not_lt, not_le] at hc
  exact hk ⟨b, by simp, by omega, by omega⟩

/-- An abort of a command changes only its windows. -/
theorem softReset_memFrame (s : State) : MemFrame allBuffers s.mem (softReset s).mem := by
  unfold softReset
  cases s.run with
  | idle => exact MemFrame.refl _ _
  | busy w =>
    dsimp only
    cases decode w with
    | command i => exact (unspecDests_memFrame i s).mono fun b _ => by cases b <;> decide
    | illegal e => exact MemFrame.refl _ _

/-! ### TREE_VALID -/

/-- What the meaning of TREE_VALID rests on is unchanged. -/
structure KeepsTree (s t : State) : Prop where
  mem : ∀ k, InWindows [.ftab, .ctab, .tree] k → byteAt t.mem k = byteAt s.mem k
  ndist : t.regs.ndist = s.regs.ndist
  root : t.regs.root = s.regs.root
  maxlen : t.regs.maxlen = s.regs.maxlen

theorem inWindows_of {b : Buffer} {bs : List Buffer} (hb : b ∈ bs) {i f k : Nat} (hi : i < bufElements b) (hf : f < bufElemWords b)
    (h1 : bufAddr b i f ≤ k) (h2 : k < bufAddr b i f + 4) : InWindows bs k := by
  have := bufAddr_in_window hi hf
  exact ⟨b, hb, by omega, by omega⟩

/-- A table that may be read still may be when FTAB is as it was. -/
theorem TableMayBe.congr {m n : Memory} {ft : List FtabEntry} (h : TableMayBe m ft) (hl : ft.length ≤ 4096)
    (hm : ∀ k, InWindows [.ftab, .ctab, .tree] k → byteAt n k = byteAt m k) : TableMayBe n ft := by
  intro i e he j hj
  have hil : i < ft.length := by
    by_contra hc
    rw [List.getElem?_eq_none (by omega)] at he
    cases he
  have hi : i < bufElements .ftab := by show _ < 4096; omega
  rw [hm _ (inWindows_of (b := .ftab) (by simp) hi (by decide : 0 < 2) (by omega) (by omega)),
    hm _ (inWindows_of (b := .ftab) (by simp) hi (by decide : 1 < 2) (by omega) (by omega))]
  exact h i e he j hj

theorem HoldsBuild.congr {m n : Memory} {r q : Regs} {T : List Node} {root k : Nat} {codes : Nat → List Bool}
    (h : HoldsBuild m r T root k codes) (hT : T.length ≤ 8191) (hk : k ≤ 4096)
    (hm : ∀ k, InWindows [.ftab, .ctab, .tree] k → byteAt n k = byteAt m k) (hr : q.root = r.root)
    (hx : q.maxlen = r.maxlen) : HoldsBuild n q T root k codes := by
  have htree : ∀ {x : Nat} {nd : Node} {f : Nat} {w : Word}, T[x]? = some nd → f < 4 → Holds m .tree x f w → Holds n .tree x f w := by
    intro x nd f w hx hf hw
    have hil : x < T.length := by
      by_contra hc
      rw [List.getElem?_eq_none (by omega)] at hx
      cases hx
    have hi : x < bufElements .tree := by show _ < 8192; omega
    exact holds_congr (fun a h1 h2 => hm a (inWindows_of (b := .tree) (by simp) hi hf h1 h2)) hw
  have hctab : ∀ {i f : Nat} {w : Word}, i < k → f < 2 → Holds m .ctab i f w → Holds n .ctab i f w := by
    intro i f w hik hf hw
    have hi : i < bufElements .ctab := by show _ < 4096; omega
    exact holds_congr (fun a h1 h2 => hm a (inWindows_of (b := .ctab) (by simp) hi hf h1 h2)) hw
  exact ⟨fun x nd hx => htree hx (by omega) (h.weight x nd hx), fun x nd hx => htree hx (by omega) (h.left x nd hx),
    fun x nd hx => htree hx (by omega) (h.right x nd hx), fun x nd hx => htree hx (by omega) (h.payload x nd hx),
    fun i hi => hctab hi (by omega) (h.len i hi), fun i hi => hctab hi (by omega) (h.code i hi), by rw [hr]; exact h.root,
    by rw [hx]; exact h.maxlenLe, by rw [hx]; exact h.maxlenEq⟩

/-- The nodes of a build number 2n − 1. -/
theorem BuiltFrom.length {ft : List FtabEntry} {T : List Node} {root : Nat} {codes : Nat → List Bool} (hv : ValidTable ft)
    (h : BuiltFrom ft T root codes) : T.length = 2 * ft.length - 1 := by
  obtain ⟨T', tree, hm⟩ := exists_modelBuild hv
  obtain ⟨rfl, -, -⟩ := hm.unique h
  exact hm.length

theorem TreeMatches.congr {s t : State} (h : TreeMatches s) (hk : KeepsTree s t) : TreeMatches t := by
  obtain ⟨ft, T, root, codes, h1, h2, h3, h4, h5, h6⟩ := h
  have hl := h4.length h2
  have hle := h2.le
  exact ⟨ft, T, root, codes, by rw [h1, hk.ndist], h2, h3.congr hle hk.mem, h4, h5,
    h6.congr (by omega) hle hk.mem hk.root hk.maxlen⟩

/-- A step that keeps TREE_VALID truthful. -/
def KeepsSound (s t : State) : Prop := TreeSound s → TreeSound t

theorem KeepsTree.sound {s t : State} (h : KeepsTree s t)
    (hv : t.regs.status.treeValid = true → s.regs.status.treeValid = true) : KeepsSound s t :=
  fun hs ht => (hs (hv ht)).congr h

theorem sound_of_invalid {s t : State} (h : t.regs.status.treeValid = false) : KeepsSound s t :=
  fun _ ht => absurd ht (by rw [h]; decide)

theorem andThen_sound {s : State} {r : Result} {f : State → Result} (h : KeepsSound s r.state)
    (hf : ∀ t, KeepsSound t (f t).state) : KeepsSound s (r.andThen f).state := by
  cases r with
  | ok t => exact fun hs => hf t (h hs)
  | raised t e => exact h

/-- A command that writes none of the coder's buffers and registers. -/
theorem run_sound {i : Instr} {work : State → Result} {bs : List Buffer} {s : State}
    (hm : MemFrame bs s.mem (runPrimitive i work s).state.mem)
    (hb : Buffer.ftab ∉ bs ∧ Buffer.ctab ∉ bs ∧ Buffer.tree ∉ bs)
    (h : (work s).state.regs.ndist = s.regs.ndist ∧ (work s).state.regs.root = s.regs.root ∧
      (work s).state.regs.maxlen = s.regs.maxlen ∧
      (work s).state.regs.status.treeValid = s.regs.status.treeValid) :
    KeepsSound s (runPrimitive i work s).state := by
  have hr : (runPrimitive i work s).state.regs.ndist = s.regs.ndist ∧ (runPrimitive i work s).state.regs.root = s.regs.root ∧
      (runPrimitive i work s).state.regs.maxlen = s.regs.maxlen ∧
      (runPrimitive i work s).state.regs.status.treeValid = s.regs.status.treeValid := by
    rcases runPrimitive_cases i work s with ⟨c, info, -, he⟩ | ⟨-, he⟩ <;> rw [he]
    · exact ⟨rfl, rfl, rfl, rfl⟩
    · exact h
  refine KeepsTree.sound ⟨fun k hk => ?_, hr.1, hr.2.1, hr.2.2.1⟩ (fun ht => hr.2.2.2 ▸ ht)
  obtain ⟨b, hb', h1, h2⟩ := hk
  refine hm.frame k ?_
  rintro ⟨c, hc, h3, h4⟩
  have hne : b ≠ c := by
    rintro rfl
    simp only [List.mem_cons, List.not_mem_nil, or_false] at hb'
    rcases hb' with rfl | rfl | rfl
    · exact hb.1 hc
    · exact hb.2.1 hc
    · exact hb.2.2 hc
  have := windows_disjoint hne
  omega

theorem runHcount_sound (s : State) : KeepsSound s (runHcount s).state := by
  rcases runPrimitive_cases .hcount hcountWork s with ⟨c, info, -, he⟩ | ⟨-, he⟩
  · rw [runHcount, he]; exact id
  · rw [runHcount, he]; exact sound_of_invalid rfl

/-- The bytes of four bytes put together. -/
theorem wordBytes_append4 (a b c d : Byte) : wordBytes (d ++ c ++ b ++ a : BitVec 32) = [a, b, c, d] := by
  simp only [wordBytes, List.cons.injEq, and_true]
  refine ⟨?_, ?_, ?_, ?_⟩ <;>
    (apply BitVec.eq_of_getLsbD_eq; intro i hi; simp only [BitVec.getLsbD_extractLsb', BitVec.getLsbD_append]; interval_cases i <;> simp)

theorem wordBytes_readWord (m : Memory) (d a : Nat) :
    wordBytes (readWord m d a) = [readByte m d a, readByte m d (a + 1), readByte m d (a + 2), readByte m d (a + 3)] :=
  wordBytes_append4 _ _ _ _

/-- The table HBUILD reads is one FTAB may be read as. -/
theorem readFtab_mayBe (s : State) {n : Nat} (hn : n ≤ 4096) : TableMayBe s.mem (readFtab s n) := by
  intro i e he j hj
  have hil : i < n := by
    by_contra hc
    rw [List.getElem?_eq_none (by simpa [readFtab] using hc)] at he
    cases he
  rw [readFtab, List.getElem?_map, List.getElem?_range hil, Option.map_some] at he
  injection he with he
  subst he
  have hword : ∀ f b, byteAt s.mem (bufAddr .ftab i f + j) = some b →
      (wordBytes (bufWord s .ftab i f))[j]? = some b := by
    intro f b hb
    have hi : i < bufElements .ftab := by show _ < 4096; omega
    rw [bufWord, if_pos hi]
    rw [wordBytes_readWord]
    interval_cases j <;> simp_all [readByte]
  exact ⟨fun b hb => hword 0 b hb, fun b hb => hword 1 b hb⟩

theorem runHbuild_sound (s : State) : KeepsSound s (runHbuild s).state := by
  rcases runHbuild_cases s with ⟨e, he⟩ | ⟨i, he⟩ | ⟨ft, T, tree, hlen, hft, hv, hm, hl, he⟩
  · rw [he]; exact id
  · rw [he]; exact sound_of_invalid rfl
  · have hf := runHbuild_memFrame s
    rw [he] at hf ⊢
    intro _ _
    refine ⟨ft, T, tree.index, modelCode tree, hlen, hv, ?_, hm.built, hl, hm.holds hv.le hl s.mem rfl rfl⟩
    have h0 := readFtab_mayBe s (n := uval32 s.regs.ndist) (by rw [← hlen]; exact hv.le)
    rw [← hft] at h0
    intro i e hi j hj
    have hil : i < ft.length := by
      by_contra hc
      rw [List.getElem?_eq_none (by omega)] at hi
      cases hi
    have hle := hv.le
    have hi' : i < bufElements .ftab := by show _ < 4096; omega
    have hframe : ∀ f < 2, byteAt (Result.ok (nextDraw { s with
        mem := storeBuf (storeBuf s.mem .tree 0 (treeWords (buildTree ft).nodes)) .ctab 0 (ctabWords (buildTree ft).codes)
        regs := { s.regs with
          root := encCount (buildTree ft).root
          maxlen := encCount (maxLength (buildTree ft).codes)
          status := { s.regs.status with treeValid := true } } })).state.mem (bufAddr .ftab i f + j) =
        byteAt s.mem (bufAddr .ftab i f + j) := by
      intro f hf2
      refine hf.frame _ ?_
      rintro ⟨c, hc, h3, h4⟩
      have h5 := bufAddr_in_window hi' (f := f) hf2
      have hne : Buffer.ftab ≠ c := by rintro rfl; simp at hc
      have := windows_disjoint hne
      omega
    have h1 := hframe 0 (by omega)
    have h2 := hframe 1 (by omega)
    change byteAt _ _ = _ at h1 h2
    exact ⟨fun b hb => (h0 i e hi j hj).1 b (h1 ▸ hb), fun b hb => (h0 i e hi j hj).2 b (h2 ▸ hb)⟩

theorem runCommand_sound (i : Instr) (s : State) : KeepsSound s (runCommand i s).state := by
  have hd : ∀ (i : Instr) (s : State), KeepsSound s (runPrimitive i done s).state := fun i s =>
    run_sound (bs := []) (runPrimitive_memFrame (MemFrame.refl _ _)) (by decide) ⟨rfl, rfl, rfl, rfl⟩
  have hseg : ∀ s, KeepsSound s (runSegment s).state := fun s =>
    run_sound (runSegment_memFrame s) (by decide) ⟨rfl, rfl, rfl, rfl⟩
  have hsc : ∀ s, KeepsSound s (runScale s).state := fun s =>
    run_sound (runScale_memFrame s) (by decide) ⟨rfl, rfl, rfl, rfl⟩
  have hf : ∀ s, KeepsSound s (runFdct s).state := fun s =>
    run_sound (runFdct_memFrame s) (by decide) (by unfold fdctWork; split <;> exact ⟨rfl, rfl, rfl, rfl⟩)
  have hq : ∀ s, KeepsSound s (runQuant s).state := fun s =>
    run_sound (runQuant_memFrame s) (by decide) ⟨rfl, rfl, rfl, rfl⟩
  have hhe : ∀ s, KeepsSound s (runHenc s).state := fun s =>
    run_sound (runHenc_memFrame s) (by decide) (by unfold hencWork; split <;> exact ⟨rfl, rfl, rfl, rfl⟩)
  have hhd : ∀ s, KeepsSound s (runHdec s).state := fun s =>
    run_sound (runHdec_memFrame s) (by decide) (by unfold hdecWork; split <;> exact ⟨rfl, rfl, rfl, rfl⟩)
  have hdq : ∀ s, KeepsSound s (runDequant s).state := fun s =>
    run_sound (runDequant_memFrame s) (by decide) (by unfold dequantWork; split <;> exact ⟨rfl, rfl, rfl, rfl⟩)
  have hi : ∀ s, KeepsSound s (runIdct s).state := fun s =>
    run_sound (runIdct_memFrame s) (by decide) ⟨rfl, rfl, rfl, rfl⟩
  have hu : ∀ s, KeepsSound s (runUnscale s).state := fun s =>
    run_sound (runUnscale_memFrame s) (by decide) ⟨rfl, rfl, rfl, rfl⟩
  cases i with
  | nop => exact hd .nop s
  | chkcfg => exact hd .chkcfg s
  | segment => exact hseg s
  | scale => exact hsc s
  | fdct => exact hf s
  | quant => exact hq s
  | hcount => exact runHcount_sound s
  | hbuild => exact runHbuild_sound s
  | henc => exact hhe s
  | hdec => exact hhd s
  | dequant => exact hdq s
  | idct => exact hi s
  | unscale => exact hu s
  | encode =>
    exact andThen_sound (andThen_sound (andThen_sound (andThen_sound (andThen_sound (andThen_sound
      (andThen_sound (hd .chkcfg s) hseg) hsc) hf) hq) runHcount_sound) runHbuild_sound) hhe
  | decode => exact andThen_sound (andThen_sound (andThen_sound (andThen_sound (hd .decode s) hhd) hdq) hi) hu

end Sys2Proof.Machine
end

