-- ==== Sys2Proof/Laws/Macros.lean ====
section
/-! SUPPORT. The macros as chains of commands (46_pipeline.md R260 to R263): what a chain of works leaves is what the
commands leave one by one, each run to its completion. -/

namespace Sys2Proof.Machine

/-- The works of some commands, one after the other. -/
def chain : List Instr → State → Result
  | [], s => .ok s
  | i :: is, s => (runCommand i s).andThen (chain is)

theorem andThen_assoc (r : Result) (f g : State → Result) : (r.andThen f).andThen g = r.andThen fun s => (f s).andThen g := by
  cases r <;> rfl

theorem andThen_okResult (r : Result) : (r.andThen fun s => .ok s) = r := by cases r <;> rfl

theorem chain_append (is js : List Instr) (s : State) : chain (is ++ js) s = (chain is s).andThen (chain js) := by
  induction is generalizing s with
  | nil => rfl
  | cons i is ih =>
    simp only [List.cons_append, chain, andThen_assoc]
    congr 1
    funext t
    exact ih t

theorem runEncode_eq_chain (s : State) : runEncode s = chain encodeSteps s := by
  simp only [runEncode, encodeSteps, chain, runCommand, andThen_assoc, andThen_okResult]

theorem runDecode_eq_chain (s : State) :
    runDecode s = (runPrimitive .decode done s).andThen (chain decodeSteps) := by
  simp only [runDecode, decodeSteps, chain, runCommand, andThen_assoc, andThen_okResult]

/-- Two states that differ in the outcome fields of STATUS and ERRINFO only. -/
structure Same (u v : State) : Prop where
  like : Like u v
  sat : SameSat u v
  irqEn : v.regs.irqEn = u.regs.irqEn
  err : v.regs.status.err = u.regs.status.err
  busErr : v.regs.status.busErr = u.regs.status.busErr
  cmdRejected : v.regs.status.cmdRejected = u.regs.status.cmdRejected
  host : v.host = u.host
  delay : v.delay = u.delay
  replies : v.replies = u.replies

theorem Same.refl (s : State) : Same s s := ⟨⟨rfl⟩, ⟨rfl, rfl⟩, rfl, rfl, rfl, rfl, rfl, rfl, rfl⟩

/-- A command's work keeps such states such. -/
theorem Same.of_work {u v u' v' : State} (h : Same u v) (hl : Like u' v') (hs : SameSat u v → SameSat u' v')
    (ku : Keeps u u') (kv : Keeps v v') : Same u' v' where
  like := hl
  sat := hs h.sat
  irqEn := by rw [kv.irqEn, ku.irqEn, h.irqEn]
  err := by rw [kv.err, ku.err, h.err]
  busErr := by rw [kv.busErr, ku.busErr, h.busErr]
  cmdRejected := by rw [kv.cmdRejected, ku.cmdRejected, h.cmdRejected]
  host := by rw [kv.host, ku.host, h.host]
  delay := by rw [kv.delay, ku.delay, h.delay]
  replies := by rw [kv.replies, ku.replies, h.replies]

theorem Same.completeOk {u v : State} (op : Byte) (h : Same u v) : Same u (Machine.completeOk op v) where
  like := ⟨by rw [h.like.eq]; rfl⟩
  sat := h.sat
  irqEn := h.irqEn
  err := h.err
  busErr := h.busErr
  cmdRejected := h.cmdRejected
  host := h.host
  delay := h.delay
  replies := h.replies

/-- A work that is done in one of two such states is done in the other. -/
theorem Same.ok {u v u' : State} {i : Instr} (h : Same u v) (hr : runCommand i u = .ok u') :
    ∃ v', runCommand i v = .ok v' ∧ Same u' v' := by
  have hl := runCommand_like i h.like
  have ku := runCommand_keeps i u
  have kv := runCommand_keeps i v
  cases hv : runCommand i v with
  | ok v' => rw [hr, hv] at hl; rw [hr] at ku; rw [hv] at kv; exact ⟨v', rfl, h.of_work hl.1 hl.2 ku kv⟩
  | raised v' e => rw [hr, hv] at hl; exact hl.elim

/-- An error raised in one of two such states is raised in the other. -/
theorem Same.raised {u v v' : State} {i : Instr} {e : CmdError} (h : Same u v) (hr : runCommand i v = .raised v' e) :
    ∃ u', runCommand i u = .raised u' e ∧ Same u' v' := by
  have hl := runCommand_like i h.like
  have ku := runCommand_keeps i u
  have kv := runCommand_keeps i v
  cases hu : runCommand i u with
  | ok u' => rw [hr, hu] at hl; exact hl.elim
  | raised u' e' =>
    rw [hu, hr] at hl; rw [hu] at ku; rw [hr] at kv
    obtain ⟨h1, h2, rfl⟩ := hl
    exact ⟨u', rfl, h.of_work h1 h2 ku kv⟩

/-- A completion with ERRCODE OK is of a work that was done. -/
theorem exec_ok_inv {i : Instr} {s t : State} (h : exec i s = .next t) (hc : t.regs.status.errCode = 0x00) :
    ∃ u, runCommand i s = .ok u ∧ t = completeOk (opcode i) u := by
  rw [exec_eq] at h
  injection h with h
  cases hr : runCommand i s with
  | ok u => rw [hr] at h; exact ⟨u, rfl, h.symm⟩
  | raised u e =>
    rw [hr] at h
    subst h
    have hn : errNumber e.code ≠ 0x00 := by cases e.code <;> decide
    exact absurd hc hn

/-- A completion with another ERRCODE is of a work that raised an error. -/
theorem exec_error_inv {i : Instr} {s t : State} (h : exec i s = .next t) (hc : t.regs.status.errCode ≠ 0x00) :
    ∃ u e, runCommand i s = .raised u e ∧ t = completeError (opcode i) e u := by
  rw [exec_eq] at h
  injection h with h
  cases hr : runCommand i s with
  | ok u => rw [hr] at h; subst h; exact absurd rfl hc
  | raised u e => rw [hr] at h; exact ⟨u, e, rfl, h.symm⟩

/-- A chain that is done is done command by command. -/
theorem runAll_of_chain {is : List Instr} {u v u' : State} (h : Same u v) (hc : chain is u = .ok u') :
    ∃ v', runAll is v = some v' ∧ Same u' v' ∧ (is ≠ [] → ∃ op w, v' = completeOk op w) := by
  induction is generalizing u v with
  | nil => cases hc; exact ⟨v, rfl, h, fun x => absurd rfl x⟩
  | cons i is ih =>
    cases hr : runCommand i u with
    | raised u1 e => rw [chain, hr] at hc; cases hc
    | ok u1 =>
      rw [chain, hr] at hc
      obtain ⟨v1, hv1, h1⟩ := h.ok hr
      obtain ⟨v', hv', h', hne⟩ := ih (h1.completeOk (opcode i)) hc
      refine ⟨v', ?_, h', fun _ => ?_⟩
      · rw [runAll, exec_eq, hv1]
        exact hv'
      · cases is with
        | nil => cases hv'; exact ⟨_, _, rfl⟩
        | cons j js => exact hne (by simp)

/-- Commands that complete OK one by one are a chain that is done. -/
theorem chain_of_runAll {is : List Instr} {u v v' : State} (h : Same u v) (hc : runAll is v = some v') :
    ∃ u', chain is u = .ok u' ∧ Same u' v' := by
  induction is generalizing u v with
  | nil => cases hc; exact ⟨u, rfl, h⟩
  | cons i is ih =>
    rw [runAll] at hc
    cases hx : exec i v with
    | fault f => cases f
    | refused r => rw [hx] at hc; cases hc
    | next t =>
      rw [hx] at hc
      by_cases h0 : t.regs.status.errCode = 0x00
      · simp only [h0, if_true] at hc
        obtain ⟨v1, hv1, rfl⟩ := exec_ok_inv hx h0
        have hl := runCommand_like i h.like
        cases hu : runCommand i u with
        | raised u1 e => rw [hu, hv1] at hl; exact hl.elim
        | ok u1 =>
          obtain ⟨v2, hv2, h2⟩ := h.ok hu
          rw [hv1] at hv2
          cases hv2
          obtain ⟨u', hu', h'⟩ := ih (h2.completeOk (opcode i)) hc
          exact ⟨u', by rw [chain, hu]; exact hu', h'⟩
      · change (if t.regs.status.errCode = 0x00 then runAll is t else none) = some v' at hc
        rw [if_neg h0] at hc
        cases hc

/-- The completion of a chain that is done, after its commands' own completions. -/
theorem withLastOp_completeOk {u v : State} (op : Byte) (h : Same u v) (hv : ∃ op' w, v = completeOk op' w) :
    withLastOp op v = completeOk op u := by
  have e := completeOk_of_like op h.like h.sat h.irqEn h.err h.busErr h.cmdRejected h.host h.delay h.replies
  obtain ⟨op', w, rfl⟩ := hv
  rw [← e]
  rfl

/-- The completion of a chain whose command raises an error, after that command's own completion. -/
theorem withLastOp_completeError {u v : State} (op op' : Byte) (e : CmdError) (h : Same u v) :
    withLastOp op (completeError op' e v) = completeError op e u := by
  rw [← completeError_of_like op e h.like h.sat h.irqEn h.busErr h.cmdRejected h.host h.delay h.replies]
  rfl

end Sys2Proof.Machine
end

