-- ==== Sys2Proof/Laws/Outputs.lean ====
section
/-! SUPPORT. Which commands write which output registers (30_encoding.md R102, 10_state.md R43 to R45): every command keeps
the output registers and notices that are not its own or one of its steps'. -/

namespace Sys2Proof.Machine

/-- What commands of the list `is` keep of the output registers (R102, last column). -/
structure KeepsOutputs (is : List Instr) (s t : State) : Prop where
  nblk : .segment ∉ is → t.regs.nblk = s.regs.nblk
  nsym : .quant ∉ is → t.regs.nsym = s.regs.nsym
  ndist : .hcount ∉ is → t.regs.ndist = s.regs.ndist
  nbits : .henc ∉ is → t.regs.nbits = s.regs.nbits
  ndsym : .hdec ∉ is → t.regs.ndsym = s.regs.ndsym
  nrblk : .dequant ∉ is → t.regs.nrblk = s.regs.nrblk
  satcntFwd : .scale ∉ is → t.regs.satcntFwd = s.regs.satcntFwd
  satFwd : .scale ∉ is → t.regs.status.satFwd = s.regs.status.satFwd
  satcntInv : .unscale ∉ is → t.regs.satcntInv = s.regs.satcntInv
  satInv : .unscale ∉ is → t.regs.status.satInv = s.regs.status.satInv
  root : .hbuild ∉ is → t.regs.root = s.regs.root
  maxlen : .hbuild ∉ is → t.regs.maxlen = s.regs.maxlen
  treeValid : .hcount ∉ is → .hbuild ∉ is → t.regs.status.treeValid = s.regs.status.treeValid

/-- A state with the same registers keeps every output. -/
theorem KeepsOutputs.of_regs {is : List Instr} {s t : State} (h : t.regs = s.regs) : KeepsOutputs is s t := by
  constructor <;> simp [h]

theorem KeepsOutputs.trans {is js : List Instr} {s t u : State} (h : KeepsOutputs is s t) (g : KeepsOutputs js t u) :
    KeepsOutputs (is ++ js) s u := by
  constructor <;> simp only [List.mem_append, not_or] <;> intros <;>
    simp_all [h.nblk, h.nsym, h.ndist, h.nbits, h.ndsym, h.nrblk, h.satcntFwd, h.satFwd, h.satcntInv, h.satInv, h.root,
      h.maxlen, h.treeValid, g.nblk, g.nsym, g.ndist, g.nbits, g.ndsym, g.nrblk, g.satcntFwd, g.satFwd, g.satcntInv,
      g.satInv, g.root, g.maxlen, g.treeValid]

/-- A primitive keeps the outputs its work keeps. -/
theorem runPrimitive_keepsOutputs {i : Instr} {is : List Instr} {work : State → Result} {s : State}
    (h : KeepsOutputs is s (work s).state) : KeepsOutputs is s (runPrimitive i work s).state := by
  rcases runPrimitive_cases i work s with ⟨c, info, -, he⟩ | ⟨-, he⟩
  · rw [he]; exact .of_regs rfl
  · rw [he]; exact h

/-- What a list of commands keeps, a longer one's claim covers. -/
theorem KeepsOutputs.append {is : List Instr} (js : List Instr) {s t : State} (h : KeepsOutputs is s t) :
    KeepsOutputs (is ++ js) s t := h.trans (.of_regs rfl)

theorem andThen_keepsOutputs {is js : List Instr} {s : State} {r : Result} {f : State → Result}
    (h : KeepsOutputs is s r.state) (hf : ∀ t, KeepsOutputs js t (f t).state) :
    KeepsOutputs (is ++ js) s (r.andThen f).state := by
  cases r with
  | ok t => exact h.trans (hf t)
  | raised t e => exact h.append js

theorem runSegment_keepsOutputs (s : State) : KeepsOutputs [.segment] s (runSegment s).state :=
  runPrimitive_keepsOutputs (by constructor <;> simp [segmentWork, done, Result.state, nextDraw])

theorem runScale_keepsOutputs (s : State) : KeepsOutputs [.scale] s (runScale s).state :=
  runPrimitive_keepsOutputs (by constructor <;> simp [scaleWork, done, Result.state, nextDraw])

theorem runFdct_keepsOutputs (s : State) : KeepsOutputs [.fdct] s (runFdct s).state := by
  refine runPrimitive_keepsOutputs ?_
  unfold fdctWork
  split <;> constructor <;> simp [done, dataError, Result.state, nextDraw]

theorem runQuant_keepsOutputs (s : State) : KeepsOutputs [.quant] s (runQuant s).state :=
  runPrimitive_keepsOutputs (by constructor <;> simp [quantWork, done, Result.state, nextDraw])

theorem runHcount_keepsOutputs (s : State) : KeepsOutputs [.hcount] s (runHcount s).state :=
  runPrimitive_keepsOutputs (by constructor <;> simp [hcountWork, done, Result.state, nextDraw])

theorem runHbuild_keepsOutputs (s : State) : KeepsOutputs [.hbuild] s (runHbuild s).state := by
  refine runPrimitive_keepsOutputs ?_
  unfold hbuildWork
  split <;> constructor <;> simp [done, dataError, Result.state, nextDraw]

theorem runHenc_keepsOutputs (s : State) : KeepsOutputs [.henc] s (runHenc s).state := by
  refine runPrimitive_keepsOutputs ?_
  unfold hencWork
  split <;> constructor <;> simp [done, dataError, Result.state, nextDraw]

theorem runHdec_keepsOutputs (s : State) : KeepsOutputs [.hdec] s (runHdec s).state := by
  refine runPrimitive_keepsOutputs ?_
  unfold hdecWork
  split <;> constructor <;> simp [done, dataError, Result.state, nextDraw]

theorem runDequant_keepsOutputs (s : State) : KeepsOutputs [.dequant] s (runDequant s).state := by
  refine runPrimitive_keepsOutputs ?_
  unfold dequantWork
  split <;> constructor <;> simp [done, dataError, Result.state, nextDraw]

theorem runIdct_keepsOutputs (s : State) : KeepsOutputs [.idct] s (runIdct s).state :=
  runPrimitive_keepsOutputs (by constructor <;> simp [idctWork, done, Result.state, nextDraw])

theorem runUnscale_keepsOutputs (s : State) : KeepsOutputs [.unscale] s (runUnscale s).state :=
  runPrimitive_keepsOutputs (by constructor <;> simp [unscaleWork, done, Result.state, nextDraw])

/-- The primitives a command runs (46_pipeline.md R260, R261). -/
def primitives : Instr → List Instr
  | .encode => [.segment, .scale, .fdct, .quant, .hcount, .hbuild, .henc]
  | .decode => [.hdec, .dequant, .idct, .unscale]
  | i => [i]

theorem runCommand_keepsOutputs (i : Instr) (s : State) : KeepsOutputs (primitives i) s (runCommand i s).state := by
  cases i with
  | nop => exact runPrimitive_keepsOutputs (i := .nop) (work := done) (.of_regs rfl)
  | chkcfg => exact runPrimitive_keepsOutputs (i := .chkcfg) (work := done) (.of_regs rfl)
  | segment => exact runSegment_keepsOutputs s
  | scale => exact runScale_keepsOutputs s
  | fdct => exact runFdct_keepsOutputs s
  | quant => exact runQuant_keepsOutputs s
  | hcount => exact runHcount_keepsOutputs s
  | hbuild => exact runHbuild_keepsOutputs s
  | henc => exact runHenc_keepsOutputs s
  | hdec => exact runHdec_keepsOutputs s
  | dequant => exact runDequant_keepsOutputs s
  | idct => exact runIdct_keepsOutputs s
  | unscale => exact runUnscale_keepsOutputs s
  | encode =>
    exact andThen_keepsOutputs (is := [.segment, .scale, .fdct, .quant, .hcount, .hbuild])
      (andThen_keepsOutputs (is := [.segment, .scale, .fdct, .quant, .hcount])
        (andThen_keepsOutputs (is := [.segment, .scale, .fdct, .quant])
          (andThen_keepsOutputs (is := [.segment, .scale, .fdct])
            (andThen_keepsOutputs (is := [.segment, .scale])
              (andThen_keepsOutputs (is := [.segment])
                (andThen_keepsOutputs (is := [])
                  (runPrimitive_keepsOutputs (i := .chkcfg) (work := done) (.of_regs rfl)) runSegment_keepsOutputs)
                runScale_keepsOutputs) runFdct_keepsOutputs) runQuant_keepsOutputs) runHcount_keepsOutputs)
        runHbuild_keepsOutputs) runHenc_keepsOutputs
  | decode =>
    exact andThen_keepsOutputs (is := [.hdec, .dequant, .idct])
      (andThen_keepsOutputs (is := [.hdec, .dequant])
        (andThen_keepsOutputs (is := [.hdec])
          (andThen_keepsOutputs (is := [])
            (runPrimitive_keepsOutputs (i := .decode) (work := done) (.of_regs rfl)) runHdec_keepsOutputs)
          runDequant_keepsOutputs) runIdct_keepsOutputs) runUnscale_keepsOutputs

end Sys2Proof.Machine
end

