-- ==== Sys2Proof/Laws/PerInstr.lean ====
section
/-! SUPPORT. One statement per command, as syntax: its word is a legal command word and reads back as it
(30_encoding.md R103, R105). -/

namespace Sys2Proof.Laws.WordReadsBack

/-- The command's word is legal, its MBZ field is zero, its OPC field is the command's opcode, and a decoder given the
table row's 32 bits answers the command. -/
def Statement (i : Instr) : Prop :=
  wordWellFormed (encode i) = true ∧ mbzField (encode i) = 0 ∧ opcField (encode i) = opcode i ∧
    decodeTableWord 32 (encode i).toNat = some i

theorem nop : Statement .nop := by unfold Statement; decide
theorem chkcfg : Statement .chkcfg := by unfold Statement; decide
theorem segment : Statement .segment := by unfold Statement; decide
theorem scale : Statement .scale := by unfold Statement; decide
theorem fdct : Statement .fdct := by unfold Statement; decide
theorem quant : Statement .quant := by unfold Statement; decide
theorem hcount : Statement .hcount := by unfold Statement; decide
theorem hbuild : Statement .hbuild := by unfold Statement; decide
theorem henc : Statement .henc := by unfold Statement; decide
theorem hdec : Statement .hdec := by unfold Statement; decide
theorem dequant : Statement .dequant := by unfold Statement; decide
theorem idct : Statement .idct := by unfold Statement; decide
theorem unscale : Statement .unscale := by unfold Statement; decide
theorem encode : Statement .encode := by unfold Statement; decide
theorem decode : Statement .decode := by unfold Statement; decide

end Sys2Proof.Laws.WordReadsBack
end

