-- ==== Sys2Proof/Laws/RoundTrip.lean ====
section
/-! SUPPORT. HCOUNT, HBUILD, HENC and HDEC one after another (45_entropy_coder.md R235, R249): what each leaves in memory for
the next, and that each succeeds. -/

namespace Sys2Proof.Machine

/-- A word of a buffer that a command does not write stays. -/
theorem MemFrame.holds {b : Buffer} {bs : List Buffer} {m n : Memory} (h : MemFrame bs m n) (hb : b ∉ bs) {i f : Nat}
    {w : Word} (hi : i < bufElements b) (hf : f < bufElemWords b) (hw : Holds m b i f w) : Holds n b i f w := by
  refine holds_congr (fun k hk hk' => h.frame k ?_) hw
  rintro ⟨c, hc, h1, h2⟩
  have h3 := bufAddr_in_window hi hf
  have h4 := windows_disjoint (b := b) (c := c) (fun e => hb (e ▸ hc))
  omega

/-- The coder's buffers stay when a command writes none of them. -/
theorem MemFrame.coder {bs : List Buffer} {m n : Memory} (h : MemFrame bs m n)
    (hb : Buffer.ftab ∉ bs ∧ Buffer.ctab ∉ bs ∧ Buffer.tree ∉ bs) :
    ∀ k, InWindows [.ftab, .ctab, .tree] k → byteAt n k = byteAt m k := by
  rintro k ⟨b, hb', h1, h2⟩
  refine h.frame k ?_
  rintro ⟨c, hc, h3, h4⟩
  have hne : b ≠ c := by
    rintro rfl
    simp only [List.mem_cons, List.not_mem_nil, or_false] at hb'
    rcases hb' with rfl | rfl | rfl
    · exact hb.1 hc
    · exact hb.2.1 hc
    · exact hb.2.2 hc
  have := windows_disjoint hne
  omega

/-! ### HCOUNT -/

theorem ftabWords_get : ∀ {t : List (Word × Nat)} {i : Nat} {x : Word} {c : Nat}, t[i]? = some (x, c) →
    (ftabWords t)[2 * i + 0]? = some x ∧ (ftabWords t)[2 * i + 1]? = some (encCount c)
  | [], _, _, _, h => by simp at h
  | e :: es, 0, x, c, h => by
    simp only [List.getElem?_cons_zero, Option.some.injEq] at h
    subst h
    simp [ftabWords]
  | e :: es, i + 1, x, c, h => by
    have := ftabWords_get (t := es) (i := i) (x := x) (c := c) (by simpa using h)
    simpa [ftabWords, Nat.mul_add] using this

/-- The words of a frequency table as HCOUNT counts it. -/
def entriesOf (t : List (Word × Nat)) : List FtabEntry := t.map fun p => { symbol := p.1, count := encCount p.2 }

/-- A table of the occurrences of at most 4096 symbols is valid. -/
theorem entriesOf_valid {l : List Word} (h1 : 1 ≤ l.length) (h2 : l.length ≤ 4096) :
    ValidTable (entriesOf (countSymbols l)) ∧ tableTotal (entriesOf (countSymbols l)) = l.length := by
  have hct := countTable l
  have hsum := sum_countSymbols l
  generalize countSymbols l = t at *
  have hlen : t.length ≤ l.length := by
    have := (List.subperm_of_subset hct.nodup fun x hx => (hct.mem x).mp hx).length_le
    rwa [List.length_map] at this
  have hpos : 1 ≤ t.length := by
    cases t with
    | nil => simp at hsum; omega
    | cons a b => simp
  have hcnt : ∀ p ∈ t, uval32 (encCount p.2) = p.2 ∧ 1 ≤ p.2 := by
    rintro ⟨x, c⟩ hp
    have hc := hct.count x c hp
    have hx : x ∈ l := (hct.mem x).mp (List.mem_map.mpr ⟨_, hp, rfl⟩)
    have h3 : 1 ≤ l.count x := List.count_pos_iff.mpr hx
    have h4 : l.count x ≤ l.length := List.count_le_length
    exact ⟨uval32_encCount (by simp only; omega), by simp only; omega⟩
  have htot : ∀ k, (((entriesOf t).take k).map fun d => uval32 d.count).sum = ((t.take k).map Prod.snd).sum := by
    intro k
    rw [entriesOf, ← List.map_take, List.map_map]
    congr 1
    exact List.map_congr_left fun p hp => (hcnt p (List.mem_of_mem_take hp)).1
  constructor
  · refine ⟨by simpa [entriesOf] using hpos, by simp [entriesOf]; omega, ?_⟩
    rintro i ⟨e, he, hbad⟩
    rw [entriesOf, List.getElem?_map, Option.map_eq_some_iff] at he
    obtain ⟨p, hp, rfl⟩ := he
    rcases hbad with hbad | ⟨j, hj, d, hd, hs⟩ | hbad
    · have := hcnt p (List.mem_of_getElem? hp)
      simp only at hbad
      omega
    · rw [entriesOf, List.getElem?_map, Option.map_eq_some_iff] at hd
      obtain ⟨p', hp', rfl⟩ := hd
      have e1 : (t.map Prod.fst)[i]? = some p.1 := by rw [List.getElem?_map, hp]; rfl
      have e2 : (t.map Prod.fst)[j]? = some p.1 := by rw [List.getElem?_map, hp']; simpa using hs
      have hil : i < (t.map Prod.fst).length := by
        by_contra hc
        rw [List.getElem?_eq_none (by omega)] at e1
        cases e1
      have := (List.getElem?_inj (i := j) (j := i) (by omega) hct.nodup).mp (e2.trans e1.symm)
      omega
    · rw [htot] at hbad
      have : ((t.take (i + 1)).map Prod.snd).sum ≤ (t.map Prod.snd).sum := by
        conv_rhs => rw [← List.take_append_drop (i + 1) t, List.map_append, List.sum_append]
        omega
      omega
  · have := htot (entriesOf t).length
    rw [List.take_length, List.take_of_length_le (by simp [entriesOf]), hsum] at this
    exact this

/-- FTAB and NDIST hold a table. -/
structure TableHeld (m : Memory) (r : Regs) (ft : List FtabEntry) : Prop where
  ndist : uval32 r.ndist = ft.length
  symbol : ∀ i e, ft[i]? = some e → Holds m .ftab i 0 e.symbol
  count : ∀ i e, ft[i]? = some e → Holds m .ftab i 1 e.count

theorem TableHeld.congr {m : Memory} {r q : Regs} {ft : List FtabEntry} (h : TableHeld m r ft) (hq : q.ndist = r.ndist) :
    TableHeld m q ft := ⟨by rw [hq]; exact h.ndist, h.symbol, h.count⟩

theorem TableHeld.read {s : State} {ft : List FtabEntry} (h : TableHeld s.mem s.regs ft) (hle : ft.length ≤ 4096) :
    readFtab s (uval32 s.regs.ndist) = ft := by
  rw [h.ndist]
  apply List.ext_getElem?
  intro i
  rcases Nat.lt_or_ge i ft.length with hi | hi
  · have he := List.getElem?_eq_getElem hi
    have h1 := bufWord_of_holds (h.symbol i _ he) (by show _ < 4096; omega)
    have h2 := bufWord_of_holds (h.count i _ he) (by show _ < 4096; omega)
    rw [he, readFtab, List.getElem?_map, List.getElem?_range hi, Option.map_some, h1, h2]
  · rw [List.getElem?_eq_none (by simpa using hi), List.getElem?_eq_none hi]

theorem hcount_run {s : State} (h1 : 1 ≤ uval32 s.regs.nsym) (h2 : uval32 s.regs.nsym ≤ 4096) :
    runHcount s = hcountWork s := by
  refine runPrimitive_of_passes ?_
  simp only [preChecks, firstFailure, ckNsymNz_passes.mpr ⟨h1, h2⟩]

/-- HCOUNT leaves the table of its symbols in FTAB. -/
theorem hcount_leaves {s : State} (h1 : 1 ≤ uval32 s.regs.nsym) (h2 : uval32 s.regs.nsym ≤ 4096) : ∃ t,
    runHcount s = .ok t ∧ TableHeld t.mem t.regs (entriesOf (countSymbols (bufWords s .sym 0 (uval32 s.regs.nsym)))) ∧
      t.regs = { s.regs with
        ndist := t.regs.ndist
        status := { s.regs.status with treeValid := false } } := by
  have hl : (bufWords s .sym 0 (uval32 s.regs.nsym)).length = uval32 s.regs.nsym := by simp [bufWords]
  have hle : (hcountTable s).length ≤ 4096 := by
    have := (entriesOf_valid (l := bufWords s .sym 0 (uval32 s.regs.nsym)) (by omega) (by omega)).1.le
    simpa [entriesOf, hcountTable] using this
  have hget : ∀ i e, (entriesOf (hcountTable s))[i]? = some e → i < 4096 ∧
      (ftabWords (hcountTable s))[2 * i + 0]? = some e.symbol ∧ (ftabWords (hcountTable s))[2 * i + 1]? = some e.count := by
    intro i e he
    rw [entriesOf, List.getElem?_map, Option.map_eq_some_iff] at he
    obtain ⟨⟨x, c⟩, hp, rfl⟩ := he
    have : i < (hcountTable s).length := by
      by_contra hc
      rw [List.getElem?_eq_none (by omega)] at hp
      cases hp
    exact ⟨by omega, ftabWords_get hp⟩
  refine ⟨_, hcount_run h1 h2, ⟨?_, ?_, ?_⟩, rfl⟩
  · show uval32 (encCount (hcountTable s).length) = _
    rw [uval32_encCount (by omega)]
    simp [entriesOf, hcountTable]
  · intro i e he
    obtain ⟨hi, hw, -⟩ := hget i e he
    exact holds_storeBuf hw (by decide) (by show _ < 4096; omega)
  · intro i e he
    obtain ⟨hi, -, hw⟩ := hget i e he
    exact holds_storeBuf hw (by decide) (by show _ < 4096; omega)

/-! ### HBUILD -/

/-- TREE, CTAB, ROOT, MAXLEN and FTAB hold the build of a table. -/
structure Coded (m : Memory) (r : Regs) (ft : List FtabEntry) (T : List Node) (tree : HTree) : Prop where
  table : TableHeld m r ft
  valid : ValidTable ft
  build : ModelBuild ft T tree
  length : ∀ i < ft.length, (modelCode tree i).length ≤ 32
  holds : HoldsBuild m r T tree.index ft.length (modelCode tree)

/-- Memory that reads as before in the buffers of the coder. -/
theorem Coded.congr {m n : Memory} {r q : Regs} {ft : List FtabEntry} {T : List Node} {tree : HTree}
    (h : Coded m r ft T tree) (hm : ∀ k, InWindows [.ftab, .ctab, .tree] k → byteAt n k = byteAt m k)
    (hd : q.ndist = r.ndist) (hr : q.root = r.root) (hx : q.maxlen = r.maxlen) : Coded n q ft T tree := by
  have hle := h.valid.le
  have hT := h.build.length
  have key : ∀ {b : Buffer} {i f : Nat} {w : Word}, b ∈ [Buffer.ftab, .ctab, .tree] → i < bufElements b → f < bufElemWords b →
      Holds m b i f w → Holds n b i f w := by
    intro b i f w hb hi hf hw
    refine holds_congr (fun k hk hk' => hm k ⟨b, hb, ?_⟩) hw
    have := bufAddr_in_window hi hf
    omega
  have hlt : ∀ {α : Type} {l : List α} {i : Nat} {x : α}, l[i]? = some x → i < l.length := by
    intro α l i x he
    by_contra hc
    rw [List.getElem?_eq_none (by omega)] at he
    cases he
  have hft : ∀ {i e}, ft[i]? = some e → i < bufElements .ftab := fun he => by
    have := hlt he
    show _ < 4096; omega
  have htr : ∀ {x nd}, T[x]? = some nd → x < bufElements .tree := fun he => by
    have := hlt he
    show _ < 8192; omega
  have hct : ∀ {i}, i < ft.length → i < bufElements .ctab := fun hi => by show _ < 4096; omega
  refine ⟨⟨by rw [hd]; exact h.table.ndist, ?_, ?_⟩, h.valid, h.build, h.length, ⟨?_, ?_, ?_, ?_, ?_, ?_, ?_, ?_, ?_⟩⟩
  · exact fun i e he => key (by simp) (hft he) (by decide) (h.table.symbol i e he)
  · exact fun i e he => key (by simp) (hft he) (by decide) (h.table.count i e he)
  · exact fun x nd hg => key (by simp) (htr hg) (by decide) (h.holds.weight x nd hg)
  · exact fun x nd hg => key (by simp) (htr hg) (by decide) (h.holds.left x nd hg)
  · exact fun x nd hg => key (by simp) (htr hg) (by decide) (h.holds.right x nd hg)
  · exact fun x nd hg => key (by simp) (htr hg) (by decide) (h.holds.payload x nd hg)
  · exact fun i hi => key (by simp) (hct hi) (by decide) (h.holds.len i hi)
  · exact fun i hi => key (by simp) (hct hi) (by decide) (h.holds.code i hi)
  · rw [hr]; exact h.holds.root
  · rw [hx]; exact h.holds.maxlenLe
  · rw [hx]; exact h.holds.maxlenEq

/-- HBUILD on a table whose total is at most 4096 succeeds, with codes of at most 16 bits (R235). -/
theorem hbuild_leaves {s : State} {ft : List FtabEntry} (h : TableHeld s.mem s.regs ft) (hv : ValidTable ft)
    (ht : tableTotal ft ≤ 4096) : ∃ T tree t, runHbuild s = .ok t ∧ Coded t.mem t.regs ft T tree ∧
      (∀ i < ft.length, (modelCode tree i).length ≤ 16) ∧
      t.regs = { s.regs with
        root := t.regs.root
        maxlen := t.regs.maxlen
        status := { s.regs.status with treeValid := true } } := by
  have hread := h.read hv.le
  obtain ⟨T, tree, hb, hok, -⟩ := hbuild_cases hread.symm hv
  have hheight : tree.height ≤ 16 := by
    by_contra hc
    have h1 : Nat.fib 19 ≤ Nat.fib (tree.height + 2) := Nat.fib_mono (by omega)
    have h2 := hb.fib_le
    have e : Nat.fib 19 = 4181 := by decide
    omega
  have h16 : ∀ i < ft.length, (modelCode tree i).length ≤ 16 := fun i hi => by
    have := (hb.length_code hi).2
    omega
  have h32 : ∀ i < ft.length, (modelCode tree i).length ≤ 32 := fun i hi => (h16 i hi).trans (by omega)
  obtain ⟨r, hr, hre, hroot, hmax⟩ := hok h32
  refine ⟨T, tree, _, hr, ⟨⟨?_, ?_, ?_⟩, hv, hb, h32, hb.holds hv.le h32 s.mem hroot hmax⟩, h16, hre⟩
  · show uval32 r.ndist = _
    rw [hre]; exact h.ndist
  all_goals
    intro i e he
    have hi : i < ft.length := by
      by_contra hc
      rw [List.getElem?_eq_none (by omega)] at he
      cases he
    have hle := hv.le
    have hout : ∀ f < 2, ∀ k, bufAddr .ftab i f ≤ k → k < bufAddr .ftab i f + 4 →
        byteAt (storeBuf (storeBuf s.mem .tree 0 (treeWords (buildTree ft).nodes)) .ctab 0 (ctabWords (buildTree ft).codes)) k
          = byteAt s.mem k := by
      intro f hf k hk hk'
      have hw := bufAddr_in_window (b := .ftab) (i := i) (f := f) (by show _ < 4096; omega) hf
      have h1 := windows_disjoint (b := .ftab) (c := .ctab) (by decide)
      have h2 := windows_disjoint (b := .ftab) (c := .tree) (by decide)
      rw [byteAt_storeBuf_of_outside_window (by omega), byteAt_storeBuf_of_outside_window (by omega)]
  · exact holds_congr (hout 0 (by omega)) (h.symbol i e he)
  · exact holds_congr (hout 1 (by omega)) (h.count i e he)

/-! ### HENC -/

/-- The code of a symbol in a table. -/
def codeIn (ft : List FtabEntry) (tree : HTree) (x : Word) : List Bool := modelCode tree ((symbolIndex ft x).getD 0)

/-- The stream of some symbols. -/
def streamOf (ft : List FtabEntry) (tree : HTree) (syms : List Word) : List Bool := syms.flatMap (codeIn ft tree)

theorem symbolIndex_of_mem {ft : List FtabEntry} {x : Word} (h : ∃ e ∈ ft, e.symbol = x) :
    ∃ i e, symbolIndex ft x = some i ∧ ft[i]? = some e ∧ e.symbol = x := by
  cases hs : symbolIndex ft x with
  | none =>
    rw [symbolIndex_eq_none] at hs
    obtain ⟨e, he, hx⟩ := h
    exact absurd hx (hs e he)
  | some i =>
    rw [symbolIndex, List.findIdx?_eq_some_iff_getElem] at hs
    obtain ⟨hi, he, -⟩ := hs
    exact ⟨i, ft[i], rfl, List.getElem?_eq_getElem hi, by simpa using he⟩

theorem Coded.symbolCode {s : State} {ft : List FtabEntry} {T : List Node} {tree : HTree} (h : Coded s.mem s.regs ft T tree)
    {x : Word} (hx : ∃ e ∈ ft, e.symbol = x) : Machine.symbolCode s ft x = some (codeIn ft tree x) := by
  obtain ⟨i, e, hi, he, -⟩ := symbolIndex_of_mem hx
  have hil : i < ft.length := by
    by_contra hc
    rw [List.getElem?_eq_none (by omega)] at he
    cases he
  have hle := h.valid.le
  have hb : i < bufElements .ctab := by show _ < 4096; omega
  have h32 := h.length i hil
  rw [Machine.symbolCode, codeIn, hi, Option.map_some, Option.getD_some, bufWord_of_holds (h.holds.len i hil) hb,
    bufWord_of_holds (h.holds.code i hil) hb, uval32_encCount (by omega), codeBits_code h32]

theorem length_streamOf {ft : List FtabEntry} {tree : HTree} (h : ∀ i < ft.length, (modelCode tree i).length ≤ 32)
    (hp : 1 ≤ ft.length) : ∀ syms : List Word, (streamOf ft tree syms).length ≤ 32 * syms.length
  | [] => by simp [streamOf]
  | x :: xs => by
    have ih := length_streamOf h hp xs
    have : (codeIn ft tree x).length ≤ 32 := by
      unfold codeIn
      cases hs : symbolIndex ft x with
      | none => exact h 0 (by omega)
      | some i =>
        rw [symbolIndex, List.findIdx?_eq_some_iff_getElem] at hs
        exact h i hs.1
    simp only [streamOf, List.flatMap_cons, List.length_append, List.length_cons] at *
    omega

theorem henc_run {s : State} (h1 : s.regs.status.treeValid = true) (h2 : uval32 s.regs.nsym ≤ 4096) :
    runHenc s = hencWork s := by
  refine runPrimitive_of_passes ?_
  simp only [preChecks, firstFailure, ckTree_passes.mpr h1, ckNsym_passes.mpr h2]

/-- HENC on symbols of the table succeeds and leaves their stream in BITS. -/
theorem henc_leaves {s : State} {ft : List FtabEntry} {T : List Node} {tree : HTree} (h : Coded s.mem s.regs ft T tree)
    (h1 : s.regs.status.treeValid = true) (h2 : uval32 s.regs.nsym ≤ 4096)
    (hs : ∀ x ∈ bufWords s .sym 0 (uval32 s.regs.nsym), ∃ e ∈ ft, e.symbol = x) : ∃ t, runHenc s = .ok t ∧
      (∀ q, q < ceilDiv (streamOf ft tree (bufWords s .sym 0 (uval32 s.regs.nsym))).length 32 →
        Holds t.mem .bits q 0
          (packWord (((streamOf ft tree (bufWords s .sym 0 (uval32 s.regs.nsym))).drop (32 * q)).take 32))) ∧
      t.regs = { s.regs with
        nbits := encCount (streamOf ft tree (bufWords s .sym 0 (uval32 s.regs.nsym))).length } := by
  have hst : hencStream s = .ok (streamOf ft tree (bufWords s .sym 0 (uval32 s.regs.nsym))) := by
    rw [hencStream, h.table.read h.valid.le]
    exact encodeSymbols_ok s ft (codeIn ft tree) _ 0 fun x hx => h.symbolCode (hs x hx)
  have hlen := length_streamOf h.length h.valid.pos (bufWords s .sym 0 (uval32 s.regs.nsym))
  have hw : hencWork s = .ok (nextDraw { s with
      mem := storeBuf s.mem .bits 0 (packWords (ceilDiv (streamOf ft tree (bufWords s .sym 0 (uval32 s.regs.nsym))).length 32)
        (streamOf ft tree (bufWords s .sym 0 (uval32 s.regs.nsym))))
      regs := { s.regs with
        nbits := encCount (streamOf ft tree (bufWords s .sym 0 (uval32 s.regs.nsym))).length } }) := by
    unfold hencWork
    rw [hst]
    rfl
  refine ⟨_, (henc_run h1 h2).trans hw, ?_, rfl⟩
  intro q hq
  have hlt := ceilDiv_mul_lt (n := (streamOf ft tree (bufWords s .sym 0 (uval32 s.regs.nsym))).length) (k := 32) (by decide)
  have hsl : (bufWords s .sym 0 (uval32 s.regs.nsym)).length = uval32 s.regs.nsym := by simp [bufWords]
  rw [hsl] at hlen
  exact holds_result rfl (by show _ < 4096; omega) (packWords_get _ _ _ hq)

/-! ### HDEC -/

theorem Coded.treeIs {s : State} {ft : List FtabEntry} {T : List Node} {tree : HTree} (h : Coded s.mem s.regs ft T tree) :
    TreeIs s T := by
  have hle := h.valid.le
  have hT := h.build.length
  exact treeIs_of_holds (by omega) h.holds

/-- The payload of leaf i is the symbol of entry i (R227). -/
theorem Coded.leaf {s : State} {ft : List FtabEntry} {T : List Node} {tree : HTree} (h : Coded s.mem s.regs ft T tree)
    {i : Nat} {e : FtabEntry} (he : ft[i]? = some e) :
    bufWord s .tree i 1 = 0xFFFFFFFF ∧ bufWord s .tree i 3 = e.symbol := by
  have hi : i < ft.length := by
    by_contra hc
    rw [List.getElem?_eq_none (by omega)] at he
    cases he
  have hT : T[i]? = some (leafOf e) := by
    have hpre : ∀ {T T' : List Node} {Q : List Nat} {r : Nat}, MergeRun T Q T' r → ∀ (x : Nat) (nd : Node), T[x]? = some nd → T'[x]? = some nd := by
      intro T T' Q r hrun
      induction hrun with
      | stop => exact fun x nd hx => hx
      | merge _ _ _ ih => exact fun x nd hx => ih x nd (getElem?_append_some _ hx)
    exact hpre h.build.run i _ (by simp [he])
  obtain ⟨h1, -, h3⟩ := h.treeIs i _ hT
  exact ⟨by rw [h1]; rfl, by rw [h3]; rfl⟩

/-- The codes of symbols of a table decode to the symbols, if the table has two entries or more (R246). -/
theorem Coded.decodes {s : State} {ft : List FtabEntry} {T : List Node} {tree : HTree} (h : Coded s.mem s.regs ft T tree)
    (h2 : 2 ≤ ft.length) : ∀ syms : List Word, (∀ x ∈ syms, ∃ e ∈ ft, e.symbol = x) →
      Decodes s tree.index (streamOf ft tree syms) syms
  | [], _ => .nil
  | x :: xs, hx => by
    obtain ⟨i, e, hi, he, hs⟩ := symbolIndex_of_mem (hx x (by simp))
    have hil : i < ft.length := by
      by_contra hc
      rw [List.getElem?_eq_none (by omega)] at he
      cases he
    have hle := h.valid.le
    have hT := h.build.length
    have hcode : codeIn ft tree x = modelCode tree i := by rw [codeIn, hi, Option.getD_some]
    have hpath := h.build.built.code i hil
    rw [if_neg (by omega)] at hpath
    have hwalk := treeWalk_of_edgePath (s := s) (by omega) h.treeIs (fun y nd hg => by
      rcases Nat.lt_or_ge y ft.length with hy | hy
      · have := h.build.inv.isLeaf y nd hy hg
        rw [this.1, this.2]
      · obtain ⟨a, b, h1, h2, -⟩ := h.build.inv.isNode y nd hy hg
        rw [h1, h2]
        simp) (fun y z hc => by
      have := (h.build.inv.childOut y z hc).1
      obtain ⟨nd, hg, -⟩ := hc
      by_contra hz
      rw [List.getElem?_eq_none (by omega)] at hg
      cases hg) hpath
    obtain ⟨hl1, hl2⟩ := h.leaf he
    have ih := h.decodes h2 xs fun y hy => hx y (by simp [hy])
    rw [streamOf, List.flatMap_cons, hcode]
    have hne : modelCode tree i ≠ [] := fun hc => by
      have := (h.build.length_code hil).1
      rw [hc] at this
      simp at this
    have := Decodes.symbol hwalk hne hl1 ih
    rw [hl2, hs] at this
    exact this

theorem hdec_run {s : State} (h1 : s.regs.status.treeValid = true) (h2 : uval32 s.regs.nbits ≤ 131072) :
    runHdec s = hdecWork s := by
  refine runPrimitive_of_passes ?_
  simp only [preChecks, firstFailure, ckTree_passes.mpr h1, ckNbits_passes.mpr h2]

/-- HDEC on the stream of symbols of the table gives the symbols back (R249 item 3). -/
theorem hdec_leaves {s : State} {ft : List FtabEntry} {T : List Node} {tree : HTree} (h : Coded s.mem s.regs ft T tree)
    (h1 : s.regs.status.treeValid = true) {syms : List Word} (hs : ∀ x ∈ syms, ∃ e ∈ ft, e.symbol = x)
    (hl : syms.length ≤ 4096) (hn : uval32 s.regs.nbits = (streamOf ft tree syms).length)
    (hb : ∀ q, q < ceilDiv (streamOf ft tree syms).length 32 →
      Holds s.mem .bits q 0 (packWord (((streamOf ft tree syms).drop (32 * q)).take 32))) : ∃ t, runHdec s = .ok t ∧
      (∀ d x, syms[d]? = some x → Holds t.mem .dsym d 0 x) ∧
      t.regs = { s.regs with ndsym := encCount syms.length } := by
  have hlen := length_streamOf h.length h.valid.pos syms
  have hbits : streamBits s (uval32 s.regs.nbits) = streamOf ft tree syms := by
    rw [hn]; exact streamBits_of_packed (by omega) hb
  have hroot := h.holds.root
  have hres : hdecResult s = .symbols syms := by
    rw [hdecResult, hbits, hroot]
    rcases h.build.isLeaf with ⟨hone, htree⟩ | ⟨htwo, i, l, r, htree⟩
    · obtain ⟨e, he⟩ : ∃ e, ft[0]? = some e := ⟨ft[0]'(by omega), List.getElem?_eq_getElem (by omega)⟩
      obtain ⟨hl1, hl2⟩ := h.leaf he
      have hall : ∀ x ∈ syms, x = e.symbol := by
        intro x hx
        obtain ⟨d, hd, rfl⟩ := hs x hx
        obtain ⟨j, hj⟩ := List.mem_iff_getElem?.mp hd
        have hjl : j < ft.length := by
          by_contra hc
          rw [List.getElem?_eq_none (by omega)] at hj
          cases hj
        have hj0 : j = 0 := by omega
        subst hj0
        rw [he] at hj
        cases hj
        rfl
      have hrep : syms = List.replicate syms.length e.symbol := List.eq_replicate_iff.mpr ⟨rfl, hall⟩
      have hcode : ∀ x, codeIn ft tree x = [false] := by
        intro x
        have h0 : (symbolIndex ft x).getD 0 = 0 := by
          cases hsx : symbolIndex ft x with
          | none => rfl
          | some j =>
            rw [symbolIndex, List.findIdx?_eq_some_iff_getElem] at hsx
            have := hsx.1
            simp only [Option.getD_some]
            omega
        rw [codeIn, h0, htree]
        rfl
      have hst : streamOf ft tree syms = List.replicate syms.length false := by
        have : ∀ l : List Word, l.flatMap (codeIn ft tree) = List.replicate l.length false := by
          intro l
          induction l with
          | nil => rfl
          | cons y ys ih => rw [List.flatMap_cons, hcode, ih, List.length_cons, List.replicate_succ]; rfl
        exact this syms
      have hleaf : isLeaf s tree.index = true := by
        rw [isLeaf_iff, htree]; exact hl1
      have hw := hdecWalk_single hleaf syms.length [] 0 tree.index 0 (by omega)
      rw [List.append_nil] at hw
      rw [hst, hw, hdecWalk, hleaf]
      simp only [Bool.not_true, Bool.false_and, Bool.false_eq_true, if_false, emits_symbols, List.append_nil]
      have hpl : payload s tree.index = e.symbol := by rw [payload, htree]; exact hl2
      rw [hpl, ← hrep]
    · have hr : isLeaf s tree.index = false := by
        rw [isLeaf_eq_false]
        obtain ⟨⟨nd, hg, hnl, hnr⟩, hsl, -⟩ := htree ▸ h.build.shape
        obtain ⟨h3, -, -⟩ := h.treeIs i nd hg
        have hli := hsl.index_lt
        have hle := h.valid.le
        have hT := h.build.length
        rw [htree]
        simp only [HTree.index]
        rw [h3, hnl]
        exact (childWord_some (by omega)).1
      have hw := hdecWalk_decodes hr (h.decodes htwo syms hs) [] 0 0 (by omega)
      rw [List.append_nil] at hw
      rw [hw, hdecWalk, hr]
      simp [emits_symbols]
  have hw : hdecWork s = .ok (nextDraw { s with
      mem := storeBuf s.mem .dsym 0 syms
      regs := { s.regs with ndsym := encCount syms.length } }) := by
    unfold hdecWork
    rw [hres]
    rfl
  refine ⟨_, (hdec_run h1 (by omega)).trans hw, ?_, rfl⟩
  intro d x hx
  have hd : d < syms.length := by
    by_contra hc
    rw [List.getElem?_eq_none (by omega)] at hx
    cases hx
  exact holds_result rfl (by show _ < 4096; omega) hx

end Sys2Proof.Machine
end

