-- ==== Sys2Proof/Laws/Scaler.lean ====
section
/-! SUPPORT. The integer forms of SCALE and UNSCALE (42_scaler.md R163, R168) equal the exact formulas (R160, R165), and their
bounds (R162, R169). -/

namespace Sys2Proof.Machine

theorem valS_sub (a b : Word) : valS a - valS b = (sval32 a - sval32 b : ℝ) / 2 ^ Config.sfrac := by
  unfold valS; ring

theorem valS_lt {a b : Word} : valS a < valS b ↔ sval32 a < sval32 b := by
  unfold valS
  rw [div_lt_div_iff_of_pos_right (by positivity)]
  exact_mod_cast Iff.rfl

theorem valS_le {a b : Word} : valS a ≤ valS b ↔ sval32 a ≤ sval32 b := by
  unfold valS
  rw [div_le_div_iff_of_pos_right (by positivity)]
  exact_mod_cast Iff.rfl

/-- The clamped fraction of R160. -/
theorem clampReal_fraction {lo hi v : Int} (h : lo < hi) :
    clampReal (((v : ℝ) - lo) / ((hi : ℝ) - lo)) 0 1 = ((clamp v lo hi : ℝ) - lo) / ((hi : ℝ) - lo) := by
  have hd : (0 : ℝ) < (hi : ℝ) - lo := by
    have : (lo : ℝ) < hi := by exact_mod_cast h
    linarith
  unfold clampReal clamp
  have h1 : ((v : ℝ) - lo) / ((hi : ℝ) - lo) < 0 ↔ v < lo := by
    rw [div_lt_iff₀ hd, zero_mul, sub_neg]; exact_mod_cast Iff.rfl
  have h2 : 1 < ((v : ℝ) - lo) / ((hi : ℝ) - lo) ↔ hi < v := by
    rw [lt_div_iff₀ hd, one_mul, sub_lt_sub_iff_right]; exact_mod_cast Iff.rfl
  rw [if_congr h1 rfl (if_congr h2 rfl rfl)]
  split
  · simp
  · split
    · rw [div_self hd.ne']
    · rfl

theorem two_pow_pred {R : Nat} (h : 1 ≤ R) : (2 : ℝ) ^ R = 2 * 2 ^ (R - 1) := by
  rw [← pow_succ', Nat.sub_add_cancel h]

/-- R163 is R160. -/
theorem scaleValue_eq {R : Nat} {lo hi v : Word} (h : sval32 lo < sval32 hi) :
    scaleValue R (sval32 lo) (sval32 hi) (sval32 v) = scaled R lo hi v := by
  have hd : (0 : ℝ) < (sval32 hi : ℝ) - sval32 lo := by
    have : (sval32 lo : ℝ) < sval32 hi := by exact_mod_cast h
    linarith
  have hn : (((sval32 hi - sval32 lo).toNat : ℕ) : ℝ) = (sval32 hi : ℝ) - sval32 lo := by
    have : (((sval32 hi - sval32 lo).toNat : ℕ) : ℤ) = sval32 hi - sval32 lo := Int.toNat_of_nonneg (by omega)
    exact_mod_cast congrArg (Int.cast : ℤ → ℝ) this
  unfold scaleValue scaled
  rw [roundHazDiv_eq _ (by omega), hn, valS_sub, valS_sub, div_div_div_cancel_right₀ (by positivity), clampReal_fraction h]
  congr 1
  push_cast
  field_simp

/-- R162. -/
theorem scaled_bounds {R : Nat} (hR : 1 ≤ R) {lo hi v : Word} (h : sval32 lo < sval32 hi) :
    -2 ^ (R - 1) ≤ scaled R lo hi v ∧ scaled R lo hi v ≤ 2 ^ (R - 1) ∧
      (sval32 v ≤ sval32 lo → scaled R lo hi v = -2 ^ (R - 1)) ∧
      (sval32 hi ≤ sval32 v → scaled R lo hi v = 2 ^ (R - 1)) := by
  have hc : ∀ x : ℝ, 0 ≤ clampReal x 0 1 ∧ clampReal x 0 1 ≤ 1 := by
    intro x
    unfold clampReal
    split
    · constructor <;> norm_num
    · split
      · constructor <;> norm_num
      · constructor <;> linarith
  have hd : 0 < valS hi - valS lo := by have := valS_lt.mpr h; linarith
  have hp : (0 : ℝ) < 2 ^ (R - 1) := by positivity
  unfold scaled
  refine ⟨le_roundHaz ?_, roundHaz_le ?_, fun hv => ?_, fun hv => ?_⟩
  · push_cast
    have := (hc ((valS v - valS lo) / (valS hi - valS lo))).1
    have : 0 ≤ (2 : ℝ) ^ R * clampReal ((valS v - valS lo) / (valS hi - valS lo)) 0 1 := by positivity
    linarith
  · push_cast
    have := mul_le_mul_of_nonneg_left (hc ((valS v - valS lo) / (valS hi - valS lo))).2 hp.le
    rw [two_pow_pred hR]
    linarith
  · have : clampReal ((valS v - valS lo) / (valS hi - valS lo)) 0 1 = 0 := by
      have hx : (valS v - valS lo) / (valS hi - valS lo) ≤ 0 := div_nonpos_of_nonpos_of_nonneg (by have := valS_le.mpr hv; linarith) hd.le
      unfold clampReal
      split
      · rfl
      · rw [if_neg (by linarith)]; linarith
    rw [this, mul_zero, zero_sub]
    have e := roundHaz_intCast (-2 ^ (R - 1))
    push_cast at e
    exact e
  · have : clampReal ((valS v - valS lo) / (valS hi - valS lo)) 0 1 = 1 := by
      have hx : 1 ≤ (valS v - valS lo) / (valS hi - valS lo) := by
        rw [le_div_iff₀ hd]; have := valS_le.mpr hv; linarith
      unfold clampReal
      rw [if_neg (by linarith)]
      split
      · rfl
      · linarith
    rw [this, mul_one, two_pow_pred hR]
    have e := roundHaz_intCast (2 ^ (R - 1))
    push_cast at e
    rw [show 2 * (2 : ℝ) ^ (R - 1) - 2 ^ (R - 1) = 2 ^ (R - 1) by ring]
    exact e

theorem scaled_fits {R : Nat} (hR : 1 ≤ R) (hR' : R ≤ 16) {lo hi v : Word} (h : sval32 lo < sval32 hi) :
    fits32 (scaled R lo hi v) = true := by
  obtain ⟨h₁, h₂, -, -⟩ := scaled_bounds (v := v) hR h
  have : (2 : ℤ) ^ (R - 1) ≤ 2 ^ 15 := pow_le_pow_right₀ (by norm_num) (by omega)
  rw [fits32_iff]
  omega

/-- R161. -/
theorem saturates_iff {lo hi v : Word} :
    saturates (sval32 lo) (sval32 hi) (sval32 v) = true ↔ valS v < valS lo ∨ valS hi < valS v := by
  rw [valS_lt, valS_lt]
  simp [saturates]

/-! ### UNSCALE -/

theorem normalised_eq (R : Nat) (y : DWord) :
    normalised R y = (unscaleNumerator R (sval64 y) : ℝ) / 2 ^ (R + Config.yfrac) := by
  unfold normalised unscaleNumerator valY
  push_cast
  rw [pow_add, pow_add]
  field_simp

theorem clampReal_normalised (R : Nat) (y : DWord) :
    clampReal (normalised R y) 0 1
      = (clamp (unscaleNumerator R (sval64 y)) 0 (2 ^ (R + Config.yfrac)) : ℝ) / 2 ^ (R + Config.yfrac) := by
  have hp : (0 : ℝ) < 2 ^ (R + Config.yfrac) := by positivity
  have := clampReal_fraction (lo := 0) (hi := 2 ^ (R + Config.yfrac)) (v := unscaleNumerator R (sval64 y)) (by positivity)
  rw [normalised_eq R]
  push_cast at this
  simpa using this

/-- R168 is R165. -/
theorem unscaleValue_eq {R : Nat} {lo hi : Word} (y : DWord) :
    unscaleValue R (sval32 lo) (sval32 hi) (sval64 y) = unscaled R lo hi y := by
  unfold unscaleValue unscaled
  have hp : (2 : ℝ) ^ (R + Config.yfrac) ≠ 0 := by positivity
  rw [roundHazDiv_eq _ (by positivity), clampReal_normalised R]
  congr 1
  unfold valS
  push_cast
  generalize (clamp (unscaleNumerator R (sval64 y)) 0 (2 ^ (R + Config.yfrac)) : ℝ) = c
  field_simp
  ring

/-- R166. -/
theorem extreme_iff (R : Nat) (y : DWord) :
    extreme R (sval64 y) = true ↔ normalised R y < 0 ∨ 1 < normalised R y := by
  have hp : (0 : ℝ) < 2 ^ (R + Config.yfrac) := by positivity
  rw [normalised_eq R, div_lt_iff₀ hp, zero_mul, lt_div_iff₀ hp, one_mul]
  unfold extreme
  simp only [Bool.or_eq_true, decide_eq_true_eq]
  constructor
  · rintro (h | h)
    · left; exact_mod_cast h
    · right; exact_mod_cast h
  · rintro (h | h)
    · left; exact_mod_cast h
    · right; exact_mod_cast h

/-- R167: what UNSCALE writes lies between MIN and MAX. -/
theorem unscaled_bounds {R : Nat} {lo hi : Word} (h : sval32 lo < sval32 hi) (y : DWord) :
    sval32 lo ≤ unscaled R lo hi y ∧ unscaled R lo hi y ≤ sval32 hi := by
  have hc : 0 ≤ clampReal (normalised R y) 0 1 ∧ clampReal (normalised R y) 0 1 ≤ 1 := by
    unfold clampReal
    split
    · constructor <;> norm_num
    · split
      · constructor <;> norm_num
      · constructor <;> linarith
  have hv : (sval32 lo : ℝ) < sval32 hi := by exact_mod_cast h
  have e : (valS hi * clampReal (normalised R y) 0 1 + valS lo * (1 - clampReal (normalised R y) 0 1)) * 2 ^ Config.sfrac
      = sval32 lo + ((sval32 hi : ℝ) - sval32 lo) * clampReal (normalised R y) 0 1 := by
    unfold valS; field_simp; ring
  unfold unscaled
  rw [e]
  constructor
  · refine le_roundHaz ?_
    nlinarith [hc.1]
  · refine roundHaz_le ?_
    nlinarith [hc.2]

theorem unscaled_fits {R : Nat} {lo hi : Word} (h : sval32 lo < sval32 hi) (y : DWord) :
    fits32 (unscaled R lo hi y) = true := by
  have h₁ := unscaled_bounds (R := R) h y
  have h₂ := sval32_range lo
  have h₃ := sval32_range hi
  rw [fits32_iff]
  omega

end Sys2Proof.Machine
end

