-- ==== Sys2Proof/Laws/Pipeline.lean ====
section
/-! SUPPORT. The steps of the forward and reverse paths one after another (46_pipeline.md R260 to R264): what each step leaves
for the next, and why ENCODE does not fail (43_transform.md R182, 44_quantizer.md R208). -/

namespace Sys2Proof.Machine

theorem index_lt {B K b k : Nat} (hb : b < B) (hk : k < K) : b * K + k < B * K := by
  have := Nat.mul_le_mul_right K (show b + 1 ≤ B by omega)
  rw [Nat.add_mul] at this
  omega

theorem index_split {B K i : Nat} (hK : 1 ≤ K) (hi : i < B * K) : i / K < B ∧ i % K < K ∧ i / K * K + i % K = i := by
  refine ⟨Nat.div_lt_of_lt_mul (by rwa [Nat.mul_comm]), Nat.mod_lt _ hK, ?_⟩
  rw [Nat.mul_comm]
  exact Nat.div_add_mod i K

/-! ### QUANT and DEQUANT -/

theorem quantValue_eq {c q : Int} (hq : 0 < q) : quantValue c q = roundHaz ((c : ℝ) / q) := by
  unfold quantValue
  rw [roundHazDiv_eq _ (by omega)]
  congr 2
  have : ((q.toNat : ℕ) : ℤ) = q := Int.toNat_of_nonneg hq.le
  exact_mod_cast congrArg (Int.cast : ℤ → ℝ) this

/-- R201: a quotient fits. -/
theorem quantValue_fits {c : Int} (hc : -2 ^ 31 ≤ c ∧ c < 2 ^ 31) {q : Int} (hq : 0 < q) : fits32 (quantValue c q) = true := by
  rw [quantValue_eq hq, fits32_iff]
  have hq1 : (1 : ℝ) ≤ q := by exact_mod_cast hq
  have h1 : (-2 ^ 31 : ℝ) ≤ c := by exact_mod_cast hc.1
  have h2 : (c : ℝ) ≤ 2 ^ 31 - 1 := by
    have := hc.2
    exact_mod_cast (by omega : c ≤ 2 ^ 31 - 1)
  constructor
  · refine le_roundHaz ?_
    rw [le_div_iff₀ (by linarith)]
    push_cast
    nlinarith
  · have : roundHaz ((c : ℝ) / q) ≤ 2 ^ 31 - 1 := by
      refine roundHaz_le ?_
      rw [div_le_iff₀ (by linarith)]
      push_cast
      nlinarith
    omega

/-- R208: the product is within half a step. -/
theorem quant_error {c q : Int} (hq : 0 < q) : 2 * |quantValue c q * q - c| ≤ q := by
  have hq' : (0 : ℝ) < q := by exact_mod_cast hq
  have h := abs_roundHaz_sub_le ((c : ℝ) / q)
  rw [← quantValue_eq hq] at h
  have h2 : |((quantValue c q : ℝ)) * q - c| ≤ 1 / 2 * q := by
    have e : ((quantValue c q : ℝ)) * q - c = ((quantValue c q : ℝ) - c / q) * q := by field_simp
    rw [e, abs_mul, abs_of_pos hq']
    exact mul_le_mul_of_nonneg_right h hq'.le
  have h3 : (2 : ℝ) * |((quantValue c q * q - c : ℤ) : ℝ)| ≤ q := by
    push_cast
    linarith
  rw [← Int.cast_abs] at h3
  exact_mod_cast h3

/-! ### The forward steps -/

theorem chkcfg_leaves {s : State} {K R B : Nat} (hK : LegalBlock s K) (hR : LegalRes s R) (hG : LegalRange s)
    (hS : LegalSteps s K) (hB : LegalSamples s K B) : runChkcfg s = .ok (nextDraw s) := by
  refine runPrimitive_of_passes ?_
  simp only [preChecks, firstFailure, hK.ckK, hR.ckR, hG.ckRange, (legalSteps_iff hK).mp hS, (hB.ckNsamp hK).1]

theorem segment_leaves {s : State} {K B : Nat} (hK : LegalBlock s K) (hB : LegalSamples s K B) : ∃ t,
    runSegment s = .ok t ∧ t.regs = { s.regs with nblk := encCount B } := by
  have hf : firstFailure s (preChecks .segment) = none := by
    simp only [preChecks, firstFailure, hK.ckK, (hB.ckNsamp hK).1]
  have hs : segmentBlocks s = B := by unfold segmentBlocks; rw [hK.blockSize]; exact (hB.ckNsamp hK).2
  refine ⟨_, runPrimitive_of_passes hf, ?_⟩
  rw [← hs]
  rfl

theorem scale_leaves {s : State} {K R : Nat} (hK : LegalBlock s K) (hR : LegalRes s R) (hG : LegalRange s)
    (hn : uval32 s.regs.nblk * K ≤ 4096) : ∃ t, runScale s = .ok t ∧
      (∀ i < uval32 s.regs.nblk * K, ∃ n : Int, HoldsInt t.mem .scl i n ∧ -2 ^ 15 ≤ n ∧ n ≤ 2 ^ 15) ∧
      t.regs = { s.regs with
        satcntFwd := t.regs.satcntFwd
        status := { s.regs.status with satFwd := t.regs.status.satFwd } } := by
  have hf : firstFailure s (preChecks .scale) = none := by
    have : runCheck s .ckNblk = none := by rw [ckNblk_passes, hK.blockSize]; exact hn
    simp only [preChecks, firstFailure, hK.ckK, hR.ckR, hG.ckRange, this]
  refine ⟨_, runPrimitive_of_passes hf, ?_, rfl⟩
  intro i hi
  have hin : (scaleInputs s)[i]? = some (sval32 (bufWord s .inp i 0)) := by
    unfold scaleInputs bufWords
    rw [hK.blockSize]
    simp [hi]
  refine ⟨scaled R s.regs.minv s.regs.maxv (bufWord s .inp i 0), ?_, ?_⟩
  · have := holdsInt_result (m := s.mem) (b := .scl)
      (vs := (scaleInputs s).map (scaleValue (resolution s) (sval32 s.regs.minv) (sval32 s.regs.maxv))) rfl
      (by show _ < 4096; omega : i < bufElements .scl)
      (by rw [List.getElem?_map, hin, Option.map_some, scaleValue_eq hG, hR.resolution]) (scaled_fits hR.pos hR.le hG)
    rw [List.map_map] at this
    exact this
  · obtain ⟨h1, h2, -, -⟩ := scaled_bounds (v := bufWord s .inp i 0) hR.pos hG
    have hR' := hR.le
    have : (2 : ℤ) ^ (R - 1) ≤ 2 ^ 15 := pow_le_pow_right₀ (by norm_num) (by omega)
    omega

/-- R182: coefficients of scaled samples are far from overflow. -/
theorem fdct_bound {K : Nat} (hK : K ≤ 16) {x : Nat → Int} (hx : ∀ n < K, -2 ^ 15 ≤ x n ∧ x n ≤ 2 ^ 15) (k : Nat) :
    -2 ^ 19 ≤ roundHaz (dct2 K x k) ∧ roundHaz (dct2 K x k) ≤ 2 ^ 19 := by
  have hsum : |dct2 K x k| ≤ 2 ^ 19 := by
    unfold dct2
    refine (Finset.abs_sum_le_sum_abs _ _).trans ?_
    calc ∑ n ∈ Finset.range K, |(x n : ℝ) * Real.cos (Real.pi / K * (n + 1 / 2) * k)|
        ≤ ∑ n ∈ Finset.range K, (2 : ℝ) ^ 15 := by
          refine Finset.sum_le_sum fun n hn => ?_
          rw [abs_mul]
          have h1 := Real.abs_cos_le_one (Real.pi / K * (n + 1 / 2) * k)
          have h2 : |(x n : ℝ)| ≤ 2 ^ 15 := by
            have := hx n (Finset.mem_range.mp hn)
            rw [abs_le]
            constructor <;> exact_mod_cast by omega
          have h3 := abs_nonneg (x n : ℝ)
          nlinarith
      _ = K * (2 : ℝ) ^ 15 := by simp
      _ ≤ 2 ^ 19 := by
          have : (K : ℝ) ≤ 16 := by exact_mod_cast hK
          norm_num
          linarith
  rw [abs_le] at hsum
  constructor
  · exact le_roundHaz (by push_cast; linarith [hsum.1])
  · exact roundHaz_le (by push_cast; linarith [hsum.2])

theorem fdct_leaves {s : State} {K : Nat} (hK : LegalBlock s K) (hn : uval32 s.regs.nblk * K ≤ 4096)
    (hx : ∀ i < uval32 s.regs.nblk * K, ∃ n : Int, HoldsInt s.mem .scl i n ∧ -2 ^ 15 ≤ n ∧ n ≤ 2 ^ 15) : ∃ t,
    runFdct s = .ok t ∧
      (∀ i < uval32 s.regs.nblk * K, ∃ n : Int, HoldsInt t.mem .coef i n ∧ -2 ^ 19 ≤ n ∧ n ≤ 2 ^ 19) ∧
      t.regs = s.regs := by
  have hf : firstFailure s (preChecks .fdct) = none := by
    have : runCheck s .ckNblk = none := by rw [ckNblk_passes, hK.blockSize]; exact hn
    simp only [preChecks, firstFailure, hK.ckK, this]
  have hbound : ∀ i < uval32 s.regs.nblk * K, -2 ^ 15 ≤ sval32 (bufWord s .scl i 0) ∧ sval32 (bufWord s .scl i 0) ≤ 2 ^ 15 := by
    intro i hi
    obtain ⟨n, ⟨w, hw, rfl⟩, h1, h2⟩ := hx i hi
    rw [bufWord_of_holds hw (by show _ < 4096; omega)]
    exact ⟨h1, h2⟩
  have hget : ∀ i < uval32 s.regs.nblk * K, ∃ n : Int, (fdctCoefs s)[i]? = some n ∧ -2 ^ 19 ≤ n ∧ n ≤ 2 ^ 19 := by
    intro i hi
    obtain ⟨h1, h2, h3⟩ := index_split hK.pos hi
    refine ⟨roundHaz (dct2 K (fun n => sval32 (bufWord s .scl (i / K * K + n) 0)) (i % K)), ?_, ?_⟩
    · have := getElem?_transformBlocks s .scl K (uval32 s.regs.nblk) (i / K) (i % K) (fdctValue (cosTable K) K) h1 h2
      rw [h3, fdct_block hK.pos hK.le] at this
      unfold fdctCoefs
      rw [hK.blockSize]
      exact this
    · exact fdct_bound hK.le (fun n hn => hbound _ (index_lt h1 hn)) _
  have hlen : (fdctCoefs s).length = uval32 s.regs.nblk * K := by
    unfold fdctCoefs
    rw [length_transformBlocks, hK.blockSize]
  have hnone : (fdctCoefs s).findIdx? (fun c => !fits32 c) = none := by
    rw [List.findIdx?_eq_none_iff]
    intro x hxm
    obtain ⟨i, hi, rfl⟩ := List.mem_iff_getElem.mp hxm
    obtain ⟨n, h1, h2, h3⟩ := hget i (by rwa [hlen] at hi)
    rw [List.getElem?_eq_getElem hi, Option.some.injEq] at h1
    rw [h1, fits32_iff.mpr (by omega)]
    rfl
  have hw : fdctWork s = .ok (nextDraw { s with mem := storeBuf s.mem .coef 0 ((fdctCoefs s).map enc32) }) := by
    unfold fdctWork
    rw [hnone]
    rfl
  refine ⟨_, (runPrimitive_of_passes hf).trans hw, ?_, rfl⟩
  intro i hi
  obtain ⟨n, h1, h2, h3⟩ := hget i hi
  exact ⟨n, holdsInt_result rfl (by show _ < 4096; omega) h1 (fits32_iff.mpr (by omega)), h2, h3⟩

theorem quant_leaves {s : State} {K : Nat} (hK : LegalBlock s K) (hS : LegalSteps s K)
    (hn : uval32 s.regs.nblk * K ≤ 4096) : ∃ t, runQuant s = .ok t ∧
      (∀ i < uval32 s.regs.nblk * K, HoldsInt t.mem .sym i
        (quantValue (sval32 (bufWord s .coef i 0)) (stepSize s (i % K)))) ∧
      t.regs = { s.regs with nsym := encCount (uval32 s.regs.nblk * K) } := by
  have hf : firstFailure s (preChecks .quant) = none := by
    have : runCheck s .ckNblk = none := by rw [ckNblk_passes, hK.blockSize]; exact hn
    simp only [preChecks, firstFailure, hK.ckK, this, (legalSteps_iff hK).mp hS]
  have hl : quantLength s = uval32 s.regs.nblk * K := by unfold quantLength; rw [hK.blockSize]
  have hw : quantWork s = .ok (nextDraw { s with
      mem := storeBuf s.mem .sym 0 (((withStep s .coef (quantLength s)).map fun p => quantValue p.1 p.2).map enc32)
      regs := { s.regs with nsym := encCount (uval32 s.regs.nblk * K) } }) := by
    unfold quantWork
    rw [List.map_map, hl]
    rfl
  refine ⟨_, (runPrimitive_of_passes hf).trans hw, ?_, rfl⟩
  intro i hi
  have hq : 0 < stepSize s (i % K) := by
    have := (legalSteps_iff hK).mp hS
    rw [ckQv_passes, hK.blockSize] at this
    exact this _ (Nat.mod_lt _ hK.pos)
  refine holdsInt_result rfl (by show _ < 4096; omega) ?_ (quantValue_fits (sval32_range _) hq)
  simp [withStep, hl, hi, hK.blockSize]

/-! ### The reverse steps -/

theorem dequant_leaves {s : State} {K : Nat} (hK : LegalBlock s K) (hS : LegalSteps s K) (hn : uval32 s.regs.ndsym ≤ 4096)
    (hm : uval32 s.regs.ndsym % K = 0)
    (hp : ∀ j < uval32 s.regs.ndsym, fits32 (sval32 (bufWord s .dsym j 0) * stepSize s (j % K)) = true) : ∃ t,
    runDequant s = .ok t ∧
      (∀ j < uval32 s.regs.ndsym, HoldsInt t.mem .dcoef j (sval32 (bufWord s .dsym j 0) * stepSize s (j % K))) ∧
      t.regs = { s.regs with nrblk := encCount (uval32 s.regs.ndsym / K) } := by
  have hf : firstFailure s (preChecks .dequant) = none := by
    have : runCheck s .ckNdsym = none := by rw [ckNdsym_passes, hK.blockSize]; exact ⟨hn, hm⟩
    simp only [preChecks, firstFailure, hK.ckK, this, (legalSteps_iff hK).mp hS]
  have hget : ∀ j < uval32 s.regs.ndsym, (dequantValues s)[j]? = some (sval32 (bufWord s .dsym j 0) * stepSize s (j % K)) := by
    intro j hj
    simp [dequantValues, withStep, hj, hK.blockSize]
  have hlen : (dequantValues s).length = uval32 s.regs.ndsym := by simp [dequantValues, withStep]
  have hnone : (dequantValues s).findIdx? (fun c => !fits32 c) = none := by
    rw [List.findIdx?_eq_none_iff]
    intro x hx
    obtain ⟨i, hi, rfl⟩ := List.mem_iff_getElem.mp hx
    have h1 := hget i (by rwa [hlen] at hi)
    rw [List.getElem?_eq_getElem hi, Option.some.injEq] at h1
    rw [h1, hp i (by rwa [hlen] at hi)]
    rfl
  have hw : dequantWork s = .ok (nextDraw { s with
      mem := storeBuf s.mem .dcoef 0 ((dequantValues s).map enc32)
      regs := { s.regs with nrblk := encCount (uval32 s.regs.ndsym / K) } }) := by
    unfold dequantWork
    rw [hnone, hK.blockSize]
    rfl
  refine ⟨_, (runPrimitive_of_passes hf).trans hw, ?_, rfl⟩
  intro j hj
  exact holdsInt_result rfl (by show _ < 4096; omega) (hget j hj) (hp j hj)

theorem idct_leaves {s : State} {K : Nat} (hK : LegalBlock s K) (hn : uval32 s.regs.nrblk * K ≤ 4096) : ∃ t,
    runIdct s = .ok t ∧ t.regs = s.regs := by
  have hf : firstFailure s (preChecks .idct) = none := by
    have : runCheck s .ckNrblk = none := by rw [ckNrblk_passes, hK.blockSize]; exact hn
    simp only [preChecks, firstFailure, hK.ckK, this]
  exact ⟨_, runPrimitive_of_passes hf, rfl⟩

theorem unscale_leaves {s : State} {K R : Nat} (hK : LegalBlock s K) (hR : LegalRes s R) (hG : LegalRange s)
    (hn : uval32 s.regs.nrblk * K ≤ 4096) : ∃ t, runUnscale s = .ok t ∧
      t.regs = { s.regs with
        satcntInv := t.regs.satcntInv
        status := { s.regs.status with satInv := t.regs.status.satInv } } := by
  have hf : firstFailure s (preChecks .unscale) = none := by
    have : runCheck s .ckNrblk = none := by rw [ckNrblk_passes, hK.blockSize]; exact hn
    simp only [preChecks, firstFailure, hK.ckK, hR.ckR, hG.ckRange, this]
  exact ⟨_, runPrimitive_of_passes hf, rfl⟩

/-! ### Parameters that a step keeps -/

theorem LegalBlock.congr {s t : State} {K : Nat} (h : LegalBlock s K) (e : t.regs.blockK = s.regs.blockK) : LegalBlock t K :=
  ⟨by rw [e]; exact h.eq, h.pos, h.le⟩

theorem LegalRes.congr {s t : State} {R : Nat} (h : LegalRes s R) (e : t.regs.res = s.regs.res) : LegalRes t R :=
  ⟨by rw [e]; exact h.eq, h.pos, h.le⟩

theorem LegalRange.congr {s t : State} (h : LegalRange s) (e : t.regs.minv = s.regs.minv) (e' : t.regs.maxv = s.regs.maxv) :
    LegalRange t := by
  unfold LegalRange at *
  rw [e, e']
  exact h

theorem LegalSteps.congr {s t : State} {K : Nat} (h : LegalSteps s K) (e : t.regs.qv = s.regs.qv) : LegalSteps t K := by
  unfold LegalSteps at *
  rw [e]
  exact h

theorem LegalSamples.congr {s t : State} {K B : Nat} (h : LegalSamples s K B) (e : t.regs.nsamp = s.regs.nsamp) :
    LegalSamples t K B := ⟨by rw [e]; exact h.pos, by rw [e]; exact h.le, by rw [e]; exact h.enough, by rw [e]; exact h.least, h.fits⟩

end Sys2Proof.Machine
end

