-- ==== Sys2Proof/Tests/Slice0.lean ====
section
/-! SUPPORT. Tests. Words written out from the encodings of 30_encoding.md R103; one step per command with the values of
95_test_vectors.md; the smoke test of WellFormed; and for each obligation with hypotheses a witness that meets them. -/

namespace Sys2Proof.Tests

open Sys2Proof Sys2Proof.Machine

-- One test at a time: many kernel evaluations waiting at once would each hold a thread's stack.
set_option Elab.async false

/-! ### Decoding: MBZ (24 zeros) and OPC, bit by bit from R103 -/

theorem test_decode_nop : decode 0b00000000000000000000000000000000#32 = .command .nop := by decide
theorem test_decode_chkcfg : decode 0b00000000000000000000000000000001#32 = .command .chkcfg := by decide
theorem test_decode_segment : decode 0b00000000000000000000000000010000#32 = .command .segment := by decide
theorem test_decode_scale : decode 0b00000000000000000000000000010001#32 = .command .scale := by decide
theorem test_decode_fdct : decode 0b00000000000000000000000000010010#32 = .command .fdct := by decide
theorem test_decode_quant : decode 0b00000000000000000000000000010011#32 = .command .quant := by decide
theorem test_decode_hcount : decode 0b00000000000000000000000000100000#32 = .command .hcount := by decide
theorem test_decode_hbuild : decode 0b00000000000000000000000000100001#32 = .command .hbuild := by decide
theorem test_decode_henc : decode 0b00000000000000000000000000100010#32 = .command .henc := by decide
theorem test_decode_hdec : decode 0b00000000000000000000000000100011#32 = .command .hdec := by decide
theorem test_decode_dequant : decode 0b00000000000000000000000000110000#32 = .command .dequant := by decide
theorem test_decode_idct : decode 0b00000000000000000000000000110001#32 = .command .idct := by decide
theorem test_decode_unscale : decode 0b00000000000000000000000000110010#32 = .command .unscale := by decide
theorem test_decode_encode : decode 0b00000000000000000000000001000000#32 = .command .encode := by decide
theorem test_decode_decode : decode 0b00000000000000000000000001000001#32 = .command .decode := by decide

/-- R104: the illegal words of C-12 to C-15, each rejected by name. -/
theorem test_decode_illegal :
    decode 0x00000100#32 = .illegal .mbzNonzero ∧ decode 0x80000010#32 = .illegal .mbzNonzero ∧
    decode 0x00000002#32 = .illegal .unassignedOpcode ∧ decode 0x000000FF#32 = .illegal .unassignedOpcode := by decide

/-- A table row's bits, numbered as the table numbers them. -/
theorem test_decodeTableWord : decodeTableWord 32 0x21 = some .hbuild ∧ decodeTableWord 8 0x121 = some .hbuild ∧
    decodeTableWord 32 0x121 = none := by decide

/-! ### WellFormed refuses an ill-formed term of each kind -/

theorem test_illformed_word_mbz : mbzIsZero 0x00000100#32 = false ∧ wordWellFormed 0x00000100#32 = false := by decide
theorem test_illformed_word_opcode : opcodeIsAssigned 0x00000002#32 = false ∧ wordWellFormed 0x00000002#32 = false := by decide
theorem test_illformed_access_width :
    (HostEvent.read 0x00010#19 2).wellFormed = false ∧ (HostEvent.write 0x00010#19 8 0).wellFormed = false := by decide
theorem test_illformed_access_address : (HostEvent.write 0x10002#19 4 5).wellFormed = false := by decide
theorem test_illformed_targets :
    (Target.elem .inp 4096).wellFormed = false ∧ (Target.elem .tree 8192).wellFormed = false ∧
    (Target.ftabSymbol 4096).wellFormed = false ∧ (Target.ftabCount 4096).wellFormed = false ∧
    (Target.ctabLen 4096).wellFormed = false ∧ (Target.ctabCode 4096).wellFormed = false ∧
    (Target.treeWeight 8192).wellFormed = false ∧ (Target.treeLeft 8192).wellFormed = false ∧
    (Target.treeRight 8192).wellFormed = false ∧ (Target.treePayload 8192).wellFormed = false ∧
    (Target.yLo 4096).wellFormed = false ∧ (Target.yHi 4096).wellFormed = false := by decide
theorem test_illformed_statements :
    (Stmt.wr (.elem .sym 4096) 0).wellFormed = false ∧ (Stmt.rd (.elem .sym 4096)).wellFormed = false ∧
    (Stmt.expect (.elem .sym 4096) 0).wellFormed = false ∧ (Stmt.fillBuf .inp 4095 [0, 0]).wellFormed = false ∧
    (Stmt.fillQv 15 [1, 1]).wellFormed = false := by decide
theorem test_illformed_literals : qLegal (1 / 3) = false ∧ qLegal 32768 = false ∧ qLegal (-32769) = false := by decide +kernel
theorem test_wellformed_terms : wordWellFormed 0x00000041#32 = true ∧ (HostEvent.read 0x67FFC#19 4).wellFormed = true ∧
    (Target.treePayload 8191).wellFormed = true ∧ (Stmt.fillQv 15 [1]).wellFormed = true ∧ qLegal (15 / 2) = true := by
  decide +kernel

/-! ### One step of each command (values of 95_test_vectors.md) -/

/-- The state a command leaves. -/
def after (i : Instr) (s : State) : State :=
  match exec i s with
  | .next t => t
  | .fault _ => s
  | .refused _ => s

theorem exec_after (i : Instr) (s : State) : exec i s = .next (after i s) := by rw [after, exec_eq]

/-- STATUS as read on the bus. -/
def statusOf (s : State) : Word := statusWord s.regs.status s.run.isBusy

/-- The first signed elements of a buffer. -/
def ints (s : State) (b : Buffer) (n : Nat) : List Int := (bufWords s b 0 n).map sval32

/-- The words of a list of integers. -/
def words (l : List Int) : List Word := l.map (BitVec.ofInt 32)

/-- After reset, with other registers and words in one buffer. -/
def with1 (r : Regs) (b : Buffer) (ws : List Word) : State := { State.reset with regs := r, mem := storeBuf [] b 0 ws }

/-- The registers of section 2's default, with K and R. -/
def cfg (k r : Nat) (lo hi : Word) : Regs := { Regs.reset with blockK := encCount k, res := encCount r, minv := lo, maxv := hi }

/-- QV = [1, 2, 4, 8, 1, …]. -/
def qv1248 : Vector Word 16 := (((Vector.replicate 16 1).set 1 2).set 2 4).set 3 8

theorem test_nop_C2 :
    statusOf (after .nop { State.reset with regs.status.err := true }) = 0x00000006 := by decide +kernel
theorem test_chkcfg_C4 :
    (let t := after .chkcfg { State.reset with regs := { cfg 16 7 0x001E0000 0x00B40000 with nsamp := 16, qv := (Vector.replicate 16 1).set 3 0 } }
     (statusOf t, t.regs.errInfo)) = (0x01010506, 3) := by decide +kernel
theorem test_chkcfg_C11 :
    statusOf (after .chkcfg { State.reset with regs := { cfg 16 7 0x001E0000 0x00B40000 with nsamp := 16 } }) = 0x00010002 := by
  decide +kernel
theorem test_illegal_C15 :
    (step (State.reset.withFetchWord 32 0x80000010) = .next (completeIllegal 0x80000010#32 { State.reset with run := .busy 0x80000010#32 })) ∧
    statusOf (completeIllegal 0x80000010#32 State.reset) = 0x10100106 := ⟨by rfl, by decide +kernel⟩
theorem test_segment_S3 :
    (let t := after .segment (with1 { cfg 4 7 0 0 with nsamp := 3 } .inp [0x00010000, 0x00020000, 0x00030000])
     (bufWords t .inp 0 4, t.regs.nblk)) = ([0x00010000, 0x00020000, 0x00030000, 0x00030000], 1) := by decide +kernel
theorem test_segment_S8 : statusOf (after .segment { State.reset with regs := { cfg 3 7 0 0 with nsamp := 4096 } }) = 0x10100706 := by
  decide +kernel
/-- SC-4 to SC-6 and SC-8. -/
theorem test_scale_ties :
    (let t := after .scale (with1 { cfg 4 7 0 0x00800000 with nblk := 1 } .inp [0x00008000, 0x007F8000, 0x00408000, 0xFFFB0000])
     (ints t .scl 4, t.regs.satcntFwd, statusOf t)) = ([-64, 64, 1, -64], 1, 0x0011000A) := by decide +kernel
/-- SC-13, SC-14: the widest range and resolution. -/
theorem test_scale_extremes :
    ints (after .scale (with1 { cfg 2 16 0x80000000 0x7FFFFFFF with nblk := 1 } .inp [0x80000000, 0x7FFFFFFF])) .scl 2 =
      [-32768, 32768] := by decide +kernel
theorem test_fdct_F11 :
    ints (after .fdct (with1 { cfg 3 7 0 0 with nblk := 1 } .scl (words [1, 2, 4]))) .coef 3 = [7, -3, 1] := by decide +kernel
theorem test_fdct_F8 :
    ints (after .fdct (with1 { cfg 2 7 0 0 with nblk := 1 } .scl (words [3, -5]))) .coef 2 = [-2, 6] := by decide +kernel
theorem test_quant_Q17 :
    (let t := after .quant (with1 { cfg 4 7 0 0 with nblk := 1, qv := qv1248 } .coef (words [-106, -72, 21, -8]))
     (ints t .sym 4, t.regs.nsym)) = ([-106, -36, 5, -1], 4) := by decide +kernel
/-- Q-14: the tie −8.5 rounds away from zero. -/
theorem test_quant_Q14 :
    ints (after .quant (with1 { cfg 1 7 0 0 with nblk := 1, qv := (Vector.replicate 16 1).set 0 2 } .coef (words [-17]))) .sym 1 =
      [-9] := by decide +kernel
theorem test_dequant_DQ1 :
    (let t := after .dequant (with1 { cfg 4 7 0 0 with ndsym := 4, qv := qv1248 } .dsym (words [-106, -36, 5, -1]))
     (ints t .dcoef 4, t.regs.nrblk)) = ([-106, -72, 20, -8], 1) := by decide +kernel
theorem test_dequant_DQ9 :
    (let t := after .dequant (with1 { cfg 2 7 0 0 with ndsym := 4, qv := Vector.replicate 16 3 } .dsym (words [1, 1, 1, 715827883]))
     (statusOf t, t.regs.errInfo, byteAt t.mem 0x58000)) = (0x30300906, 3, none) := by decide +kernel
theorem test_hcount_H1 :
    (let t := after .hcount (with1 { Regs.reset with nsym := 6 } .sym (words [5, 5, 5, 7, 7, 9]))
     (readFtab t 3, t.regs.ndist)) = ([⟨5, 3⟩, ⟨7, 2⟩, ⟨9, 1⟩], 3) := by decide +kernel
/-- H-4: first-occurrence order. -/
theorem test_hcount_H4 :
    readFtab (after .hcount (with1 { Regs.reset with nsym := 4 } .sym (words [4, 3, 2, 1]))) 4 =
      [⟨4, 1⟩, ⟨3, 1⟩, ⟨2, 1⟩, ⟨1, 1⟩] := by decide +kernel
/-- B-1: nodes 3 and 4, and the codes "1", "00", "01". -/
theorem test_hbuild_B1 :
    (let t := after .hbuild (with1 { Regs.reset with ndist := 3 } .ftab [5, 3, 7, 2, 9, 1])
     ((List.range 4).map (bufWord t .tree 3), (List.range 4).map (bufWord t .tree 4), (List.range 3).map (fun i =>
       (bufWord t .ctab i 0, bufWord t .ctab i 1)), t.regs.root, t.regs.maxlen, statusOf t)) =
      ([3, 2, 1, 0], [6, 0, 3, 0], [(1, 1), (2, 0), (2, 1)], 4, 2, 0x00210082) := by decide +kernel
theorem test_hbuild_B12 :
    (let t := after .hbuild (with1 { Regs.reset with ndist := 3 } .ftab [5, 3, 6, 1, 5, 1])
     (statusOf t, t.regs.errInfo)) = (0x21210E06, 2) := by decide +kernel

/-- B-1's table, tree and codes, E-1's symbols and stream, and P3's registers but K = 2. -/
def full : State := { State.reset with
  regs := { cfg 2 5 0 0x00100000 with
    nsamp := 3, nblk := 2, nsym := 6, ndist := 3, nbits := 9, ndsym := 6, nrblk := 3, root := 4, maxlen := 2
    status := { Status.reset with treeValid := true } }
  mem := storeBuf (storeBuf (storeBuf (storeBuf (storeBuf [] .sym 0 [5, 5, 5, 7, 7, 9]) .ftab 0 [5, 3, 7, 2, 9, 1])
    .ctab 0 [1, 1, 2, 0, 2, 1]) .tree 0 [3, 0xFFFFFFFF, 0xFFFFFFFF, 5, 2, 0xFFFFFFFF, 0xFFFFFFFF, 7, 1, 0xFFFFFFFF,
    0xFFFFFFFF, 9, 3, 2, 1, 0, 6, 0, 3, 0]) .bits 0 [0xE0800000] }

theorem test_henc_E1 :
    (let t := after .henc full
     (bufWord t .bits 0 0, t.regs.nbits, statusOf t)) = (0xE0800000, 9, 0x00220082) := by decide +kernel
theorem test_henc_E5 :
    (let t := after .henc { full with regs.nsym := 2, mem := storeBuf full.mem .sym 0 [5, 8] }
     (statusOf t, t.regs.errInfo, t.regs.nbits, byteAt t.mem 0x50000)) = (0x22220C86, 1, 9, none) := by decide +kernel
theorem test_hdec_D1 :
    (let t := after .hdec full
     (ints t .dsym 6, t.regs.ndsym)) = ([5, 5, 5, 7, 7, 9], 6) := by decide +kernel
theorem test_hdec_D2 :
    (let t := after .hdec { full with regs.nbits := 10 }
     (statusOf t, t.regs.errInfo)) = (0x23230D86, 10) := by decide +kernel
theorem test_idct_I5 :
    (let t := after .idct (with1 { cfg 2 7 0 0 with nrblk := 1 } .dcoef (words [4, 2]))
     (bufDWord t .y 0, bufDWord t .y 1)) = (0x00000000036A09E6, 0x000000000095F61A) := by decide +kernel
/-- U-10 and U-11: the values of I-8, three of them extreme. -/
theorem test_unscale_U10 :
    (let t := after .unscale (with1 { cfg 4 5 0 0x00100000 with nrblk := 1 } .y
        [0x17A7D581, 0x00000000, 0xE23945E0, 0xFFFFFFFF, 0x12225720, 0x00000000, 0xF8FC8D7F, 0xFFFFFFFF])
     (bufWords t .out 0 4, t.regs.satcntInv, statusOf t)) =
      ([0x00100000, 0x00000000, 0x00100000, 0x00047E47], 3, 0x00320012) := by decide +kernel
/-- U-2: the tie 32768.5. -/
theorem test_unscale_U2 :
    bufWord (after .unscale (with1 { cfg 1 7 0 0x00010000 with nrblk := 1 } .y [0x00004000, 0x00000000])) .out 0 0 = 0x00008001 := by
  decide +kernel

/-- P5 before ENCODE. -/
def p5 : State := with1 { cfg 4 5 0 0x00100000 with nsamp := 6, qv := qv1248 } .inp
  [0xFFFF0000, 0x00020000, 0x00048000, 0x00080000, 0x000C0000, 0x00110000]

/-- P5: ENCODE saturates four samples, and makes the eight symbols. -/
theorem test_encode_P5 :
    (let t := after .encode p5
     (statusOf t, ints t .sym 8, t.regs.satcntFwd, t.regs.root, t.regs.maxlen)) =
      (0x0040008A, [-35, -9, 1, 0, 56, -4, -2, 0], 4, 12, 3) := by decide +kernel
/-- M-2: the leading checks of ENCODE. -/
theorem test_encode_M2 : statusOf (after .encode State.reset) = 0x01400406 := by decide +kernel
/-- M-4: DECODE stops at DEQUANT's shape check, the symbols decoded. -/
theorem test_decode_M4 :
    (let t := after .decode { full with regs.blockK := 4 }
     (statusOf t, t.regs.ndsym, ints t .dsym 6)) = (0x30410886, 6, [5, 5, 5, 7, 7, 9]) := by decide +kernel
/-- M-5: the leading checks of DECODE are its own. -/
theorem test_decode_M5 :
    statusOf (after .decode { State.reset with regs := { cfg 16 7 0x001E0000 0x00B40000 with qv := (Vector.replicate 16 1).set 0 0 } }) =
      0x41410506 := by decide +kernel

/-! ### The host bus (A-1 to A-20, P4) -/

/-- A-1, A-2, A-3, A-5, A-6: reads of ID, CAPS, CMD, a reserved offset and an unmapped address. -/
theorem test_bus_reads :
    (busRead 0x00000#19 4 State.reset).replies = [0x44435432] ∧ (busRead 0x00004#19 4 State.reset).replies = [0x20101000] ∧
    (busRead 0x0000C#19 4 State.reset).replies = [0] ∧ (busRead 0x00054#19 4 State.reset).regs.status.busErr = false ∧
    (busRead 0x01000#19 4 State.reset).regs.status.busErr = true := by decide +kernel
/-- A-7, A-8, A-9, A-10. -/
theorem test_bus_writes :
    statusOf (busWrite 0x10002#19 4 5 State.reset) = 0x00000020 ∧ statusOf (busWrite 0x28000#19 4 1 State.reset) = 0x00000020 ∧
    bufWord (busWrite 0x5C01C#19 4 0xFFFFFFFF State.reset) .y 3 1 = 0xFFFFFFFF ∧
    statusOf (busWrite 0x20014#19 4 5 full) = 0x00000000 := by decide +kernel
/-- A-12, A-14, A-16. -/
theorem test_bus_busy :
    (busWrite 0x00020#19 4 0x00010000 { State.reset with run := .busy 0 }).regs.minv = 0 ∧
    statusOf (busWrite 0x0000C#19 4 0 { State.reset with run := .busy 0 }) = 0x00000041 ∧
    (busWrite 0x00010#19 4 0xFFFFFFFF (after .decode { full with regs.blockK := 4 })).regs.status =
      { Status.reset with treeValid := true, errCode := 0x08, lastOp := 0x41, errOp := 0x30 } := by decide +kernel
/-- A-17, A-18. -/
theorem test_bus_ctrl :
    irq (busWrite 0x00008#19 4 2 (after .nop State.reset)) = true ∧
    (busWrite 0x00008#19 4 3 (after .nop full)).regs = Regs.reset := by decide +kernel
/-- A-19, A-20. -/
theorem test_resets : hardReset full = State.reset ∧
    byteAt (softReset { full with run := .busy 0x00000022#32 }).mem 0x50000 = none := by decide +kernel
/-- R107, R108: FILL, RUN and CLR as accesses. -/
theorem test_host_program :
    expandProgram [.fillQv 0 [1, 2], .run .scale, .clr] =
      [.write 0x00080#19 4 1, .write 0x00084#19 4 2, .write 0x0000C#19 4 0x11, .waitIdle, .write 0x00010#19 4 0x7E] := by
  decide +kernel

/-! ### Witnesses: states and operands that meet the hypotheses of each obligation, its clauses at the ends of their ranges -/

/-- A state after reset with registers. -/
def st (r : Regs) : State := { State.reset with regs := r }

theorem legalBlock (r : Regs) (m : Memory) (K : Nat) (h : sval32 r.blockK = K ∧ 1 ≤ K ∧ K ≤ 16) :
    LegalBlock { State.reset with regs := r, mem := m } K := ⟨h.1, h.2.1, h.2.2⟩

theorem legalRes (r : Regs) (m : Memory) (R : Nat) (h : sval32 r.res = R ∧ 1 ≤ R ∧ R ≤ 16) :
    LegalRes { State.reset with regs := r, mem := m } R := ⟨h.1, h.2.1, h.2.2⟩

theorem legalSamples (r : Regs) (m : Memory) (K B : Nat) (h : 1 ≤ uval32 r.nsamp ∧ uval32 r.nsamp ≤ 4096 ∧
    uval32 r.nsamp ≤ B * K ∧ B * K < uval32 r.nsamp + K ∧ B * K ≤ 4096) :
    LegalSamples { State.reset with regs := r, mem := m } K B := ⟨h.1, h.2.1, h.2.2.1, h.2.2.2.1, h.2.2.2.2⟩

theorem full_block : LegalBlock full 2 := ⟨by decide, by decide, by decide⟩
theorem full_res : LegalRes full 5 := ⟨by decide, by decide, by decide⟩
theorem full_range : LegalRange full := by unfold LegalRange; decide
theorem full_steps : LegalSteps full 2 := by unfold LegalSteps; decide

theorem test_witness_StepRunsTheDecodedCommand :
    (∃ (s : State) (w : Word) (i : Instr), s.run = .busy w ∧ decode w = .command i ∧ s.delay = 0) ∧
    (∃ (s : State) (w : Word) (i : Instr), s.run = .busy w ∧ decode w = .command i ∧ s.delay ≠ 0 ∧ s.host = []) :=
  ⟨⟨{ State.reset with run := .busy 0, host := [.waitIdle] }, 0, .nop, rfl, by decide, rfl⟩,
    ⟨{ State.reset with run := .busy 0x41, delay := 1 }, 0x41, .decode, rfl, by decide, by decide, rfl⟩⟩

theorem test_witness_StepTakesTheNextHostAccess :
    (∃ s : State, s.run = .idle ∧ s.host = []) ∧ (∃ (s : State) (e : HostEvent) (es : List HostEvent), s.run = .idle ∧ s.host = e :: es) ∧
    (∃ (s : State) (w : Word) (e : HostEvent) (es : List HostEvent), s.run = .busy w ∧ s.delay ≠ 0 ∧ s.host ≠ [] ∧ s.host = e :: es) :=
  ⟨⟨State.reset, rfl, rfl⟩, ⟨{ State.reset with host := [.hardReset] }, _, _, rfl, rfl⟩,
    ⟨{ State.reset with run := .busy 0, delay := 1, host := [.waitIdle] }, 0, _, _, rfl, by decide, by decide, rfl⟩⟩

theorem test_witness_IllegalWordsComplete :
    (0x00000100#32).extractLsb' 8 24 ≠ 0 ∧ (0x00000002#32).extractLsb' 0 8 ∉
      ([0x00, 0x01, 0x10, 0x11, 0x12, 0x13, 0x20, 0x21, 0x22, 0x23, 0x30, 0x31, 0x32, 0x40, 0x41] : List Byte) ∧
    (0x000000FF#32).extractLsb' 0 8 ∉
      ([0x00, 0x01, 0x10, 0x11, 0x12, 0x13, 0x20, 0x21, 0x22, 0x23, 0x30, 0x31, 0x32, 0x40, 0x41] : List Byte) ∧
    State.reset.run = .idle ∧ (∃ s : State, s.run = .busy 0x00000100#32 ∧ s.delay = 0) :=
  ⟨by decide, by decide, by decide, rfl, { State.reset with run := .busy 0x00000100#32 }, rfl, rfl⟩

/-- For CommandsKeepConfiguration, OutputsBelongToTheirCommands (all but one clause), CommandsKeepOtherMemory (an address
outside SCALE's window) and CompletionRaisesIrq. -/
theorem test_witness_CommandsKeep :
    ∃ t, exec .scale full = .next t ∧ ¬ InWindows (outputs .scale) 0x20000 ∧ ¬ InWindows (outputs .scale) 0x18000 :=
  ⟨_, exec_eq _ _, by unfold InWindows; decide, by unfold InWindows; decide⟩

/-- For OutputsBelongToTheirCommands: DECODE meets the clause SCALE does not. -/
theorem test_witness_OutputsBelongToTheirCommands :
    (∃ t, exec .decode full = .next t) ∧ Instr.decode ∉ [Instr.scale, .encode] ∧ Instr.scale ∉ [Instr.hcount, .hbuild, .encode] :=
  ⟨⟨_, exec_eq _ _⟩, by decide, by decide⟩

/-- For CheckTable: the smallest and the largest legal K. -/
theorem test_witness_CheckTable : LegalBlock (st (cfg 1 1 0 1)) 1 ∧ LegalBlock (st (cfg 16 1 0 1)) 16 :=
  ⟨legalBlock _ _ _ (by decide), legalBlock _ _ _ (by decide)⟩

theorem test_witness_ChecksNameTheLeastBadIndex :
    (LegalBlock (st (cfg 16 7 0 1)) 16 ∧ LegalSteps (st (cfg 16 7 0 1)) 16) ∧
    (∃ (s : State) (i : Fin 16), LegalBlock s 16 ∧ i.val = 0 ∧ sval32 (s.regs.qv.get i) ≤ 0 ∧
      ∀ j : Fin 16, j.val < i.val → 0 < sval32 (s.regs.qv.get j)) ∧
    (∃ (s : State) (i : Fin 16), LegalBlock s 16 ∧ i.val = 15 ∧ sval32 (s.regs.qv.get i) ≤ 0 ∧
      ∀ j : Fin 16, j.val < i.val → 0 < sval32 (s.regs.qv.get j)) ∧
    (∀ i, ¬ BadEntry (readFtab full (uval32 full.regs.ndist)) i) ∧
    (∃ s : State, BadEntry (readFtab s (uval32 s.regs.ndist)) 1 ∧ ∀ j < 1, ¬ BadEntry (readFtab s (uval32 s.regs.ndist)) j) := by
  refine ⟨⟨legalBlock _ _ _ (by decide), by unfold LegalSteps; decide⟩,
    ⟨st { cfg 16 7 0 1 with qv := (Vector.replicate 16 1).set 0 0 }, 0, legalBlock _ _ _ (by decide), rfl, by decide, by decide⟩,
    ⟨st { cfg 16 7 0 1 with qv := (Vector.replicate 16 1).set 15 0x80000000 }, 15, legalBlock _ _ _ (by decide), rfl, by decide,
      by decide⟩, firstBadEntry_eq_none.mp (by decide +kernel), ?_⟩
  have h := firstBadEntry_spec [⟨5, 3⟩, ⟨7, 0⟩] [⟨5, 3⟩, ⟨7, 0⟩] [] rfl (by simp)
  have e : readFtab (with1 { Regs.reset with ndist := 2 } .ftab [5, 3, 7, 0]) 2 = [⟨5, 3⟩, ⟨7, 0⟩] := by decide +kernel
  refine ⟨with1 { Regs.reset with ndist := 2 } .ftab [5, 3, 7, 0], ?_⟩
  have e' : readFtab (with1 { Regs.reset with ndist := 2 } .ftab [5, 3, 7, 0])
      (uval32 (with1 { Regs.reset with ndist := 2 } .ftab [5, 3, 7, 0]).regs.ndist) = [⟨5, 3⟩, ⟨7, 0⟩] := e
  rw [e']
  exact h

/-- The first check of CHKCFG and the last of ENCODE. -/
theorem test_witness_PreCheckErrorsChangeNothingElse :
    (preChecks .chkcfg = [] ++ Check.ckK :: [.ckR, .ckRange, .ckQv, .ckNsamp] ∧
      runCheck (st (cfg 0 7 0 1)) .ckK = some (.cfgK, 0)) ∧
    (preChecks .encode = [.ckK, .ckR, .ckRange, .ckQv] ++ Check.ckNsamp :: [] ∧
      (∀ d ∈ [Check.ckK, .ckR, .ckRange, .ckQv], runCheck (st (cfg 16 7 0 1)) d = none) ∧
      runCheck (st (cfg 16 7 0 1)) .ckNsamp = some (.cfgEmpty, 0)) := by decide +kernel

/-- A command that passes its checks and ends in an error. -/
def failsLate (i : Instr) (s : State) : Bool :=
  (preChecks i).all (fun c => (runCheck s c).isNone) && (after i s).regs.status.errCode != 0x00

/-- The Fibonacci table of B-8. -/
def fibTable : List FtabEntry := (List.range 34).map fun i => ⟨encCount i, encCount (Nat.fib (i + 1))⟩

/-- B-8 in FTAB. -/
def fib34 : State := with1 { Regs.reset with ndist := 34 } .ftab (fibTable.flatMap fun e => [e.symbol, e.count])

theorem readFtab_fib34 : readFtab fib34 34 = fibTable := by decide +kernel

theorem validTable_of {ft : List FtabEntry} (h1 : 1 ≤ ft.length) (h2 : ft.length ≤ 4096) (h : firstBadEntry ft 0 [] 0 = none) :
    ValidTable ft := ⟨h1, h2, firstBadEntry_eq_none.mp h⟩

theorem fibTable_valid : ValidTable fibTable := validTable_of (by decide +kernel) (by decide +kernel) (by decide +kernel)

/-- FDCT, DEQUANT, HBUILD, HENC and HDEC (F-12's values at K = 2, DQ-9, B-8, E-5, D-2). -/
theorem test_witness_DataErrorsEmptyTheDestinations :
    failsLate .fdct (with1 { cfg 2 7 0 0 with nblk := 1 } .scl [0x7FFFFFFF, 0x7FFFFFFF]) = true ∧
    failsLate .dequant (with1 { cfg 2 7 0 0 with ndsym := 4, qv := Vector.replicate 16 3 } .dsym (words [1, 1, 1, 715827883])) = true ∧
    failsLate .hbuild fib34 = true ∧
    failsLate .henc { full with regs.nsym := 2, mem := storeBuf full.mem .sym 0 [5, 8] } = true ∧
    failsLate .hdec { full with regs.nbits := 10 } = true := by decide +kernel

/-- For ChkcfgValidates: each clause, at the ends of K, R and NSAMP. -/
theorem test_witness_ChkcfgValidates :
    (¬ ∃ K, LegalBlock (st (cfg 0 7 0 1)) K) ∧ (¬ ∃ K, LegalBlock (st (cfg 17 7 0 1)) K) ∧
    (LegalBlock (st (cfg 1 0 0 1)) 1 ∧ ¬ ∃ R, LegalRes (st (cfg 1 0 0 1)) R) ∧
    (LegalBlock (st (cfg 16 17 0 1)) 16 ∧ ¬ ∃ R, LegalRes (st (cfg 16 17 0 1)) R) ∧
    (LegalBlock (st (cfg 16 16 5 5)) 16 ∧ LegalRes (st (cfg 16 16 5 5)) 16 ∧ ¬ LegalRange (st (cfg 16 16 5 5))) ∧
    (LegalBlock (st (cfg 1 1 0x80000000 0x80000001)) 1 ∧ LegalRes (st (cfg 1 1 0x80000000 0x80000001)) 1 ∧
      LegalRange (st (cfg 1 1 0x80000000 0x80000001)) ∧ LegalSteps (st (cfg 1 1 0x80000000 0x80000001)) 1 ∧
      uval32 (st (cfg 1 1 0x80000000 0x80000001)).regs.nsamp = 0) ∧
    (∀ B, ¬ LegalSamples (st { cfg 16 7 0 1 with nsamp := 4097 }) 16 B) ∧
    (∀ B, ¬ LegalSamples (st { cfg 3 7 0 1 with nsamp := 4096 }) 3 B) ∧
    LegalSamples (st { cfg 16 7 0 1 with nsamp := 1 }) 16 1 ∧ LegalSamples (st { cfg 16 7 0 1 with nsamp := 4096 }) 16 256 := by
  have nk : ∀ (r : Regs) (x : Int), sval32 r.blockK = x → ¬ (1 ≤ x ∧ x ≤ 16) → ¬ ∃ K, LegalBlock (st r) K := by
    rintro r x hx hn ⟨K, h⟩
    have h1 := h.eq.symm.trans hx
    have h2 := h.pos
    have h3 := h.le
    omega
  have nr : ∀ (r : Regs) (x : Int), sval32 r.res = x → ¬ (1 ≤ x ∧ x ≤ 16) → ¬ ∃ K, LegalRes (st r) K := by
    rintro r x hx hn ⟨K, h⟩
    have h1 := h.eq.symm.trans hx
    have h2 := h.pos
    have h3 := h.le
    omega
  refine ⟨nk _ 0 (by decide) (by decide), nk _ 17 (by decide) (by decide),
    ⟨legalBlock _ _ _ (by decide), nr _ 0 (by decide) (by decide)⟩, ⟨legalBlock _ _ _ (by decide), nr _ 17 (by decide) (by decide)⟩,
    ⟨legalBlock _ _ _ (by decide), legalRes _ _ _ (by decide), by unfold LegalRange; decide⟩,
    ⟨legalBlock _ _ _ (by decide), legalRes _ _ _ (by decide), by unfold LegalRange; decide, by unfold LegalSteps; decide, by decide⟩,
    ?_, ?_, legalSamples _ _ _ _ (by decide), legalSamples _ _ _ _ (by decide)⟩
  · intro B h
    have h1 := h.le
    change 4097 ≤ 4096 at h1
    omega
  · intro B h
    have h1 := h.enough
    have h2 := h.fits
    change 4096 ≤ B * 3 at h1
    omega

/-- For SegmentPadsTheLastBlock: the smallest count at the largest K, and the largest at the smallest. -/
theorem test_witness_SegmentPadsTheLastBlock :
    (LegalBlock (st { cfg 16 7 0 0 with nsamp := 1 }) 16 ∧ LegalSamples (st { cfg 16 7 0 0 with nsamp := 1 }) 16 1) ∧
    (LegalBlock (st { cfg 1 7 0 0 with nsamp := 4096 }) 1 ∧ LegalSamples (st { cfg 1 7 0 0 with nsamp := 4096 }) 1 4096) :=
  ⟨⟨legalBlock _ _ _ (by decide), legalSamples _ _ _ _ (by decide)⟩, ⟨legalBlock _ _ _ (by decide), legalSamples _ _ _ _ (by decide)⟩⟩

/-- For ScaleRoundsTheExactFormula and ScaledSamplesStayInRange: K, R, the range and the block count at their ends; samples
at both ends of the range. -/
theorem test_witness_Scale :
    (∃ s : State, LegalBlock s 16 ∧ LegalRes s 16 ∧ LegalRange s ∧ uval32 s.regs.nblk * 16 = 4096) ∧
    (∃ s : State, LegalBlock s 1 ∧ LegalRes s 1 ∧ LegalRange s ∧ uval32 s.regs.nblk * 1 = 2 ∧
      sval32 (bufWord s .inp 0 0) ≤ sval32 s.regs.minv ∧ sval32 s.regs.maxv ≤ sval32 (bufWord s .inp 1 0)) :=
  ⟨⟨st { cfg 16 16 0x80000000 0x7FFFFFFF with nblk := 256 }, legalBlock _ _ _ (by decide), legalRes _ _ _ (by decide),
      by unfold LegalRange; decide, by decide⟩,
    ⟨with1 { cfg 1 1 0 1 with nblk := 2 } .inp [0, 1], legalBlock _ _ _ (by decide), legalRes _ _ _ (by decide),
      by unfold LegalRange; decide, by decide, by decide +kernel, by decide +kernel⟩⟩

/-- A one-point DCT-II is its point. -/
theorem dct2_one (x : Nat → Int) : dct2 1 x 0 = x 0 := by simp [dct2]

/-- For FdctRoundsTheExactSum: 4096 one-point blocks, which all fit; and two points whose sum does not. -/
theorem test_witness_FdctRoundsTheExactSum :
    (∃ (s : State) (c : Nat → Nat → Int), LegalBlock s 1 ∧ uval32 s.regs.nblk * 1 = 4096 ∧
      (∀ b k, c b k = roundHaz (dct2 1 (fun n => sval32 (bufWord s .scl (b * 1 + n) 0)) k)) ∧
      ∀ b < uval32 s.regs.nblk, ∀ k < 1, fits32 (c b k) = true) ∧
    (∃ (s : State) (c : Nat → Nat → Int), LegalBlock s 2 ∧ uval32 s.regs.nblk = 1 ∧
      (∀ b k, c b k = roundHaz (dct2 2 (fun n => sval32 (bufWord s .scl (b * 2 + n) 0)) k)) ∧ fits32 (c 0 0) = false ∧
      ∀ b' < uval32 s.regs.nblk, ∀ k' < 2, b' * 2 + k' < 0 * 2 + 0 → fits32 (c b' k') = true) := by
  refine ⟨⟨st { cfg 1 7 0 0 with nblk := 4096 }, _, legalBlock _ _ _ (by decide), by decide, fun _ _ => rfl, ?_⟩,
    ⟨with1 { cfg 2 7 0 0 with nblk := 1 } .scl [0x7FFFFFFF, 0x7FFFFFFF], _, legalBlock _ _ _ (by decide), by decide,
      fun _ _ => rfl, ?_, by omega⟩⟩
  · intro b _ k hk
    obtain rfl : k = 0 := by omega
    simp only [dct2_one, roundHaz_intCast]
    exact fits32_iff.mpr (sval32_range _)
  · have h0 : sval32 (bufWord (with1 { cfg 2 7 0 0 with nblk := 1 } .scl [0x7FFFFFFF, 0x7FFFFFFF]) .scl 0 0) = 2147483647 := by
      decide +kernel
    have h1 : sval32 (bufWord (with1 { cfg 2 7 0 0 with nblk := 1 } .scl [0x7FFFFFFF, 0x7FFFFFFF]) .scl 1 0) = 2147483647 := by
      decide +kernel
    have h2 : dct2 2 (fun n => sval32 (bufWord (with1 { cfg 2 7 0 0 with nblk := 1 } .scl [0x7FFFFFFF, 0x7FFFFFFF]) .scl
        (0 * 2 + n) 0)) 0 = ((4294967294 : ℤ) : ℝ) := by
      simp only [dct2, Finset.sum_range_succ, Finset.sum_range_zero, Nat.zero_mul, Nat.zero_add, h0, h1]
      norm_num
    simp only [h2, roundHaz_intCast]
    decide

/-- For QuantRoundsTheExactQuotient: no element and 4096 of them; the index of the step size. -/
theorem test_witness_QuantRoundsTheExactQuotient :
    (∃ s : State, LegalBlock s 16 ∧ LegalSteps s 16 ∧ uval32 s.regs.nblk * 16 = 4096 ∧ ∃ q : Fin 16, q.val = 4095 % 16) ∧
    (∃ s : State, LegalBlock s 1 ∧ LegalSteps s 1 ∧ uval32 s.regs.nblk = 0) :=
  ⟨⟨st { cfg 16 7 0 0 with nblk := 256 }, legalBlock _ _ _ (by decide), by unfold LegalSteps; decide, by decide, 15, rfl⟩,
    ⟨st (cfg 1 7 0 0), legalBlock _ _ _ (by decide), by unfold LegalSteps; decide, by decide⟩⟩

/-- For HcountCountsInFirstOccurrenceOrder: any number of symbols 1 .. 4096 has such a list of distinct symbols. -/
theorem test_witness_HcountCountsInFirstOccurrenceOrder : ∀ n ∈ [1, 6, 4096], ∃ (s : State) (syms distinct : List Word),
    uval32 s.regs.nsym = n ∧ syms = (List.range (uval32 s.regs.nsym)).map (fun j => bufWord s .sym j 0) ∧ distinct.Nodup ∧
    (∀ x, x ∈ distinct ↔ x ∈ syms) ∧
    ∀ (i j : Nat) (x y : Word), i < j → distinct[i]? = some x → distinct[j]? = some y → syms.idxOf x < syms.idxOf y := by
  intro n hn
  have hlt : n < 2 ^ 32 := by
    simp only [List.mem_cons, List.not_mem_nil, or_false] at hn
    omega
  refine ⟨{ full with regs.nsym := encCount n }, _, (countSymbols _).map Prod.fst, uval32_encCount (by omega), rfl,
    (countTable _).nodup, (countTable _).mem, ?_⟩
  intro i j x y hij hx hy
  have ho := (countTable ((List.range (uval32 (encCount n))).map
    (fun j => bufWord { full with regs.nsym := encCount n } .sym j 0))).order
  rw [List.pairwise_iff_getElem] at ho
  obtain ⟨hi, rfl⟩ := List.getElem?_eq_some_iff.mp hx
  obtain ⟨hj, rfl⟩ := List.getElem?_eq_some_iff.mp hy
  exact ho i j hi hj hij

/-- B-1's table. -/
def b1Table : List FtabEntry := [⟨5, 3⟩, ⟨7, 2⟩, ⟨9, 1⟩]

theorem b1Table_valid : ValidTable b1Table := validTable_of (by decide) (by decide) (by decide +kernel)

theorem readFtab_full : readFtab full 3 = b1Table := by decide +kernel

/-- For HbuildBuildsTheSpecTree: the tables of B-1, whose codes are short, and B-8, whose code 0 is 33 bits long. -/
theorem test_witness_HbuildBuildsTheSpecTree :
    (∃ (s : State) (ft : List FtabEntry) (T : List Node) (root : Nat) (codes : Nat → List Bool),
      ft = readFtab s (uval32 s.regs.ndist) ∧ ValidTable ft ∧ BuiltFrom ft T root codes ∧ ∀ i < ft.length, (codes i).length ≤ 32) ∧
    (∃ (s : State) (ft : List FtabEntry) (T : List Node) (root : Nat) (codes : Nat → List Bool),
      ft = readFtab s (uval32 s.regs.ndist) ∧ ValidTable ft ∧ BuiltFrom ft T root codes ∧ 0 < ft.length ∧ 32 < (codes 0).length) := by
  constructor
  · obtain ⟨T, tree, h⟩ := exists_modelBuild b1Table_valid
    refine ⟨full, b1Table, T, _, _, readFtab_full.symm, b1Table_valid, h.built, ?_⟩
    exact h.findIdx_none.mp (by decide +kernel)
  · obtain ⟨T, tree, h⟩ := exists_modelBuild fibTable_valid
    refine ⟨fib34, fibTable, T, _, _, readFtab_fib34.symm, fibTable_valid, h.built, by decide, ?_⟩
    have h1 : (buildTree fibTable).codes.head?.map List.length = some 33 := by decide +kernel
    rw [h.codes] at h1
    have h2 : (List.range fibTable.length) = 0 :: List.range' 1 33 := by decide +kernel
    rw [h2] at h1
    simp only [List.map_cons, List.head?_cons, Option.map_some, Option.some.injEq] at h1
    omega

/-- For HbuildLeavesABinaryTree: a table of one entry. -/
theorem test_witness_HbuildLeavesABinaryTree : ∃ (s : State) (ft : List FtabEntry),
    ft = (List.range (uval32 s.regs.ndist)).map (fun i => { symbol := bufWord s .ftab i 0, count := bufWord s .ftab i 1 }) ∧
    ValidTable ft :=
  ⟨with1 { Regs.reset with ndist := 1 } .ftab [42, 5], [⟨42, 5⟩], by decide +kernel, validTable_of (by decide) (by decide) (by decide +kernel)⟩

/-- For CodesArePrefixFreeAndComplete: one code, and three. -/
theorem test_witness_CodesArePrefixFreeAndComplete :
    (after .hbuild (with1 { Regs.reset with ndist := 1 } .ftab [42, 5])).regs.status.errCode = 0x00 ∧
    (after .hbuild full).regs.status.errCode = 0x00 ∧ (∃ t, exec .hbuild full = .next t ∧ t = after .hbuild full) ∧
    b1Table = readFtab full (uval32 full.regs.ndist) ∧ ValidTable b1Table :=
  ⟨by decide +kernel, by decide +kernel, ⟨_, exec_after _ _, rfl⟩, readFtab_full.symm, b1Table_valid⟩

theorem test_witness_HbuildAfterHcountSucceeds : ∃ t u, exec .hcount full = .next t ∧ t.regs.status.errCode = 0x00 ∧
    exec .hbuild t = .next u := ⟨after .hcount full, _, exec_after _ _, by decide +kernel, exec_eq _ _⟩

/-- For HencConcatenatesTheCodes: E-1; no symbol; and a symbol without a code first and last. -/
theorem test_witness_HencConcatenatesTheCodes :
    (full.regs.status.treeValid = true ∧ ∃ index : Nat → Nat, ∀ j < uval32 full.regs.nsym, index j < uval32 full.regs.ndist ∧
      bufWord full .ftab (index j) 0 = bufWord full .sym j 0 ∧ uval32 (bufWord full .ctab (index j) 0) ≤ 32 ∧
      ∀ i < uval32 full.regs.ndist, bufWord full .ftab i 0 = bufWord full .sym j 0 → i = index j) ∧
    (∃ s : State, s.regs.status.treeValid = true ∧ uval32 s.regs.nsym = 1 ∧
      ∀ i < uval32 s.regs.ndist, bufWord s .ftab i 0 ≠ bufWord s .sym 0 0) ∧
    (∃ s : State, s.regs.status.treeValid = true ∧ uval32 s.regs.nsym = 2 ∧
      (∀ i < uval32 s.regs.ndist, bufWord s .ftab i 0 ≠ bufWord s .sym 1 0) ∧
      ∀ j' < 1, ∃ i < uval32 s.regs.ndist, bufWord s .ftab i 0 = bufWord s .sym j' 0) :=
  ⟨⟨by decide, fun j => [0, 0, 0, 1, 1, 2].getD j 0, by decide +kernel⟩,
    ⟨{ full with regs.nsym := 1, mem := storeBuf full.mem .sym 0 [8] }, by decide, by decide, by decide +kernel⟩,
    ⟨{ full with regs.nsym := 2, mem := storeBuf full.mem .sym 0 [5, 8] }, by decide, by decide, by decide +kernel, by decide +kernel⟩⟩

/-! HDEC: B-1's tree, any draw of the model, NBITS and the words of BITS. -/

def fullAt (d : Nat) (n : Word) (ws : List Word) : State :=
  { full with draws := d, regs.nbits := n, mem := storeBuf full.mem .bits 0 ws }

theorem full_tree (d : Nat) (n : Word) (ws : List Word) :
    uval32 (bufWord (fullAt d n ws) .tree 4 1) = 0 ∧ uval32 (bufWord (fullAt d n ws) .tree 4 2) = 3 ∧
    uval32 (bufWord (fullAt d n ws) .tree 3 2) = 1 ∧ bufWord (fullAt d n ws) .tree 4 1 ≠ 0xFFFFFFFF ∧
    bufWord (fullAt d n ws) .tree 3 1 ≠ 0xFFFFFFFF ∧ bufWord (fullAt d n ws) .tree 0 1 = 0xFFFFFFFF ∧
    bufWord (fullAt d n ws) .tree 1 1 = 0xFFFFFFFF ∧ bufWord (fullAt d n ws) .tree 0 3 = 5 ∧
    bufWord (fullAt d n ws) .tree 1 3 = 7 := by
  have e : ∀ i f v, i < 8192 → f < 4 → Holds full.mem .tree i f v → bufWord (fullAt d n ws) .tree i f = v :=
    fun i f v hi hf h => bufWord_of_holds (s := fullAt d n ws)
      ((storeBuf_memFrame full.mem .bits 0 ws).holds (by decide) hi hf h) hi
  have hh : Holds full.mem .tree 4 1 0 ∧ Holds full.mem .tree 4 2 3 ∧ Holds full.mem .tree 3 1 2 ∧ Holds full.mem .tree 3 2 1 ∧
      Holds full.mem .tree 0 1 0xFFFFFFFF ∧ Holds full.mem .tree 1 1 0xFFFFFFFF ∧ Holds full.mem .tree 0 3 5 ∧
      Holds full.mem .tree 1 3 7 := by
    unfold Holds HoldsAt
    decide +kernel
  obtain ⟨h1, h2, h3, h4, h5, h6, h7, h8⟩ := hh
  rw [e _ _ _ (by omega) (by omega) h1, e _ _ _ (by omega) (by omega) h2, e _ _ _ (by omega) (by omega) h3,
    e _ _ _ (by omega) (by omega) h4, e _ _ _ (by omega) (by omega) h5, e _ _ _ (by omega) (by omega) h6,
    e _ _ _ (by omega) (by omega) h7, e _ _ _ (by omega) (by omega) h8]
  decide

theorem walk_one (d : Nat) (n : Word) (ws : List Word) : TreeWalk (fullAt d n ws) 4 [true] 0 := by
  obtain ⟨h1, -, -, h4, -⟩ := full_tree d n ws
  refine .step h4 ?_
  rw [if_pos rfl, h1]
  exact .here 0

theorem walk_zero (d : Nat) (n : Word) (ws : List Word) : TreeWalk (fullAt d n ws) 4 [false] 3 := by
  obtain ⟨-, h2, -, h4, -⟩ := full_tree d n ws
  refine .step h4 ?_
  rw [if_neg (by decide), h2]
  exact .here 3

theorem walk_zero_zero (d : Nat) (n : Word) (ws : List Word) : TreeWalk (fullAt d n ws) 4 [false, false] 1 := by
  obtain ⟨-, h2, h3, h4, h5, -⟩ := full_tree d n ws
  refine .step h4 ?_
  rw [if_neg (by decide), h2]
  refine .step h5 ?_
  rw [if_neg (by decide), h3]
  exact .here 1

theorem decodes_ones (d : Nat) (n : Word) (ws : List Word) :
    ∀ k, Decodes (fullAt d n ws) 4 (List.replicate k true) (List.replicate k 5)
  | 0 => .nil
  | k + 1 => by
    obtain ⟨-, -, -, -, -, h6, -, h8, -⟩ := full_tree d n ws
    have h := Decodes.symbol (walk_one d n ws) (by simp) h6 (decodes_ones d n ws k)
    rw [h8] at h
    exact h

/-- The bits 100 are the codes of 5 and 7. -/
theorem decodes_100 (d : Nat) (n : Word) (ws : List Word) : Decodes (fullAt d n ws) 4 [true, false, false] [5, 7] := by
  obtain ⟨-, -, -, -, -, h6, h7, h8, h9⟩ := full_tree d n ws
  have h := Decodes.symbol (walk_one d n ws) (by simp) h6 (Decodes.symbol (walk_zero_zero d n ws) (by simp) h7 .nil)
  rw [h8, h9] at h
  exact h

/-- Stream bits of words that are all the same. -/
theorem streamBit_replicate {s : State} {m : Memory} {ws : List Word} {k : Nat} {w : Word} {p : Nat} (hk : k ≤ 4096)
    (hp : p < 32 * k) (hs : s.mem = storeBuf m .bits 0 ws) (hw : ws = List.replicate k w) : streamBit s p = w.getLsbD (31 - p % 32) := by
  have hq : p / 32 < k := by omega
  have h : Holds s.mem .bits (p / 32) 0 w := by
    rw [hs, hw]
    exact holds_result rfl (by show _ < 4096; omega) (by rw [List.getElem?_replicate, if_pos hq])
  rw [streamBit, bufWord_of_holds h (by show _ < 4096; omega)]

/-- 129 words of ones. -/
def ones : List Word := List.replicate 129 0xFFFFFFFF

theorem streamBits_ones {d : Nat} {n : Word} {k : Nat} (hn : uval32 n ≤ 4128) (hk : uval32 n = k) :
    (List.range (uval32 (fullAt d n ones).regs.nbits)).map
      (streamBit (fullAt d n ones)) = List.replicate k true := by
  have : ∀ p < k, streamBit (fullAt d n ones) p = true := by
    intro p hp
    rw [streamBit_replicate (s := fullAt d n ones) (m := full.mem) (k := 129) (by omega) (by omega) rfl rfl]
    have : 31 - p % 32 < 32 := by omega
    generalize 31 - p % 32 = j at *
    interval_cases j <;> rfl
  apply List.ext_getElem
  · simp [fullAt, hk]
  · intro i h1 h2
    simp only [List.length_replicate] at h2
    simp [this i h2]

/-- For HdecDecodesWholeTraversals: no bit; the codes of 5 and 7; and 4096 symbols. -/
theorem test_witness_HdecDecodesWholeTraversals : ∀ k ∈ [0, 1, 4096], ∃ (s : State) (syms : List Word),
    s.regs.status.treeValid = true ∧ uval32 s.regs.nbits ≤ 131072 ∧ bufWord s .tree (uval32 s.regs.root) 1 ≠ 0xFFFFFFFF ∧
    Decodes s (uval32 s.regs.root) ((List.range (uval32 s.regs.nbits)).map (streamBit s)) syms ∧ syms.length = k := by
  intro k hk
  have hle : k ≤ 4096 := by
    simp only [List.mem_cons, List.not_mem_nil, or_false] at hk
    omega
  have hu : uval32 (encCount k) = k := uval32_encCount (by omega)
  have hn : uval32 (fullAt 0 (encCount k) ones).regs.nbits = k := hu
  refine ⟨fullAt 0 (encCount k) ones, List.replicate k 5, rfl, by omega,
    (full_tree 0 _ _).2.2.2.1, ?_, by simp⟩
  rw [streamBits_ones (k := k) (by omega) hu]
  exact decodes_ones 0 _ _ k

/-- For HdecReportsDesyncAndCapacity: one bit that ends at node 3; and 4097 codes of one bit. -/
theorem test_witness_HdecReportsDesyncAndCapacity :
    (∃ (s : State) (whole part : List Bool) (syms : List Word) (x : Nat), s.regs.status.treeValid = true ∧
      uval32 s.regs.nbits ≤ 131072 ∧ bufWord s .tree (uval32 s.regs.root) 1 ≠ 0xFFFFFFFF ∧
      Decodes s (uval32 s.regs.root) whole syms ∧ TreeWalk s (uval32 s.regs.root) part x ∧ part ≠ [] ∧
      (List.range (uval32 s.regs.nbits)).map (streamBit s) = whole ++ part ∧ syms.length ≤ 4096 ∧
      bufWord s .tree x 1 ≠ 0xFFFFFFFF ∧ x ≠ uval32 s.regs.root) ∧
    (∃ (s : State) (whole part rest : List Bool) (syms : List Word) (x : Nat), s.regs.status.treeValid = true ∧
      uval32 s.regs.nbits ≤ 131072 ∧ bufWord s .tree (uval32 s.regs.root) 1 ≠ 0xFFFFFFFF ∧
      Decodes s (uval32 s.regs.root) whole syms ∧ TreeWalk s (uval32 s.regs.root) part x ∧ part ≠ [] ∧
      (List.range (uval32 s.regs.nbits)).map (streamBit s) = whole ++ part ++ rest ∧ syms.length = 4096 ∧
      bufWord s .tree x 1 = 0xFFFFFFFF) := by
  constructor
  · obtain ⟨-, -, -, h4, h5, -⟩ := full_tree 0 1 [0]
    exact ⟨fullAt 0 1 [0], [], [false], [], 3, rfl, by decide, h4, .nil, walk_zero 0 _ _, by simp, by decide +kernel,
      by decide, h5, by decide⟩
  · obtain ⟨-, -, -, h4, -, h6, -⟩ := full_tree 0 4097 ones
    have h4096 : ∀ n : Nat, (List.replicate n (5 : Word)).length = n := fun n => List.length_replicate
    refine ⟨fullAt 0 4097 ones, List.replicate 4096 true, [true], [], List.replicate 4096 5, 0, rfl,
      by decide, h4, decodes_ones 0 _ _ _, walk_one 0 _ _, by simp, ?_, h4096 4096, h6⟩
    rw [streamBits_ones (k := 4097) (by decide) (by decide), List.append_nil]
    exact List.replicate_succ'

/-- A tree that is one leaf (B-2), NBITS, and the words of BITS. -/
def leafOnly (n : Word) (ws : List Word) : State := { State.reset with
  regs := { Regs.reset with nbits := n, status := { Status.reset with treeValid := true } }
  mem := storeBuf (storeBuf [] .tree 0 [5, 0xFFFFFFFF, 0xFFFFFFFF, 42]) .bits 0 ws }

theorem leafOnly_leaf (n : Word) (ws : List Word) :
    bufWord (leafOnly n ws) .tree (uval32 (leafOnly n ws).regs.root) 1 = 0xFFFFFFFF := by
  have h : Holds (storeBuf [] .tree 0 [5, 0xFFFFFFFF, 0xFFFFFFFF, 42]) .tree 0 1 0xFFFFFFFF :=
    holds_storeBuf rfl (by decide) (by decide)
  exact bufWord_of_holds (s := leafOnly n ws) ((storeBuf_memFrame _ .bits 0 ws).holds (by decide) (by show (0 : Nat) < 8192; omega) (by decide) h)
    (by show (0 : Nat) < 8192; omega)

theorem leafOnly_zeros {n : Word} {p : Nat} (hp : p < 4128) : streamBit (leafOnly n (List.replicate 129 0)) p = false := by
  rw [streamBit_replicate (k := 129) (by omega) (by omega) rfl rfl]
  simp

/-- For HdecOfASingleLeaf: 0 and 4096 zeros; a one first, and after 4096 zeros; 4097 zeros. -/
theorem test_witness_HdecOfASingleLeaf :
    (∀ n ∈ [0, 4096], ∃ s : State, s.regs.status.treeValid = true ∧ bufWord s .tree (uval32 s.regs.root) 1 = 0xFFFFFFFF ∧
      uval32 s.regs.nbits = n ∧ ∀ p < uval32 s.regs.nbits, streamBit s p = false) ∧
    (∀ p ∈ [0, 4096], ∃ s : State, s.regs.status.treeValid = true ∧ bufWord s .tree (uval32 s.regs.root) 1 = 0xFFFFFFFF ∧
      uval32 s.regs.nbits = 4097 ∧ streamBit s p = true ∧ ∀ q < p, streamBit s q = false) ∧
    (∃ s : State, s.regs.status.treeValid = true ∧ bufWord s .tree (uval32 s.regs.root) 1 = 0xFFFFFFFF ∧
      uval32 s.regs.nbits = 4097 ∧ ∀ p ≤ 4096, streamBit s p = false) := by
  refine ⟨fun n hn => ?_, fun p hp => ?_, leafOnly 4097 (List.replicate 129 0), rfl, leafOnly_leaf _ _, by decide,
    fun p hp => leafOnly_zeros (by omega)⟩
  · have hle : n ≤ 4096 := by
      simp only [List.mem_cons, List.not_mem_nil, or_false] at hn
      omega
    have hu : uval32 (encCount n) = n := uval32_encCount (by omega)
    refine ⟨leafOnly (encCount n) (List.replicate 129 0), rfl, leafOnly_leaf _ _, hu, fun p hp => leafOnly_zeros ?_⟩
    change p < uval32 (encCount n) at hp
    omega
  · have hz : ∀ q < 4096, streamBit (leafOnly 4097 (List.replicate 128 0 ++ [0x80000000])) q = false := by
      intro q hq
      have h : Holds (leafOnly 4097 (List.replicate 128 0 ++ [0x80000000])).mem .bits (q / 32) 0 0 := by
        refine holds_result rfl (by show _ < 4096; omega) ?_
        rw [List.getElem?_append_left (by simp; omega), List.getElem?_replicate, if_pos (by omega)]
      rw [streamBit, bufWord_of_holds h (by show _ < 4096; omega)]
      simp
    simp only [List.mem_cons, List.not_mem_nil, or_false] at hp
    rcases hp with rfl | rfl
    · refine ⟨leafOnly 4097 [0x80000000], rfl, leafOnly_leaf _ _, by decide, ?_, by omega⟩
      have h : Holds (leafOnly 4097 [0x80000000]).mem .bits (0 / 32) 0 0x80000000 := holds_result rfl (by decide) rfl
      rw [streamBit, bufWord_of_holds h (by decide)]
      decide
    · refine ⟨leafOnly 4097 (List.replicate 128 0 ++ [0x80000000]), rfl, leafOnly_leaf _ _, by decide, ?_, hz⟩
      have h : Holds (leafOnly 4097 (List.replicate 128 0 ++ [0x80000000])).mem .bits (4096 / 32) 0 0x80000000 :=
        holds_result rfl (by decide) (by rw [List.getElem?_append_right (by simp)]; simp)
      rw [streamBit, bufWord_of_holds h (by decide)]
      decide

/-- For HuffmanRoundTrip: one symbol, and 4096. -/
theorem test_witness_HuffmanRoundTrip : ∀ n ∈ [1, 4096], ∃ (s : State) (sym : Nat → Word), uval32 s.regs.nsym = n ∧
    ∀ j < uval32 s.regs.nsym, Holds s.mem .sym j 0 (sym j) := by
  intro n hn
  have hle : n ≤ 4096 := by
    simp only [List.mem_cons, List.not_mem_nil, or_false] at hn
    omega
  have hu : uval32 (encCount n) = n := uval32_encCount (by omega)
  refine ⟨with1 { Regs.reset with nsym := encCount n } .sym (List.replicate n 7), fun _ => 7, hu, fun j hj => ?_⟩
  change j < uval32 (encCount n) at hj
  exact holds_result rfl (by show _ < 4096; omega) (by rw [List.getElem?_replicate, if_pos (by omega)])

/-! The reverse path. -/

/-- For DequantMultipliesExactly: 4096 products that all fit; a product that does not, first (DQ-3) and last. -/
theorem test_witness_DequantMultipliesExactly :
    (∃ (s : State) (p : Nat → Int), LegalBlock s 1 ∧ LegalSteps s 1 ∧ uval32 s.regs.ndsym = 4096 ∧ uval32 s.regs.ndsym % 1 = 0 ∧
      (∀ j, ∀ q : Fin 16, q.val = j % 1 → p j = sval32 (bufWord s .dsym j 0) * sval32 (s.regs.qv.get q)) ∧
      ∀ j < uval32 s.regs.ndsym, -2 ^ 31 ≤ p j ∧ p j ≤ 2 ^ 31 - 1) ∧
    (∃ (s : State) (p : Nat → Int), LegalBlock s 2 ∧ LegalSteps s 2 ∧ uval32 s.regs.ndsym = 4 ∧
      (∀ j, ∀ q : Fin 16, q.val = j % 2 → p j = sval32 (bufWord s .dsym j 0) * sval32 (s.regs.qv.get q)) ∧
      ¬ (-2 ^ 31 ≤ p 3 ∧ p 3 ≤ 2 ^ 31 - 1) ∧ ∀ j' < 3, -2 ^ 31 ≤ p j' ∧ p j' ≤ 2 ^ 31 - 1) ∧
    (∃ (s : State) (p : Nat → Int), LegalBlock s 1 ∧ LegalSteps s 1 ∧ uval32 s.regs.ndsym = 1 ∧
      (∀ j, ∀ q : Fin 16, q.val = j % 1 → p j = sval32 (bufWord s .dsym j 0) * sval32 (s.regs.qv.get q)) ∧
      ¬ (-2 ^ 31 ≤ p 0 ∧ p 0 ≤ 2 ^ 31 - 1)) := by
  have key : ∀ (s : State) (q : Fin 16), q.val = 0 → s.regs.qv.get q = s.regs.qv.get 0 := by
    intro s q hq
    congr 1
    exact Fin.ext hq
  refine ⟨⟨st { cfg 1 7 0 0 with ndsym := 4096 }, fun j => sval32 (bufWord (st { cfg 1 7 0 0 with ndsym := 4096 }) .dsym j 0),
      legalBlock _ _ _ (by decide), by unfold LegalSteps; decide, by decide, by decide, ?_, ?_⟩,
    ⟨with1 { cfg 2 7 0 0 with ndsym := 4, qv := Vector.replicate 16 3 } .dsym (words [1, 1, 1, 715827883]),
      fun j => sval32 (bufWord (with1 { cfg 2 7 0 0 with ndsym := 4, qv := Vector.replicate 16 3 } .dsym
        (words [1, 1, 1, 715827883])) .dsym j 0) * 3,
      legalBlock _ _ _ (by decide), by unfold LegalSteps; decide, by decide, ?_, by decide +kernel, by decide +kernel⟩,
    ⟨with1 { cfg 1 7 0 0 with ndsym := 1, qv := Vector.replicate 16 2 } .dsym [0x40000000],
      fun j => sval32 (bufWord (with1 { cfg 1 7 0 0 with ndsym := 1, qv := Vector.replicate 16 2 } .dsym [0x40000000]) .dsym j 0) * 2,
      legalBlock _ _ _ (by decide), by unfold LegalSteps; decide, by decide, ?_, by decide +kernel⟩⟩
  · intro j q hq
    rw [key _ q (by omega)]
    have : sval32 ((st { cfg 1 7 0 0 with ndsym := 4096 }).regs.qv.get 0) = 1 := by decide
    rw [this, mul_one]
  · intro j _
    have h := sval32_range (bufWord (st { cfg 1 7 0 0 with ndsym := 4096 }) .dsym j 0)
    exact ⟨h.1, Int.le_sub_one_of_lt h.2⟩
  · intro j q _
    have : ∀ q : Fin 16, sval32 ((Vector.replicate 16 (3 : Word)).get q) = 3 := by decide
    exact congrArg _ (this q).symm
  · intro j q _
    have : ∀ q : Fin 16, sval32 ((Vector.replicate 16 (2 : Word)).get q) = 2 := by decide
    exact congrArg _ (this q).symm

/-- For QuantizerRoundTrip: one coefficient of the greatest size, the host's copy made. -/
theorem test_witness_QuantizerRoundTrip : ∃ (s t u : State), LegalBlock s 1 ∧ LegalSteps s 1 ∧ uval32 s.regs.nblk * 1 = 1 ∧
    (∀ j < uval32 s.regs.nblk * 1, |sval32 (bufWord s .coef j 0)| ≤ 2 ^ 19) ∧ exec .quant s = .next t ∧
    u.regs = { t.regs with ndsym := t.regs.nsym } ∧
    ∀ j < uval32 s.regs.nblk * 1, ∀ w, Holds t.mem .sym j 0 w → Holds u.mem .dsym j 0 w := by
  let s := with1 { cfg 1 7 0 0 with nblk := 1 } .coef [0x00080000]
  let t := after .quant s
  refine ⟨s, t, { t with regs := { t.regs with ndsym := t.regs.nsym }, mem := storeBuf t.mem .dsym 0 [bufWord t .sym 0 0] },
    legalBlock _ _ _ (by decide), by unfold LegalSteps; decide, by decide, ?_, exec_after _ _, rfl, ?_⟩
  · intro j hj
    obtain rfl : j = 0 := by
      change j < 1 at hj
      omega
    decide +kernel
  · intro j hj w hw
    obtain rfl : j = 0 := by
      change j < 1 at hj
      omega
    rw [← bufWord_of_holds hw (by decide)]
    exact holds_result rfl (by decide) rfl

/-- For IdctRoundsTheExactValue and UnscaleRoundsTheExactFormula: K, R, the range and the block count at their ends. -/
theorem test_witness_Reverse :
    (∃ s : State, LegalBlock s 16 ∧ LegalRes s 16 ∧ LegalRange s ∧ uval32 s.regs.nrblk * 16 = 4096) ∧
    (∃ s : State, LegalBlock s 1 ∧ LegalRes s 1 ∧ LegalRange s ∧ uval32 s.regs.nrblk * 1 = 0) :=
  ⟨⟨st { cfg 16 16 0x80000000 0x7FFFFFFF with nrblk := 256 }, legalBlock _ _ _ (by decide), legalRes _ _ _ (by decide),
      by unfold LegalRange; decide, by decide⟩,
    ⟨st (cfg 1 1 0 1), legalBlock _ _ _ (by decide), legalRes _ _ _ (by decide), by unfold LegalRange; decide, by decide⟩⟩

/-- For ScalerRoundTrip: the values of W2 (a sample in range, one above, one below), as the host writes them to Y. -/
theorem test_witness_ScalerRoundTrip : ∃ (s : State) (v : Nat → Word), LegalBlock s 1 ∧ LegalRes s 7 ∧ LegalRange s ∧
    uval32 s.regs.nrblk * 1 = 3 ∧
    (∀ i < uval32 s.regs.nrblk * 1, sval64 (bufDWord s .y i) = scaled 7 s.regs.minv s.regs.maxv (v i) * 2 ^ 24) ∧
    (valS s.regs.minv ≤ valS (v 0) ∧ valS (v 0) ≤ valS s.regs.maxv) ∧ valS s.regs.maxv < valS (v 1) ∧
    valS (v 2) < valS s.regs.minv := by
  refine ⟨with1 { cfg 1 7 0x001E0000 0x00B40000 with nrblk := 3 } .y
    [0xFC000000, 0xFFFFFFFF, 0x40000000, 0x00000000, 0xC0000000, 0xFFFFFFFF],
    fun i => [0x00640000, 0x00C80000, 0x000A0000].getD i 0, legalBlock _ _ _ (by decide), legalRes _ _ _ (by decide),
    by unfold LegalRange; decide, by decide, ?_, ?_, ?_, ?_⟩
  · intro i hi
    change i < 3 at hi
    rw [← scaleValue_eq (by decide)]
    interval_cases i <;> decide +kernel
  · rw [valS_le, valS_le]; decide
  · rw [valS_lt]; decide
  · rw [valS_lt]; decide

/-! The macros. -/

/-- For EncodeAlwaysSucceeds: the smallest and the largest sample count. -/
theorem test_witness_EncodeAlwaysSucceeds :
    (∃ s : State, LegalBlock s 16 ∧ LegalRes s 16 ∧ LegalRange s ∧ LegalSteps s 16 ∧ LegalSamples s 16 256 ∧
      uval32 s.regs.nsamp = 4096) ∧
    (∃ s : State, LegalBlock s 16 ∧ LegalRes s 1 ∧ LegalRange s ∧ LegalSteps s 16 ∧ LegalSamples s 16 1 ∧
      uval32 s.regs.nsamp = 1) :=
  ⟨⟨st { cfg 16 16 0 1 with nsamp := 4096 }, legalBlock _ _ _ (by decide), legalRes _ _ _ (by decide), by unfold LegalRange; decide,
      by unfold LegalSteps; decide, legalSamples _ _ _ _ (by decide), by decide⟩,
    ⟨st { cfg 16 1 0 1 with nsamp := 1 }, legalBlock _ _ _ (by decide), legalRes _ _ _ (by decide), by unfold LegalRange; decide,
      by unfold LegalSteps; decide, legalSamples _ _ _ _ (by decide), by decide⟩⟩

/-- For DecodeRunsTheReversePath: the stream 100, two symbols, one block of two. -/
theorem test_witness_DecodeRunsTheReversePath : ∃ (s : State) (syms : List Word), LegalBlock s 2 ∧ LegalRes s 5 ∧ LegalRange s ∧
    LegalSteps s 2 ∧ s.regs.status.treeValid = true ∧ uval32 s.regs.nbits ≤ 131072 ∧
    bufWord { s with draws := s.draws + 1 } .tree (uval32 s.regs.root) 1 ≠ 0xFFFFFFFF ∧
    Decodes { s with draws := s.draws + 1 } (uval32 s.regs.root)
      ((List.range (uval32 s.regs.nbits)).map (streamBit { s with draws := s.draws + 1 })) syms ∧
    syms.length ≤ 4096 ∧ syms.length % 2 = 0 ∧
    ∀ (j : Nat) (x : Word), syms[j]? = some x → ∀ q : Fin 16, q.val = j % 2 →
      fits32 (sval32 x * sval32 (s.regs.qv.get q)) = true := by
  obtain ⟨-, -, -, h4, -⟩ := full_tree 1 3 [0x80000000]
  have hd := decodes_100 1 3 [0x80000000]
  have hb : (List.range 3).map (streamBit (fullAt 1 3 [0x80000000])) = [true, false, false] := by decide +kernel
  rw [← hb] at hd
  refine ⟨fullAt 0 3 [0x80000000], [5, 7], ⟨by decide, by decide, by decide⟩, ⟨by decide, by decide, by decide⟩,
    by unfold LegalRange; decide, by unfold LegalSteps; decide, rfl, by decide, h4, hd, by decide, by decide, ?_⟩
  intro j x hx q _
  have hq : ∀ q : Fin 16, sval32 ((fullAt 0 3 [0x80000000]).regs.qv.get q) = 1 := by
    intro q
    show sval32 (Regs.reset.qv.get q) = 1
    revert q
    decide
  rw [hq]
  rcases j with _ | _ | j
  · simp only [List.getElem?_cons_zero, Option.some.injEq] at hx
    subst hx
    decide
  · simp only [Nat.zero_add, List.getElem?_cons_succ, List.getElem?_cons_zero, Option.some.injEq] at hx
    subst hx
    decide
  · simp at hx

/-- One sample, blocks of one. -/
def tiny : State := with1 { cfg 1 5 0 0x00100000 with nsamp := 1 } .inp [0x00020000]

/-- For MacrosEqualTheirSteps and DecodeAfterEncode. -/
theorem test_witness_MacrosEqualTheirSteps : ∃ t u, exec .encode tiny = .next t ∧ t.regs.status.errCode = 0x00 ∧
    exec .decode t = .next u ∧ u.regs.status.errCode = 0x00 :=
  ⟨_, _, exec_after _ _, by decide +kernel, exec_after _ _, by decide +kernel⟩

/-- M-4: B-1's stream with K = 4. -/
def m4 : State := { full with regs.blockK := 4 }

theorem runAll_one {i : Instr} {s : State} (h : (after i s).regs.status.errCode = 0x00) : runAll [i] s = some (after i s) := by
  rw [runAll, exec_after]
  exact if_pos h

/-- For MacrosStopAtTheFirstError: ENCODE at its checks, DECODE at its first step, its second and its leading checks. -/
theorem test_witness_MacrosStopAtTheFirstError :
    (∃ u, encodeSteps = [] ++ Instr.chkcfg :: [.segment, .scale, .fdct, .quant, .hcount, .hbuild, .henc] ∧
      runAll [] State.reset = some State.reset ∧ exec .chkcfg State.reset = .next u ∧ u.regs.status.errCode ≠ 0x00) ∧
    (∃ s u : State, LegalBlock s 1 ∧ LegalRes s 1 ∧ LegalRange s ∧ LegalSteps s 1 ∧
      decodeSteps = [] ++ Instr.hdec :: [.dequant, .idct, .unscale] ∧
      runAll [] { s with draws := s.draws + 1 } = some { s with draws := s.draws + 1 } ∧
      exec .hdec { s with draws := s.draws + 1 } = .next u ∧ u.regs.status.errCode ≠ 0x00) ∧
    (∃ s t u : State, LegalBlock s 4 ∧ LegalRes s 5 ∧ LegalRange s ∧ LegalSteps s 4 ∧
      decodeSteps = [.hdec] ++ Instr.dequant :: [.idct, .unscale] ∧ runAll [.hdec] { s with draws := s.draws + 1 } = some t ∧
      exec .dequant t = .next u ∧ u.regs.status.errCode ≠ 0x00) ∧
    firstFailure State.reset [.ckK, .ckR, .ckRange, .ckQv] = some (.cfgRange, 0) := by
  have h : (after .hdec { m4 with draws := m4.draws + 1 }).regs.status.errCode = 0x00 := by decide +kernel
  have h' := runAll_one h
  generalize ht : after .hdec { m4 with draws := m4.draws + 1 } = t at h'
  have h2 : (after .dequant t).regs.status.errCode ≠ 0x00 := by rw [← ht]; decide +kernel
  exact ⟨⟨_, rfl, rfl, exec_after _ _, by decide +kernel⟩,
    ⟨st (cfg 1 1 0 1), _, legalBlock _ _ _ (by decide), legalRes _ _ _ (by decide), by unfold LegalRange; decide,
      by unfold LegalSteps; decide, rfl, rfl, exec_after _ _, by decide +kernel⟩,
    ⟨m4, t, after .dequant t, ⟨by decide, by decide, by decide⟩, ⟨by decide, by decide, by decide⟩, by unfold LegalRange; decide,
      by unfold LegalSteps; decide, rfl, h', exec_after _ _, h2⟩, by decide⟩

/-! The host bus. -/

/-- For CmdWriteIssuesOrIsRejected, StatusReadsItsFields and HostAccessesWhileBusy: an access of each class. -/
theorem test_witness_HostAccessesWhileBusy :
    State.reset.run = .idle ∧ IsBusy { State.reset with run := .busy 0 } ∧
    (WordAddr 0x00FFC#19 ∧ InPage 0x00FFC#19) ∧ (0x00000002#32).getLsbD 0 = false ∧
    (RwOffset 0x00018#19 ∧ RwOffset 0x00040#19 ∧ RwOffset 0x00080#19 ∧ RwOffset 0x000BC#19) ∧
    (RoOffset 0x00000#19 ∧ RoOffset 0x00014#19 ∧ RoOffset 0x00044#19 ∧ RoOffset 0x00050#19) ∧
    (ReservedOffset 0x00054#19 ∧ ReservedOffset 0x0007C#19 ∧ ReservedOffset 0x000C0#19 ∧ ReservedOffset 0x00FFC#19) ∧
    (WordAddr 0x10000#19 ∧ InBuffers 0x10000#19 ∧ InBuffers 0x67FFC#19) := by
  refine ⟨rfl, ⟨0, rfl⟩, ?_⟩
  unfold WordAddr InPage RwOffset RoOffset ReservedOffset InBuffers
  decide

/-- For RefusedAccessesOnlySetBuserr: each reason, at the ends of the holes of the address map and the read-only windows. -/
theorem test_witness_RefusedAccessesOnlySetBuserr :
    (2 ≠ 4) ∧ ¬ WordAddr 0x10002#19 ∧ (Unmapped 0x01000#19 ∧ Unmapped 0x0FFFC#19 ∧ Unmapped 0x68000#19 ∧ Unmapped 0x7FFFC#19) ∧
    (IsBusy { State.reset with run := .busy 0 } ∧ InBuffers 0x10000#19 ∧ RwOffset 0x00018#19) ∧
    (InReadOnly 0x28000#19 ∧ InReadOnly 0x4FFFC#19 ∧ InReadOnly 0x64000#19 ∧ InReadOnly 0x67FFC#19) ∧
    (WordAddr 0x00050#19 ∧ RoOffset 0x00050#19) ∧ (WordAddr 0x00FFC#19 ∧ ReservedOffset 0x00FFC#19) := by
  refine ⟨by decide, by unfold WordAddr; decide, by unfold Unmapped; decide, ⟨⟨0, rfl⟩, ?_⟩, by unfold InReadOnly; decide,
    by unfold WordAddr RoOffset; decide, by unfold WordAddr ReservedOffset; decide⟩
  unfold InBuffers RwOffset
  decide

/-- For RegisterWritesByAccessType: each access type, and another register of the page. -/
theorem test_witness_RegisterWritesByAccessType :
    State.reset.run = .idle ∧ (WordAddr 0x00034#19 ∧ RwOffset 0x00034#19) ∧ (WordAddr 0x000BC#19 ∧ RwOffset 0x000BC#19) ∧
    (WordAddr 0x00030#19 ∧ InPage 0x00030#19 ∧ (0x00030#19 : BusAddr) ≠ 0x00034#19 ∧ (0x00030#19 : BusAddr) ≠ 0x00010#19) ∧
    (WordAddr 0x00050#19 ∧ RoOffset 0x00050#19) ∧ (WordAddr 0x00054#19 ∧ ReservedOffset 0x00054#19) ∧
    (0x00000002#32).getLsbD 0 = false := by
  unfold WordAddr RwOffset InPage RoOffset ReservedOffset
  decide

/-- For RegistersReadTheirValues: both ends of QV and of the reserved offsets. -/
theorem test_witness_RegistersReadTheirValues :
    (0x00080#19 : BusAddr).toNat = 0x080 + 4 * (0 : Fin 16).val ∧ (0x000BC#19 : BusAddr).toNat = 0x080 + 4 * (15 : Fin 16).val ∧
    (WordAddr 0x00054#19 ∧ ReservedOffset 0x00054#19) ∧ (WordAddr 0x0007C#19 ∧ ReservedOffset 0x0007C#19) ∧
    (WordAddr 0x000C0#19 ∧ ReservedOffset 0x000C0#19) ∧ (WordAddr 0x00FFC#19 ∧ ReservedOffset 0x00FFC#19) := by
  unfold WordAddr ReservedOffset
  decide

/-- For BufferWordsReadBack: a writable word outside FTAB, the ends of FTAB, and a word held. -/
theorem test_witness_BufferWordsReadBack :
    State.reset.run = .idle ∧ full.run = .idle ∧ (WordAddr 0x10000#19 ∧ InBuffers 0x10000#19 ∧ ¬ InReadOnly 0x10000#19) ∧
    (WordAddr 0x20000#19 ∧ InBuffers 0x20000#19 ∧ ¬ InReadOnly 0x20000#19) ∧
    (WordAddr 0x27FFC#19 ∧ InBuffers 0x27FFC#19 ∧ ¬ InReadOnly 0x27FFC#19) ∧
    (WordAddr 0x63FFC#19 ∧ InBuffers 0x63FFC#19 ∧ ¬ InReadOnly 0x63FFC#19) ∧
    HoldsAt full.mem (0x50000#19 : BusAddr).toNat 0xE0800000 := by
  unfold WordAddr InBuffers InReadOnly HoldsAt
  decide +kernel

/-- For BufferWordsReadBack: the last element of TREE and of Y holding a value. -/
theorem test_witness_BufferElementsHold :
    (8191 < bufElements .tree ∧ Holds (storeBuf [] .tree 8191 [1, 2, 3, 0xFFFFFFFF]) .tree 8191 3 0xFFFFFFFF) ∧
    (4095 < 4096 ∧ Holds (storeBuf [] .y 4095 [0x89ABCDEF, 0x01234567]) .y 4095 0 ((0x0123456789ABCDEF#64).extractLsb' 0 32) ∧
      Holds (storeBuf [] .y 4095 [0x89ABCDEF, 0x01234567]) .y 4095 1 ((0x0123456789ABCDEF#64).extractLsb' 32 32)) := by
  unfold Holds HoldsAt
  decide +kernel

/-- For HardwareResetValues. -/
theorem test_witness_HardwareResetValues : (∃ s : State, s = State.reset) ∧ (∃ s s' : State, s = hostEvent .hardReset s') ∧
    (WordAddr 0x000BC#19 ∧ InPage 0x000BC#19) :=
  ⟨⟨_, rfl⟩, ⟨_, full, rfl⟩, by unfold WordAddr InPage; decide⟩

/-- For SoftResetRestoresRegisters, the model's choice of log 9: padding slots past the end of IN (NSAMP = 4096, K = 3), and
none inside it (NSAMP = 5000). -/
theorem test_witness_SoftResetPastTheEnd :
    (∃ s : State, s.run = .busy 0x00000010#32 ∧ decode 0x00000010#32 = .command .segment ∧ sval32 s.regs.blockK = (3 : Nat) ∧
      uval32 s.regs.nsamp = 4096 ∧ uval32 s.regs.nsamp ≤ 1366 * 3 ∧ 1366 * 3 < uval32 s.regs.nsamp + 3 ∧ 4096 < 1366 * 3) ∧
    (∃ s : State, s.run = .busy 0x00000040#32 ∧ decode 0x00000040#32 = .command .encode ∧ sval32 s.regs.blockK = (3 : Nat) ∧
      uval32 s.regs.nsamp = 5000 ∧ uval32 s.regs.nsamp ≤ 1667 * 3 ∧ 1667 * 3 < uval32 s.regs.nsamp + 3) :=
  ⟨⟨{ State.reset with run := .busy 0x00000010#32, regs := { Regs.reset with blockK := 3, nsamp := 4096 } }, rfl, by decide⟩,
    ⟨{ State.reset with run := .busy 0x00000040#32, regs := { Regs.reset with blockK := 3, nsamp := 5000 } }, rfl, by decide⟩⟩

/-- For SoftResetRestoresRegisters: IDLE, an illegal word pending, a command pending, SEGMENT and ENCODE pending. -/
theorem test_witness_SoftResetRestoresRegisters :
    (0x00000001#32).getLsbD 0 = true ∧ full.run = .idle ∧
    (∃ c, ({ full with run := .busy 0x00000100#32 } : State).run = .busy c ∧ ∀ i, decode c ≠ .command i) ∧
    (∃ c, ({ full with run := .busy 0x00000021#32 } : State).run = .busy c ∧ decode c = .command .hbuild ∧
      Instr.hbuild ≠ .segment ∧ Instr.hbuild ≠ .encode) ∧
    (∃ (s : State) (c : Word), s.run = .busy c ∧ decode c = .command .segment ∧ sval32 s.regs.blockK = (2 : Nat) ∧
      uval32 s.regs.nsamp ≤ 2 * 2 ∧ 2 * 2 < uval32 s.regs.nsamp + 2) ∧
    (∃ (s : State) (c : Word), s.run = .busy c ∧ decode c = .command .encode ∧ sval32 s.regs.blockK = (1 : Nat) ∧
      uval32 s.regs.nsamp ≤ 1 * 1 ∧ 1 * 1 < uval32 s.regs.nsamp + 1) :=
  ⟨by decide, rfl, ⟨_, rfl, by intro i; cases i <;> decide⟩, ⟨_, rfl, by decide, by decide, by decide⟩,
    ⟨{ full with run := .busy 0x00000010#32 }, _, rfl, by decide, by decide, by decide, by decide⟩,
    ⟨{ tiny with run := .busy 0x00000040#32 }, _, rfl, by decide, by decide, by decide, by decide⟩⟩

theorem test_witness_CompletionRaisesIrq : (∃ t, exec .nop State.reset = .next t) ∧ (0x00000002#32).getLsbD 1 = true ∧
    (0x00000002#32).getLsbD 0 = false := ⟨⟨_, exec_eq _ _⟩, by decide, by decide⟩

/-! Whole-machine rules. -/

/-- A step of HOST and a step of the ENGINE, for RunStateTransitions, StepKeepsInv and StepKeepsTreeSound. -/
theorem test_witness_Steps :
    (∃ s t : State, step s = .next t ∧ s.run = .idle) ∧ (∃ (s t : State) (w : Word), step s = .next t ∧ s.run = .busy w) :=
  ⟨⟨State.reset, _, rfl, rfl⟩, ⟨{ State.reset with run := .busy 0x00000100#32 }, _, 0x00000100#32, rfl, rfl⟩⟩

/-- For HostCannotChangeAPendingCommand: a refused register write while CHKCFG is pending. -/
theorem test_witness_HostCannotChangeAPendingCommand : ∃ (s t u : State) (w : Word) (i : Instr) (e : HostEvent)
    (es : List HostEvent), s.run = .busy w ∧ s.host = e :: es ∧ ¬ Resets e ∧
    exec i { s with draws := (hostTurn s).draws } = .next t ∧ exec i (hostTurn s) = .next u :=
  ⟨{ full with run := .busy 1, host := [.write 0x00020#19 4 5], delay := 1 }, _, _, 1, .chkcfg, _, [], rfl, rfl,
    by unfold Resets; decide, exec_eq _ _, exec_eq _ _⟩

theorem test_witness_PendingCommandsComplete : ∃ (s : State) (w : Word), s.run = .busy w ∧ s.host ≠ [] ∧ ∀ e ∈ s.host, ¬ Resets e :=
  ⟨{ full with run := .busy 1, host := [.waitIdle, .waitIdle], delay := 1 }, 1, rfl, by simp, by
    intro e he
    simp only [List.mem_cons, List.not_mem_nil, or_false, or_self] at he
    subst he
    exact id⟩

/-- For StatusBitsAreSticky: every bit set, a write of STATUS that clears none. -/
theorem test_witness_StatusBitsAreSticky : ∃ (s t : State), step s = .next t ∧
    (∀ e es, s.host = e :: es → ¬ Resets e) ∧
    (∀ n < 32, ∀ w es, s.host = .write 0x00010#19 4 w :: es → w.getLsbD n = false) ∧
    s.regs.status.done = true ∧ s.regs.status.err = true ∧ s.regs.status.satFwd = true ∧ s.regs.status.satInv = true ∧
    s.regs.status.busErr = true ∧ s.regs.status.cmdRejected = true := by
  refine ⟨{ State.reset with
    regs := { Regs.reset with status := { Status.reset with done := true, err := true, satFwd := true, satInv := true, busErr := true, cmdRejected := true } }
    host := [.write 0x00010#19 4 0] }, _, rfl, ?_, ?_, rfl, rfl, rfl, rfl, rfl, rfl⟩
  · intro e es h
    injection h with h _
    subst h
    unfold Resets
    decide
  · intro n _ w es h
    injection h with h _
    injection h with _ _ h
    subst h
    simp

theorem test_witness_OnlyHbuildSetsTreeValid : ∃ (s t : State), step s = .next t ∧ s.regs.status.treeValid = false ∧
    t.regs.status.treeValid = true :=
  ⟨{ full with run := .busy 0x00000021#32, regs.status := Status.reset },
    after .hbuild { full with run := .busy 0x00000021#32, regs.status := Status.reset },
    (exec_after .hbuild { full with run := .busy 0x00000021#32, regs.status := Status.reset } :), rfl, by decide +kernel⟩

/-- For StepKeepsInv and StepKeepsTreeSound: the reset state. -/
theorem test_witness_StepKeepsInv : Machine.Inv State.reset ∧ TreeSound State.reset :=
  ⟨⟨List.Pairwise.nil, fun c h => (nomatch h), by decide, fun _ => ⟨rfl, rfl⟩, by decide, by decide, by decide, by decide⟩,
    fun h => (nomatch h)⟩

end Sys2Proof.Tests
end

section
/-! SUPPORT. Proofs of the statements of 10_state.md: TREE_VALID stays truthful and only HBUILD sets it (R37), the notices
of STATUS are sticky (R32 to R36), each output register belongs to its commands (R43 to R45), and the register page reads
and writes by access type (R23 to R30). -/

namespace Sys2Proof.Machine

/-! ### TREE_VALID across a step -/

/-- TREE_VALID is 0 afterwards, or it is as it was and so is everything its meaning rests on. -/
def TreeKept (s t : State) : Prop :=
  t.regs.status.treeValid = false ∨ (KeepsTree s t ∧ t.regs.status.treeValid = s.regs.status.treeValid)

theorem TreeKept.of_eq {s t : State} (hr : t.regs = s.regs) (hm : t.mem = s.mem) : TreeKept s t :=
  .inr ⟨by constructor <;> simp [hr, hm], by rw [hr]⟩

theorem TreeKept.sound {s t : State} : TreeKept s t → KeepsSound s t
  | .inl h => sound_of_invalid h
  | .inr ⟨h, hv⟩ => h.sound fun ht => hv ▸ ht

theorem TreeKept.valid_before {s t : State} (h : TreeKept s t) (ht : t.regs.status.treeValid = true) :
    s.regs.status.treeValid = true := by
  rcases h with h | ⟨-, h⟩
  · rw [h] at ht; cases ht
  · rw [← h, ht]

theorem OnlyFlags.treeKept {s t : State} (h : OnlyFlags s t) : TreeKept s t :=
  .inr ⟨⟨fun _ _ => by rw [h.mem], by rw [h.regs], by rw [h.regs], by rw [h.regs]⟩, by rw [h.regs]⟩

/-- A register write clears TREE_VALID (NDIST) or changes nothing its meaning rests on. -/
theorem rwWrite_treeKept (w : Word) (s : State) (r : RegName) : TreeKept s { s with regs := rwWrite w s.regs r } := by
  cases r with
  | ndist => exact .inl rfl
  | _ => exact .inr ⟨⟨fun _ _ => rfl, rfl, rfl, rfl⟩, rfl⟩

/-- A host write to FTAB clears TREE_VALID; the other writable windows are not the coder's. -/
theorem windowWrite_treeKept {a : Nat} {b : Buffer} (w : Word) (s : State) (h₁ : bufBase b ≤ a) (h₂ : a < bufLimit b)
    (h4 : a % 4 = 0) (hw : bufHostWritable b = true) :
    TreeKept s { s with
      mem := storeWords s.mem a [w]
      regs := if b = .ftab then clearTreeValid s.regs else s.regs } := by
  by_cases hb : b = .ftab
  · subst hb; exact .inl rfl
  · have hc : b ≠ .ctab ∧ b ≠ .tree := by constructor <;> rintro rfl <;> cases hw
    have hmem := (storeWords_memFrame (m := s.mem) w h₁ h₂ h4).coder
      (by simpa using ⟨Ne.symm hb, hc.1.symm, hc.2.symm⟩)
    rw [if_neg hb]
    exact .inr ⟨⟨hmem, rfl, rfl, rfl⟩, rfl⟩

theorem hostEvent_treeKept (e : HostEvent) (s : State) : TreeKept s (hostEvent e s) := by
  by_cases hr : Resets e
  · obtain ⟨-, hregs, -⟩ := hostEvent_resets (s := s) hr
    exact .inl (by rw [hregs]; rfl)
  cases hrun : s.run with
  | busy w => exact (hostEvent_busy hrun hr).treeKept
  | idle =>
    rcases hostEvent_idle hrun hr with ⟨w, -, he⟩ | ⟨a, w, b, -, h₁, h₂, h4, hw, he⟩ | ⟨a, w, r, -, -, -, he⟩ | hf
    · rw [he]; exact .of_eq rfl rfl
    · rw [he]; exact windowWrite_treeKept w s h₁ h₂ h4 hw
    · rw [he]; exact rwWrite_treeKept w s r
    · exact hf.treeKept

theorem hostTurn_treeKept (s : State) : TreeKept s (hostTurn s) := by
  rcases hostTurn_cases s with ⟨-, ht⟩ | ⟨e, es, -, ht⟩ <;> rw [ht]
  · exact .of_eq rfl rfl
  · rcases hostEvent_treeKept e { s with host := es, delay := s.delay - 1 } with h | ⟨h, hv⟩
    · exact .inl h
    · exact .inr ⟨⟨h.mem, h.ndist, h.root, h.maxlen⟩, hv⟩

theorem complete_treeKept (op : Byte) (r : Result) : TreeKept r.state (complete op r) := by
  cases r with
  | ok s => exact .inr ⟨⟨fun _ _ => rfl, rfl, rfl, rfl⟩, rfl⟩
  | raised s e => exact .inr ⟨⟨fun _ _ => rfl, rfl, rfl, rfl⟩, rfl⟩

theorem completeIllegal_treeKept (w : Word) (s : State) : TreeKept s (completeIllegal w s) :=
  .inr ⟨⟨fun _ _ => rfl, rfl, rfl, rfl⟩, rfl⟩

/-- Settles O58: a command's work keeps TREE_VALID truthful (`runCommand_sound`), and its completion, an illegal word and a
host access each clear TREE_VALID or change nothing it speaks of. -/
theorem stepKeepsTreeSound : Obligations.StepKeepsTreeSound := by
  intro s t hs hstep
  rcases step_cases hstep with ⟨w, -, -, hx⟩ | ⟨rfl, -⟩
  · rcases execute_cases hx with ⟨i, -, rfl⟩ | ⟨e, -, rfl⟩
    · exact (complete_treeKept _ _).sound (runCommand_sound i s hs)
    · exact (completeIllegal_treeKept w s).sound hs
  · exact (hostTurn_treeKept s).sound hs

/-! ### Only HBUILD and ENCODE set TREE_VALID -/

theorem eq_opcode_of_decodeOpcode {b : Byte} {i : Instr} (h : decodeOpcode b = some i) : b = opcode i := by
  unfold decodeOpcode at h
  split at h <;> cases h <;> exact BitVec.eq_of_toNat_eq ‹_›

theorem mbzField_append_opcField (w : Word) : (mbzField w ++ opcField w : BitVec 32) = w :=
  (BitVec.extractLsb'_append_extractLsb'_eq_extractLsb' rfl).trans BitVec.extractLsb'_eq_self

/-- A word that decodes to a command is that command's word (30_encoding.md R103, R105). -/
theorem eq_encode_of_decode {w : Word} {i : Instr} (h : decode w = .command i) : w = encode i := by
  have hsplit := mbzField_append_opcField w
  unfold decode at h
  split at h
  next hz =>
    split at h
    next hj =>
      cases h
      rw [hz, eq_opcode_of_decodeOpcode hj] at hsplit
      exact hsplit.symm
    next => cases h
  next => cases h

/-- Settles O56: a host access, a completion and an illegal word set no TREE_VALID, and of the commands' works only those
that contain HBUILD do (`runCommand_marks`). -/
theorem onlyHbuildSetsTreeValid : Obligations.OnlyHbuildSetsTreeValid := by
  intro s t hstep h0 h1
  have never : ¬ TreeKept s t := fun h => by rw [h.valid_before h1] at h0; cases h0
  rcases step_cases hstep with ⟨w, hrun, -, hx⟩ | ⟨rfl, -⟩
  · rcases execute_cases hx with ⟨i, hd, rfl⟩ | ⟨e, -, rfl⟩
    · rw [hrun, eq_encode_of_decode hd]
      rcases (runCommand_marks i s).treeValid ((complete_treeKept _ _).valid_before h1) with hb | hb
      · cases i with
        | hbuild => exact .inl rfl
        | encode => exact .inr rfl
        | _ => cases hb
      · rw [hb] at h0; cases h0
    · exact absurd (completeIllegal_treeKept w s) never
  · exact absurd (hostTurn_treeKept s) never

/-! ### The notices of STATUS -/

/-- The W1C bits of STATUS that are 1 stay 1 (10_state.md R32 to R36). -/
structure KeepsNotices (s t : State) : Prop where
  done : s.regs.status.done = true → t.regs.status.done = true
  err : s.regs.status.err = true → t.regs.status.err = true
  satFwd : s.regs.status.satFwd = true → t.regs.status.satFwd = true
  satInv : s.regs.status.satInv = true → t.regs.status.satInv = true
  busErr : s.regs.status.busErr = true → t.regs.status.busErr = true
  cmdRejected : s.regs.status.cmdRejected = true → t.regs.status.cmdRejected = true

theorem KeepsNotices.trans {s t u : State} (h : KeepsNotices s t) (g : KeepsNotices t u) : KeepsNotices s u where
  done := g.done ∘ h.done
  err := g.err ∘ h.err
  satFwd := g.satFwd ∘ h.satFwd
  satInv := g.satInv ∘ h.satInv
  busErr := g.busErr ∘ h.busErr
  cmdRejected := g.cmdRejected ∘ h.cmdRejected

theorem runCommand_keepsNotices (i : Instr) (s : State) : KeepsNotices s (runCommand i s).state where
  done := (runCommand_keeps i s).done.trans
  err := (runCommand_keeps i s).err.trans
  satFwd := (runCommand_marks i s).satFwd
  satInv := (runCommand_marks i s).satInv
  busErr := (runCommand_keeps i s).busErr.trans
  cmdRejected := (runCommand_keeps i s).cmdRejected.trans

theorem completeError_keepsNotices (op : Byte) (e : CmdError) (s : State) : KeepsNotices s (completeError op e s) :=
  ⟨fun _ => rfl, fun _ => rfl, id, id, id, id⟩

theorem complete_keepsNotices (op : Byte) (r : Result) : KeepsNotices r.state (complete op r) := by
  cases r with
  | ok s => exact ⟨fun _ => rfl, id, id, id, id, id⟩
  | raised s e => exact completeError_keepsNotices op e s

/-- The ENGINE clears no notice, whatever the word. -/
theorem execute_keepsNotices {w : Word} {s t : State} (h : execute w s = .next t) : KeepsNotices s t := by
  rcases execute_cases h with ⟨i, -, rfl⟩ | ⟨e, -, rfl⟩
  · exact (runCommand_keepsNotices i s).trans (complete_keepsNotices _ _)
  · exact completeError_keepsNotices _ _ s

/-- Settles O55: the ENGINE clears no notice, and a host access that is no reset clears only what a STATUS write names. -/
theorem statusBitsAreSticky : Obligations.StatusBitsAreSticky := by
  intro s t hstep hn n hw
  rcases step_cases hstep with ⟨w, -, -, hx⟩ | ⟨rfl, -⟩
  · have h := execute_keepsNotices hx
    exact ⟨fun _ => h.done, fun _ => h.err, fun _ => h.satFwd, fun _ => h.satInv, fun _ => h.busErr, fun _ => h.cmdRejected⟩
  · rcases hostTurn_cases s with ⟨-, ht⟩ | ⟨e, es, hh, ht⟩ <;> rw [ht]
    · exact ⟨fun _ => id, fun _ => id, fun _ => id, fun _ => id, fun _ => id, fun _ => id⟩
    · exact hostEvent_sticky (s := { s with host := es, delay := s.delay - 1 }) (hn e es hh) n fun w he => hw w es (he ▸ hh)

/-! ### The outputs of the commands -/

/-- A primitive runs as a command of its own or as a step of ENCODE or DECODE. -/
theorem mem_primitives {i j : Instr} (h : j ∈ primitives i) :
    i = j ∨ (i = .encode ∧ j ∈ encodeSteps) ∨ (i = .decode ∧ j ∈ decodeSteps) := by
  cases i with
  | encode => exact .inr (.inl ⟨rfl, List.mem_cons_of_mem _ h⟩)
  | decode => exact .inr (.inr ⟨rfl, h⟩)
  | _ => exact .inl (List.mem_singleton.mp h).symm

/-- A command that is neither the primitive `j` nor `m`, ENCODE or DECODE, to which `j` belongs does not run `j`. -/
theorem not_mem_primitives {i j m : Instr} (h : i ∉ [j, m])
    (hm : (m = .encode ∧ j ∉ decodeSteps) ∨ (m = .decode ∧ j ∉ encodeSteps)) : j ∉ primitives i := by
  obtain ⟨hj, him⟩ : i ≠ j ∧ i ≠ m := by simpa using h
  intro hmem
  rcases mem_primitives hmem with hi | ⟨rfl, he⟩ | ⟨rfl, hd⟩
  · exact hj hi
  · exact hm.elim (fun hf => him hf.1.symm) fun hr => hr.2 he
  · exact hm.elim (fun hf => hf.2 hd) fun hr => him hr.1.symm

theorem complete_keepsOutputs (op : Byte) (r : Result) : KeepsOutputs [] r.state (complete op r) := by
  cases r <;> constructor <;> simp

theorem exec_keepsOutputs {i : Instr} {s t : State} (h : exec i s = .next t) : KeepsOutputs (primitives i) s t := by
  rw [exec_eq] at h
  injection h with h
  subst h
  have hk := (runCommand_keepsOutputs i s).trans (complete_keepsOutputs (opcode i) _)
  rwa [List.append_nil] at hk

/-- Settles O8: a command keeps the outputs of every primitive it does not run (`runCommand_keepsOutputs`). -/
theorem outputsBelongToTheirCommands : Obligations.OutputsBelongToTheirCommands := by
  intro i s t h
  have hk := exec_keepsOutputs h
  refine ⟨fun hi => hk.nblk (not_mem_primitives hi (by decide)),
    fun hi => hk.nsym (not_mem_primitives hi (by decide)),
    fun hi => hk.ndist (not_mem_primitives hi (by decide)),
    fun hi => hk.nbits (not_mem_primitives hi (by decide)),
    fun hi => hk.ndsym (not_mem_primitives hi (by decide)),
    fun hi => hk.nrblk (not_mem_primitives hi (by decide)), fun hi => ?_, fun hi => ?_, fun hi => ?_, fun hi => ?_⟩
  · have hs : Instr.scale ∉ primitives i := not_mem_primitives hi (by decide)
    exact ⟨hk.satcntFwd hs, hk.satFwd hs⟩
  · have hs : Instr.unscale ∉ primitives i := not_mem_primitives hi (by decide)
    exact ⟨hk.satcntInv hs, hk.satInv hs⟩
  · have hs : Instr.hbuild ∉ primitives i := not_mem_primitives hi (by decide)
    exact ⟨hk.root hs, hk.maxlen hs⟩
  · obtain ⟨hc, hb, he⟩ : i ≠ .hcount ∧ i ≠ .hbuild ∧ i ≠ .encode := by simpa using hi
    exact hk.treeValid (not_mem_primitives (m := .encode) (by simp [hc, he]) (by decide))
      (not_mem_primitives (m := .encode) (by simp [hb, he]) (by decide))

/-! ### Reading the register page -/

theorem ctrlWord_eq (b : Bool) : ctrlWord b = if b then 0x00000002 else 0x00000000 := by cases b <;> decide

/-- The access types share no offset. -/
theorem accessAt_unique {a : Nat} {x y : Access} (hx : accessAt a x) (hy : accessAt a y) : x = y := by
  by_contra hne
  cases x <;> cases y <;> simp only [accessAt, not_true_eq_false] at hx hy hne <;> omega

/-- An offset of an access type has a register of that type. -/
theorem locate_of_accessAt {a : BusAddr} {x : Access} (h4 : WordAddr a) (h : accessAt a.toNat x) :
    ∃ r, locate a.toNat = .reg r ∧ regOffset r = a.toNat ∧ regAccess r = x := by
  have hp : a.toNat < 0x1000 := by cases x <;> simp only [accessAt] at h <;> omega
  rcases locate_page hp h4 with ⟨r, hl, hr, ha⟩ | ⟨-, hres⟩
  · exact ⟨r, hl, hr, accessAt_unique ha h⟩
  · cases x <;> simp only [accessAt] at h <;> omega

theorem locate_of_reserved {a : BusAddr} (h4 : WordAddr a) (h : ReservedOffset a) : locate a.toNat = .reserved := by
  unfold ReservedOffset at h
  rcases locate_page (by omega) h4 with ⟨r, -, -, ha⟩ | ⟨hl, -⟩
  · cases hac : regAccess r <;> rw [hac] at ha <;> simp only [accessAt] at ha <;> omega
  · exact hl

/-- A reserved offset reads 0 (10_state.md R23). -/
theorem busRead_of_reserved {a : BusAddr} (h4 : WordAddr a) (h : ReservedOffset a) (s : State) :
    busRead a 4 s = { s with replies := 0 :: s.replies } := by
  rw [busRead_of_accepted h4, locate_of_reserved h4 h]
  rfl

/-- Settles O60: a read at a register's offset returns the register (`busRead_of_reg`). -/
theorem registersReadTheirValues : Obligations.RegistersReadTheirValues := by
  intro s
  refine ⟨busRead_of_reg .id rfl s, busRead_of_reg .caps rfl s, ?_, busRead_of_reg .cmd rfl s, busRead_of_reg .errinfo rfl s,
    busRead_of_reg .blockK rfl s, busRead_of_reg .res rfl s, busRead_of_reg .minv rfl s, busRead_of_reg .maxv rfl s,
    busRead_of_reg .nsamp rfl s, busRead_of_reg .nblk rfl s, busRead_of_reg .nsym rfl s, busRead_of_reg .ndist rfl s,
    busRead_of_reg .nbits rfl s, busRead_of_reg .ndsym rfl s, busRead_of_reg .nrblk rfl s, busRead_of_reg .satcntFwd rfl s,
    busRead_of_reg .satcntInv rfl s, busRead_of_reg .root rfl s, busRead_of_reg .maxlen rfl s,
    fun a i hi => busRead_of_reg (.qv i) hi.symm s, fun a h4 hr => busRead_of_reserved h4 hr s⟩
  rw [busRead_of_reg .ctrl rfl s, regRead, ctrlWord_eq]

theorem statusWord_getLsbD (st : Status) (busy : Bool) :
    (statusWord st busy).getLsbD 0 = busy ∧ (statusWord st busy).getLsbD 1 = st.done ∧
    (statusWord st busy).getLsbD 2 = st.err ∧ (statusWord st busy).getLsbD 3 = st.satFwd ∧
    (statusWord st busy).getLsbD 4 = st.satInv ∧ (statusWord st busy).getLsbD 5 = st.busErr ∧
    (statusWord st busy).getLsbD 6 = st.cmdRejected ∧ (statusWord st busy).getLsbD 7 = st.treeValid := by
  simp only [statusWord, BitVec.getLsbD_append]
  simp

theorem statusWord_bytes (st : Status) (busy : Bool) :
    (statusWord st busy).extractLsb' 8 8 = st.errCode ∧ (statusWord st busy).extractLsb' 16 8 = st.lastOp ∧
    (statusWord st busy).extractLsb' 24 8 = st.errOp := by
  refine ⟨?_, ?_, ?_⟩ <;> refine BitVec.eq_of_getLsbD_eq fun k hk => ?_ <;>
    simp only [statusWord, BitVec.getLsbD_extractLsb', BitVec.getLsbD_append]
  · simp [hk]
  · simp [hk]
  · simp [hk, show ¬ 16 + k < 8 by omega, show ¬ 16 + k - 8 < 8 by omega, show 16 + k - 8 - 8 = k by omega]

/-- Settles O46: the word read is `statusWord`, whose fields stand where R30 puts them. -/
theorem statusReadsItsFields : Obligations.StatusReadsItsFields := by
  intro s
  obtain ⟨hbusy, hbits⟩ := statusWord_getLsbD s.regs.status s.run.isBusy
  obtain ⟨h1, h2, h3, h4, h5, h6, h7⟩ := hbits
  exact ⟨_, busRead_status s, by rw [hbusy]; exact isBusy_iff s.run, h1, h2, h3, h4, h5, h6, h7, statusWord_bytes _ _⟩

/-! ### Writing the register page -/

theorem qv_set_get (v : Vector Word Config.kmax) (i j : Fin Config.kmax) (w : Word) :
    (v.set i w).get j = if i = j then w else v.get j := by
  simp [Vector.get_eq_getElem, Vector.getElem_set, Fin.ext_iff]

/-- An RW register reads back what was written. -/
theorem regRead_rwWrite_same {r : RegName} (h : regAccess r = .rw) (w : Word) (s : State) :
    regRead { s with regs := rwWrite w s.regs r } r = w := by
  cases r with
  | qv i => simp [regRead, rwWrite, qv_set_get]
  | blockK | res | minv | maxv | nsamp | nblk | nsym | ndist | nbits | ndsym | nrblk => rfl
  | _ => cases h

/-- A write of an RW register changes what no other register reads, but for TREE_VALID in STATUS. -/
theorem regRead_rwWrite_of_ne {r q : RegName} (h : q ≠ r) (hs : q ≠ .status) (w : Word) (s : State) :
    regRead { s with regs := rwWrite w s.regs r } q = regRead s q := by
  cases r with
  | qv i =>
    cases q with
    | qv j =>
      have hij : i ≠ j := fun e => h (by rw [e])
      simp [regRead, rwWrite, qv_set_get, hij]
    | _ => rfl
  | _ => cases q <;> simp_all [regRead, rwWrite, clearTreeValid]

theorem rwWrite_status (w : Word) (r : Regs) (q : RegName) :
    (rwWrite w r q).status = if q = .ndist then { r.status with treeValid := false } else r.status := by
  cases q <;> rfl

/-- A write at an RW offset while IDLE writes its register. -/
theorem busWrite_of_rwOffset {a : BusAddr} {s : State} (h4 : WordAddr a) (hi : s.run = .idle) (h : RwOffset a) (w : Word) :
    ∃ r, regOffset r = a.toNat ∧ regAccess r = .rw ∧ busWrite a 4 w s = { s with regs := rwWrite w s.regs r } := by
  obtain ⟨r, hl, hr, hac⟩ := locate_of_accessAt (x := .rw) h4 h
  exact ⟨r, hr, hac, by simp [busWrite_of_accepted h4, hl, writeReg, hac, hi]⟩

/-- A write of a RO register does nothing (10_state.md R24). -/
theorem busWrite_of_roOffset {a : BusAddr} (h4 : WordAddr a) (h : RoOffset a) (w : Word) (s : State) :
    busWrite a 4 w s = s := by
  obtain ⟨r, hl, -, hac⟩ := locate_of_accessAt (x := .ro) h4 h
  simp [busWrite_of_accepted h4, hl, writeReg, hac]

/-- A write of a reserved offset does nothing (10_state.md R24). -/
theorem busWrite_of_reserved {a : BusAddr} (h4 : WordAddr a) (h : ReservedOffset a) (w : Word) (s : State) :
    busWrite a 4 w s = s := by
  rw [busWrite_of_accepted h4, locate_of_reserved h4 h]

/-- What a write changes in no register changes in no reply from the page. -/
theorem busRead_replies_congr {a : BusAddr} {s t : State} (h4 : WordAddr a) (hp : InPage a) (hr : t.replies = s.replies)
    (hq : ∀ q, regOffset q = a.toNat → regRead t q = regRead s q) : (busRead a 4 t).replies = (busRead a 4 s).replies := by
  rw [busRead_of_accepted h4, busRead_of_accepted h4]
  rcases locate_page hp h4 with ⟨q, hl, ho, -⟩ | ⟨hl, -⟩ <;> rw [hl]
  · simp [hr, hq q ho]
  · simp [hr]

/-- Settles O45: a write at an RW offset is `rwWrite` of one register, which reads back and leaves the other offsets alone;
the other access types write nothing, IRQ_EN or the W1C bits. -/
theorem registerWritesByAccessType : Obligations.RegisterWritesByAccessType := by
  intro s a w h4
  refine ⟨fun hi hrw => ?_, fun h => h.elim (busWrite_of_roOffset h4 · w s) (busWrite_of_reserved h4 · w s), fun hw => ?_,
    busWrite_status w s⟩
  · obtain ⟨r, hr, hac, he⟩ := busWrite_of_rwOffset h4 hi hrw w
    rw [he]
    refine ⟨?_, fun b hb4 hbp hba hbs => ?_, rfl, ?_⟩
    · rw [busRead_of_reg r hr, regRead_rwWrite_same hac]
    · refine busRead_replies_congr hb4 hbp rfl fun q hq => regRead_rwWrite_of_ne ?_ ?_ w s
      · rintro rfl
        exact hba (BitVec.eq_of_toNat_eq (hq.symm.trans hr))
      · rintro rfl
        exact hbs (BitVec.eq_of_toNat_eq hq.symm)
    · have hnd : r = .ndist ↔ a = 0x00034#19 := by
        constructor
        · rintro rfl
          exact BitVec.eq_of_toNat_eq hr.symm
        · rintro rfl
          exact regOffset_injective hr
      simp only [rwWrite_status, hnd]
  · rw [busWrite_ctrl, writeCtrl, hw]
    rfl

end Sys2Proof.Machine
end

section
/-! SUPPORT. Proofs of the statements of 20_memory.md: every step keeps `Inv` (R75), the refused accesses (R72), host reads
(R78), the buffer windows (R73 to R75) and the order of events (R81). -/

namespace Sys2Proof.Machine

/-! ### The machine invariant -/

/-- The register fields `Inv` speaks of: ERRCODE, ERROP, ERRINFO, the saturation counts, ROOT and MAXLEN. -/
def invFields (r : Regs) : Byte × Byte × Word × Word × Word × Word × Word :=
  (r.status.errCode, r.status.errOp, r.errInfo, r.satcntFwd, r.satcntInv, r.root, r.maxlen)

/-- ERRCODE is one of R300, and OK comes with ERROP 0 and ERRINFO 0 (10_state.md R38, R39). -/
structure ErrorRecord (r : Regs) : Prop where
  errCode : r.status.errCode.toNat ≤ 0x0E
  okClean : r.status.errCode = 0x00 → r.status.errOp = 0x00 ∧ r.errInfo = 0

theorem Inv.errorRecord {s : State} (h : Inv s) : ErrorRecord s.regs := ⟨h.errCode, h.okClean⟩

theorem Inv.bounded {s : State} (h : Inv s) : Bounded s.regs := ⟨h.satFwd, h.satInv, h.root, h.maxlen⟩

/-- A change of memory inside the windows keeps the invariant when the registers meet it. -/
theorem Inv.of_memFrame {bs : List Buffer} {s t : State} (h : Inv s) (hm : MemFrame bs s.mem t.mem)
    (he : ErrorRecord t.regs) (hb : Bounded t.regs) : Inv t where
  canonical := hm.wf h.canonical
  inWindows := hm.inWindows h.canonical h.inWindows
  errCode := he.errCode
  okClean := he.okClean
  satFwd := hb.satFwd
  satInv := hb.satInv
  root := hb.root
  maxlen := hb.maxlen

/-- A change of memory inside the windows, and of no register field the invariant speaks of, keeps it. -/
theorem Inv.of_sameFields {bs : List Buffer} {s t : State} (h : Inv s) (hm : MemFrame bs s.mem t.mem)
    (hf : invFields t.regs = invFields s.regs) : Inv t := by
  simp only [invFields, Prod.mk.injEq] at hf
  obtain ⟨hcode, hop, hinfo, hfwd, hinv, hroot, hmax⟩ := hf
  refine h.of_memFrame hm ⟨?_, ?_⟩ ⟨?_, ?_, ?_, ?_⟩
  · rw [hcode]; exact h.errCode
  · rw [hcode, hop, hinfo]; exact h.okClean
  · rw [hfwd]; exact h.satFwd
  · rw [hinv]; exact h.satInv
  · rw [hroot]; exact h.root
  · rw [hmax]; exact h.maxlen

theorem Inv.of_eq {s t : State} (h : Inv s) (hm : t.mem = s.mem) (hf : invFields t.regs = invFields s.regs) : Inv t :=
  h.of_sameFields (bs := []) (by rw [hm]; exact .refl _ _) hf

theorem Inv.of_onlyFlags {s t : State} (h : Inv s) (hf : OnlyFlags s t) : Inv t :=
  h.of_eq hf.mem (by rw [hf.regs]; rfl)

theorem invFields_rwWrite (w : Word) (r : Regs) (q : RegName) : invFields (rwWrite w r q) = invFields r := by
  cases q <;> rfl

/-- The registers at reset meet the invariant. -/
theorem errorRecord_reset : ErrorRecord Regs.reset := ⟨by decide, fun _ => ⟨rfl, rfl⟩⟩

theorem bounded_reset : Bounded Regs.reset := ⟨by decide, by decide, by decide, by decide⟩

/-- A soft or hard reset empties memory or changes it inside the windows. -/
theorem Inv.of_resets {e : HostEvent} {s : State} (h : Inv s) (hr : Resets e) : Inv (hostEvent e s) := by
  obtain ⟨-, hregs, hmem⟩ := hostEvent_resets (s := s) hr
  have he : ErrorRecord (hostEvent e s).regs := by rw [hregs]; exact errorRecord_reset
  have hb : Bounded (hostEvent e s).regs := by rw [hregs]; exact bounded_reset
  rcases hmem with ⟨-, hm⟩ | hm
  · exact ⟨by rw [hm]; exact wf_nil, by simp [hm], he.errCode, he.okClean, hb.satFwd, hb.satInv, hb.root, hb.maxlen⟩
  · exact h.of_memFrame (by rw [hm]; exact softReset_memFrame s) he hb

theorem hostEvent_keepsInv (e : HostEvent) {s : State} (h : Inv s) : Inv (hostEvent e s) := by
  by_cases hr : Resets e
  · exact h.of_resets hr
  cases hrun : s.run with
  | busy w => exact h.of_onlyFlags (hostEvent_busy hrun hr)
  | idle =>
    rcases hostEvent_idle hrun hr with ⟨w, -, he⟩ | ⟨a, w, b, -, h₁, h₂, h4, -, he⟩ | ⟨a, w, r, -, -, -, he⟩ | hf
    · rw [he]; exact h.of_eq rfl rfl
    · rw [he]; exact h.of_sameFields (storeWords_memFrame w h₁ h₂ h4) (by split <;> rfl)
    · rw [he]; exact h.of_eq rfl (invFields_rwWrite w s.regs r)
    · exact h.of_onlyFlags hf

theorem hostTurn_keepsInv {s : State} (h : Inv s) : Inv (hostTurn s) := by
  rcases hostTurn_cases s with ⟨-, ht⟩ | ⟨e, es, -, ht⟩ <;> rw [ht]
  · exact h
  · have hq : Inv { s with host := es, delay := s.delay - 1 } := h.of_eq rfl rfl
    exact (hostEvent_keepsInv e hq).of_eq rfl rfl

/-- Every error code is one of 1 to 0x0E (60_exceptions.md R300). -/
theorem errNumber_range (c : ErrCode) : (errNumber c).toNat ≤ 0x0E ∧ errNumber c ≠ 0x00 := by cases c <;> decide

/-- A completion records OK cleanly, or an error of R300 (40_command_model.md R123). -/
theorem complete_errorRecord (op : Byte) (r : Result) : ErrorRecord (complete op r).regs := by
  cases r with
  | ok s => exact ⟨Nat.zero_le _, fun _ => ⟨rfl, rfl⟩⟩
  | raised s e => exact ⟨(errNumber_range e.code).1, fun h => absurd h (errNumber_range e.code).2⟩

theorem complete_memFrame (op : Byte) (r : Result) : MemFrame [] r.state.mem (complete op r).mem := by
  cases r <;> exact .refl _ _

theorem complete_bounded {op : Byte} {r : Result} (h : Bounded r.state.regs) : Bounded (complete op r).regs := by
  cases r <;> exact ⟨h.satFwd, h.satInv, h.root, h.maxlen⟩

theorem execute_keepsInv {w : Word} {s t : State} (h : Inv s) (hx : execute w s = .next t) : Inv t := by
  rcases execute_cases hx with ⟨i, -, rfl⟩ | ⟨e, -, rfl⟩
  · have hm := (runCommand_memFrame i s).trans ((complete_memFrame (opcode i) (runCommand i s)).mono (by simp))
    exact h.of_memFrame hm (complete_errorRecord _ _) (complete_bounded (runCommand_bounds i s h.bounded))
  · exact h.of_memFrame (.refl [] _) (complete_errorRecord _ (.raised s _)) (complete_bounded (r := .raised s _) h.bounded)

/-- Settles O57: the ENGINE's work stays inside its windows and bounds and its completion records OK cleanly or a code of
R300; a host access resets, stores in a window, or touches no field the invariant speaks of. -/
theorem stepKeepsInv : Obligations.StepKeepsInv := by
  intro s t hs hstep
  rcases step_cases hstep with ⟨w, -, -, hx⟩ | ⟨rfl, -⟩
  · exact execute_keepsInv hs hx
  · exact hostTurn_keepsInv hs

/-! ### Refused accesses -/

theorem setBusErr_eq_withBusErr (s : State) : setBusErr s = withBusErr s := rfl

theorem refusedRead_eq (s : State) : refusedRead s = { withBusErr s with replies := 0 :: s.replies } := rfl

theorem isBusy_of_run {s : State} (h : IsBusy s) : s.run.isBusy = true := (isBusy_iff s.run).mpr h

theorem busRead_of_unmapped {a : BusAddr} (h4 : WordAddr a) (h : Unmapped a) (s : State) :
    busRead a 4 s = refusedRead s := by
  rw [busRead_of_accepted h4, locate_unmapped h]

theorem busWrite_of_unmapped {a : BusAddr} (h4 : WordAddr a) (h : Unmapped a) (w : Word) (s : State) :
    busWrite a 4 w s = setBusErr s := by
  rw [busWrite_of_accepted h4, locate_unmapped h]

theorem busRead_of_window {a : BusAddr} {b : Buffer} (h4 : WordAddr a) (h₁ : bufBase b ≤ a.toNat) (h₂ : a.toNat < bufLimit b)
    (s : State) : busRead a 4 s = if s.run.isBusy then refusedRead s else reply (readWord s.mem s.draws a.toNat) s := by
  rw [busRead_of_accepted h4, locate_window h₁ h₂]

theorem busWrite_of_window {a : BusAddr} {b : Buffer} (h4 : WordAddr a) (h₁ : bufBase b ≤ a.toNat) (h₂ : a.toNat < bufLimit b)
    (w : Word) (s : State) : busWrite a 4 w s = writeWindow b a.toNat w s := by
  rw [busWrite_of_accepted h4, locate_window h₁ h₂]

/-- A window is closed to the host while BUSY (20_memory.md R72). -/
theorem busRead_buffers_busy {a : BusAddr} {s : State} (h4 : WordAddr a) (hb : IsBusy s) (h : InBuffers a) :
    busRead a 4 s = refusedRead s := by
  obtain ⟨b, h₁, h₂⟩ := window_of_address h.1 h.2
  rw [busRead_of_window h4 h₁ h₂, if_pos (isBusy_of_run hb)]

theorem busWrite_buffers_busy {a : BusAddr} {s : State} (h4 : WordAddr a) (hb : IsBusy s) (h : InBuffers a) (w : Word) :
    busWrite a 4 w s = setBusErr s := by
  obtain ⟨b, h₁, h₂⟩ := window_of_address h.1 h.2
  simp [busWrite_of_window h4 h₁ h₂, writeWindow, isBusy_of_run hb]

/-- CTAB, TREE and OUT take no host write (10_state.md R40). -/
theorem busWrite_of_readOnly {a : BusAddr} (h4 : WordAddr a) (h : InReadOnly a) (w : Word) (s : State) :
    busWrite a 4 w s = setBusErr s := by
  have hr : 0x10000 ≤ a.toNat ∧ a.toNat < 0x68000 := by unfold InReadOnly at h; omega
  obtain ⟨b, h₁, h₂⟩ := window_of_address hr.1 hr.2
  simp [busWrite_of_window h4 h₁ h₂, writeWindow, (window_writable h₁ h₂).mpr h]

/-- The RW registers take no host write while BUSY (70_reset_and_hazards.md R352). -/
theorem busWrite_rwOffset_busy {a : BusAddr} {s : State} (h4 : WordAddr a) (hb : IsBusy s) (h : RwOffset a) (w : Word) :
    busWrite a 4 w s = setBusErr s := by
  obtain ⟨r, hl, -, hac⟩ := locate_of_accessAt (x := .rw) h4 h
  simp [busWrite_of_accepted h4, hl, writeReg, hac, isBusy_of_run hb]

/-- Settles O43: an access of a wrong width or alignment is refused before the address counts; of the rest, each place
refuses by its own rule. -/
theorem refusedAccessesOnlySetBuserr : Obligations.RefusedAccessesOnlySetBuserr := by
  intro s a width w
  refine ⟨fun h => ?_, fun h => ?_, fun h4 h => ?_, fun h4 h => busRead_of_reserved h4 h s⟩
  · rw [← refusedRead_eq]
    by_cases hw : width ≠ 4 ∨ ¬ WordAddr a
    · exact busRead_of_refused hw s
    · push Not at hw
      obtain ⟨rfl, h4⟩ := hw
      rcases h with h | h | h | ⟨hb, h⟩
      · exact absurd rfl h
      · exact absurd h4 h
      · exact busRead_of_unmapped h4 h s
      · exact busRead_buffers_busy h4 hb h
  · rw [← setBusErr_eq_withBusErr]
    by_cases hw : width ≠ 4 ∨ ¬ WordAddr a
    · exact busWrite_of_refused hw w s
    · push Not at hw
      obtain ⟨rfl, h4⟩ := hw
      rcases h with h | h | h | h | ⟨hb, h | h⟩
      · exact absurd rfl h
      · exact absurd h4 h
      · exact busWrite_of_unmapped h4 h w s
      · exact busWrite_of_readOnly h4 h w s
      · exact busWrite_buffers_busy h4 hb h w
      · exact busWrite_rwOffset_busy h4 hb h w
  · exact h.elim (busWrite_of_roOffset h4 · w s) (busWrite_of_reserved h4 · w s)

/-! ### Host reads -/

/-- A host read is answered with some word, or refused. -/
theorem busRead_answered_or_refused (a : BusAddr) (width : Nat) (s : State) :
    (∃ v, busRead a width s = reply v s) ∨ busRead a width s = refusedRead s := by
  by_cases hw : width ≠ 4 ∨ ¬ a.toNat % 4 = 0
  · exact .inr (busRead_of_refused hw s)
  · push Not at hw
    obtain ⟨rfl, h4⟩ := hw
    rcases busRead_cases h4 s with ⟨r, -, -, he⟩ | ⟨-, he⟩ | ⟨b, -, -, he⟩ | ⟨-, he⟩
    · exact .inl ⟨_, he⟩
    · exact .inl ⟨_, he⟩
    · cases hb : s.run.isBusy with
      | true => exact .inr (by rw [he, hb, if_pos rfl])
      | false => exact .inl ⟨_, by rw [he, hb, if_neg Bool.false_ne_true]⟩
    · exact .inr he

/-- Settles O44: a read is a `reply`, or a `refusedRead`. -/
theorem hostReadsHaveNoSideEffect : Obligations.HostReadsHaveNoSideEffect := by
  intro s a width
  rcases busRead_answered_or_refused a width s with ⟨v, h⟩ | h
  · exact ⟨v, .inl h⟩
  · exact ⟨0, .inr ⟨rfl, h⟩⟩

/-! ### Buffer words -/

theorem inWindows_singleton {b : Buffer} {a : Nat} : InWindows [b] a ↔ bufBase b ≤ a ∧ a ≤ bufLimit b - 1 := by
  have hpos : 0 < bufLimit b := by cases b <;> decide
  simp only [InWindows, List.mem_singleton, exists_eq_left]
  omega

/-- The ENGINE reads a Y element whose two words memory holds. -/
theorem bufDWord_of_holds {s : State} {i : Nat} {w : DWord} (hi : i < bufElements .y)
    (hlo : Holds s.mem .y i 0 (w.extractLsb' 0 32)) (hhi : Holds s.mem .y i 1 (w.extractLsb' 32 32)) :
    bufDWord s .y i = w := by
  rw [bufDWord, bufWord_of_holds hlo hi, bufWord_of_holds hhi hi, dword_append]

/-- While IDLE a writable window stores the word, and a write of FTAB clears TREE_VALID (10_state.md R37). -/
theorem busWrite_buffers_idle {a : BusAddr} {s : State} (h4 : WordAddr a) (hi : s.run = .idle) (hb : InBuffers a)
    (hr : ¬ InReadOnly a) (w : Word) :
    busWrite a 4 w s = { s with
      mem := storeWords s.mem a.toNat [w]
      regs := if 0x20000 ≤ a.toNat ∧ a.toNat < 0x28000 then clearTreeValid s.regs else s.regs } := by
  obtain ⟨b, h₁, h₂⟩ := window_of_address hb.1 hb.2
  have hw : bufHostWritable b = true := by
    rw [← Bool.not_eq_false, window_writable h₁ h₂]
    exact hr
  simp [busWrite_of_window h4 h₁ h₂, writeWindow, hw, hi, window_ftab h₁ h₂]

theorem busRead_buffers_idle {a : BusAddr} {s : State} (h4 : WordAddr a) (hi : s.run = .idle) (hb : InBuffers a) :
    busRead a 4 s = reply (readWord s.mem s.draws a.toNat) s := by
  obtain ⟨b, h₁, h₂⟩ := window_of_address hb.1 hb.2
  simp [busRead_of_window h4 h₁ h₂, hi]

/-- One word stored is held, and no other byte changes. -/
theorem storeWords_singleton_holds (m : Memory) (a : Nat) (w : Word) : HoldsAt (storeWords m a [w]) a w :=
  holdsAt_storeWords (ws := [w]) (i := 0) rfl

theorem storeWords_singleton_sameOutside (m : Memory) (a : Nat) (w : Word) :
    SameOutside a (a + 4) m (storeWords m a [w]) := fun k hk =>
  byteAt_storeWords_of_outside (by simp only [List.length_singleton]; omega)

/-- Settles O47: the geometry is arithmetic; a held word is what is read; a write while IDLE is one `storeWords`. -/
theorem bufferWordsReadBack : Obligations.BufferWordsReadBack := by
  refine ⟨fun i f => ?_, fun b => ?_, fun a => ?_, fun s b i f w hi h => bufWord_of_holds h hi,
    fun s i w hi => bufDWord_of_holds hi, fun s a w hi h4 hb => ⟨fun hr => ?_, fun hh => ?_⟩⟩
  · simp only [bufAddr, bufBase, bufElemWords]
    omega
  · cases b <;> rfl
  · simp only [inWindows_singleton]
    exact ⟨.rfl, .rfl, .rfl, .rfl, .rfl, .rfl, .rfl, .rfl, .rfl, .rfl, .rfl, .rfl⟩
  · rw [busWrite_buffers_idle h4 hi hb hr]
    exact ⟨storeWords_singleton_holds _ _ _, storeWords_singleton_sameOutside _ _ _, rfl⟩
  · rw [busRead_buffers_idle h4 hi hb, readWord_of_holdsAt hh]
    rfl

/-! ### The order of events -/

/-- It is HOST's turn while IDLE, and while BUSY when an access still falls before the execution step. -/
theorem step_eq_hostTurn {s : State} (h : s.run = .idle ∨ (s.delay ≠ 0 ∧ s.host ≠ [])) : step s = .next (hostTurn s) := by
  cases hr : s.run with
  | idle => simp [step, hr]
  | busy w =>
    obtain ⟨hd, hh⟩ := h.resolve_left (by simp [hr])
    simp [step, engineTurn, hr, hd, hh]

/-- Settles O2: such a step is `hostTurn`, which takes the oldest access. -/
theorem stepTakesTheNextHostAccess : Obligations.StepTakesTheNextHostAccess := by
  intro s h
  rw [step_eq_hostTurn h]
  exact ⟨fun hn => by simp [hostTurn, hn], fun e es he => by simp [hostTurn, he]⟩

end Sys2Proof.Machine
end

section
/-! SUPPORT. Proofs of the statements of 30_encoding.md: decoding and encoding agree (R100, R103, R105), an illegal word
completes with ILLEGAL_CMD (R104), and what no command writes (R102). -/

namespace Sys2Proof.Machine

/-! ### Decoding and encoding -/

@[simp] theorem mbzField_encode (i : Instr) : mbzField (encode i) = 0 := by cases i <;> decide

@[simp] theorem opcField_encode (i : Instr) : opcField (encode i) = opcode i := by cases i <;> decide

@[simp] theorem decodeOpcode_opcode (i : Instr) : decodeOpcode (opcode i) = some i := by cases i <;> rfl

theorem opcode_mem_assignedOpcodes (i : Instr) : opcode i ∈ assignedOpcodes := by cases i <;> decide

@[simp] theorem decode_encode (i : Instr) : decode (encode i) = .command i := by
  rw [decode, if_pos (mbzField_encode i), opcField_encode, decodeOpcode_opcode]

/-- Settles O4: a decoded word is put together again from its two fields (`eq_encode_of_decode`), and an encoding has the
fields the decoder looks for (`decode_encode`). -/
theorem decodeInvertsEncode : Obligations.DecodeInvertsEncode := by
  intro w i
  refine ⟨eq_encode_of_decode, ?_⟩
  rintro rfl
  exact decode_encode i

/-- Settles O3: the fifteen words are the encodings of the fifteen commands. -/
theorem specWordsDecode : Obligations.SpecWordsDecode :=
  ⟨decode_encode .nop, decode_encode .chkcfg, decode_encode .segment, decode_encode .scale, decode_encode .fdct,
    decode_encode .quant, decode_encode .hcount, decode_encode .hbuild, decode_encode .henc, decode_encode .hdec,
    decode_encode .dequant, decode_encode .idct, decode_encode .unscale, decode_encode .encode, decode_encode .decode⟩

/-! ### Illegal words -/

/-- A word with MBZ not zero or OPC not assigned is the encoding of no command (30_encoding.md R104). -/
theorem decode_illegal {w : Word} (h : mbzField w ≠ 0 ∨ opcField w ∉ assignedOpcodes) : ∃ e, decode w = .illegal e := by
  cases hd : decode w with
  | illegal e => exact ⟨e, rfl⟩
  | command i =>
    rw [eq_encode_of_decode hd, mbzField_encode, opcField_encode] at h
    exact (h.elim (· rfl) (· (opcode_mem_assignedOpcodes i))).elim

theorem execute_of_illegal {w : Word} {e : DecodeError} (h : decode w = .illegal e) (s : State) :
    execute w s = .next (completeIllegal w s) := by
  rw [execute, h]

/-- It is the ENGINE's turn in BUSY(w) when no host access falls first (40_command_model.md R122). -/
theorem step_eq_execute {s : State} {w : Word} (hr : s.run = .busy w) (h : s.delay = 0 ∨ s.host = []) :
    step s = execute w s := by
  have ht : engineTurn s = true := by simpa [engineTurn, hr, RunState.isBusy] using h
  simp [step, hr, ht]

theorem busWrite_cmd_run_of_idle {s : State} (h : s.run = .idle) (w : Word) :
    (busWrite 0x0000C#19 4 w s).run = .busy w := by
  rw [busWrite_cmd, writeCmd, h]

/-- Settles O5: CMD takes any word while IDLE, and an illegal one is executed as `completeIllegal`, which writes the
completion fields alone. -/
theorem illegalWordsComplete : Obligations.IllegalWordsComplete := by
  intro w hw
  refine ⟨fun s hi => busWrite_cmd_run_of_idle hi w, fun s hr ht => ⟨completeIllegal w s, ?_, ?_, rfl, rfl⟩⟩
  · obtain ⟨e, he⟩ := decode_illegal hw
    rw [step_eq_execute hr ht, execute_of_illegal he]
  · exact ⟨rfl, rfl, rfl, rfl⟩

/-! ### What no command writes -/

theorem eq_complete_of_exec {i : Instr} {s t : State} (h : exec i s = .next t) :
    t = complete (opcode i) (runCommand i s) := by
  rw [exec_eq] at h
  injection h with h
  exact h.symm

/-- Settles O7: no command's work touches the configuration (`runCommand_keeps`), and a completion writes ERRINFO and the
completion fields of STATUS only. -/
theorem commandsKeepConfiguration : Obligations.CommandsKeepConfiguration := by
  intro i s t h
  obtain rfl := eq_complete_of_exec h
  have hk := runCommand_keeps i s
  cases hr : runCommand i s <;> rw [hr] at hk <;>
    exact ⟨hk.irqEn, hk.blockK, hk.res, hk.minv, hk.maxv, hk.nsamp, hk.qv, hk.busErr, hk.cmdRejected⟩

/-- The buffers the model's commands write are those of R102. -/
theorem writtenBuffers_eq_outputs (i : Instr) : writtenBuffers i = outputs i := by cases i <;> rfl

theorem exec_memFrame {i : Instr} {s t : State} (h : exec i s = .next t) : MemFrame (outputs i) s.mem t.mem := by
  obtain rfl := eq_complete_of_exec h
  rw [← writtenBuffers_eq_outputs]
  exact (runCommand_memFrame i s).trans ((complete_memFrame _ _).mono (by simp))

/-- Settles O9: a command's work stays inside its windows (`runCommand_memFrame`), and its completion writes no memory. -/
theorem commandsKeepOtherMemory : Obligations.CommandsKeepOtherMemory := by
  intro i s t h
  exact (exec_memFrame h).frame

end Sys2Proof.Machine
end

section
/-! SUPPORT. Proofs of the statements of 40_command_model.md: issue and execution of a command (R120 to R122), completion
(R123), the pre-checks (R124 to R126, R130), the data errors (R131), and NOP and CHKCFG (R134, R135). -/

namespace Sys2Proof.Machine

/-! ### Issue and execution -/

/-- Settles O1: the step is execute(w), which is the decoded command. -/
theorem stepRunsTheDecodedCommand : Obligations.StepRunsTheDecodedCommand := by
  intro s w i hr hd h
  rw [step_eq_execute hr h, execute, hd]

theorem writeCmd_of_idle {s : State} (h : s.run = .idle) (w : Word) :
    writeCmd w s = { s with run := .busy w, delay := Config.freeDelay s.draws } := by
  simp only [writeCmd, h]

theorem writeCmd_of_busy {s : State} (h : IsBusy s) (w : Word) : writeCmd w s = setCmdRejected s := by
  obtain ⟨v, hv⟩ := h
  simp only [writeCmd, hv]

/-- Settles O42: a CMD write is `writeCmd`, by the run state. -/
theorem cmdWriteIssuesOrIsRejected : Obligations.CmdWriteIssuesOrIsRejected := by
  intro s w
  rw [busWrite_cmd]
  exact ⟨fun hi => ⟨_, writeCmd_of_idle hi w⟩, fun hb => writeCmd_of_busy hb w⟩

/-- execute(w) leaves the ENGINE IDLE, whatever the word. -/
theorem execute_run {w : Word} {s t : State} (h : execute w s = .next t) : t.run = .idle := by
  rcases execute_cases h with ⟨i, -, rfl⟩ | ⟨e, -, rfl⟩ <;> simp

/-- A host event leaves the ENGINE in its run state, resets it, or issues a command while IDLE (R121). -/
theorem hostEvent_run (e : HostEvent) (s : State) :
    (hostEvent e s).run = s.run ∨ (Resets e ∧ (hostEvent e s).run = .idle) ∨
      (s.run = .idle ∧ ∃ w, e = .write 0x0000C#19 4 w ∧ (hostEvent e s).run = .busy w) := by
  by_cases hr : Resets e
  · exact .inr (.inl ⟨hr, (hostEvent_resets hr).1⟩)
  cases hrun : s.run with
  | busy w => exact .inl ((hostEvent_busy hrun hr).run.trans hrun)
  | idle =>
    rcases hostEvent_idle hrun hr with ⟨w, rfl, he⟩ | ⟨a, w, b, -, -, -, -, -, he⟩ | ⟨a, w, r, -, -, -, he⟩ | hf
    · exact .inr (.inr ⟨rfl, w, rfl, by rw [he]⟩)
    · exact .inl (by rw [he, hrun])
    · exact .inl (by rw [he, hrun])
    · exact .inl (hf.run.trans hrun)

/-- Settles O52: the ENGINE's own step ends IDLE (`execute_run`), and HOST's turn moves the run state only as
`hostEvent_run` says. -/
theorem runStateTransitions : Obligations.RunStateTransitions := by
  intro s t hstep
  rcases step_cases hstep with ⟨w, hrun, -, hx⟩ | ⟨rfl, -⟩
  · have ht := execute_run hx
    refine ⟨fun _ => .inl ht, fun v hv => .inr ⟨ht, .inl ?_⟩⟩
    obtain rfl : w = v := RunState.busy.inj (hrun.symm.trans hv)
    exact hx
  · rcases hostTurn_cases s with ⟨-, ht⟩ | ⟨e, es, hh, ht⟩ <;> rw [ht]
    · exact ⟨.inl, fun _ => .inl⟩
    · rcases hostEvent_run e { s with host := es, delay := s.delay - 1 } with he | ⟨hr, he⟩ | ⟨hi, w, rfl, he⟩
      · exact ⟨fun hi => .inl (he.trans hi), fun _ hb => .inl (he.trans hb)⟩
      · exact ⟨fun _ => .inl he, fun _ _ => .inr ⟨he, .inr ⟨e, es, hh, hr⟩⟩⟩
      · refine ⟨fun _ => .inr ⟨w, es, hh, he⟩, fun v hv => ?_⟩
        cases hi.symm.trans hv

/-! ### A pending command and the host -/

/-- A register page with the bits the host may set or clear, IRQ_EN and the W1C bits of STATUS, taken from another. -/
def withHostBits (r q : Regs) : Regs :=
  { r with
    irqEn := q.irqEn
    status := { r.status with
      done := q.status.done
      err := q.status.err
      satFwd := q.status.satFwd
      satInv := q.status.satInv
      busErr := q.status.busErr
      cmdRejected := q.status.cmdRejected } }

/-- States that differ in flags only are alike to a command's work. -/
theorem OnlyFlags.like {s t : State} (h : OnlyFlags s t) : Like s t where
  eq := by
    have hregs : t.regs = (dress t s).regs :=
      h.regs.trans (congrArg (fun r => (dress { t with regs := r } s).regs) h.regs.symm)
    calc t = { t with mem := s.mem, draws := s.draws, regs := (dress t s).regs } := by rw [← hregs, ← h.mem, ← h.draws]
      _ = dress t s := rfl

/-- Two outcomes the host's bits alone tell apart. -/
structure SameOutcome (t u : State) : Prop where
  run : u.run = t.run
  mem : u.mem = t.mem
  draws : u.draws = t.draws
  regs : withHostBits u.regs t.regs = t.regs

/-- Like states complete alike, but for the host's bits. -/
theorem complete_sameOutcome (op : Byte) {s t : State} {r r' : Result} (h : LikeR s t r r') :
    SameOutcome (complete op r) (complete op r') := by
  cases r with
  | ok u =>
    cases r' with
    | ok v =>
      have hv := h.1.eq
      rw [hv]
      exact ⟨rfl, rfl, rfl, rfl⟩
    | raised v e' => exact h.elim
  | raised u e =>
    cases r' with
    | ok v => exact h.elim
    | raised v e' =>
      obtain ⟨hl, -, rfl⟩ := h
      have hv := hl.eq
      rw [hv]
      exact ⟨rfl, rfl, rfl, rfl⟩

/-- HOST's turn while BUSY, without a reset, changes only flags and draws once. -/
theorem hostTurn_busy_onlyFlags {s : State} {w : Word} {e : HostEvent} {es : List HostEvent} (hr : s.run = .busy w)
    (hh : s.host = e :: es) (hn : ¬ Resets e) :
    OnlyFlags { s with draws := (hostTurn s).draws, delay := (hostTurn s).delay } (hostTurn s) := by
  have h := hostEvent_busy (s := { s with host := es, delay := s.delay - 1 }) hr hn
  rw [show hostTurn s = nextDraw (hostEvent e { s with host := es, delay := s.delay - 1 }) by rw [hostTurn, hh]]
  exact ⟨h.run, h.mem, rfl, rfl, h.regs⟩

/-- Settles O53: HOST's turn leaves a state that a command's work cannot tell from the one before (`OnlyFlags.like`), so the
command does the same in both (`runCommand_like`). -/
theorem hostCannotChangeAPendingCommand : Obligations.HostCannotChangeAPendingCommand := by
  intro s t u w i e es hr hh hn ht hu
  obtain rfl := eq_complete_of_exec ht
  obtain rfl := eq_complete_of_exec hu
  have hf := hostTurn_busy_onlyFlags hr hh hn
  have hl : Like { s with draws := (hostTurn s).draws } (hostTurn s) := ⟨hf.like.eq⟩
  obtain ⟨hrun, hmem, hdraws, hregs⟩ := complete_sameOutcome (opcode i) (runCommand_like i hl)
  exact ⟨hf.run.trans hr, hrun, hmem, hdraws, hregs⟩

/-! ### Completion -/

theorem errNumber_pos (c : ErrCode) : 0x01 ≤ (errNumber c).toNat := by cases c <;> decide

/-- Settles O6: a command's work is done, and completes OK, or raises an error with a code of R300 and the opcode of a
command (`runCommand_marks`). -/
theorem everyCommandCompletes : Obligations.EveryCommandCompletes := by
  intro i s
  have hk := runCommand_keeps i s
  have hm := runCommand_marks i s
  cases hr : runCommand i s with
  | ok u =>
    rw [hr] at hk
    exact ⟨_, exec_of_ok hr, completeOk_ended _ hk, rfl, rfl, .inl ⟨rfl, rfl, rfl, hk.err⟩⟩
  | raised u e =>
    rw [hr] at hk
    exact ⟨_, exec_of_raised hr, completeError_ended _ _ hk, rfl, rfl,
      .inr ⟨errNumber_pos e.code, (errNumber_range e.code).1, rfl, hm.op u e hr⟩⟩

/-! ### When each pre-check fails -/

theorem ckK_fails {s : State} : runCheck s .ckK = some (.cfgK, 0) ↔
    ¬ (1 ≤ sval32 s.regs.blockK ∧ sval32 s.regs.blockK ≤ 16) := by
  simp only [runCheck, Config.kmax]
  split <;> simp <;> omega

theorem ckR_fails {s : State} : runCheck s .ckR = some (.cfgR, 0) ↔
    ¬ (1 ≤ sval32 s.regs.res ∧ sval32 s.regs.res ≤ 16) := by
  simp only [runCheck, Config.rmax]
  split <;> simp <;> omega

theorem ckRange_fails {s : State} : runCheck s .ckRange = some (.cfgRange, 0) ↔
    sval32 s.regs.minv ≥ sval32 s.regs.maxv := by simp [runCheck]

theorem ckNsym_fails {s : State} : runCheck s .ckNsym = some (.capacity, 0) ↔ 4096 < uval32 s.regs.nsym := by
  simp [runCheck]

theorem ckTree_fails {s : State} : runCheck s .ckTree = some (.notree, 0) ↔ s.regs.status.treeValid = false := by
  simp [runCheck]

theorem ckNbits_fails {s : State} : runCheck s .ckNbits = some (.capacity, 0) ↔ 131072 < uval32 s.regs.nbits := by
  simp [runCheck]

theorem ckNblk_fails {s : State} : runCheck s .ckNblk = some (.capacity, 0) ↔
    4096 < uval32 s.regs.nblk * blockSize s := by simp [runCheck]

theorem ckNrblk_fails {s : State} : runCheck s .ckNrblk = some (.capacity, 0) ↔
    4096 < uval32 s.regs.nrblk * blockSize s := by simp [runCheck]

theorem ckNsymNz_empty {s : State} : runCheck s .ckNsymNz = some (.cfgEmpty, 0) ↔ uval32 s.regs.nsym = 0 := by
  simp only [runCheck]
  split
  · simp [*]
  · split <;> simp [*]

theorem ckNsymNz_capacity {s : State} : runCheck s .ckNsymNz = some (.capacity, 0) ↔ 4096 < uval32 s.regs.nsym := by
  simp only [runCheck, Config.nmax]
  split
  · simp [*]
  · simp

theorem ckNdist_empty {s : State} : runCheck s .ckNdist = some (.heapUnderflow, 0) ↔ uval32 s.regs.ndist = 0 := by
  simp only [runCheck]
  split
  · simp [*]
  · split <;> simp [*]

theorem ckNdist_capacity {s : State} : runCheck s .ckNdist = some (.capacity, 0) ↔ 4096 < uval32 s.regs.ndist := by
  simp only [runCheck, Config.nmax]
  split
  · simp [*]
  · simp

theorem ckNdsym_capacity {s : State} : runCheck s .ckNdsym = some (.capacity, 0) ↔ 4096 < uval32 s.regs.ndsym := by
  simp only [runCheck, Config.nmax]
  split
  · simp [*]
  · split <;> simp [*]

theorem ckNdsym_shape {s : State} : runCheck s .ckNdsym = some (.shape, 0) ↔
    uval32 s.regs.ndsym ≤ 4096 ∧ uval32 s.regs.ndsym % blockSize s ≠ 0 := by
  simp only [runCheck, Config.nmax]
  split
  · simp; omega
  · simp; omega

theorem ckNsamp_empty {s : State} : runCheck s .ckNsamp = some (.cfgEmpty, 0) ↔ uval32 s.regs.nsamp = 0 := by
  simp only [runCheck]
  split
  · simp [*]
  · split <;> simp [*]

theorem ckNsamp_capacity {s : State} : runCheck s .ckNsamp = some (.capacity, 0) ↔
    uval32 s.regs.nsamp ≠ 0 ∧ (4096 < uval32 s.regs.nsamp ∨
      4096 < ceilDiv (uval32 s.regs.nsamp) (blockSize s) * blockSize s) := by
  simp only [runCheck, Config.nmax]
  split
  · simp [*]
  · simp [*]; omega

/-- ceil(n/k)·k is the least multiple of k that is at least n. -/
theorem ceilDiv_mul_least {n k b : Nat} (hk : 0 < k) (h : n ≤ b * k) : ceilDiv n k * k ≤ b * k := by
  have hlt := ceilDiv_mul_lt (n := n) hk
  have hle : ceilDiv n k < b + 1 := Nat.lt_of_mul_lt_mul_right (a := k) (by rw [Nat.add_mul]; omega)
  exact Nat.mul_le_mul_right k (by omega)

/-- The padded length passes a bound exactly when every multiple of k that is at least n does. -/
theorem lt_ceilDiv_mul_iff {n k m : Nat} (hk : 0 < k) : m < ceilDiv n k * k ↔ ∀ b, n ≤ b * k → m < b * k :=
  ⟨fun h _ hb => h.trans_le (ceilDiv_mul_least hk hb), fun h => h _ (le_ceilDiv_mul hk)⟩

/-- Settles O11: one lemma per check and code; with a legal K, CK_NSAMP's bound is on the least number of blocks. -/
theorem checkTable : Obligations.CheckTable := by
  refine ⟨⟨rfl, rfl, rfl, rfl, rfl, rfl, rfl, rfl, rfl, rfl, rfl, rfl, rfl, rfl⟩, fun s => ⟨ckK_fails, ckR_fails,
    ckRange_fails, ckNsymNz_empty, ckNsymNz_capacity, ckNsym_fails, ckTree_fails, ckNdist_empty, ckNdist_capacity,
    ckNbits_fails, ckNsamp_empty, fun K hK => ?_⟩⟩
  rw [ckNsamp_capacity, ckNblk_fails, ckNdsym_shape, ckNrblk_fails, hK.blockSize, lt_ceilDiv_mul_iff hK.pos]
  exact ⟨.rfl, .rfl, ckNdsym_capacity, .rfl, .rfl⟩

/-- Settles O12: CK_QV's search and CK_FTAB's scan stop at the least bad index (`ckQv_fails`, `firstBadEntry_eq_some`). -/
theorem checksNameTheLeastBadIndex : Obligations.ChecksNameTheLeastBadIndex := by
  intro s
  refine ⟨fun K hK => ⟨(legalSteps_iff hK).mp, fun _ hi hb hl => ckQv_fails hK hi hb hl⟩, fun h => ?_, fun i hb hl => ?_⟩
  · rw [ckFtab_passes]
    exact firstBadEntry_eq_none.mpr h
  · rw [runCheck, firstBadEntry_eq_some hb hl]
    rfl

/-- Settles O10: the lists of `preChecks`. -/
theorem preChecksInOrder : Obligations.PreChecksInOrder :=
  ⟨rfl, rfl, rfl, rfl, rfl, rfl, rfl, rfl, rfl, rfl, rfl, rfl, rfl, rfl, rfl⟩

/-! ### The first pre-check that fails -/

/-- The checks before it pass, so the failing check's error is the command's. -/
theorem firstFailure_append_cons {s : State} {before after : List Check} {c : Check} {p : ErrCode × Word}
    (hb : ∀ d ∈ before, runCheck s d = none) (hc : runCheck s c = some p) :
    firstFailure s (before ++ c :: after) = some p := by
  induction before with
  | nil => simp [firstFailure, hc]
  | cons d ds ih =>
    obtain ⟨hd, hds⟩ := List.forall_mem_cons.mp hb
    simp [firstFailure, hd, ih hds]

/-- A failed pre-check, also a leading one of ENCODE or DECODE, ends the work with nothing but the draw counter changed
(R130); in ENCODE the opcode recorded is CHKCFG's (46_pipeline.md R262). -/
theorem runCommand_of_fails {i : Instr} {s : State} {code : ErrCode} {info : Word}
    (h : firstFailure s (preChecks i) = some (code, info)) :
    runCommand i s =
      .raised (nextDraw s) { code := code, info := info, op := if i = .encode then 0x01 else opcode i } := by
  cases i with
  | encode =>
    have hc : runChkcfg s = .raised (nextDraw s) { code := code, info := info, op := opcode .chkcfg } :=
      runPrimitive_of_fails (i := .chkcfg) h
    simp only [runCommand, runEncode, hc, andThen_raised]
    rfl
  | decode => simp only [runCommand, runDecode, runPrimitive_of_fails h, andThen_raised]; rfl
  | _ => exact runPrimitive_of_fails h

/-- Settles O13: the first failing check is the command's error (`runCommand_of_fails`), and the completion writes the
completion fields alone. -/
theorem preCheckErrorsChangeNothingElse : Obligations.PreCheckErrorsChangeNothingElse := by
  intro i s before after c code info hp hb hc
  have hf : firstFailure s (preChecks i) = some (code, info) := by rw [hp]; exact firstFailure_append_cons hb hc
  exact ⟨_, exec_of_raised (runCommand_of_fails hf), ⟨rfl, rfl, rfl, rfl⟩, rfl, rfl⟩

/-! ### The data errors -/

/-- The data errors of each primitive command (R131). -/
def dataErrors : Instr → List ErrCode
  | .fdct | .dequant => [.overflow]
  | .hbuild => [.capacity]
  | .henc => [.nosym]
  | .hdec => [.capacity, .desync]
  | _ => []

/-- What a data error leaves of the registers before the completion: HBUILD clears TREE_VALID (R131). -/
def dataErrorRegs (i : Instr) (r : Regs) : Regs := if i = .hbuild then clearTreeValid r else r

/-- A work that is done, or raises a data error of its command. -/
def DoneOrDataError (i : Instr) (s : State) (r : Result) : Prop :=
  (∃ u, r = .ok u) ∨
    ∃ code ∈ dataErrors i, ∃ info, r = dataError i code info { s with regs := dataErrorRegs i s.regs }

theorem fdctWork_doneOrDataError (s : State) : DoneOrDataError .fdct s (fdctWork s) := by
  unfold fdctWork
  split
  next k _ => exact .inr ⟨.overflow, by simp [dataErrors], k, rfl⟩
  next => exact .inl ⟨_, rfl⟩

theorem dequantWork_doneOrDataError (s : State) : DoneOrDataError .dequant s (dequantWork s) := by
  unfold dequantWork
  split
  next k _ => exact .inr ⟨.overflow, by simp [dataErrors], k, rfl⟩
  next => exact .inl ⟨_, rfl⟩

theorem hbuildWork_doneOrDataError (s : State) : DoneOrDataError .hbuild s (hbuildWork s) := by
  unfold hbuildWork
  split
  next k _ => exact .inr ⟨.capacity, by simp [dataErrors], k, rfl⟩
  next => exact .inl ⟨_, rfl⟩

theorem hencWork_doneOrDataError (s : State) : DoneOrDataError .henc s (hencWork s) := by
  unfold hencWork
  split
  next j _ => exact .inr ⟨.nosym, by simp [dataErrors], j, rfl⟩
  next => exact .inl ⟨_, rfl⟩

theorem hdecWork_doneOrDataError (s : State) : DoneOrDataError .hdec s (hdecWork s) := by
  unfold hdecWork
  split
  next code info h =>
    have hc : code ∈ dataErrors .hdec := by
      rcases hdecWalk_failed s _ _ _ _ _ h with rfl | rfl <;> simp [dataErrors]
    exact .inr ⟨code, hc, info, rfl⟩
  next => exact .inl ⟨_, rfl⟩

/-- Past their pre-checks the five commands of R131 are done, or raise one of their data errors. -/
theorem runCommand_doneOrDataError {i : Instr} {s : State} (hi : i ∈ [Instr.fdct, .dequant, .hbuild, .henc, .hdec])
    (hp : firstFailure s (preChecks i) = none) : DoneOrDataError i s (runCommand i s) := by
  simp only [List.mem_cons, List.not_mem_nil, or_false] at hi
  rcases hi with rfl | rfl | rfl | rfl | rfl <;> rw [runCommand]
  · rw [runFdct, runPrimitive_of_passes hp]; exact fdctWork_doneOrDataError s
  · rw [runDequant, runPrimitive_of_passes hp]; exact dequantWork_doneOrDataError s
  · rw [runHbuild, runPrimitive_of_passes hp]; exact hbuildWork_doneOrDataError s
  · rw [runHenc, runPrimitive_of_passes hp]; exact hencWork_doneOrDataError s
  · rw [runHdec, runPrimitive_of_passes hp]; exact hdecWork_doneOrDataError s

/-- A command that does not pad empties its outputs (R133). -/
theorem emptied_unspecDests {i : Instr} (hi : padsInput i = false) (s : State) :
    Emptied (outputs i) s.mem (unspecDests i s) := by
  have ho : destBuffers i = outputs i := by rw [← writtenBuffers_eq_outputs, writtenBuffers, hi]; rfl
  rw [unspecDests, hi, ho]
  exact emptied_unspecBufs _ _

/-- The numbers R131 gives the data errors of each command. -/
theorem errNumber_of_dataErrors {i : Instr} {code : ErrCode} (h : code ∈ dataErrors i) :
    (i ∈ [Instr.fdct, .dequant] → errNumber code = 0x09) ∧ (i = .hbuild → errNumber code = 0x07) ∧
    (i = .henc → errNumber code = 0x0C) ∧ (i = .hdec → errNumber code = 0x07 ∨ errNumber code = 0x0D) := by
  cases i <;> simp only [dataErrors, List.mem_cons, List.not_mem_nil, or_false] at h
  case hdec => rcases h with rfl | rfl <;> decide
  all_goals subst h; decide

/-- Settles O14: the work raised a data error of its command (`runCommand_doneOrDataError`), which empties its outputs. -/
theorem dataErrorsEmptyTheDestinations : Obligations.DataErrorsEmptyTheDestinations := by
  intro i s t hi hp hx hc
  obtain ⟨u, e, hr, rfl⟩ := exec_error_inv hx hc
  rcases runCommand_doneOrDataError hi (firstFailure_eq_none.mpr hp) with ⟨v, hok⟩ | ⟨code, hcode, info, he⟩
  · rw [hr] at hok; cases hok
  · rw [hr] at he
    cases he
    simp only [List.mem_cons, List.not_mem_nil, or_false] at hi
    have hpad : padsInput i = false := by rcases hi with rfl | rfl | rfl | rfl | rfl <;> rfl
    obtain ⟨hover, hcap, hnosym, hdec⟩ := errNumber_of_dataErrors hcode
    exact ⟨hover, hcap, hnosym, hdec, emptied_unspecDests hpad { s with regs := dataErrorRegs i s.regs }, rfl⟩

/-! ### NOP and CHKCFG -/

/-- Settles O15: NOP has no pre-check and no work. -/
theorem nopOnlyCompletes : Obligations.NopOnlyCompletes := by
  intro s
  have hr : runCommand .nop s = .ok (nextDraw s) := runPrimitive_of_passes (i := .nop) (work := done) rfl
  exact ⟨_, exec_of_ok hr, ⟨rfl, rfl, rfl, rfl⟩, rfl, rfl⟩

/-- The register page CHKCFG leaves, by the outcome of its checks (R135). -/
def chkcfgRegs (r : Regs) : Option (ErrCode × Word) → Regs
  | none => okRegs 0x01 r
  | some (code, info) => errRegs 0x01 (errNumber code) 0x01 info r

theorem exec_chkcfg (s : State) : ∃ t, exec .chkcfg s = .next t ∧ Ended s t ∧ t.mem = s.mem ∧
    t.regs = chkcfgRegs s.regs (firstFailure s (preChecks .chkcfg)) := by
  rcases runPrimitive_cases .chkcfg done s with ⟨code, info, hf, hr⟩ | ⟨hf, hr⟩ <;> rw [hf]
  · exact ⟨_, exec_of_raised hr, ⟨rfl, rfl, rfl, rfl⟩, rfl, rfl⟩
  · exact ⟨_, exec_of_ok hr, ⟨rfl, rfl, rfl, rfl⟩, rfl, rfl⟩

/-- Settles O16: CHKCFG reports the first failure of its five checks, each of which fails or passes as R124 says. -/
theorem chkcfgValidates : Obligations.ChkcfgValidates := by
  intro s
  obtain ⟨t, hx, hend, hmem, hregs⟩ := exec_chkcfg s
  refine ⟨t, hx, hend, hmem, ?_⟩
  rw [hregs]
  refine ⟨fun hK => ?_, fun K hK => ⟨fun hR => ?_, fun R hR => ⟨fun hv => ?_, fun hv => ⟨fun i hi hb hl => ?_,
    fun hs => ⟨fun h0 => ?_, fun h0 hB => ?_, fun B hB => ?_⟩⟩⟩⟩⟩
  · have hf : runCheck s .ckK = some (.cfgK, 0) := ckK_fails.mpr (by rwa [← ckK_passes, ← exists_legalBlock])
    simp only [preChecks, firstFailure, hf]
    rfl
  · have hf : runCheck s .ckR = some (.cfgR, 0) := ckR_fails.mpr (by rwa [← ckR_passes, ← exists_legalRes])
    simp only [preChecks, firstFailure, hK.ckK, hf]
    rfl
  · have hf : runCheck s .ckRange = some (.cfgRange, 0) := ckRange_fails.mpr (not_lt.mp hv)
    simp only [preChecks, firstFailure, hK.ckK, hR.ckR, hf]
    rfl
  · simp only [preChecks, firstFailure, hK.ckK, hR.ckR, hv.ckRange, ckQv_fails hK hi hb hl]
    rfl
  · simp only [preChecks, firstFailure, hK.ckK, hR.ckR, hv.ckRange, (legalSteps_iff hK).mp hs, ckNsamp_empty.mpr h0]
    rfl
  · have hf : runCheck s .ckNsamp = some (.capacity, 0) := by
      have hn : ¬ runCheck s .ckNsamp = none := by rwa [← exists_legalSamples hK, not_exists]
      rw [ckNsamp_passes] at hn
      exact ckNsamp_capacity.mpr ⟨h0, by omega⟩
    simp only [preChecks, firstFailure, hK.ckK, hR.ckR, hv.ckRange, (legalSteps_iff hK).mp hs, hf]
    rfl
  · simp only [preChecks, firstFailure, hK.ckK, hR.ckR, hv.ckRange, (legalSteps_iff hK).mp hs, (hB.ckNsamp hK).1]
    rfl

end Sys2Proof.Machine
end

section
/-! SUPPORT. Proof of the statement of 41_segmenter.md: SEGMENT pads the last block (R150, R152). -/

namespace Sys2Proof.Machine

/-! ### SEGMENT -/

theorem segmentBlocks_eq {s : State} {K B : Nat} (hK : LegalBlock s K) (hB : LegalSamples s K B) :
    segmentBlocks s = B := by
  rw [segmentBlocks, hK.blockSize, (hB.ckNsamp hK).2]

/-- With legal parameters SEGMENT stores its padding and the number of blocks. -/
theorem runSegment_of_legal {s : State} {K B : Nat} (hK : LegalBlock s K) (hB : LegalSamples s K B) :
    runSegment s = .ok (nextDraw { s with
      mem := storeBuf s.mem .inp (uval32 s.regs.nsamp)
        (List.replicate (B * K - uval32 s.regs.nsamp) (bufWord s .inp (uval32 s.regs.nsamp - 1) 0))
      regs := { s.regs with nblk := encCount B } }) := by
  have hf : firstFailure s (preChecks .segment) = none := by
    simp only [preChecks, firstFailure, hK.ckK, (hB.ckNsamp hK).1]
  rw [runSegment, runPrimitive_of_passes hf, segmentWork, segmentPadding, segmentBlocks_eq hK hB, hK.blockSize]
  rfl

/-- Copies of a word stored from element `n` up to element `p` of a one-word buffer are held by every element between. -/
theorem holds_storeBuf_replicate {m : Memory} {b : Buffer} {n p i : Nat} {w : Word} (hb : bufElemWords b = 1)
    (hp : p ≤ bufElements b) (hn : n ≤ i) (hi : i < p) :
    Holds (storeBuf m b n (List.replicate (p - n) w)) b i 0 w := by
  have hw : (List.replicate (p - n) w)[bufElemWords b * (i - n) + 0]? = some w := by
    rw [hb, List.getElem?_replicate_of_lt (by omega)]
  have h := holdsAt_storeBuf (m := m) (i := n) hw (by omega) (by omega)
  rwa [Nat.add_sub_cancel' hn] at h

/-- Copies of a word stored from element `n` up to element `p` of a one-word buffer change no byte outside those elements. -/
theorem sameOutside_storeBuf_replicate {m : Memory} {b : Buffer} {n p : Nat} {w : Word} (hb : bufElemWords b = 1)
    (hn : n ≤ p) : SameOutside (bufAddr b n 0) (bufAddr b p 0) m (storeBuf m b n (List.replicate (p - n) w)) := by
  have h := sameOutside_storeBuf (m := m) (b := b) (i := n) (n := p - n) (ws := List.replicate (p - n) w) (by simp [hb])
  rwa [Nat.add_sub_cancel' hn] at h

/-- Settles O17: SEGMENT's work is one store of copies of the last sample (`runSegment_of_legal`). -/
theorem segmentPadsTheLastBlock : Obligations.SegmentPadsTheLastBlock := by
  intro s K B hK hB
  refine ⟨_, exec_of_ok (i := .segment) (runSegment_of_legal hK hB), ⟨rfl, rfl, rfl, rfl⟩, rfl, fun i hn hi => ?_, ?_⟩
  · exact holds_storeBuf_replicate rfl hB.fits hn hi
  · exact sameOutside_storeBuf_replicate rfl hB.enough

end Sys2Proof.Machine
end

section
/-! SUPPORT. Proofs of the statements of 42_scaler.md: SCALE (R160 to R162), UNSCALE (R165, R166) and the scaler's round trip
(R169). -/

namespace Sys2Proof.Machine

/-! ### Results listed by their index -/

/-- Element `i` of a one-word buffer holds the result stored for index `i`. -/
theorem holdsInt_storeBuf_range {m : Memory} {b : Buffer} {n i : Nat} {f : Nat → Int} (hb : bufElemWords b = 1)
    (hn : n ≤ bufElements b) (hi : i < n) (hf : fits32 (f i) = true) :
    HoldsInt (storeBuf m b 0 (((List.range n).map f).map enc32)) b i (f i) :=
  holdsInt_result hb (by omega) (by simp [hi]) hf

theorem sameOutside_storeBuf_range {m : Memory} {b : Buffer} {n : Nat} {f : Nat → Int} (hb : bufElemWords b = 1) :
    SameOutside (bufAddr b 0 0) (bufAddr b n 0) m (storeBuf m b 0 (((List.range n).map f).map enc32)) :=
  sameOutside_storeBuf_zero (by simp [hb])

/-! ### SCALE -/

theorem scaleInputs_eq {s : State} {K : Nat} (hK : LegalBlock s K) :
    scaleInputs s = (List.range (uval32 s.regs.nblk * K)).map fun i => sval32 (bufWord s .inp i 0) := by
  simp [scaleInputs, bufWords, hK.blockSize]

/-- The model counts the samples below MIN or above MAX (R161). -/
theorem scaleCount_eq {s : State} {K : Nat} (hK : LegalBlock s K) :
    scaleCount s = Set.ncard { i : ℕ | i < uval32 s.regs.nblk * K ∧
      (valS (bufWord s .inp i 0) < valS s.regs.minv ∨ valS s.regs.maxv < valS (bufWord s .inp i 0)) } := by
  simp only [scaleCount, scaleInputs_eq hK, countP_range_map, saturates_iff]

/-- With legal parameters SCALE stores the exact formula's values, rounded once, and the number of saturated samples. -/
theorem runScale_of_legal {s : State} {K R : Nat} (hK : LegalBlock s K) (hR : LegalRes s R) (hG : LegalRange s)
    (hn : uval32 s.regs.nblk * K ≤ 4096) :
    runScale s = .ok (nextDraw { s with
      mem := storeBuf s.mem .scl 0 (((List.range (uval32 s.regs.nblk * K)).map fun i =>
        scaled R s.regs.minv s.regs.maxv (bufWord s .inp i 0)).map enc32)
      regs := { s.regs with
        satcntFwd := encCount (scaleCount s)
        status := { s.regs.status with satFwd := s.regs.status.satFwd || decide (0 < scaleCount s) } } }) := by
  have hB : runCheck s .ckNblk = none := by rw [ckNblk_passes, hK.blockSize]; exact hn
  have hf : firstFailure s (preChecks .scale) = none := by
    simp only [preChecks, firstFailure, hK.ckK, hR.ckR, hG.ckRange, hB]
  rw [runScale, runPrimitive_of_passes hf, scaleWork, scaleInputs_eq hK]
  simp only [List.map_map, Function.comp_def, hR.resolution, scaleValue_eq hG, done_eq]

/-- Settles O18: SCALE's work is one store of the exact formula's values, each of which fits (`runScale_of_legal`). -/
theorem scaleRoundsTheExactFormula : Obligations.ScaleRoundsTheExactFormula := by
  intro s K R hK hR hG hn
  refine ⟨_, exec_of_ok (i := .scale) (runScale_of_legal hK hR hG hn), ⟨rfl, rfl, rfl, rfl⟩, ?_, fun i hi => ?_, ?_⟩
  · rintro count rfl
    rw [← scaleCount_eq hK]
    rfl
  · exact holdsInt_storeBuf_range rfl hn hi (scaled_fits hR.pos hR.le hG)
  · exact sameOutside_storeBuf_range rfl

/-- Settles O19: the value SCALE writes is the exact formula's (O18), whose range is `scaled_bounds`. -/
theorem scaledSamplesStayInRange : Obligations.ScaledSamplesStayInRange := by
  intro s K R hK hR hG hn
  obtain ⟨t, hx, -, -, hscl, -⟩ := scaleRoundsTheExactFormula s K R hK hR hG hn
  exact ⟨t, hx, fun i hi => ⟨_, hscl i hi, scaled_bounds hR.pos hG⟩⟩

/-! ### UNSCALE -/

theorem unscaleInputs_eq {s : State} {K : Nat} (hK : LegalBlock s K) :
    unscaleInputs s = (List.range (uval32 s.regs.nrblk * K)).map fun i => sval64 (bufDWord s .y i) := by
  rw [unscaleInputs, hK.blockSize]

/-- The model counts the values whose normalised form is below 0 or above 1 (R166). -/
theorem unscaleCount_eq {s : State} {K R : Nat} (hK : LegalBlock s K) (hR : LegalRes s R) :
    unscaleCount s = Set.ncard { i : ℕ | i < uval32 s.regs.nrblk * K ∧
      (normalised R (bufDWord s .y i) < 0 ∨ 1 < normalised R (bufDWord s .y i)) } := by
  simp only [unscaleCount, unscaleInputs_eq hK, hR.resolution, countP_range_map, extreme_iff]

/-- With legal parameters UNSCALE stores the exact formula's values, rounded once, and the number of extreme values. -/
theorem runUnscale_of_legal {s : State} {K R : Nat} (hK : LegalBlock s K) (hR : LegalRes s R) (hG : LegalRange s)
    (hn : uval32 s.regs.nrblk * K ≤ 4096) :
    runUnscale s = .ok (nextDraw { s with
      mem := storeBuf s.mem .out 0 (((List.range (uval32 s.regs.nrblk * K)).map fun i =>
        unscaled R s.regs.minv s.regs.maxv (bufDWord s .y i)).map enc32)
      regs := { s.regs with
        satcntInv := encCount (unscaleCount s)
        status := { s.regs.status with satInv := s.regs.status.satInv || decide (0 < unscaleCount s) } } }) := by
  have hB : runCheck s .ckNrblk = none := by rw [ckNrblk_passes, hK.blockSize]; exact hn
  have hf : firstFailure s (preChecks .unscale) = none := by
    simp only [preChecks, firstFailure, hK.ckK, hR.ckR, hG.ckRange, hB]
  rw [runUnscale, runPrimitive_of_passes hf, unscaleWork, unscaleInputs_eq hK]
  simp only [List.map_map, Function.comp_def, hR.resolution, unscaleValue_eq, done_eq]

/-- Settles O35: UNSCALE's work is one store of the exact formula's values, each of which fits (`runUnscale_of_legal`). -/
theorem unscaleRoundsTheExactFormula : Obligations.UnscaleRoundsTheExactFormula := by
  intro s K R hK hR hG hn
  refine ⟨_, exec_of_ok (i := .unscale) (runUnscale_of_legal hK hR hG hn), ⟨rfl, rfl, rfl, rfl⟩, ?_, fun i hi => ?_, ?_⟩
  · rintro count rfl
    rw [← unscaleCount_eq hK hR]
    rfl
  · exact holdsInt_storeBuf_range rfl hn hi (unscaled_fits hG _)
  · exact sameOutside_storeBuf_range rfl

/-! ### The round trip -/

theorem clampReal_of_mem {x : ℝ} (h0 : 0 ≤ x) (h1 : x ≤ 1) : clampReal x 0 1 = x := by
  rw [clampReal, if_neg h0.not_gt, if_neg h1.not_gt]

/-- What UNSCALE rounds, as a point of the range MIN .. MAX in quanta of 2^-16 (R168). -/
theorem unscaled_eq (R : Nat) (lo hi : Word) (y : DWord) :
    unscaled R lo hi y = roundHaz (sval32 lo + ((sval32 hi : ℝ) - sval32 lo) * clampReal (normalised R y) 0 1) := by
  unfold unscaled valS
  congr 1
  field_simp
  ring

theorem unscaled_of_normalised_eq_one {R : Nat} {lo hi : Word} {y : DWord} (h : normalised R y = 1) :
    unscaled R lo hi y = sval32 hi := by
  rw [unscaled_eq, h, clampReal_of_mem zero_le_one le_rfl, mul_one, add_sub_cancel, roundHaz_intCast]

theorem unscaled_of_normalised_eq_zero {R : Nat} {lo hi : Word} {y : DWord} (h : normalised R y = 0) :
    unscaled R lo hi y = sval32 lo := by
  rw [unscaled_eq, h, clampReal_of_mem le_rfl zero_le_one, mul_zero, add_zero, roundHaz_intCast]

/-- A Y element that holds an integer `n` normalises to a fraction of `2^R` (R165). -/
theorem normalised_of_int {R : Nat} {y : DWord} {n : Int} (h : sval64 y = n * 2 ^ 24) :
    normalised R y = (n + 2 ^ (R - 1)) / 2 ^ R := by
  have hp : (2 : ℝ) ^ 24 ≠ 0 := by positivity
  have hy : valY y = n := by rw [valY, h, Int.cast_mul, Int.cast_pow, Int.cast_ofNat, mul_div_cancel_right₀ _ hp]
  rw [normalised, hy]

/-- The output rounding: an OUT word is within 2^-17 of the value UNSCALE rounds (R165). -/
theorem unscaled_error {R : Nat} {lo hi o : Word} {y : DWord} (ho : sval32 o = unscaled R lo hi y) :
    |valS o - (valS lo + (valS hi - valS lo) * clampReal (normalised R y) 0 1)| ≤ 1 / 2 ^ 17 := by
  have hdiff : valS o - (valS lo + (valS hi - valS lo) * clampReal (normalised R y) 0 1) =
      (sval32 o - (sval32 lo + ((sval32 hi : ℝ) - sval32 lo) * clampReal (normalised R y) 0 1)) / 2 ^ 16 := by
    unfold valS
    ring
  rw [hdiff, abs_div, abs_of_pos (by positivity : (0 : ℝ) < 2 ^ 16), div_le_iff₀ (by positivity), ho, unscaled_eq]
  exact (abs_roundHaz_sub_le _).trans_eq (by norm_num)

/-- The scaling error: the scaled value of a sample in the range stands for a fraction of the range within 2^-(R+1) of the
sample's own (R160). -/
theorem scaled_error {R : Nat} {lo hi v : Word} (h0 : valS lo ≤ valS v) (h1 : valS v ≤ valS hi) :
    |((scaled R lo hi v : ℝ) + 2 ^ (R - 1)) / 2 ^ R - (valS v - valS lo) / (valS hi - valS lo)| ≤ 1 / 2 ^ (R + 1) := by
  have hx0 : 0 ≤ (valS v - valS lo) / (valS hi - valS lo) := div_nonneg (by linarith) (by linarith)
  have hx1 : (valS v - valS lo) / (valS hi - valS lo) ≤ 1 := div_le_one_of_le₀ (by linarith) (by linarith)
  have hs : scaled R lo hi v = roundHaz (2 ^ R * ((valS v - valS lo) / (valS hi - valS lo)) - 2 ^ (R - 1)) := by
    rw [scaled, clampReal_of_mem hx0 hx1]
  rw [hs]
  generalize (valS v - valS lo) / (valS hi - valS lo) = x
  have hp : (0 : ℝ) < 2 ^ R := by positivity
  have hdiff : ((roundHaz (2 ^ R * x - 2 ^ (R - 1)) : ℝ) + 2 ^ (R - 1)) / 2 ^ R - x =
      (roundHaz (2 ^ R * x - 2 ^ (R - 1)) - (2 ^ R * x - 2 ^ (R - 1))) / 2 ^ R := by
    field_simp
    ring
  rw [hdiff, abs_div, abs_of_pos hp, pow_succ', ← div_div]
  exact div_le_div_of_nonneg_right (abs_roundHaz_sub_le _) hp.le

/-- A scaled value normalises to a fraction from 0 to 1, so UNSCALE does not clamp it (R162, R166). -/
theorem normalised_scaled_mem {R : Nat} (hR : 1 ≤ R) {lo hi v : Word} {y : DWord} (h : sval32 lo < sval32 hi)
    (hy : sval64 y = scaled R lo hi v * 2 ^ 24) : 0 ≤ normalised R y ∧ normalised R y ≤ 1 := by
  obtain ⟨hlow, hhigh, -, -⟩ := scaled_bounds (v := v) hR h
  have hp : (0 : ℝ) < 2 ^ R := by positivity
  have hlow' : (-2 ^ (R - 1) : ℝ) ≤ scaled R lo hi v := by exact_mod_cast hlow
  have hhigh' : (scaled R lo hi v : ℝ) ≤ 2 ^ (R - 1) := by exact_mod_cast hhigh
  rw [normalised_of_int hy]
  constructor
  · exact div_nonneg (by linarith) hp.le
  · rw [div_le_one hp, two_pow_pred hR]
    linarith

/-- R169 for a sample in the range: the scaling error over the range and the output rounding. -/
theorem roundTrip_error {R : Nat} (hR : 1 ≤ R) {lo hi v o : Word} {y : DWord} (h : sval32 lo < sval32 hi)
    (hy : sval64 y = scaled R lo hi v * 2 ^ 24) (ho : sval32 o = unscaled R lo hi y)
    (h0 : valS lo ≤ valS v) (h1 : valS v ≤ valS hi) :
    |valS o - valS v| ≤ (valS hi - valS lo) / 2 ^ (R + 1) + 1 / 2 ^ 17 := by
  have hd : 0 < valS hi - valS lo := sub_pos.mpr (valS_lt.mpr h)
  obtain ⟨hn0, hn1⟩ := normalised_scaled_mem hR h hy
  have hout := unscaled_error ho
  rw [clampReal_of_mem hn0 hn1] at hout
  have hscale : |valS lo + (valS hi - valS lo) * normalised R y - valS v| ≤ (valS hi - valS lo) / 2 ^ (R + 1) := by
    have hv : valS lo + (valS hi - valS lo) * normalised R y - valS v
        = (valS hi - valS lo) * (normalised R y - (valS v - valS lo) / (valS hi - valS lo)) := by
      field_simp
      ring
    rw [hv, abs_mul, abs_of_pos hd, normalised_of_int hy, div_eq_mul_one_div _ (2 ^ (R + 1) : ℝ)]
    exact mul_le_mul_of_nonneg_left (scaled_error h0 h1) hd.le
  calc |valS o - valS v|
      ≤ |valS o - (valS lo + (valS hi - valS lo) * normalised R y)|
          + |valS lo + (valS hi - valS lo) * normalised R y - valS v| := abs_sub_le _ _ _
    _ ≤ (valS hi - valS lo) / 2 ^ (R + 1) + 1 / 2 ^ 17 := by linarith

/-- R169 above the range: the scaled value is the high end, which normalises to 1. -/
theorem unscaled_scaled_of_le {R : Nat} (hR : 1 ≤ R) {lo hi v : Word} {y : DWord} (h : sval32 lo < sval32 hi)
    (hy : sval64 y = scaled R lo hi v * 2 ^ 24) (hv : sval32 hi ≤ sval32 v) : unscaled R lo hi y = sval32 hi := by
  obtain ⟨-, -, -, htop⟩ := scaled_bounds (v := v) hR h
  refine unscaled_of_normalised_eq_one ?_
  rw [normalised_of_int hy, htop hv, two_pow_pred hR]
  push_cast
  rw [← two_mul, div_self (by positivity)]

/-- R169 below the range: the scaled value is the low end, which normalises to 0. -/
theorem unscaled_scaled_of_ge {R : Nat} (hR : 1 ≤ R) {lo hi v : Word} {y : DWord} (h : sval32 lo < sval32 hi)
    (hy : sval64 y = scaled R lo hi v * 2 ^ 24) (hv : sval32 v ≤ sval32 lo) : unscaled R lo hi y = sval32 lo := by
  obtain ⟨-, -, hbot, -⟩ := scaled_bounds (v := v) hR h
  refine unscaled_of_normalised_eq_zero ?_
  rw [normalised_of_int hy, hbot hv]
  push_cast
  rw [neg_add_cancel, zero_div]

theorem valS_eq_of_sval32_eq {a b : Word} (h : sval32 a = sval32 b) : valS a = valS b := by rw [valS, valS, h]

/-- Settles O36: the word UNSCALE writes is the exact formula's (O35); `roundTrip_error` bounds it for a sample in the range,
and outside the range it is the boundary. -/
theorem scalerRoundTrip : Obligations.ScalerRoundTrip := by
  intro s K R v hK hR hG hn hy
  obtain ⟨t, hx, -, -, hout, -⟩ := unscaleRoundsTheExactFormula s K R hK hR hG hn
  refine ⟨t, hx, fun i hi => ?_⟩
  obtain ⟨o, ho, hval⟩ := hout i hi
  refine ⟨o, ho, fun h0 h1 => ?_, fun habove => valS_eq_of_sval32_eq ?_, fun hbelow => valS_eq_of_sval32_eq ?_⟩
  · exact roundTrip_error hR.pos hG (hy i hi) hval h0 h1
  · rw [hval, unscaled_scaled_of_le hR.pos hG (hy i hi) (valS_lt.mp habove).le]
  · rw [hval, unscaled_scaled_of_ge hR.pos hG (hy i hi) (valS_lt.mp hbelow).le]

end Sys2Proof.Machine
end

section
/-! SUPPORT. Proofs of the statements of 43_transform.md: FDCT (R180 to R182) and IDCT (R188, R189). -/

namespace Sys2Proof.Machine

/-! ### FDCT -/

section
variable {s : State} {K : Nat} {c : Nat → Nat → Int}

theorem length_fdctCoefs (hK : LegalBlock s K) : (fdctCoefs s).length = uval32 s.regs.nblk * K := by
  rw [fdctCoefs, length_transformBlocks, hK.blockSize]

/-- Coefficient `k` of block `b` is the exact real sum, rounded once (R180). -/
theorem getElem?_fdctCoefs (hK : LegalBlock s K)
    (hc : ∀ b k, c b k = roundHaz (dct2 K (fun n => sval32 (bufWord s .scl (b * K + n) 0)) k))
    {b k : Nat} (hb : b < uval32 s.regs.nblk) (hk : k < K) : (fdctCoefs s)[b * K + k]? = some (c b k) := by
  rw [fdctCoefs, hK.blockSize, getElem?_transformBlocks _ _ _ _ _ _ _ hb hk, fdct_block hK.pos hK.le, hc]

/-- Every coefficient is the one of some block and position. -/
theorem exists_getElem_fdctCoefs (hK : LegalBlock s K)
    (hc : ∀ b k, c b k = roundHaz (dct2 K (fun n => sval32 (bufWord s .scl (b * K + n) 0)) k)) {j : Nat}
    (hj : j < (fdctCoefs s).length) :
    ∃ b < uval32 s.regs.nblk, ∃ k < K, b * K + k = j ∧ (fdctCoefs s)[j] = c b k := by
  obtain ⟨hb, hk, he⟩ := index_split hK.pos (length_fdctCoefs hK ▸ hj)
  have hget := getElem?_fdctCoefs hK hc hb hk
  rw [he, List.getElem?_eq_getElem hj, Option.some.injEq] at hget
  exact ⟨_, hb, _, hk, he, hget⟩

/-- With legal parameters FDCT is its work. -/
theorem runFdct_of_legal (hK : LegalBlock s K) (hn : uval32 s.regs.nblk * K ≤ 4096) :
    runFdct s = fdctWork s := by
  have hB : runCheck s .ckNblk = none := by rw [ckNblk_passes, hK.blockSize]; exact hn
  exact runPrimitive_of_passes (by simp only [preChecks, firstFailure, hK.ckK, hB])

/-- When every coefficient fits, FDCT's work stores them all. -/
theorem fdctWork_of_fits (h : ∀ j (hj : j < (fdctCoefs s).length), fits32 (fdctCoefs s)[j] = true) :
    fdctWork s = .ok (nextDraw { s with mem := storeBuf s.mem .coef 0 ((fdctCoefs s).map enc32) }) := by
  have hnone : (fdctCoefs s).findIdx? (fun n => !fits32 n) = none :=
    List.findIdx?_eq_none_iff.mpr (List.forall_mem_iff_getElem.mpr fun j hj => by simp [h j hj])
  rw [fdctWork, hnone]
  rfl

/-- FDCT's work raises OVERFLOW at the first coefficient that does not fit (R182). -/
theorem fdctWork_of_overflow {i : Nat} {n : Int} (hi : (fdctCoefs s)[i]? = some n) (hn : fits32 n = false)
    (h : ∀ j (hj : j < (fdctCoefs s).length), j < i → fits32 (fdctCoefs s)[j] = true) :
    fdctWork s = dataError .fdct .overflow i s := by
  obtain ⟨hlt, rfl⟩ := List.getElem?_eq_some_iff.mp hi
  have hsome : (fdctCoefs s).findIdx? (fun n => !fits32 n) = some i :=
    List.findIdx?_eq_some_iff_getElem.mpr ⟨hlt, by simp [hn], fun j hj => by simp [h j (hj.trans hlt) hj]⟩
  rw [fdctWork, hsome]

end

/-- Settles O20: FDCT's work is one store of the rounded exact sums when all fit (`fdctWork_of_fits`), and OVERFLOW at the
first that does not (`fdctWork_of_overflow`). -/
theorem fdctRoundsTheExactSum : Obligations.FdctRoundsTheExactSum := by
  intro s K c hK hn hc
  have hrun := runFdct_of_legal hK hn
  constructor
  · intro hfit
    have hall : ∀ j (hj : j < (fdctCoefs s).length), fits32 (fdctCoefs s)[j] = true := by
      intro j hj
      obtain ⟨b, hb, k, hk, -, he⟩ := exists_getElem_fdctCoefs hK hc hj
      exact he ▸ hfit b hb k hk
    refine ⟨_, exec_of_ok (i := .fdct) (hrun.trans (fdctWork_of_fits hall)), ⟨rfl, rfl, rfl, rfl⟩, rfl,
      fun b hb k hk => ?_, ?_⟩
    · exact holdsInt_result rfl ((index_lt hb hk).trans_le hn) (getElem?_fdctCoefs hK hc hb hk) (hfit b hb k hk)
    · exact sameOutside_storeBuf_zero (by simp [length_fdctCoefs hK, bufElemWords])
  · intro b hb k hk hover hfit
    have hbefore : ∀ j (hj : j < (fdctCoefs s).length), j < b * K + k → fits32 (fdctCoefs s)[j] = true := by
      intro j hj hlt
      obtain ⟨b', hb', k', hk', rfl, he⟩ := exists_getElem_fdctCoefs hK hc hj
      exact he ▸ hfit b' hb' k' hk' hlt
    have herr := hrun.trans (fdctWork_of_overflow (getElem?_fdctCoefs hK hc hb hk) hover hbefore)
    exact ⟨_, exec_of_raised (i := .fdct) herr, ⟨rfl, rfl, rfl, rfl⟩, rfl, emptied_unspecDests (i := .fdct) rfl s⟩

/-! ### IDCT -/

/-- The two words stored for a Y element stand at twice its index. -/
theorem getElem?_flatMap_dwordWords : ∀ {vs : List Int} {i : Nat} {n : Int}, vs[i]? = some n →
    (vs.flatMap fun v => dwordWords (enc64 v))[2 * i + 0]? = some ((enc64 n).extractLsb' 0 32) ∧
    (vs.flatMap fun v => dwordWords (enc64 v))[2 * i + 1]? = some ((enc64 n).extractLsb' 32 32)
  | [], _, _, h => by simp at h
  | v :: vs, 0, n, h => by
    obtain rfl : v = n := by simpa using h
    simp [dwordWords]
  | v :: vs, i + 1, n, h => by
    have ih := getElem?_flatMap_dwordWords (vs := vs) (i := i) (by simpa using h)
    simpa [dwordWords, Nat.mul_add] using ih

theorem length_flatMap_dwordWords (vs : List Int) :
    (vs.flatMap fun v => dwordWords (enc64 v)).length = 2 * vs.length := by
  simp [dwordWords, List.length_flatMap, Nat.mul_comm]

/-- A stored Y element holds its value, if that fits 64 bits. -/
theorem holdsY_result {m : Memory} {vs : List Int} {i : Nat} {n : Int} (hi : i < bufElements .y) (h : vs[i]? = some n)
    (hn : -2 ^ 63 ≤ n ∧ n < 2 ^ 63) : HoldsY (storeBuf m .y 0 (vs.flatMap fun v => dwordWords (enc64 v))) i n := by
  obtain ⟨hlow, hhigh⟩ := getElem?_flatMap_dwordWords h
  exact ⟨enc64 n, holds_storeBuf hlow (by decide) hi, holds_storeBuf hhigh (by decide) hi, sval64_enc64 hn⟩

theorem length_idctValues {s : State} {K : Nat} (hK : LegalBlock s K) :
    (idctValues s).length = uval32 s.regs.nrblk * K := by
  rw [idctValues, length_transformBlocks, hK.blockSize]

/-- Value `k` of block `b` is the exact DCT-III value times 2^24, rounded once (R188). -/
theorem getElem?_idctValues {s : State} {K b k : Nat} (hK : LegalBlock s K) (hb : b < uval32 s.regs.nrblk) (hk : k < K) :
    (idctValues s)[b * K + k]? =
      some (roundHaz (dct3 K (fun n => sval32 (bufWord s .dcoef (b * K + n) 0)) k * 2 ^ 24)) := by
  rw [idctValues, hK.blockSize, getElem?_transformBlocks _ _ _ _ _ _ _ hb hk, idct_block hK.pos hK.le]

/-- With legal parameters IDCT stores its values and does nothing more. -/
theorem runIdct_of_legal {s : State} {K : Nat} (hK : LegalBlock s K) (hn : uval32 s.regs.nrblk * K ≤ 4096) :
    runIdct s = .ok (nextDraw
      { s with mem := storeBuf s.mem .y 0 ((idctValues s).flatMap fun v => dwordWords (enc64 v)) }) := by
  have hB : runCheck s .ckNrblk = none := by rw [ckNrblk_passes, hK.blockSize]; exact hn
  exact runPrimitive_of_passes (by simp only [preChecks, firstFailure, hK.ckK, hB])

/-- Settles O34: IDCT's work is one store of the rounded exact values (`runIdct_of_legal`), each of which fits
(`idct_fits`). -/
theorem idctRoundsTheExactValue : Obligations.IdctRoundsTheExactValue := by
  intro s K hK hn
  refine ⟨_, exec_of_ok (i := .idct) (runIdct_of_legal hK hn), ⟨rfl, rfl, rfl, rfl⟩, rfl, fun b hb k hk => ?_, ?_⟩
  · have hfits := idct_fits hK.pos (fun n => sval32 (bufWord s .dcoef (b * K + n) 0))
      (fun n => ⟨(sval32_range _).1, (sval32_range _).2.le⟩) k
    exact holdsY_result ((index_lt hb hk).trans_le hn) (getElem?_idctValues hK hb hk) hfits
  · exact sameOutside_storeBuf_zero (by rw [length_flatMap_dwordWords, length_idctValues hK, bufElemWords])

end Sys2Proof.Machine
end

section
/-! SUPPORT. Proofs of the statements of 44_quantizer.md: QUANT (R200, R201), DEQUANT (R205) and the quantizer's round trip
(R208). -/

namespace Sys2Proof.Machine

/-! ### Step sizes -/

section
variable {s : State} {K : Nat}

theorem LegalSteps.stepSize_pos (hS : LegalSteps s K) (hK : LegalBlock s K) (j : Nat) : 0 < stepSize s (j % K) := by
  have hpos := ckQv_passes.mp ((legalSteps_iff hK).mp hS)
  rw [hK.blockSize] at hpos
  exact hpos _ (Nat.mod_lt _ hK.pos)

/-- Every element has the index of its step size. -/
theorem LegalBlock.exists_stepIndex (hK : LegalBlock s K) (j : Nat) : ∃ q : Fin 16, q.val = j % K :=
  ⟨⟨j % K, (Nat.mod_lt _ hK.pos).trans_le hK.le⟩, rfl⟩

theorem stepSize_eq_of_val (s : State) {q : Fin 16} {i : Nat} (hq : q.val = i) : stepSize s i = sval32 (s.regs.qv.get q) :=
  hq ▸ stepSize_eq s q

/-! ### QUANT -/

/-- With legal parameters QUANT stores the rounded quotients and their number. -/
theorem runQuant_of_legal (hK : LegalBlock s K) (hS : LegalSteps s K) (hn : uval32 s.regs.nblk * K ≤ 4096) :
    runQuant s = .ok (nextDraw { s with
      mem := storeBuf s.mem .sym 0 (((List.range (uval32 s.regs.nblk * K)).map fun j =>
        quantValue (sval32 (bufWord s .coef j 0)) (stepSize s (j % K))).map enc32)
      regs := { s.regs with nsym := encCount (uval32 s.regs.nblk * K) } }) := by
  have hB : runCheck s .ckNblk = none := by rw [ckNblk_passes, hK.blockSize]; exact hn
  have hf : firstFailure s (preChecks .quant) = none := by
    simp only [preChecks, firstFailure, hK.ckK, (legalSteps_iff hK).mp hS, hB]
  rw [runQuant, runPrimitive_of_passes hf, quantWork]
  simp only [withStep, quantLength, hK.blockSize, List.map_map, Function.comp_def, done_eq]

end

/-- Settles O21: QUANT's work is one store of the rounded quotients (`runQuant_of_legal`), each of which fits
(`quantValue_fits`). -/
theorem quantRoundsTheExactQuotient : Obligations.QuantRoundsTheExactQuotient := by
  intro s K hK hS hn
  refine ⟨_, exec_of_ok (i := .quant) (runQuant_of_legal hK hS hn), ⟨rfl, rfl, rfl, rfl⟩, rfl, fun j hj q hq => ?_, ?_⟩
  · have hpos := hS.stepSize_pos hK j
    rw [← stepSize_eq_of_val s hq, ← quantValue_eq hpos]
    exact holdsInt_storeBuf_range (f := fun j => quantValue (sval32 (bufWord s .coef j 0)) (stepSize s (j % K)))
      rfl hn hj (quantValue_fits (sval32_range _) hpos)
  · exact sameOutside_storeBuf_range rfl

/-! ### DEQUANT -/

/-- Product `j` of DEQUANT (R205). -/
def dequantProduct (s : State) (K j : Nat) : Int := sval32 (bufWord s .dsym j 0) * stepSize s (j % K)

theorem dequantProduct_of_val (s : State) {K j : Nat} {q : Fin 16} (hq : q.val = j % K) :
    dequantProduct s K j = sval32 (bufWord s .dsym j 0) * sval32 (s.regs.qv.get q) := by
  rw [dequantProduct, stepSize_eq_of_val s hq]

theorem fits32_iff_le {n : Int} : fits32 n = true ↔ -2 ^ 31 ≤ n ∧ n ≤ 2 ^ 31 - 1 := by
  rw [fits32_iff, Int.le_sub_one_iff]

section
variable {s : State} {K : Nat}

/-- Every `j` has an index into QV, so the obligation's products are the model's. -/
theorem eq_dequantProduct (hK : LegalBlock s K) {p : Nat → Int}
    (hp : ∀ j, ∀ q : Fin 16, q.val = j % K → p j = sval32 (bufWord s .dsym j 0) * sval32 (s.regs.qv.get q)) :
    p = dequantProduct s K := by
  funext j
  obtain ⟨q, hq⟩ := hK.exists_stepIndex j
  rw [hp j q hq, dequantProduct_of_val s hq]

theorem dequantValues_eq (hK : LegalBlock s K) :
    dequantValues s = (List.range (uval32 s.regs.ndsym)).map (dequantProduct s K) := by
  rw [dequantValues, withStep, List.map_map, hK.blockSize]
  rfl

/-- With legal parameters DEQUANT is its work. -/
theorem runDequant_of_legal (hK : LegalBlock s K) (hS : LegalSteps s K) (hn : uval32 s.regs.ndsym ≤ 4096)
    (hm : uval32 s.regs.ndsym % K = 0) : runDequant s = dequantWork s := by
  have hD : runCheck s .ckNdsym = none := by rw [ckNdsym_passes, hK.blockSize]; exact ⟨hn, hm⟩
  exact runPrimitive_of_passes (by simp only [preChecks, firstFailure, hK.ckK, (legalSteps_iff hK).mp hS, hD])

/-- When every product fits, DEQUANT's work stores them all. -/
theorem dequantWork_of_fits (hK : LegalBlock s K) (h : ∀ j < uval32 s.regs.ndsym, fits32 (dequantProduct s K j) = true) :
    dequantWork s = .ok (nextDraw { s with
      mem := storeBuf s.mem .dcoef 0 (((List.range (uval32 s.regs.ndsym)).map (dequantProduct s K)).map enc32)
      regs := { s.regs with nrblk := encCount (uval32 s.regs.ndsym / K) } }) := by
  have hnone : ((List.range (uval32 s.regs.ndsym)).map (dequantProduct s K)).findIdx? (fun n => !fits32 n) = none :=
    List.findIdx?_eq_none_iff.mpr (by simpa using h)
  rw [dequantWork, dequantValues_eq hK, hnone, hK.blockSize]
  rfl

/-- DEQUANT's work raises OVERFLOW at the first product that does not fit (R205). -/
theorem dequantWork_of_overflow (hK : LegalBlock s K) {j : Nat} (hj : j < uval32 s.regs.ndsym)
    (hover : fits32 (dequantProduct s K j) = false) (h : ∀ i < j, fits32 (dequantProduct s K i) = true) :
    dequantWork s = dataError .dequant .overflow j s := by
  have hsome : ((List.range (uval32 s.regs.ndsym)).map (dequantProduct s K)).findIdx? (fun n => !fits32 n) = some j :=
    List.findIdx?_eq_some_iff_getElem.mpr ⟨by simpa using hj, by simp [hover], fun i hi => by simp [h i hi]⟩
  rw [dequantWork, dequantValues_eq hK, hsome]

end

/-- Settles O32: DEQUANT's work is one store of the products when all fit (`dequantWork_of_fits`), and OVERFLOW at the first
that does not (`dequantWork_of_overflow`). -/
theorem dequantMultipliesExactly : Obligations.DequantMultipliesExactly := by
  intro s K p hK hS hn hm hp
  obtain rfl := eq_dequantProduct hK hp
  have hrun := runDequant_of_legal hK hS hn hm
  simp only [← fits32_iff_le, Bool.not_eq_true]
  constructor
  · intro hfit
    refine ⟨_, exec_of_ok (i := .dequant) (hrun.trans (dequantWork_of_fits hK hfit)), ⟨rfl, rfl, rfl, rfl⟩, rfl,
      fun j hj => ?_, ?_⟩
    · exact holdsInt_storeBuf_range rfl hn hj (hfit j hj)
    · exact sameOutside_storeBuf_range rfl
  · intro j hj hover hfit
    have herr := hrun.trans (dequantWork_of_overflow hK hj hover hfit)
    exact ⟨_, exec_of_raised (i := .dequant) herr, ⟨rfl, rfl, rfl, rfl⟩, rfl, emptied_unspecDests (i := .dequant) rfl s⟩

/-! ### The round trip -/

/-- A symbol times its step is within half a step of the coefficient, so it fits: |c| ≤ 2^19 and half a step is below 2^30
(R208). -/
theorem quantValue_mul_fits {c : Int} (hc : |c| ≤ 2 ^ 19) {w : Word} (hw : 0 < sval32 w) :
    -2 ^ 31 ≤ quantValue c (sval32 w) * sval32 w ∧ quantValue c (sval32 w) * sval32 w ≤ 2 ^ 31 - 1 := by
  have hstep := (sval32_range w).2
  have herr : |quantValue c (sval32 w) * sval32 w - c| ≤ 2 ^ 30 := by
    have := quant_error (c := c) hw
    omega
  rw [abs_le] at hc herr
  omega

/-- Where DSYM holds QUANT's symbol, the product is the symbol times its step. -/
theorem dequantProduct_of_symbol {u : State} {K j : Nat} {c : Int} {w : Word} {q : Fin 16} (hq : q.val = j % K)
    (hj : j < bufElements .dsym) (hw : Holds u.mem .dsym j 0 w) (hpos : 0 < sval32 (u.regs.qv.get q))
    (hval : sval32 w = roundHaz ((c : ℝ) / (sval32 (u.regs.qv.get q) : ℝ))) :
    dequantProduct u K j = quantValue c (sval32 (u.regs.qv.get q)) * sval32 (u.regs.qv.get q) := by
  rw [dequantProduct_of_val u hq, bufWord_of_holds hw hj, hval, quantValue_eq hpos]

/-- Settles O33: what DEQUANT reads is the copy of what QUANT wrote (O21), so every product fits (`quantValue_mul_fits`),
DEQUANT writes them all (O32), and each is within half a step (`quant_error`). -/
theorem quantizerRoundTrip : Obligations.QuantizerRoundTrip := by
  intro s t u K hK hS hn hc hx hu hcopy
  obtain ⟨t', hx', -, hregs, hsym, -⟩ := quantRoundsTheExactQuotient s K hK hS hn
  obtain rfl : t = t' := by simpa [hx] using hx'
  have hqv : u.regs.qv = s.regs.qv := by rw [hu, hregs]; rfl
  have hKu : LegalBlock u K := hK.congr (by rw [hu, hregs]; rfl)
  have hcount : uval32 u.regs.ndsym = uval32 s.regs.nblk * K := by
    rw [hu, hregs]
    exact uval32_encCount (by omega)
  have hpos : ∀ j, ∀ q : Fin 16, q.val = j % K → 0 < sval32 (s.regs.qv.get q) :=
    fun j q hq => hS q (hq ▸ Nat.mod_lt j hK.pos)
  have hprod : ∀ j < uval32 s.regs.nblk * K, ∀ q : Fin 16, q.val = j % K → dequantProduct u K j =
      quantValue (sval32 (bufWord s .coef j 0)) (sval32 (s.regs.qv.get q)) * sval32 (s.regs.qv.get q) := by
    intro j hj q hq
    obtain ⟨w, hw, hval⟩ := hsym j hj q hq
    rw [← hqv] at hval ⊢
    exact dequantProduct_of_symbol hq (hj.trans_le hn) (hcopy j hj w hw) (hqv ▸ hpos j q hq) hval
  have hfit : ∀ j < uval32 u.regs.ndsym, -2 ^ 31 ≤ dequantProduct u K j ∧ dequantProduct u K j ≤ 2 ^ 31 - 1 := by
    intro j hj
    rw [hcount] at hj
    obtain ⟨q, hq⟩ := hK.exists_stepIndex j
    rw [hprod j hj q hq]
    exact quantValue_mul_fits (hc j hj) (hpos j q hq)
  obtain ⟨v, hv, -, hvregs, hdcoef, -⟩ := (dequantMultipliesExactly u K (dequantProduct u K) hKu (hS.congr hqv)
    (hcount ▸ hn) (hcount ▸ Nat.mul_mod_left _ _) fun j q hq => dequantProduct_of_val u hq).1 hfit
  refine ⟨v, hv, by rw [hvregs]; rfl, ?_, fun j hj q hq => ⟨_, hdcoef j (hcount ▸ hj), ?_⟩⟩
  · rw [hvregs, hcount, Nat.mul_div_cancel _ hK.pos]
    exact (BitVec.ofNat_toNat _ _).trans (BitVec.setWidth_eq _)
  · rw [hprod j hj q hq]
    exact quant_error (hpos j q hq)

end Sys2Proof.Machine
end

section
/-! SUPPORT. Proofs of the statements of 45_entropy_coder.md: HCOUNT (R220, R221), HBUILD (R225 to R236, R249), HENC (R240 to
R242), HDEC (R245 to R248) and the coder's round trip (R249). -/

namespace Sys2Proof.Machine

/-! ### Words and completions -/

/-- A register's own count is the register. -/
theorem encCount_uval32 (w : Word) : encCount (uval32 w) = w := (BitVec.ofNat_toNat _ _).trans (BitVec.setWidth_eq _)

theorem bufWords_zero (s : State) (b : Buffer) (n : Nat) :
    bufWords s b 0 n = (List.range n).map fun j => bufWord s b j 0 := by simp [bufWords]

/-- A command that ends in a data error records it and empties its outputs (40_command_model.md R123, R131). -/
theorem exec_of_dataError {i : Instr} {s : State} {r : Regs} {code : ErrCode} {info : Nat} (hi : padsInput i = false)
    (h : runCommand i s = dataError i code info { s with regs := r }) : ∃ t, exec i s = .next t ∧ Ended s t ∧
      t.regs = errRegs (opcode i) (errNumber code) (opcode i) (encCount info) r ∧ Emptied (outputs i) s.mem t.mem :=
  ⟨_, exec_of_raised h, ⟨rfl, rfl, rfl, rfl⟩, rfl, emptied_unspecDests hi { s with regs := r }⟩

/-! ### HCOUNT -/

theorem length_ftabWords (t : List (Word × Nat)) : (ftabWords t).length = 2 * t.length := by
  simp [ftabWords, List.length_flatMap, Nat.mul_comm]

/-- The entry of a symbol the table lists holds its number of occurrences (R220). -/
theorem CountTable.getElem? {l : List Word} {t : List (Word × Nat)} (h : CountTable l t) {i : Nat} {x : Word}
    (hx : (t.map Prod.fst)[i]? = some x) : t[i]? = some (x, l.count x) := by
  rw [List.getElem?_map, Option.map_eq_some_iff] at hx
  obtain ⟨⟨y, c⟩, hi, rfl⟩ := hx
  rw [hi, ← h.count y c (List.mem_of_getElem? hi)]

/-- Settles O22: HCOUNT's work is one store of its table (`hcount_run`), whose symbols are the distinct ones in order of first
occurrence (`CountTable.keys_eq`) and whose counts are their numbers of occurrences. -/
theorem hcountCountsInFirstOccurrenceOrder : Obligations.HcountCountsInFirstOccurrenceOrder := by
  intro s syms distinct h1 h2 hsyms hn hm ho
  have hw : bufWords s .sym 0 (uval32 s.regs.nsym) = syms := by rw [bufWords_zero, hsyms]
  have hct : CountTable syms (hcountTable s) := by rw [hcountTable, hw]; exact countTable syms
  have hkeys : (hcountTable s).map Prod.fst = distinct := by
    refine hct.keys_eq hn hm (List.pairwise_iff_getElem.mpr fun i j hi hj hij => ?_)
    exact ho i j _ _ hij (List.getElem?_eq_getElem hi) (List.getElem?_eq_getElem hj)
  have hlen : (hcountTable s).length = distinct.length := by rw [← hkeys, List.length_map]
  have hle : distinct.length ≤ 4096 := by
    have := (List.subperm_of_subset hn fun x hx => (hm x).mp hx).length_le
    rw [hsyms, List.length_map, List.length_range] at this
    omega
  refine ⟨_, exec_of_ok (i := .hcount) (hcount_run h1 h2), ⟨rfl, rfl, rfl, rfl⟩, ?_, fun i x hx => ?_, ?_⟩
  · rw [← hlen]; rfl
  · obtain ⟨hi, -⟩ := List.getElem?_eq_some_iff.mp hx
    have hin : i < bufElements .ftab := hi.trans_le hle
    obtain ⟨hsym, hcount⟩ := ftabWords_get (hct.getElem? (hkeys ▸ hx))
    exact ⟨holds_storeBuf hsym (by decide) hin, holds_storeBuf hcount (by decide) hin⟩
  · exact sameOutside_storeBuf_zero (by rw [length_ftabWords, hlen]; rfl)

/-! ### HBUILD -/

/-- What HBUILD leaves when every code has at most 32 bits (R236). -/
structure HbuildOk (s t : State) (ft : List FtabEntry) (T : List Node) (tree : HTree) : Prop where
  short : ∀ i < ft.length, (modelCode tree i).length ≤ 32
  regs : t.regs = okRegs 0x21 { s.regs with
    root := t.regs.root
    maxlen := t.regs.maxlen
    status := { s.regs.status with treeValid := true } }
  holds : HoldsBuild t.mem t.regs T tree.index ft.length (modelCode tree)
  frame : ∀ a, ¬ (bufAddr .tree 0 0 ≤ a ∧ a < bufAddr .tree (2 * ft.length - 1) 0) →
    ¬ (bufAddr .ctab 0 0 ≤ a ∧ a < bufAddr .ctab ft.length 0) → byteAt t.mem a = byteAt s.mem a

/-- What HBUILD leaves when the code of leaf i is the first longer than 32 bits (R226, R235). -/
structure HbuildCapacity (s t : State) (ft : List FtabEntry) (tree : HTree) (i : Nat) : Prop where
  lt : i < ft.length
  long : 32 < (modelCode tree i).length
  least : ∀ j < i, (modelCode tree j).length ≤ 32
  regs : t.regs = errRegs 0x21 0x07 0x21 (BitVec.ofNat 32 i)
    { s.regs with status := { s.regs.status with treeValid := false } }
  emptied : Emptied [.tree, .ctab] s.mem t.mem

/-- The stores of a build change no byte outside its nodes and codes. -/
theorem ModelBuild.frame {ft : List FtabEntry} {T : List Node} {tree : HTree} (h : ModelBuild ft T tree) (m : Memory) {a : Nat}
    (htree : ¬ (bufAddr .tree 0 0 ≤ a ∧ a < bufAddr .tree (2 * ft.length - 1) 0))
    (hctab : ¬ (bufAddr .ctab 0 0 ≤ a ∧ a < bufAddr .ctab ft.length 0)) :
    byteAt (storeBuf (storeBuf m .tree 0 (treeWords (buildTree ft).nodes)) .ctab 0 (ctabWords (buildTree ft).codes)) a =
      byteAt m a := by
  have hn : (treeWords (buildTree ft).nodes).length = bufElemWords .tree * (2 * ft.length - 1) := by
    rw [length_treeWords, h.nodes, List.length_map, h.length]; rfl
  have hc : (ctabWords (buildTree ft).codes).length = bufElemWords .ctab * ft.length := by
    rw [length_ctabWords, h.codes, List.length_map, List.length_range]; rfl
  exact (sameOutside_storeBuf_zero hc a hctab).trans (sameOutside_storeBuf_zero hn a htree)

/-- HBUILD on a valid table: the model's build is left, or the first code longer than 32 bits reported. -/
theorem exec_hbuild {s : State} {ft : List FtabEntry} (hft : ft = readFtab s (uval32 s.regs.ndist)) (hv : ValidTable ft) :
    ∃ T tree t, ModelBuild ft T tree ∧ exec .hbuild s = .next t ∧ Ended s t ∧
      (HbuildOk s t ft T tree ∨ ∃ i, HbuildCapacity s t ft tree i) := by
  obtain ⟨T, tree, hb, hok, hcap⟩ := hbuild_cases hft hv
  by_cases hshort : ∀ i < ft.length, (modelCode tree i).length ≤ 32
  · obtain ⟨r, hrun, hr, hroot, hmax⟩ := hok hshort
    refine ⟨T, tree, _, hb, exec_of_ok hrun, ⟨rfl, rfl, rfl, rfl⟩, .inl ⟨hshort, ?_, ?_, fun a => hb.frame s.mem⟩⟩
    · exact congrArg (okRegs 0x21) hr
    · exact hb.holds hv.le hshort s.mem hroot hmax
  · have hlong : ∃ i, i < ft.length ∧ 32 < (modelCode tree i).length := by simpa using hshort
    obtain ⟨hi, hl⟩ := Nat.find_spec hlong
    have hleast : ∀ j < Nat.find hlong, (modelCode tree j).length ≤ 32 := fun j hj =>
      not_lt.mp fun hc => Nat.find_min hlong hj ⟨hj.trans hi, hc⟩
    obtain ⟨t, hx, hend, hregs, hemp⟩ := exec_of_dataError rfl (hcap _ hi hl hleast)
    exact ⟨T, tree, t, hb, hx, hend, .inr ⟨_, hi, hl, hleast, hregs, hemp⟩⟩

/-- A completion of HBUILD with ERRCODE OK left the build. -/
theorem exec_hbuild_ok {s t : State} {ft : List FtabEntry} (hft : ft = readFtab s (uval32 s.regs.ndist)) (hv : ValidTable ft)
    (hx : exec .hbuild s = .next t) (hc : t.regs.status.errCode = 0x00) :
    ∃ T tree, ModelBuild ft T tree ∧ HbuildOk s t ft T tree := by
  obtain ⟨T, tree, u, hb, hu, -, hok | ⟨i, hcap⟩⟩ := exec_hbuild hft hv <;>
    obtain rfl := Host.Outcome.next.inj (hx.symm.trans hu)
  · exact ⟨T, tree, hb, hok⟩
  · rw [hcap.regs] at hc; cases hc

/-- Codes that agree on the leaves are held alike. -/
theorem HoldsBuild.congr_codes {m : Memory} {r : Regs} {T : List Node} {root n : Nat} {codes codes' : Nat → List Bool}
    (h : HoldsBuild m r T root n codes) (hc : ∀ i < n, codes' i = codes i) : HoldsBuild m r T root n codes' where
  weight := h.weight
  left := h.left
  right := h.right
  payload := h.payload
  len i hi := by rw [hc i hi]; exact h.len i hi
  code i hi := by rw [hc i hi]; exact h.code i hi
  root := h.root
  maxlenLe i hi := by rw [hc i hi]; exact h.maxlenLe i hi
  maxlenEq := by
    obtain ⟨i, hi, he⟩ := h.maxlenEq
    exact ⟨i, hi, by rw [hc i hi]; exact he⟩

/-- Settles O23: HBUILD leaves the model's build or CAPACITY (`exec_hbuild`), and the spec's build is no other
(`ModelBuild.unique`). -/
theorem hbuildBuildsTheSpecTree : Obligations.HbuildBuildsTheSpecTree := by
  intro s ft T root codes hft hv hbuilt
  obtain ⟨T', tree, t, hb, hx, hend, hres⟩ := exec_hbuild hft hv
  obtain ⟨rfl, rfl, hcodes⟩ := hb.unique hbuilt
  have hlen : ∀ i < ft.length, (codes i).length = (modelCode tree i).length := fun i hi => congrArg List.length (hcodes i hi)
  obtain hok | ⟨k, hcap⟩ := hres
  · refine ⟨fun _ => ⟨t, hx, hend, hok.regs, hok.holds.congr_codes hcodes, hok.frame⟩, fun i hi hlong _ => ?_⟩
    have := hok.short i hi
    exact absurd (hlen i hi) (by omega)
  · have hk := hlen k hcap.lt
    have hklong := hcap.long
    refine ⟨fun hshort => absurd (hshort k hcap.lt) (by omega), fun i hi hlong hleast => ?_⟩
    obtain rfl : i = k := by
      have h₁ := hlen i hi
      have h₂ := hcap.least i
      have h₃ := hleast k
      omega
    exact ⟨t, hx, hend, hcap.regs, hcap.emptied⟩

/-- The root is the last node (R231): every other node has a parent of a higher index. -/
theorem ModelBuild.index_eq {ft : List FtabEntry} {T : List Node} {tree : HTree} (h : ModelBuild ft T tree) :
    tree.index = 2 * ft.length - 2 := by
  have hlen := h.length
  have hlt := h.shape.index_lt
  by_contra hne
  obtain ⟨x, hx⟩ := h.inv.parent (2 * ft.length - 2) (by omega) (List.mem_singleton.not.mpr fun he => hne he.symm)
  have hup := (h.inv.childOut x _ hx).1
  obtain ⟨nd, hg, -⟩ := hx
  obtain ⟨hxT, -⟩ := List.getElem?_eq_some_iff.mp hg
  omega

/-- Settles O24: HBUILD leaves the model's build or CAPACITY (`exec_hbuild`), and the merge loop's invariant says what
its nodes are. -/
theorem hbuildLeavesABinaryTree : Obligations.HbuildLeavesABinaryTree := by
  intro s ft hft hv
  obtain ⟨T, tree, t, hb, hx, -, hok | ⟨i, hcap⟩⟩ := exec_hbuild hft hv
  · refine ⟨t, hx, .inl (by rw [hok.regs]; rfl), fun _ => ⟨T, tree.index, modelCode tree, hb.built, hok.holds, hb.length,
      hb.index_eq, hv.total_le, fun x nd hg => ?_, fun y hy => ?_⟩⟩
    · exact ⟨hb.inv.weights x nd hg, fun hx => hb.inv.isLeaf x nd hx hg, fun hx => hb.inv.isNode x nd hx hg⟩
    · obtain ⟨x, nd, hg, hchild⟩ := hb.inv.parent y (hy.trans hb.shape.index_lt) (List.mem_singleton.not.mpr hy.ne)
      exact ⟨x, nd, hg, hchild, fun x' nd' hg' hchild' =>
        hb.inv.parentUnique x' x y ⟨nd', hg', hchild'⟩ ⟨nd, hg, hchild⟩⟩
  · have hcode : t.regs.status.errCode = 0x07 := by rw [hcap.regs]; rfl
    exact ⟨t, hx, .inr hcode, fun hc => by rw [hcode] at hc; cases hc⟩

/-- Settles O25: a completion with OK leaves the model's codes in CTAB (`exec_hbuild_ok`), which are the path codes of a tree
(`ModelBuild.prefixFree`, `ModelBuild.kraft`). -/
theorem codesArePrefixFreeAndComplete : Obligations.CodesArePrefixFreeAndComplete := by
  intro s t ft hft hv hx hc
  obtain ⟨T, tree, hb, hok⟩ := exec_hbuild_ok hft hv hx hc
  refine ⟨modelCode tree, fun i hi => ?_, fun i hi j hj hij => hb.prefixFree hi hj hij, hb.kraft⟩
  exact ⟨hok.holds.len i hi, hok.holds.code i hi, (hb.length_code hi).1, hok.short i hi⟩

/-- HCOUNT completes OK only on 1 to 4096 symbols (R220). -/
theorem nsym_of_hcount_ok {s u : State} (h : runHcount s = .ok u) : 1 ≤ uval32 s.regs.nsym ∧ uval32 s.regs.nsym ≤ 4096 := by
  rcases runPrimitive_cases .hcount hcountWork s with ⟨c, info, -, he⟩ | ⟨hp, -⟩
  · cases he.symm.trans h
  · exact ckNsymNz_passes.mp (firstFailure_eq_none.mp hp .ckNsymNz (by simp [preChecks]))

/-- Settles O26: HCOUNT leaves a valid table of at most 4096 symbols (`hcount_leaves`), whose codes have at most 16 bits
(`hbuild_leaves`). -/
theorem hbuildAfterHcountSucceeds : Obligations.HbuildAfterHcountSucceeds := by
  intro s t u ht hc hu
  obtain ⟨t', ht', rfl⟩ := exec_ok_inv ht hc
  obtain ⟨h1, h2⟩ := nsym_of_hcount_ok ht'
  obtain ⟨t'', ht'', htable, -⟩ := hcount_leaves h1 h2
  obtain rfl : t' = t'' := Result.ok.inj (ht'.symm.trans ht'')
  have hl : (bufWords s .sym 0 (uval32 s.regs.nsym)).length = uval32 s.regs.nsym := by simp [bufWords]
  obtain ⟨hv, htotal⟩ := entriesOf_valid (l := bufWords s .sym 0 (uval32 s.regs.nsym)) (by omega) (by omega)
  obtain ⟨T, tree, u', hu', hcoded, h16, hregs⟩ := hbuild_leaves (s := completeOk (opcode .hcount) t')
    ⟨htable.ndist, htable.symbol, htable.count⟩ hv (by omega)
  obtain rfl := Host.Outcome.next.inj (hu.symm.trans (exec_of_ok (i := .hbuild) hu'))
  obtain ⟨i, hi, hmax⟩ := hcoded.holds.maxlenEq
  have hpos := (hcoded.build.length_code hi).1
  have hle := h16 i hi
  refine ⟨rfl, by rw [completeOk_regs, hregs]; rfl, ?_, ?_⟩ <;> rw [completeOk_regs] <;> dsimp only <;> omega

/-! ### HENC -/

section
variable {s : State}

theorem getElem?_readFtab {n i : Nat} (hi : i < n) :
    (readFtab s n)[i]? = some { symbol := bufWord s .ftab i 0, count := bufWord s .ftab i 1 } := by
  simp [readFtab, hi]

/-- A symbol with one entry in the table has the code CTAB holds for that entry (R240). -/
theorem symbolCode_of_unique {n i : Nat} {x : Word} (hi : i < n) (hx : bufWord s .ftab i 0 = x)
    (hu : ∀ k < n, bufWord s .ftab k 0 = x → k = i) :
    symbolCode s (readFtab s n) x = some (codeBits (uval32 (bufWord s .ctab i 0)) (bufWord s .ctab i 1)) := by
  have hidx : symbolIndex (readFtab s n) x = some i := by
    refine symbolIndex_eq (getElem?_readFtab hi) hx fun k d hd hs => ?_
    obtain ⟨hk, -⟩ := List.getElem?_eq_some_iff.mp hd
    rw [readFtab_length] at hk
    rw [getElem?_readFtab hk] at hd
    cases hd
    exact hu k hk hs
  rw [symbolCode, hidx, Option.map_some]

/-- A symbol has no code exactly when the table lacks it (R240). -/
theorem symbolCode_eq_none {n : Nat} {x : Word} :
    symbolCode s (readFtab s n) x = none ↔ ∀ i < n, bufWord s .ftab i 0 ≠ x := by
  rw [symbolCode, Option.map_eq_none_iff, symbolIndex_eq_none]
  simp [readFtab]

/-- When each symbol has a code, HENC's stream is the codes one after another (R241). -/
theorem hencStream_of_codes {code : Nat → List Bool}
    (h : ∀ j < uval32 s.regs.nsym,
      symbolCode s (readFtab s (uval32 s.regs.ndist)) (bufWord s .sym j 0) = some (code j)) :
    hencStream s = .ok ((List.range (uval32 s.regs.nsym)).flatMap code) := by
  have hall : ∀ x ∈ bufWords s .sym 0 (uval32 s.regs.nsym), symbolCode s (readFtab s (uval32 s.regs.ndist)) x =
      some ((symbolCode s (readFtab s (uval32 s.regs.ndist)) x).getD []) := by
    intro x hx
    rw [bufWords_zero, List.mem_map] at hx
    obtain ⟨j, hj, rfl⟩ := hx
    rw [h j (List.mem_range.mp hj), Option.getD_some]
  rw [hencStream, encodeSymbols_ok s _ _ _ 0 hall, bufWords_zero, List.flatMap_map]
  congr 1
  refine List.flatMap_congr fun j hj => ?_
  rw [h j (List.mem_range.mp hj), Option.getD_some]

/-- The first symbol the table lacks ends the encoding (R240). -/
theorem hencStream_of_noSym {j : Nat} (hj : j < uval32 s.regs.nsym)
    (hx : symbolCode s (readFtab s (uval32 s.regs.ndist)) (bufWord s .sym j 0) = none)
    (h : ∀ k < j, symbolCode s (readFtab s (uval32 s.regs.ndist)) (bufWord s .sym k 0) ≠ none) :
    hencStream s = .error j := by
  obtain ⟨m, hm⟩ := Nat.exists_eq_add_of_lt hj
  have hsplit : bufWords s .sym 0 (uval32 s.regs.nsym) = ((List.range j).map fun k => bufWord s .sym k 0) ++
      bufWord s .sym j 0 :: (List.range m).map fun k => bufWord s .sym (j + (k + 1)) 0 := by
    rw [bufWords_zero, hm, Nat.add_assoc, List.range_add, List.range_succ_eq_map]
    simp
  rw [hencStream, hsplit, encodeSymbols_error s _ _ _ _ 0 (by simpa using h) hx]
  simp

/-- HENC stores its stream in whole words, zero padded (R242). -/
theorem exec_henc_of_stream {stream : List Bool} (hv : s.regs.status.treeValid = true) (hn : uval32 s.regs.nsym ≤ 4096)
    (hs : hencStream s = .ok stream) (hl : stream.length ≤ 131072) : ∃ t, exec .henc s = .next t ∧ Ended s t ∧
      t.regs = okRegs 0x22 { s.regs with nbits := encCount stream.length } ∧
      (∀ q, 32 * q < stream.length → ∃ w, Holds t.mem .bits q 0 w ∧
        ∀ j < 32, w.getLsbD (31 - j) = stream.getD (32 * q + j) false) ∧
      SameOutside (bufAddr .bits 0 0) (bufAddr .bits (ceilDiv stream.length 32) 0) s.mem t.mem := by
  have hw : hencWork s = .ok (nextDraw { s with
      mem := storeBuf s.mem .bits 0 (packWords (ceilDiv stream.length 32) stream)
      regs := { s.regs with nbits := encCount stream.length } }) := by
    rw [hencWork, hs]
    rfl
  have hceil := le_ceilDiv_mul (n := stream.length) (k := 32) (by omega)
  refine ⟨_, exec_of_ok (i := .henc) ((henc_run hv hn).trans hw), ⟨rfl, rfl, rfl, rfl⟩, rfl, fun q hq => ?_, ?_⟩
  · exact ⟨_, holds_result rfl (by show _ < 4096; omega) (packWords_get _ q stream (by omega)),
      fun j hj => getLsbD_packWords stream q hj⟩
  · exact sameOutside_storeBuf_zero (by rw [packWords_length]; exact (Nat.one_mul _).symm)

end

/-- Pieces of at most k elements, n of them, are at most k·n long. -/
theorem length_flatMap_range_le {α : Type} {f : Nat → List α} {k n : Nat} (h : ∀ j < n, (f j).length ≤ k) :
    ((List.range n).flatMap f).length ≤ k * n := by
  rw [List.length_flatMap, Nat.mul_comm, ← smul_eq_mul]
  have hs := List.sum_le_card_nsmul ((List.range n).map fun j => (f j).length) k (by simpa using h)
  rwa [List.length_map, List.length_range] at hs

/-- Settles O27: with an entry for each symbol HENC stores the concatenated codes (`hencStream_of_codes`,
`exec_henc_of_stream`); at the first symbol with none it raises NOSYM (`hencStream_of_noSym`). -/
theorem hencConcatenatesTheCodes : Obligations.HencConcatenatesTheCodes := by
  intro s index stream hv hn
  refine ⟨fun h hstream => ?_, fun j hj hx hbefore => ?_⟩
  · have hs : hencStream s = .ok stream := by
      rw [hstream]
      exact hencStream_of_codes fun j hj =>
        symbolCode_of_unique (h j hj).1 (h j hj).2.1 (h j hj).2.2.2
    have hlen : stream.length ≤ 32 * uval32 s.regs.nsym := by
      rw [hstream]
      exact length_flatMap_range_le fun j hj => by simpa using (h j hj).2.2.1
    obtain ⟨t, hx, hend, hregs, hbits, hframe⟩ := exec_henc_of_stream hv hn hs (by omega)
    exact ⟨t, hx, hend, hregs, hbits, hframe⟩
  · have hs : hencStream s = .error j := by
      refine hencStream_of_noSym hj (symbolCode_eq_none.mpr hx) fun k hk => ?_
      rw [Ne, symbolCode_eq_none, not_forall]
      obtain ⟨i, hi, he⟩ := hbefore k hk
      exact ⟨i, fun hne => hne hi he⟩
    have hw : hencWork s = dataError .henc .nosym j s := by rw [hencWork, hs]
    exact exec_of_dataError (i := .henc) (r := s.regs) rfl ((henc_run hv hn).trans hw)

/-! ### HDEC -/

section
variable {s : State}

/-- HDEC stores the symbols its walk emits (R245). -/
theorem exec_hdec_of_symbols {out : List Word} (hv : s.regs.status.treeValid = true) (hn : uval32 s.regs.nbits ≤ 131072)
    (hr : hdecResult s = .symbols out) (hl : out.length ≤ 4096) : ∃ t, exec .hdec s = .next t ∧ Ended s t ∧
      t.regs = okRegs 0x23 { s.regs with ndsym := encCount out.length } ∧
      (∀ (d : Nat) (x : Word), out[d]? = some x → Holds t.mem .dsym d 0 x) ∧
      SameOutside (bufAddr .dsym 0 0) (bufAddr .dsym out.length 0) s.mem t.mem := by
  have hw : hdecWork s = .ok (nextDraw { s with
      mem := storeBuf s.mem .dsym 0 out
      regs := { s.regs with ndsym := encCount out.length } }) := by
    rw [hdecWork, hr]
    rfl
  refine ⟨_, exec_of_ok (i := .hdec) ((hdec_run hv hn).trans hw), ⟨rfl, rfl, rfl, rfl⟩, rfl, fun d x hx => ?_, ?_⟩
  · obtain ⟨hd, -⟩ := List.getElem?_eq_some_iff.mp hx
    exact holds_result rfl (hd.trans_le hl) hx
  · exact sameOutside_storeBuf_zero (Nat.one_mul _).symm

/-- HDEC reports the error its walk ends in (R245). -/
theorem exec_hdec_of_failed {code : ErrCode} {info : Nat} (hv : s.regs.status.treeValid = true)
    (hn : uval32 s.regs.nbits ≤ 131072) (hr : hdecResult s = .failed code info) : ∃ t, exec .hdec s = .next t ∧ Ended s t ∧
      t.regs = errRegs 0x23 (errNumber code) 0x23 (encCount info) s.regs ∧ Emptied [.dsym] s.mem t.mem := by
  have hw : hdecWork s = dataError .hdec code info s := by rw [hdecWork, hr]
  exact exec_of_dataError (i := .hdec) (r := s.regs) rfl ((hdec_run hv hn).trans hw)

theorem hdecResult_eq : hdecResult s = hdecWalk s (uval32 s.regs.root)
    ((List.range (uval32 s.regs.nbits)).map (streamBit s)) 0 (uval32 s.regs.root) 0 := by
  rw [hdecResult, streamBits_eq]

/-- At the end of the bits the walk stops, at the root or with a root that is a leaf (R248). -/
theorem hdecWalk_nil_of_done {root p cur d : Nat} (h : isLeaf s root = true ∨ cur = root) :
    hdecWalk s root [] p cur d = .symbols [] := by
  rcases h with h | rfl <;> simp [hdecWalk, *]

/-- At the end of the bits below the root the walk is DESYNC (R248). -/
theorem hdecWalk_nil_of_ne {root p cur d : Nat} (hr : isLeaf s root = false) (h : cur ≠ root) :
    hdecWalk s root [] p cur d = .failed .desync p := by
  simp [hdecWalk, hr, h]

end

/-- Settles O28: whole traversals emit their payloads (`hdecWalk_decodes`), and the walk ends at the root. -/
theorem hdecDecodesWholeTraversals : Obligations.HdecDecodesWholeTraversals := by
  intro s syms hv hn hroot hdec hlen
  have hr := isLeaf_eq_false.mpr hroot
  refine exec_hdec_of_symbols hv hn ?_ hlen
  have hw := hdecWalk_decodes hr hdec [] 0 0 (by omega)
  rw [hdecWalk_nil_of_done (.inr rfl), emits_symbols, List.append_nil, List.append_nil] at hw
  rw [hdecResult_eq, hw]

/-- Settles O29: after the whole traversals (`hdecWalk_decodes`) the walk goes on to an inner node and stops there
(`hdecWalk_internal`), or to the leaf of a symbol past the 4096th (`hdecWalk_leaf`). -/
theorem hdecReportsDesyncAndCapacity : Obligations.HdecReportsDesyncAndCapacity := by
  intro s whole part syms x hv hn hroot hdec hwalk hne
  have hr := isLeaf_eq_false.mpr hroot
  refine ⟨fun hbits hlen hx hxr => ?_, fun rest hbits hlen hx => ?_⟩
  · have hres : hdecResult s = .failed .desync (uval32 s.regs.nbits) := by
      have hcount : uval32 s.regs.nbits = whole.length + part.length := by simpa using congrArg List.length hbits
      have hpart := hdecWalk_internal hr [] (0 + whole.length) (0 + syms.length) hwalk (isLeaf_eq_false.mpr hx)
      rw [List.append_nil, hdecWalk_nil_of_ne hr hxr] at hpart
      rw [hdecResult_eq, hbits, hdecWalk_decodes hr hdec part 0 0 (by omega), hpart, emits_failed, Nat.zero_add, hcount]
    have hexec := exec_hdec_of_failed hv hn hres
    rwa [encCount_uval32] at hexec
  · refine exec_hdec_of_failed (code := .capacity) hv hn ?_
    rw [hdecResult_eq, hbits, List.append_assoc, hdecWalk_decodes hr hdec _ 0 0 (by omega),
      hdecWalk_leaf hr rest _ _ hwalk (isLeaf_iff.mpr hx) hne, if_pos ((Nat.zero_add _).trans hlen), emits_failed, Nat.zero_add]

/-- A list by index that starts with p zeros. -/
theorem map_range_of_zeros {f : Nat → Bool} {p n : Nat} (hp : p < n) (h : ∀ q < p, f q = false) :
    ∃ rest, (List.range n).map f = List.replicate p false ++ f p :: rest := by
  obtain ⟨m, rfl⟩ := Nat.exists_eq_add_of_lt hp
  have hz : (List.range p).map f = List.replicate p false :=
    List.eq_replicate_iff.mpr ⟨by simp, by simpa using h⟩
  rw [Nat.add_assoc, List.range_add, List.range_succ_eq_map, List.map_append, hz]
  exact ⟨_, rfl⟩

/-- Settles O30: a run of zeros copies the leaf's symbol (`hdecWalk_single`); then the bits end, or a 1 is DESYNC, or a zero
past the 4096th is CAPACITY. -/
theorem hdecOfASingleLeaf : Obligations.HdecOfASingleLeaf := by
  intro s hv hn hroot
  have hr := isLeaf_iff.mpr hroot
  refine ⟨fun hle hz => ?_, fun p hp hle hone hz => ?_, fun hlt hz => ?_⟩
  · have hbits : (List.range (uval32 s.regs.nbits)).map (streamBit s) = List.replicate (uval32 s.regs.nbits) false :=
      List.eq_replicate_iff.mpr ⟨by simp, by simpa using hz⟩
    have hw := hdecWalk_single hr (uval32 s.regs.nbits) [] 0 (uval32 s.regs.root) 0 (by omega)
    rw [hdecWalk_nil_of_done (.inl hr), emits_symbols, List.append_nil, List.append_nil, ← hbits, ← hdecResult_eq] at hw
    obtain ⟨t, hx, hend, hregs, hsyms, hframe⟩ := exec_hdec_of_symbols hv hn hw (by simpa using hle)
    rw [List.length_replicate] at hregs hframe
    rw [encCount_uval32] at hregs
    exact ⟨t, hx, hend, hregs, fun d hd => hsyms d _ (List.getElem?_replicate_of_lt hd), hframe⟩
  · obtain ⟨rest, hbits⟩ := map_range_of_zeros hp hz
    refine exec_hdec_of_failed (code := .desync) hv hn ?_
    rw [hdecResult_eq, hbits, hdecWalk_single hr p _ 0 _ 0 (by omega), hone, hdecWalk, hr]
    simp [emits_failed]
  · obtain ⟨rest, hbits⟩ := map_range_of_zeros hlt fun q hq => hz q hq.le
    refine exec_hdec_of_failed (code := .capacity) hv hn ?_
    rw [hdecResult_eq, hbits, hdecWalk_single hr 4096 _ 0 _ 0 (by omega), hz 4096 le_rfl, hdecWalk, hr]
    simp [emits_failed]

/-! ### The round trip -/

/-- FTAB, TREE, CTAB and BITS hold some symbols encoded, as HCOUNT, HBUILD and HENC leave them (R241, R242). -/
structure Encoded (t : State) (syms : List Word) (ft : List FtabEntry) (T : List Node) (tree : HTree) : Prop where
  coded : Coded t.mem t.regs ft T tree
  treeValid : t.regs.status.treeValid = true
  listed : ∀ x ∈ syms, ∃ e ∈ ft, e.symbol = x
  nbits : uval32 t.regs.nbits = (streamOf ft tree syms).length
  bits : ∀ q < ceilDiv (streamOf ft tree syms).length 32,
    Holds t.mem .bits q 0 (packWord (((streamOf ft tree syms).drop (32 * q)).take 32))

/-- The counted table lists every symbol (R220). -/
theorem mem_entriesOf_countSymbols {l : List Word} {x : Word} (hx : x ∈ l) :
    ∃ e ∈ entriesOf (countSymbols l), e.symbol = x := by
  obtain ⟨p, hp, rfl⟩ := List.mem_map.mp (((countTable l).mem x).mpr hx)
  exact ⟨_, List.mem_map.mpr ⟨p, hp, rfl⟩, rfl⟩

/-- Elements that hold words read as them. -/
theorem bufWords_of_holds {s : State} {b : Buffer} {n : Nat} {w : Nat → Word} (hn : n ≤ bufElements b)
    (h : ∀ j < n, Holds s.mem b j 0 (w j)) : bufWords s b 0 n = (List.range n).map w := by
  rw [bufWords_zero]
  refine List.map_congr_left fun j hj => ?_
  rw [List.mem_range] at hj
  exact bufWord_of_holds (h j hj) (hj.trans_le hn)

/-- HCOUNT, HBUILD and HENC one after another encode the symbols of SYM (R249 item 3). -/
theorem encoder_leaves {s : State} {sym : Nat → Word} (h1 : 1 ≤ uval32 s.regs.nsym) (h2 : uval32 s.regs.nsym ≤ 4096)
    (hsym : ∀ j < uval32 s.regs.nsym, Holds s.mem .sym j 0 (sym j)) : ∃ t ft T tree,
      chain [.hcount, .hbuild, .henc] s = .ok t ∧ Encoded t ((List.range (uval32 s.regs.nsym)).map sym) ft T tree := by
  obtain ⟨t₁, hrun₁, htable, hregs₁⟩ := hcount_leaves h1 h2
  rw [bufWords_of_holds h2 hsym] at htable
  set syms := (List.range (uval32 s.regs.nsym)).map sym with hsyms
  have hlen : syms.length = uval32 s.regs.nsym := by simp [hsyms]
  obtain ⟨hvalid, htotal⟩ := entriesOf_valid (l := syms) (by omega) (by omega)
  obtain ⟨T, tree, t₂, hrun₂, hcoded, -, hregs₂⟩ := hbuild_leaves htable hvalid (by omega)
  have hframe : MemFrame [.ftab, .tree, .ctab] s.mem t₂.mem := by
    have hf₁ := runHcount_memFrame s
    have hf₂ := runHbuild_memFrame t₁
    rw [hrun₁] at hf₁
    rw [hrun₂] at hf₂
    exact (hf₁.mono (by simp)).trans (hf₂.mono (by simp))
  have hnsym : t₂.regs.nsym = s.regs.nsym := by rw [hregs₂, hregs₁]
  have hread : bufWords t₂ .sym 0 (uval32 t₂.regs.nsym) = syms := by
    rw [hnsym]
    exact bufWords_of_holds h2 fun j hj => hframe.holds (by decide) (hj.trans_le h2) (by decide) (hsym j hj)
  have hvalid₂ : t₂.regs.status.treeValid = true := by rw [hregs₂]
  have hlisted : ∀ x ∈ syms, ∃ e ∈ entriesOf (countSymbols syms), e.symbol = x := fun x => mem_entriesOf_countSymbols
  obtain ⟨t₃, hrun₃, hbits, hregs₃⟩ := henc_leaves hcoded hvalid₂ (by rw [hnsym]; exact h2) (by rwa [hread])
  rw [hread] at hbits hregs₃
  have hf₃ := runHenc_memFrame t₂
  rw [hrun₃] at hf₃
  have hstream := length_streamOf hcoded.length hvalid.pos syms
  refine ⟨t₃, _, T, tree, ?_, hcoded.congr (hf₃.coder (by decide)) ?_ ?_ ?_, ?_, hlisted, ?_, hbits⟩
  · simp only [chain, runCommand, hrun₁, hrun₂, hrun₃, andThen_ok]
  · rw [hregs₃]
  · rw [hregs₃]
  · rw [hregs₃]
  · rw [hregs₃]; exact hvalid₂
  · rw [hregs₃]; exact uval32_encCount (by omega)

/-- Settles O31: HCOUNT, HBUILD and HENC leave the symbols encoded (`encoder_leaves`), HDEC gives them back (`hdec_leaves`), and
the commands' completions in between change nothing of it (`runAll_of_chain`). -/
theorem huffmanRoundTrip : Obligations.HuffmanRoundTrip := by
  intro s sym h1 h2 hsym
  obtain ⟨t₃, ft, T, tree, hchain, henc⟩ := encoder_leaves h1 h2 hsym
  obtain ⟨t₄, hrun, hdsym, hregs⟩ := hdec_leaves henc.coded henc.treeValid henc.listed (by simpa using h2) henc.nbits henc.bits
  have hall : chain [.hcount, .hbuild, .henc, .hdec] s = .ok t₄ := by
    rw [show [Instr.hcount, .hbuild, .henc, .hdec] = [.hcount, .hbuild, .henc] ++ [.hdec] from rfl, chain_append, hchain]
    simp only [chain, runCommand, andThen_ok, hrun]
  obtain ⟨t, ht, hsame, -⟩ := runAll_of_chain (Same.refl s) hall
  have hmem : t.mem = t₄.mem := (congrArg State.mem hsame.like.eq :)
  have hnd : t.regs.ndsym = t₄.regs.ndsym := (congrArg (fun u => u.regs.ndsym) hsame.like.eq :)
  refine ⟨t, ht, ?_, fun j hj => ?_⟩
  · rw [hnd, hregs, List.length_map, List.length_range]
    exact encCount_uval32 _
  · rw [hmem]
    exact hdsym j (sym j) (by simp [hj])

end Sys2Proof.Machine
end

section
/-! SUPPORT. Proofs of the statements of 46_pipeline.md: ENCODE and DECODE are their steps (R262, R263), ENCODE always succeeds
(R260), DECODE runs the reverse path (R261) and gives the symbols of an ENCODE back (R264). -/

namespace Sys2Proof.Machine

/-! ### What a chain of commands leaves alone -/

/-- What a command leaves alone when it is done. -/
theorem keeps_of_ok {i : Instr} {s t : State} (h : runCommand i s = .ok t) : Keeps s t := by
  have hk := runCommand_keeps i s
  rwa [h] at hk

theorem chain_cons_of_ok {i : Instr} {is : List Instr} {s t : State} (h : runCommand i s = .ok t) :
    chain (i :: is) s = chain is t := by rw [chain, h, andThen_ok]

theorem chain_append_of_ok {is js : List Instr} {s t : State} (h : chain is s = .ok t) :
    chain (is ++ js) s = chain js t := by rw [chain_append, h, andThen_ok]

/-- A chain changes no byte outside the windows its commands write. -/
theorem chain_memFrame {bs : List Buffer} : ∀ {is : List Instr}, (∀ i ∈ is, ∀ b ∈ writtenBuffers i, b ∈ bs) →
    ∀ s : State, MemFrame bs s.mem (chain is s).state.mem
  | [], _, s => .refl bs s.mem
  | i :: is, h, s => andThen_memFrame ((runCommand_memFrame i s).mono (h i (by simp)))
      (chain_memFrame fun j hj => h j (by simp [hj]))

/-- A chain keeps the outputs of every primitive it does not run. -/
theorem chain_keepsOutputs : ∀ (is : List Instr) (s : State), KeepsOutputs (is.flatMap primitives) s (chain is s).state
  | [], _ => .of_regs rfl
  | i :: is, s => andThen_keepsOutputs (runCommand_keepsOutputs i s) (chain_keepsOutputs is)

theorem chain_keeps : ∀ (is : List Instr) (s : State), Keeps s (chain is s).state
  | [], s => .refl s
  | i :: is, s => andThen_keeps (runCommand_keeps i s) (chain_keeps is)

/-! ### ENCODE and DECODE are their steps -/

/-- DECODE whose leading checks pass is its steps, one draw of the free values later. -/
theorem runDecode_of_passes {s : State} (h : firstFailure s (preChecks .decode) = none) :
    runDecode s = chain decodeSteps (nextDraw s) := by
  rw [runDecode_eq_chain, runPrimitive_of_passes h, done_eq, andThen_ok]

/-- A DECODE that is done is its steps done. -/
theorem chain_of_runDecode {s t : State} (h : runDecode s = .ok t) : chain decodeSteps (nextDraw s) = .ok t := by
  rcases runPrimitive_cases .decode done s with ⟨c, info, -, hr⟩ | ⟨hf, -⟩
  · rw [runDecode_eq_chain, hr] at h
    cases h
  · rwa [← runDecode_of_passes hf]

/-- Commands whose chain is done, run one by one to their completions, leave the chain's state but for LASTOP (R263). -/
theorem runAll_withLastOp {is : List Instr} {s t : State} (op : Byte) (hne : is ≠ []) (h : chain is s = .ok t) :
    (runAll is s).map (withLastOp op) = some (completeOk op t) := by
  obtain ⟨v, hv, hsame, hlast⟩ := runAll_of_chain (Same.refl s) h
  rw [hv, Option.map_some, withLastOp_completeOk op hsame (hlast hne)]

/-- Settles O39: an ENCODE or DECODE that completes OK is a chain that is done (`runEncode_eq_chain`, `chain_of_runDecode`), and
so are its steps one by one (`runAll_withLastOp`). -/
theorem macrosEqualTheirSteps : Obligations.MacrosEqualTheirSteps := by
  refine ⟨fun s t h hc => ?_, fun s t h hc => ?_⟩
  · obtain ⟨u, hu, rfl⟩ := exec_ok_inv h hc
    exact runAll_withLastOp 0x40 (by simp [encodeSteps]) ((runEncode_eq_chain s).symm.trans hu)
  · obtain ⟨u, hu, rfl⟩ := exec_ok_inv h hc
    exact runAll_withLastOp 0x41 (by simp [decodeSteps]) (chain_of_runDecode hu)

/-- A command whose work is a chain ends where the chain's first failing step ends, but for LASTOP (R262). -/
theorem exec_of_failing_step {i x : Instr} {is before after : List Instr} {s s₀ t u : State}
    (hchain : runCommand i s = chain is s₀) (hsplit : is = before ++ x :: after) (hrun : runAll before s₀ = some t)
    (hx : exec x t = .next u) (hc : u.regs.status.errCode ≠ 0x00) : exec i s = .next (withLastOp (opcode i) u) := by
  obtain ⟨v, hv, hsame⟩ := chain_of_runAll (Same.refl s₀) hrun
  obtain ⟨w, e, hw, rfl⟩ := exec_error_inv hx hc
  obtain ⟨v', hv', hsame'⟩ := hsame.raised hw
  have hraised : runCommand i s = .raised v' e := by
    rw [hchain, hsplit, chain_append_of_ok hv, chain, hv', andThen_raised]
  rw [exec_of_raised hraised, withLastOp_completeError _ _ e hsame']

/-! ### Legal configurations -/

/-- The parameters CHKCFG and DECODE check are legal (00_scope.md R10). -/
structure LegalConfig (s : State) (K R : Nat) : Prop where
  block : LegalBlock s K
  res : LegalRes s R
  range : LegalRange s
  steps : LegalSteps s K

section
variable {s t : State} {K R : Nat}

theorem LegalConfig.congr (h : LegalConfig s K R) (hK : t.regs.blockK = s.regs.blockK) (hR : t.regs.res = s.regs.res)
    (hlo : t.regs.minv = s.regs.minv) (hhi : t.regs.maxv = s.regs.maxv) (hq : t.regs.qv = s.regs.qv) : LegalConfig t K R :=
  ⟨h.block.congr hK, h.res.congr hR, h.range.congr hlo hhi, h.steps.congr hq⟩

/-- No command's work touches the configuration. -/
theorem LegalConfig.of_keeps (h : LegalConfig s K R) (hk : Keeps s t) : LegalConfig t K R :=
  h.congr hk.blockK hk.res hk.minv hk.maxv hk.qv

theorem LegalConfig.completeOk (h : LegalConfig s K R) (op : Byte) : LegalConfig (Machine.completeOk op s) K R :=
  h.congr rfl rfl rfl rfl rfl

theorem LegalConfig.decode_passes (h : LegalConfig s K R) : firstFailure s (preChecks .decode) = none := by
  simp only [preChecks, firstFailure, h.block.ckK, h.res.ckR, h.range.ckRange, (legalSteps_iff h.block).mp h.steps]

end

/-- A CHKCFG that is done found the configuration and the sample count legal. -/
theorem legal_of_chkcfg_ok {s t : State} (h : runChkcfg s = .ok t) :
    ∃ K R B, LegalConfig s K R ∧ LegalSamples s K B := by
  rcases runPrimitive_cases .chkcfg done s with ⟨c, info, -, hr⟩ | ⟨hf, -⟩
  · rw [runChkcfg, hr] at h
    cases h
  · rw [firstFailure_eq_none] at hf
    obtain ⟨K, hK⟩ := exists_legalBlock.mpr (hf .ckK (by decide))
    obtain ⟨R, hR⟩ := exists_legalRes.mpr (hf .ckR (by decide))
    obtain ⟨B, hB⟩ := (exists_legalSamples hK).mpr (hf .ckNsamp (by decide))
    exact ⟨K, R, B, ⟨hK, hR, ckRange_passes.mp (hf .ckRange (by decide)), (legalSteps_iff hK).mpr (hf .ckQv (by decide))⟩, hB⟩

/-- An ENCODE that is done found the configuration and the sample count legal. -/
theorem legal_of_encode_ok {s t : State} (h : runEncode s = .ok t) : ∃ K R B, LegalConfig s K R ∧ LegalSamples s K B := by
  cases hc : runChkcfg s with
  | ok u => exact legal_of_chkcfg_ok hc
  | raised u e =>
    rw [runEncode, hc] at h
    cases h

/-- Settles O40: ENCODE and DECODE end where their first failing step ends (`exec_of_failing_step`); DECODE's leading checks fail as
any pre-checks do. -/
theorem macrosStopAtTheFirstError : Obligations.MacrosStopAtTheFirstError := by
  refine ⟨fun s t u before after x hs hrun hx hc => ?_, fun s t u K R before after x hK hR hG hS hs hrun hx hc => ?_,
    fun s code info hf => ?_⟩
  · exact exec_of_failing_step (i := .encode) (runEncode_eq_chain s) hs hrun hx hc
  · exact exec_of_failing_step (i := .decode) (runDecode_of_passes (LegalConfig.decode_passes ⟨hK, hR, hG, hS⟩)) hs hrun hx hc
  · have hr : runCommand .decode s = .raised (nextDraw s) { code := code, info := info, op := 0x41 } := by
      rw [runCommand, runDecode_eq_chain, runPrimitive_of_fails hf, andThen_raised]
      rfl
    exact exec_of_raised hr

/-! ### The forward path -/

/-- What SEGMENT, SCALE, FDCT and QUANT leave: B blocks of K symbols, each written, each product with its step within 32 bits
(44_quantizer.md R208). -/
structure Quantized (t : State) (K B : Nat) : Prop where
  nblk : uval32 t.regs.nblk = B
  nsym : uval32 t.regs.nsym = B * K
  written : ∀ j < B * K, Holds t.mem .sym j 0 (bufWord t .sym j 0)
  fits : ∀ j < B * K, fits32 (sval32 (bufWord t .sym j 0) * stepSize t (j % K)) = true

/-- A state that holds the same symbols and keeps their counts and the step sizes. -/
theorem Quantized.congr {t u : State} {K B : Nat} (h : Quantized t K B) (hle : B * K ≤ 4096)
    (hsym : ∀ j < B * K, ∀ w, Holds t.mem .sym j 0 w → Holds u.mem .sym j 0 w) (hb : u.regs.nblk = t.regs.nblk)
    (hn : u.regs.nsym = t.regs.nsym) (hq : u.regs.qv = t.regs.qv) : Quantized u K B := by
  have hread : ∀ j < B * K, bufWord u .sym j 0 = bufWord t .sym j 0 := fun j hj =>
    bufWord_of_holds (hsym j hj _ (h.written j hj)) (hj.trans_le hle)
  refine ⟨by rw [hb, h.nblk], by rw [hn, h.nsym], fun j hj => ?_, fun j hj => ?_⟩
  · rw [hread j hj]
    exact hsym j hj _ (h.written j hj)
  · rw [hread j hj, stepSize, hq]
    exact h.fits j hj

/-- A symbol's product with its step fits, for a coefficient of at most 2^19 (R208). -/
theorem quantValue_mul_stepSize_fits {s : State} {K : Nat} (hK : LegalBlock s K) (hS : LegalSteps s K) {c : Int}
    (hc : -2 ^ 19 ≤ c ∧ c ≤ 2 ^ 19) (j : Nat) : fits32 (quantValue c (stepSize s (j % K)) * stepSize s (j % K)) = true := by
  obtain ⟨q, hq⟩ := hK.exists_stepIndex j
  rw [stepSize_eq_of_val s hq]
  exact fits32_iff_le.mpr (quantValue_mul_fits (abs_le.mpr hc) (hS q (hq ▸ Nat.mod_lt j hK.pos)))

/-- QUANT of small coefficients leaves symbols whose products fit. -/
theorem quant_leaves_quantized {s : State} {K B : Nat} (hK : LegalBlock s K) (hS : LegalSteps s K)
    (hB : uval32 s.regs.nblk = B) (hle : B * K ≤ 4096)
    (hcoef : ∀ i < B * K, ∃ n : Int, HoldsInt s.mem .coef i n ∧ -2 ^ 19 ≤ n ∧ n ≤ 2 ^ 19) :
    ∃ t, runQuant s = .ok t ∧ Quantized t K B := by
  subst hB
  obtain ⟨t, hrun, hsym, hregs⟩ := quant_leaves hK hS hle
  refine ⟨t, hrun, by rw [hregs], by rw [hregs]; exact uval32_encCount (by omega), fun j hj => ?_, fun j hj => ?_⟩
  · obtain ⟨w, hw, -⟩ := hsym j hj
    rwa [bufWord_of_holds hw (hj.trans_le hle)]
  · obtain ⟨w, hw, hval⟩ := hsym j hj
    obtain ⟨n, ⟨c, hc, rfl⟩, hn⟩ := hcoef j hj
    have hstep : stepSize t (j % K) = stepSize s (j % K) := by rw [stepSize, hregs]; rfl
    rw [bufWord_of_holds hw (hj.trans_le hle), hval, hstep, bufWord_of_holds hc (hj.trans_le hle)]
    exact quantValue_mul_stepSize_fits hK hS hn j

/-- CHKCFG to QUANT, one after another, succeed on any samples: scaled samples are at most 2^15 and so coefficients at most
2^19 (43_transform.md R182). -/
theorem forward_leaves {s : State} {K R B : Nat} (hc : LegalConfig s K R) (hB : LegalSamples s K B) :
    ∃ t, chain [.chkcfg, .segment, .scale, .fdct, .quant] s = .ok t ∧ Quantized t K B := by
  have hchk := chkcfg_leaves hc.block hc.res hc.range hc.steps hB
  have hc₀ := hc.of_keeps (nextDraw_keeps s)
  obtain ⟨t₁, hseg, hregs₁⟩ := segment_leaves hc₀.block (hB.congr rfl)
  have hc₁ := hc₀.of_keeps (keeps_of_ok (i := .segment) hseg)
  have hle := hB.fits
  have hb₁ : uval32 t₁.regs.nblk = B := by
    have := Nat.le_mul_of_pos_right B hc.block.pos
    rw [hregs₁]
    exact uval32_encCount (by omega)
  obtain ⟨t₂, hscale, hscl, hregs₂⟩ := scale_leaves hc₁.block hc₁.res hc₁.range (hb₁ ▸ hle)
  have hc₂ := hc₁.of_keeps (keeps_of_ok (i := .scale) hscale)
  have hb₂ : uval32 t₂.regs.nblk = B := by rw [hregs₂]; exact hb₁
  obtain ⟨t₃, hfdct, hcoef, hregs₃⟩ := fdct_leaves hc₂.block (hb₂ ▸ hle) (by rwa [hb₂, ← hb₁])
  have hc₃ := hc₂.of_keeps (keeps_of_ok (i := .fdct) hfdct)
  obtain ⟨t₄, hquant, hq⟩ := quant_leaves_quantized hc₃.block hc₃.steps (by rw [hregs₃]; exact hb₂) hle (by rwa [← hb₂])
  refine ⟨t₄, ?_, hq⟩
  rw [chain_cons_of_ok (i := .chkcfg) hchk, chain_cons_of_ok (i := .segment) hseg, chain_cons_of_ok (i := .scale) hscale,
    chain_cons_of_ok (i := .fdct) hfdct, chain_cons_of_ok (i := .quant) hquant, chain]

/-- HCOUNT, HBUILD and HENC write no symbol. -/
theorem coder_keeps_symbol {t u : State} (hrun : chain [.hcount, .hbuild, .henc] t = .ok u) {j : Nat} {w : Word}
    (hj : j < 4096) (hw : Holds t.mem .sym j 0 w) : Holds u.mem .sym j 0 w := by
  have hm := chain_memFrame (bs := [.ftab, .tree, .ctab, .bits]) (is := [.hcount, .hbuild, .henc]) (by decide) t
  rw [hrun] at hm
  exact hm.holds (by decide) hj (by decide) hw

theorem Quantized.of_coder {t u : State} {K B : Nat} (h : Quantized t K B) (hle : B * K ≤ 4096)
    (hrun : chain [.hcount, .hbuild, .henc] t = .ok u) : Quantized u K B := by
  have ho := chain_keepsOutputs [.hcount, .hbuild, .henc] t
  have hk := chain_keeps [.hcount, .hbuild, .henc] t
  rw [hrun] at ho hk
  exact h.congr hle (fun j hj w hw => coder_keeps_symbol hrun (hj.trans_le hle) hw) (ho.nblk (by decide))
    (ho.nsym (by decide)) hk.qv

/-- ENCODE with a legal configuration and sample count is done, whatever the samples are: it leaves written symbols, whose
products fit, and their encoding (R260). -/
theorem encode_leaves {s : State} {K R B : Nat} (hc : LegalConfig s K R) (hB : LegalSamples s K B) : ∃ t ft T tree,
    runEncode s = .ok t ∧ Quantized t K B ∧ Encoded t (bufWords t .sym 0 (B * K)) ft T tree := by
  obtain ⟨t, hfwd, hq⟩ := forward_leaves hc hB
  have hle := hB.fits
  obtain ⟨u, ft, T, tree, hcoder, henc⟩ := encoder_leaves (s := t) (sym := fun j => bufWord t .sym j 0)
    (by rw [hq.nsym]; exact hB.pos.trans hB.enough) (by rwa [hq.nsym]) (by rw [hq.nsym]; exact hq.written)
  have hsyms : bufWords u .sym 0 (B * K) = (List.range (uval32 t.regs.nsym)).map fun j => bufWord t .sym j 0 := by
    rw [hq.nsym]
    exact bufWords_of_holds hle fun j hj => coder_keeps_symbol hcoder (hj.trans_le hle) (hq.written j hj)
  refine ⟨u, ft, T, tree, ?_, hq.of_coder hle hcoder, hsyms ▸ henc⟩
  rw [runEncode_eq_chain]
  exact (chain_append_of_ok hfwd).trans hcoder

/-- Settles O37: ENCODE is done (`encode_leaves`) and so completes OK; no command's work touches ERR. -/
theorem encodeAlwaysSucceeds : Obligations.EncodeAlwaysSucceeds := by
  intro s K R B hK hR hG hS hB
  obtain ⟨t, ft, T, tree, hrun, hq, henc⟩ := encode_leaves ⟨hK, hR, hG, hS⟩ hB
  have hkeep := keeps_of_ok (i := .encode) hrun
  exact ⟨_, exec_of_ok (i := .encode) hrun, completeOk_ended _ hkeep, rfl, rfl, hkeep.err, henc.treeValid, hq.nblk, hq.nsym⟩

/-! ### The reverse path -/

/-- DECODE whose HDEC emits some symbols that fill blocks and whose products fit runs to its end (R261). -/
theorem decode_leaves {s t : State} {K R : Nat} {syms : List Word} (hc : LegalConfig s K R)
    (hrun : runHdec (nextDraw s) = .ok t) (hnd : t.regs.ndsym = encCount syms.length)
    (hdsym : ∀ (j : Nat) (x : Word), syms[j]? = some x → Holds t.mem .dsym j 0 x) (hlen : syms.length ≤ 4096)
    (hmod : syms.length % K = 0)
    (hfit : ∀ (j : Nat) (x : Word), syms[j]? = some x → fits32 (sval32 x * stepSize s (j % K)) = true) :
    ∃ u, runDecode s = .ok u ∧ u.regs.ndsym = encCount syms.length ∧ u.regs.nrblk = encCount (syms.length / K) ∧
      ∀ (j : Nat) (x : Word), syms[j]? = some x → Holds u.mem .dsym j 0 x := by
  have hkeep := (nextDraw_keeps s).trans (keeps_of_ok (i := .hdec) hrun)
  have hc₁ := hc.of_keeps hkeep
  have hcount : uval32 t.regs.ndsym = syms.length := by rw [hnd]; exact uval32_encCount (by omega)
  have hprod : ∀ j < uval32 t.regs.ndsym, fits32 (sval32 (bufWord t .dsym j 0) * stepSize t (j % K)) = true := by
    intro j hj
    rw [hcount] at hj
    have hx := List.getElem?_eq_getElem hj
    rw [bufWord_of_holds (hdsym j _ hx) (hj.trans_le hlen), stepSize, hkeep.qv]
    exact hfit j _ hx
  obtain ⟨t₂, hdeq, -, hregs₂⟩ := dequant_leaves hc₁.block hc₁.steps (hcount ▸ hlen) (hcount ▸ hmod) hprod
  have hc₂ := hc₁.of_keeps (keeps_of_ok (i := .dequant) hdeq)
  have hnrblk : t₂.regs.nrblk = encCount (syms.length / K) := by rw [hregs₂, hcount]
  have hblocks : uval32 t₂.regs.nrblk * K ≤ 4096 := by
    have hdiv := Nat.div_le_self syms.length K
    rw [hnrblk, uval32_encCount (by omega), Nat.div_mul_cancel (Nat.dvd_of_mod_eq_zero hmod)]
    exact hlen
  obtain ⟨t₃, hidct, hregs₃⟩ := idct_leaves hc₂.block hblocks
  have hc₃ := hc₂.of_keeps (keeps_of_ok (i := .idct) hidct)
  obtain ⟨u, hunscale, hregs₄⟩ := unscale_leaves hc₃.block hc₃.res hc₃.range (hregs₃ ▸ hblocks)
  have hchain : chain [.dequant, .idct, .unscale] t = .ok u := by
    rw [chain_cons_of_ok (i := .dequant) hdeq, chain_cons_of_ok (i := .idct) hidct, chain_cons_of_ok (i := .unscale) hunscale,
      chain]
  have hm := chain_memFrame (bs := [.dcoef, .y, .out]) (is := [.dequant, .idct, .unscale]) (by decide) t
  rw [hchain] at hm
  refine ⟨u, ?_, ?_, ?_, fun j x hx => ?_⟩
  · rw [runDecode_of_passes hc.decode_passes, decodeSteps, chain_cons_of_ok (i := .hdec) hrun, hchain]
  · rw [hregs₄, hregs₃, hregs₂, hnd]
  · rw [hregs₄, hregs₃, hnrblk]
  · obtain ⟨hj, -⟩ := List.getElem?_eq_some_iff.mp hx
    exact hm.holds (by decide) (hj.trans_le hlen) (by decide) (hdsym j x hx)

/-- Settles O38: HDEC emits the symbols of the whole traversals (O28), and the reverse path runs to its end on them
(`decode_leaves`). -/
theorem decodeRunsTheReversePath : Obligations.DecodeRunsTheReversePath := by
  intro s K R syms hK hR hG hS hv hn hroot hdec hlen hmod hfit
  obtain ⟨t, hx, -, hregs, hdsym, -⟩ := hdecDecodesWholeTraversals (nextDraw s) syms hv hn hroot hdec hlen
  obtain ⟨t, hrun, rfl⟩ := exec_ok_inv hx (by rw [hregs]; rfl)
  have hnd : t.regs.ndsym = encCount syms.length := (congrArg Regs.ndsym hregs :)
  obtain ⟨u, hrunu, hndu, hnru, hdsymu⟩ := decode_leaves ⟨hK, hR, hG, hS⟩ hrun hnd hdsym hlen hmod fun j x hx => by
    obtain ⟨q, hq⟩ := hK.exists_stepIndex j
    rw [stepSize_eq_of_val s hq]
    exact hfit j x hx q hq
  have hdiv := Nat.div_le_self syms.length K
  refine ⟨_, exec_of_ok (i := .decode) hrunu, completeOk_ended _ (keeps_of_ok (i := .decode) hrunu), rfl, rfl, ?_, ?_, hdsymu⟩
  · rw [completeOk_regs, hndu, uval32_encCount (by omega)]
  · rw [completeOk_regs, hnru, uval32_encCount (by omega)]

/-! ### DECODE after ENCODE -/

/-- HDEC's draw and ENCODE's completion change nothing of an encoding. -/
theorem Encoded.congr {t u : State} {syms : List Word} {ft : List FtabEntry} {T : List Node} {tree : HTree}
    (h : Encoded t syms ft T tree) (hm : u.mem = t.mem) (hd : u.regs.ndist = t.regs.ndist) (hr : u.regs.root = t.regs.root)
    (hx : u.regs.maxlen = t.regs.maxlen) (hv : u.regs.status.treeValid = t.regs.status.treeValid)
    (hn : u.regs.nbits = t.regs.nbits) : Encoded u syms ft T tree :=
  ⟨h.coded.congr (fun k _ => by rw [hm]) hd hr hx, by rw [hv, h.treeValid], h.listed, by rw [hn, h.nbits],
    by rw [hm]; exact h.bits⟩

theorem length_bufWords (s : State) (b : Buffer) (i n : Nat) : (bufWords s b i n).length = n := by simp [bufWords]

theorem getElem?_bufWords {s : State} {b : Buffer} {n j : Nat} (hj : j < n) :
    (bufWords s b 0 n)[j]? = some (bufWord s b j 0) := by simp [bufWords, hj]

/-- Settles O41: ENCODE leaves its symbols encoded (`encode_leaves`) and HDEC gives them back (`hdec_leaves`); their products
fit, so the reverse path runs to its end on them (`decode_leaves`). -/
theorem decodeAfterEncode : Obligations.DecodeAfterEncode := by
  intro s t h hc
  obtain ⟨t, hrun, rfl⟩ := exec_ok_inv h hc
  obtain ⟨K, R, B, hlegal, hB⟩ := legal_of_encode_ok hrun
  obtain ⟨t', ft, T, tree, hrun', hq, henc⟩ := encode_leaves hlegal hB
  obtain rfl : t = t' := Result.ok.inj (hrun.symm.trans hrun')
  have hlen := length_bufWords t .sym 0 (B * K)
  have hget : ∀ j < B * K, (bufWords t .sym 0 (B * K))[j]? = some (bufWord t .sym j 0) := fun j => getElem?_bufWords
  generalize bufWords t .sym 0 (B * K) = syms at henc hlen hget
  have hle : syms.length ≤ 4096 := hlen ▸ hB.fits
  have henc' : Encoded (nextDraw (completeOk (opcode .encode) t)) syms ft T tree :=
    henc.congr rfl rfl rfl rfl rfl rfl
  obtain ⟨t₁, hdec, hdsym, hregs⟩ := hdec_leaves henc'.coded henc'.treeValid henc'.listed hle henc'.nbits henc'.bits
  have hfit : ∀ (j : Nat) (x : Word), syms[j]? = some x → fits32 (sval32 x * stepSize t (j % K)) = true := by
    intro j x hx
    obtain ⟨hj, -⟩ := List.getElem?_eq_some_iff.mp hx
    rw [hlen] at hj
    obtain rfl : bufWord t .sym j 0 = x := Option.some.inj ((hget j hj).symm.trans hx)
    exact hq.fits j hj
  obtain ⟨u, hrunu, hnd, hnr, hout⟩ := decode_leaves ((hlegal.of_keeps (keeps_of_ok (i := .encode) hrun)).completeOk _)
    hdec (by rw [hregs]) hdsym hle (hlen ▸ Nat.mul_mod_left B K) hfit
  rw [hlen] at hnd hnr
  rw [Nat.mul_div_cancel _ hlegal.block.pos] at hnr
  refine ⟨_, exec_of_ok (i := .decode) hrunu, rfl, ?_, ?_, fun j hj => ?_⟩
  · rw [completeOk_regs, completeOk_regs, hnd, ← hq.nsym, encCount_uval32]
  · rw [completeOk_regs, completeOk_regs, hnr, ← hq.nblk, encCount_uval32]
  · rw [completeOk_regs, hq.nsym] at hj
    exact ⟨_, hq.written j hj, hout j _ (hget j hj)⟩

end Sys2Proof.Machine
end

section
/-! SUPPORT. Proofs of the statements of 60_exceptions.md: the interrupt output (R310, R311). -/

namespace Sys2Proof.Machine

/-! ### The interrupt output -/

/-- A completion sets DONE (`everyCommandCompletes`) and leaves IRQ_EN alone (`commandsKeepConfiguration`). -/
theorem irq_of_exec {i : Instr} {s t : State} (h : exec i s = .next t) : irq t = s.regs.irqEn := by
  obtain ⟨t', h', -, hdone, -⟩ := everyCommandCompletes i s
  obtain rfl : t = t' := Host.Outcome.next.inj (h.symm.trans h')
  obtain ⟨hirqEn, -⟩ := commandsKeepConfiguration i s t h
  simp [irq, hdone, hirqEn]

theorem irq_busWrite_status {w : Word} (hw : w.getLsbD 1 = true) (s : State) :
    irq (busWrite 0x00010#19 4 w s) = false := by
  simp [irq, busWrite_status, hw]

theorem irq_busWrite_ctrl {w : Word} (hw : w.getLsbD 0 = false) (s : State) :
    irq (busWrite 0x00008#19 4 w s) = (s.regs.status.done && w.getLsbD 1) := by
  rw [irq, busWrite_ctrl, writeCtrl, hw]
  rfl

/-- Settles O51: IRQ is DONE and IRQ_EN; a completion sets the one and keeps the other, and each of the two writes changes
one and keeps the other. -/
theorem completionRaisesIrq : Obligations.CompletionRaisesIrq :=
  ⟨fun _ _ _ => irq_of_exec, fun s _ hw => irq_busWrite_status hw s, fun s _ hw => irq_busWrite_ctrl hw s⟩

end Sys2Proof.Machine
end

section
/-! SUPPORT. Proofs of the statements of 70_reset_and_hazards.md: the reset values (R340), the soft reset with its abort
(R342), host accesses while BUSY (R352), the completion of a pending command (R356), and the invariants at reset. -/

namespace Sys2Proof.Machine

/-! ### The reset values -/

theorem resetValue_of_reserved {a : BusAddr} (h : ReservedOffset a) : resetValue a = 0 := by
  have hne : ∀ b : BusAddr, b.toNat < 0x054 → a ≠ b := by
    rintro b hb rfl
    unfold ReservedOffset at h
    omega
  have hqv : ¬ (0x080 ≤ a.toNat ∧ a.toNat ≤ 0x0BC) := by unfold ReservedOffset at h; omega
  rw [resetValue, if_neg (hne _ (by decide)), if_neg (hne _ (by decide)), if_neg (hne _ (by decide)),
    if_neg (hne _ (by decide)), if_neg hqv]

theorem resetValue_qv (i : Fin Config.kmax) : resetValue (BitVec.ofNat 19 (regOffset (.qv i))) = 1 := by
  revert i
  decide

theorem get_qv_reset (i : Fin Config.kmax) : Regs.reset.qv.get i = 1 := by
  simp [Regs.reset, Vector.get_eq_getElem]

/-- With the registers at their reset values and the ENGINE IDLE, each register reads the reset column of R23. -/
theorem regRead_of_reset {s : State} (hregs : s.regs = Regs.reset) (hi : s.run = .idle) (r : RegName) :
    regRead s r = resetValue (BitVec.ofNat 19 (regOffset r)) := by
  cases r with
  | qv i => rw [regRead, hregs, get_qv_reset, resetValue_qv]
  | _ => simp only [regRead, hregs, hi]; decide

/-- The same for every word of the page, the reserved offsets included. -/
theorem busRead_of_reset {s : State} (hregs : s.regs = Regs.reset) (hi : s.run = .idle) {a : BusAddr} (h4 : WordAddr a)
    (hp : InPage a) : (busRead a 4 s).replies = resetValue a :: s.replies := by
  rcases locate_page hp h4 with ⟨r, -, hr, -⟩ | ⟨-, hres⟩
  · rw [busRead_of_reg r hr, regRead_of_reset hregs hi, ← address_of_offset hr]
  · rw [busRead_of_reserved h4 hres, resetValue_of_reserved hres]

theorem irq_of_reset {s : State} (h : s.regs = Regs.reset) : irq s = false := by
  rw [irq, h]
  rfl

/-- Settles O49: both states have the registers of `Regs.reset`, the ENGINE IDLE and memory empty. -/
theorem hardwareResetValues : Obligations.HardwareResetValues := by
  intro s h
  obtain ⟨hi, hregs, hmem⟩ : s.run = .idle ∧ s.regs = Regs.reset ∧ s.mem = [] := by
    rcases h with rfl | ⟨s', rfl⟩ <;> exact ⟨rfl, rfl, rfl⟩
  exact ⟨hi, fun k => by rw [hmem]; rfl, irq_of_reset hregs, fun a => busRead_of_reset hregs hi⟩

/-- The reset state has no memory, and its registers are within the bounds. -/
theorem inv_reset : Inv State.reset where
  canonical := wf_nil
  inWindows := fun _ hc => absurd hc List.not_mem_nil
  errCode := errorRecord_reset.errCode
  okClean := errorRecord_reset.okClean
  satFwd := bounded_reset.satFwd
  satInv := bounded_reset.satInv
  root := bounded_reset.root
  maxlen := bounded_reset.maxlen

/-- Settles O59: `Inv` by `inv_reset`; TREE_VALID is 0 at reset. -/
theorem resetMeetsTheInvariants : Obligations.ResetMeetsTheInvariants :=
  ⟨inv_reset, fun h => absurd h Bool.false_ne_true⟩

/-! ### The soft reset -/

theorem busWrite_ctrl_softReset {w : Word} (hw : w.getLsbD 0 = true) (s : State) :
    busWrite 0x00008#19 4 w s = softReset s := by
  rw [busWrite_ctrl, writeCtrl, if_pos hw]

theorem ceilDiv_eq_of_bounds {n k b : Nat} (hk : 0 < k) (h : n ≤ b * k) (hl : b * k < n + k) : ceilDiv n k = b :=
  Nat.div_eq_of_lt_le (by omega) (by rw [Nat.add_mul]; omega)

/-- The bytes of IN's elements n .. p − 1, as far as IN reaches. -/
def PaddingByte (n p a : Nat) : Prop := bufAddr .inp n 0 ≤ a ∧ a < bufAddr .inp p 0 ∧ InWindows [.inp] a

/-- Cutting the element range at the end of IN is cutting its bytes to IN's window. -/
theorem paddingByte_iff {n p a : Nat} :
    PaddingByte n p a ↔ bufAddr .inp (min n 4096) 0 ≤ a ∧ a < bufAddr .inp (min p 4096) 0 := by
  simp only [PaddingByte, inWindows_singleton, bufAddr, bufLimit, bufBase, bufElemWords, bufElements, Config.nmax]
  omega

/-- For K ≥ 1, `unspecPadding` empties the padding slots and nothing else (40_command_model.md R133). -/
theorem byteAt_unspecPadding_eq {s : State} {K B : Nat} (hK : blockSize s = K) (hpos : 1 ≤ K)
    (h : uval32 s.regs.nsamp ≤ B * K) (hl : B * K < uval32 s.regs.nsamp + K) (m : Memory) (a : Nat) :
    (PaddingByte (uval32 s.regs.nsamp) (B * K) a → byteAt (unspecPadding s m) a = none) ∧
    (¬ PaddingByte (uval32 s.regs.nsamp) (B * K) a → byteAt (unspecPadding s m) a = byteAt m a) := by
  rw [byteAt_unspecPadding, hK, ceilDiv_eq_of_bounds hpos h hl, paddingByte_iff]
  have hne : K ≠ 0 := by omega
  exact ⟨fun hp => if_pos ⟨hne, hp⟩, fun hp => if_neg fun hc => hp hc.2⟩

/-- An aborted SEGMENT or ENCODE empties the padding slots and its destination buffers, and nothing else. -/
theorem byteAt_unspecDests_of_pads {i : Instr} (hi : padsInput i = true) {s : State} {K B : Nat} (hK : blockSize s = K)
    (hpos : 1 ≤ K) (h : uval32 s.regs.nsamp ≤ B * K) (hl : B * K < uval32 s.regs.nsamp + K) (a : Nat) :
    ((PaddingByte (uval32 s.regs.nsamp) (B * K) a ∨ InWindows (destBuffers i) a) → byteAt (unspecDests i s) a = none) ∧
    (¬ (PaddingByte (uval32 s.regs.nsamp) (B * K) a ∨ InWindows (destBuffers i) a) →
      byteAt (unspecDests i s) a = byteAt s.mem a) := by
  obtain ⟨hin, hout⟩ := byteAt_unspecPadding_eq hK hpos h hl s.mem a
  rw [unspecDests, if_pos hi]
  refine ⟨fun ha => byteAt_unspecBufs_of_inside (ha.symm.imp_right hin), fun ha => ?_⟩
  obtain ⟨hp, hd⟩ := not_or.mp ha
  rw [byteAt_unspecBufs_of_outside hd, hout hp]

theorem padsInput_eq_true {i : Instr} : padsInput i = true ↔ i = .segment ∨ i = .encode := by
  cases i <;> simp [padsInput]

/-- Beside the padding SEGMENT has no destination, and ENCODE those of its other steps (R133). -/
theorem inWindows_destBuffers_of_pads {i : Instr} (hi : i = .segment ∨ i = .encode) {a : Nat} :
    InWindows (destBuffers i) a ↔ i = .encode ∧ InWindows [.scl, .coef, .sym, .ftab, .tree, .ctab, .bits] a := by
  rcases hi with rfl | rfl
  · simp [InWindows, destBuffers]
  · simp [destBuffers]

/-- Settles O50: the write is `softReset`, whose memory is that of before when no command is pending and `unspecDests` of
the pending command otherwise. -/
theorem softResetRestoresRegisters : Obligations.SoftResetRestoresRegisters := by
  intro s t w hw ht
  rw [busWrite_ctrl_softReset hw] at ht
  subst ht
  refine ⟨rfl, rfl, rfl, rfl, softReset_mem_idle, fun c hr hc => ?_, fun c i hr hd => ?_⟩
  · cases hd : decode c with
    | command i => exact absurd hd (hc i)
    | illegal e => exact softReset_mem_illegal hr hd
  · rw [softReset_mem_command hr hd]
    refine ⟨fun hs he => emptied_unspecDests ?_ s, fun hi K B hK hpos h hl a => ?_⟩
    · rw [← Bool.not_eq_true, padsInput_eq_true]
      exact not_or.mpr ⟨hs, he⟩
    · rw [← inWindows_destBuffers_of_pads hi]
      exact byteAt_unspecDests_of_pads (padsInput_eq_true.mpr hi) (by rw [blockSize, hK, Int.toNat_natCast]) hpos h hl a

/-! ### Host accesses while BUSY -/

/-- Of the registers only STATUS shows whether the ENGINE is BUSY. -/
theorem regRead_withRun {r : RegName} (h : r ≠ .status) (run : RunState) (s : State) :
    regRead { s with run := run } r = regRead s r := by
  cases r with
  | status => exact absurd rfl h
  | _ => rfl

/-- The register page is read in every run state, with the same answer but for STATUS (70_reset_and_hazards.md R352). -/
theorem busRead_page {a : BusAddr} (h4 : WordAddr a) (hp : InPage a) (s : State) :
    ∃ v, busRead a 4 s = { s with replies := v :: s.replies } ∧
      (a ≠ 0x00010#19 → ∀ run, busRead a 4 { s with run := run } = { s with run := run, replies := v :: s.replies }) := by
  rcases locate_page hp h4 with ⟨r, -, hr, -⟩ | ⟨-, hres⟩
  · refine ⟨regRead s r, busRead_of_reg r hr s, fun hs run => ?_⟩
    have hne : r ≠ .status := by
      rintro rfl
      exact hs (address_of_offset hr)
    rw [busRead_of_reg r hr, regRead_withRun hne]
  · exact ⟨0, busRead_of_reserved h4 hres s, fun _ _ => busRead_of_reserved h4 hres _⟩

/-- Settles O48: reads of the page by `busRead_page`; the writes the block takes, and those it ignores, are the same as while
IDLE (`registerWritesByAccessType`); the rest are refused. -/
theorem hostAccessesWhileBusy : Obligations.HostAccessesWhileBusy := by
  intro s a w hb h4
  obtain ⟨-, hignored, hctrl, -⟩ := registerWritesByAccessType s a w h4
  refine ⟨fun hp => ?_, hctrl, by rw [busWrite_status, acknowledge_run], fun h => busWrite_rwOffset_busy h4 hb h w, hignored,
    fun h => ⟨busRead_buffers_busy h4 hb h, busWrite_buffers_busy h4 hb h w⟩⟩
  obtain ⟨v, hv, hidle⟩ := busRead_page h4 hp s
  exact ⟨v, hv, fun hs => hidle hs .idle⟩

/-! ### The completion of a pending command -/

/-- Word `w` is pending and no access HOST has yet to make resets the block. -/
structure Unaborted (w : Word) (s : State) : Prop where
  run : s.run = .busy w
  host : ∀ e ∈ s.host, ¬ Resets e

/-- HOST's turn leaves the word pending and uses up one of the accesses that fall before its execution; a WAIT that stays on
the queue resets nothing. -/
theorem Unaborted.after_hostTurn {w : Word} {s : State} (h : Unaborted w s) (hh : s.host ≠ []) :
    Unaborted w (hostTurn s) ∧ (hostTurn s).delay = s.delay - 1 := by
  rcases hostTurn_cases s with ⟨hn, -⟩ | ⟨e, es, hes, ht⟩
  · exact absurd hn hh
  obtain ⟨he, hrest⟩ := List.forall_mem_cons.mp (hes ▸ h.host)
  have hf := hostEvent_busy (s := { s with host := es, delay := s.delay - 1 }) h.run he
  rw [ht]
  refine ⟨⟨hf.run.trans h.run, ?_⟩, hf.delay⟩
  rcases hostEvent_host e { s with host := es, delay := s.delay - 1 } with hq | ⟨-, hq⟩ <;> rw [nextDraw_host, hq]
  · exact hrest
  · exact List.forall_mem_cons.mpr ⟨id, hrest⟩

theorem stepN_succ_of_step {n : Nat} {s t : State} (h : step s = .next t) : stepN (n + 1) s = stepN n t := by
  rw [stepN, h]

/-- Within the delay it is the ENGINE's turn, by induction on the delay. -/
theorem Unaborted.reaches_engineTurn {w : Word} {s : State} (h : Unaborted w s) :
    ∃ n ≤ s.delay, ∃ t, stepN n s = some t ∧ t.run = .busy w ∧ (t.delay = 0 ∨ t.host = []) := by
  induction hd : s.delay generalizing s with
  | zero => exact ⟨0, le_rfl, s, rfl, h.run, .inl hd⟩
  | succ d ih =>
    by_cases hh : s.host = []
    · exact ⟨0, Nat.zero_le _, s, rfl, h.run, .inr hh⟩
    · obtain ⟨h', hd'⟩ := h.after_hostTurn hh
      obtain ⟨n, hn, t, ht⟩ := ih h' (by rw [hd', hd, Nat.add_sub_cancel])
      refine ⟨n + 1, Nat.succ_le_succ hn, t, ?_⟩
      rwa [stepN_succ_of_step (step_eq_hostTurn (.inr ⟨by omega, hh⟩))]

/-- Settles O54: once it is the ENGINE's turn (`Unaborted.reaches_engineTurn`) the step is execute(w), which always gives a
next state and leaves the ENGINE IDLE. -/
theorem pendingCommandsComplete : Obligations.PendingCommandsComplete := by
  intro s w hr hn
  obtain ⟨n, hle, t, ht, htr, hturn⟩ := Unaborted.reaches_engineTurn ⟨hr, hn⟩
  obtain ⟨u, hu⟩ := execute_next w t
  exact ⟨n, hle, t, u, ht, htr, (step_eq_execute htr hturn).trans hu, hu, execute_run hu⟩

end Sys2Proof.Machine
end
